-- ==== Sys2Proof/Word.lean ====
section
/-! DEFINITION. The word types of the machine (00_scope.md R7, R10; 03_encoding.md R38, R43). -/

namespace Sys2Proof

/-- A byte (R7). -/
abbrev Byte := BitVec 8
/-- A 32-bit word (R7). -/
abbrev W32 := BitVec 32
/-- A dword: the width of a scalar register (R7, R46). -/
abbrev Word := BitVec 64
/-- A vector register of 512 bits (R293). -/
abbrev VWord := BitVec 512
/-- A code address: LINE in bits [55:6], zero in [5:3], SLOT in [2:0] (R38). -/
abbrev CodeAddr := BitVec 56
/-- A global core number (R12). -/
abbrev GCore := BitVec 12
/-- A thread slot of a core (R12). -/
abbrev Slot := BitVec 4
/-- A die number (R12). -/
abbrev DieNo := BitVec 3
/-- A tenant number (R252, R438). -/
abbrev TenantNo := BitVec 4
/-- A cluster of the module: die · 64 + cluster (R12). -/
abbrev ClusterNo := BitVec 9

end Sys2Proof
end

