-- ==== Sys2Proof/Machine/Bits.lean ====
section
/-! DEFINITION. Bit fields, sign extension and byte order (00_scope.md R8), and the sparse tables that
registers and memory are held in. -/

namespace Sys2Proof.Machine

/-- Field [hi:lo] of a dword, as a number. -/
def fld (x : Word) (hi lo : Nat) : Nat := (x.extractLsb' lo (hi + 1 - lo)).toNat

/-- The dword with field [hi:lo] replaced by v. -/
def setFld (x : Word) (hi lo : Nat) (v : Nat) : Word :=
  let m : Word := (BitVec.ofNat 64 (2 ^ (hi + 1 - lo) - 1)) <<< lo
  (x &&& ~~~m) ||| ((BitVec.ofNat 64 v <<< lo) &&& m)

/-- Bit i of a dword. -/
def bit (x : Word) (i : Nat) : Bool := x.getLsbD i

/-- Zero-extension of bits [w-1:0]. -/
def zext (n : Nat) (x : Word) : Word := (x.extractLsb' 0 n).setWidth 64

/-- Sign-extension of bits [w-1:0]. -/
def sext (n : Nat) (x : Word) : Word := (x.extractLsb' 0 n).signExtend 64

/-- A truth value as a dword. -/
def wordOfBool (b : Bool) : Word := if b then 1 else 0

/-- The n bytes of a number, least significant first (R8). -/
def bytesOf (n : Nat) (v : Nat) : List Byte :=
  match n with
  | 0 => []
  | n + 1 => BitVec.ofNat 8 v :: bytesOf n (v / 256)

/-- The number that a list of bytes holds, least significant first (R8). -/
def ofBytes : List Byte → Nat
  | [] => 0
  | b :: bs => b.toNat + 256 * ofBytes bs

/-- The dword that a list of bytes holds. -/
def wordOfBytes (bs : List Byte) : Word := BitVec.ofNat 64 (ofBytes bs)

/-- Dword i of a list of bytes. -/
def dwordAt (bs : List Byte) (i : Nat) : Word := wordOfBytes ((bs.drop (8 * i)).take 8)

/-- The 32-bit word at byte offset o of a list of bytes. -/
def w32At (bs : List Byte) (o : Nat) : W32 := BitVec.ofNat 32 (ofBytes ((bs.drop o).take 4))

/-- x mod 2^56, the width of a virtual address (R10). -/
def va56 (x : Word) : Nat := x.toNat % 2 ^ 56

/-- The numbers 0 to n-1 in ascending order. -/
def upTo (n : Nat) : List Nat := List.range n

/-- A sparse table: key and value pairs, keys rising, no pair holding the default value. -/
abbrev Table (α : Type) := List (Nat × α)

/-- The value at key k, d when the table lists none. -/
def tget (d : α) : Table α → Nat → α
  | [], _ => d
  | (j, v) :: t, k => if j = k then v else tget d t k

/-- The table without key k. -/
def tdel : Table α → Nat → Table α
  | [], _ => []
  | (j, v) :: t, k => if j = k then tdel t k else (j, v) :: tdel t k

/-- The table with the pair (k, v) placed before the first larger key. -/
def tins : Table α → Nat → α → Table α
  | [], k, v => [(k, v)]
  | (j, w) :: t, k, v => if k < j then (k, v) :: (j, w) :: t else (j, w) :: tins t k v

/-- The table with value v at key k; a default value removes the pair. -/
def tset [DecidableEq α] (d : α) (t : Table α) (k : Nat) (v : α) : Table α :=
  if v = d then tdel t k else tins (tdel t k) k v

/-- The keys that a table lists. -/
def tkeys (t : Table α) : List Nat := t.map Prod.fst

/-- The canonical form of a table: keys strictly rising and no default value. -/
def twf [DecidableEq α] (d : α) : Table α → Bool
  | [] => true
  | (_, v) :: [] => decide (v ≠ d)
  | (j, v) :: (k, w) :: t => decide (v ≠ d) && decide (j < k) && twf d ((k, w) :: t)

/-- The list with element i replaced by f of it. -/
def modAt (l : List α) (i : Nat) (f : α → α) : List α :=
  match l, i with
  | [], _ => []
  | x :: xs, 0 => f x :: xs
  | x :: xs, i + 1 => x :: modAt xs i f

/-- The list without element i. -/
def dropAt (l : List α) (i : Nat) : List α :=
  match l, i with
  | [], _ => []
  | _ :: xs, 0 => xs
  | x :: xs, i + 1 => x :: dropAt xs i

/-- The first element that satisfies p, with its position. -/
def findIdx? (p : α → Bool) (l : List α) : Option (Nat × α) :=
  match l with
  | [] => none
  | x :: xs => if p x then some (0, x) else (findIdx? p xs).map fun r => (r.1 + 1, r.2)

/-- f applied n times. -/
def iter (n : Nat) (f : α → α) (x : α) : α :=
  match n with
  | 0 => x
  | n + 1 => iter n f (f x)

/-- The smaller power of two of an exact power of two's exponent: the number of bits of n. -/
def bitLen (fuel n : Nat) : Nat :=
  match fuel with
  | 0 => 0
  | f + 1 => if n = 0 then 0 else bitLen f (n / 2) + 1

/-- Division of naturals rounded up; 0 for divisor 0. -/
def ceilDiv (a b : Nat) : Nat := if b = 0 then 0 else (a + b - 1) / b

end Sys2Proof.Machine
end

