-- ==== Sys2Proof/Syntax.lean ====
section
/-! DEFINITION. The instructions and events of the machine: one constructor of `Instr` for each row of
the opcode table. The operand fields follow the encoding tables of the class chapters (R57–R62). -/

namespace Sys2Proof

/-- A scalar operand: bank bit [6] and index [5:0] (R46). -/
abbrev GReg := BitVec 7
/-- A predicate register (R46). -/
abbrev PReg := BitVec 3
/-- A mask register (R46). -/
abbrev KReg := BitVec 3
/-- A timeline register tl0–tl3 (R46). -/
abbrev TlReg := BitVec 2
/-- A tile T0–T31 (R46). -/
abbrev TReg := BitVec 5

/-- A vector operand: the bank and an index 0–31 (R46). -/
structure VReg where
  shared : Bool
  idx : BitVec 5
  deriving DecidableEq, Repr

/-- The guard, hint, lookahead and yield fields that every word carries (R43, R48–R52). -/
structure Ctl where
  g1 : PReg
  n1 : Bool
  g2 : PReg
  n2 : Bool
  comb : Bool
  hint : BitVec 3
  la : BitVec 4
  yld : Bool
  deriving DecidableEq, Repr

/-- The index, shift and offset of the layout "addr" (R103, R129). -/
structure AddrOp where
  index : GReg
  shift : BitVec 3
  off : BitVec 24
  deriving DecidableEq, Repr

/-- The base of a memory operand: a register, or a tile when TA = 1 (R129). -/
inductive Base where
  | reg (g : GReg)
  | tile (t : TReg)
  deriving DecidableEq, Repr

/-- The line-range layout "lr": lines minus one and a byte offset (R206). -/
structure RangeOp where
  nm1 : BitVec 12
  off : BitVec 16
  deriving DecidableEq, Repr

/-- The repetition and group fields of the layout "vctl" (R296). -/
structure VCtl where
  rep : Bool
  grp : BitVec 2
  deriving DecidableEq, Repr

/-- The scopes, narrowest first (R11, R53). -/
inductive Scope where
  | thread | core | cluster | die | module | system
  deriving DecidableEq, Repr

/-- A shift amount: a register, or IMM28[5:0] (R100). -/
inductive ShiftAmt where
  | reg (c : GReg)
  | imm (n : BitVec 6)
  deriving DecidableEq, Repr

/-- The conditions of CMP, CMPI and VCMP (R58, R308). -/
inductive Cond where
  | eq | ne | lt | le | gt | ge
  deriving DecidableEq, Repr

/-- The integer types of CMP and CMPI (R58). -/
inductive IType where
  | i8 | i16 | i32 | i64 | n8 | n16 | n32 | n64
  deriving DecidableEq, Repr

/-- The tile coordinate that COORD selects (R109). -/
inductive CoordSel where
  | x | y | z | lin
  deriving DecidableEq, Repr

/-- The access sizes of the scalar memory instructions (R132, R184, R236). -/
inductive Size where
  | b | h | w | d | q
  deriving DecidableEq, Repr

/-- The element widths of gather and scatter (R134). -/
inductive GWidth where
  | h | w | d
  deriving DecidableEq, Repr

/-- The level that PREF names (R143). -/
inductive CacheLevel where
  | l1 | l2
  deriving DecidableEq, Repr

/-- The operations of AMO and AMOI (R205, R208). -/
inductive AmoOp where
  | add | and | or | xor | min | max | minn | maxn | swap
  deriving DecidableEq, Repr

/-- The three operations of an accumulator element (R195). -/
inductive AccOp where
  | add | min | max
  deriving DecidableEq, Repr

/-- The element format of an accumulator line (R67). -/
inductive AccFmt where
  | acc32 | acc64
  deriving DecidableEq, Repr

/-- The operations of RED (R205). -/
inductive RedOp where
  | flt (dbl : Bool) (op : AccOp)
  | int (op : AmoOp)
  deriving DecidableEq, Repr

/-- What ACREAD reads (R213). -/
inductive AcRead where
  | w (clr : Bool) (a : GReg)
  | d (clr : Bool) (a : GReg)
  | v (clr : Bool) (a b : VReg)
  | hdr (a : GReg)
  deriving DecidableEq, Repr

/-- A timeout: IMM28, or a register (R218). -/
inductive Timeout where
  | imm (n : BitVec 28)
  | reg (e : GReg)
  deriving DecidableEq, Repr

/-- The destination of RECV and RECVP: a dword, or one or two vector registers (R230). -/
inductive RecvDst where
  | dword (a : GReg)
  | line (a d : VReg)
  deriving DecidableEq, Repr

/-- The chunk operand of WAITC (R233). -/
inductive ChunkOp where
  | imm (j : BitVec 7)
  | reg (c : GReg)
  deriving DecidableEq, Repr

/-- The condition of a SUSPEND (R277, R283). -/
inductive SuspendCond where
  | plain
  | tl (job : GReg) (t : TlReg)
  | bar (obj : GReg)
  | join (ctr : GReg)
  deriving DecidableEq, Repr

/-- The lane types of the vector instructions (R293). -/
inductive VType where
  | f32 | bf16 | fp16 | f8 | i8 | i16 | i32 | i64 | n8 | n16 | n32 | n64 | sp2x | sp2
  deriving DecidableEq, Repr

/-- The width codes of the untyped vector instructions (R293). -/
inductive VWidth where
  | b | h | w | d
  deriving DecidableEq, Repr

/-- The conditions of VCMP (R308). -/
inductive VCond where
  | ord (c : Cond)
  | un
  deriving DecidableEq, Repr

/-- The amount of a vector shift: lanes of a register, or AMT (R312). -/
inductive VShift where
  | lanes (c : VReg)
  | imm (amt : BitVec 6)
  deriving DecidableEq, Repr

/-- The three forms of KMOV (R316). -/
inductive KMove where
  | kk (a b : KReg)
  | kg (a : KReg) (b : GReg)
  | gk (a : GReg) (b : KReg)
  deriving DecidableEq, Repr

/-- What SCFG takes: a count and a base, or a descriptor (R317). -/
inductive StreamCfg where
  | one (base : GReg) (count : BitVec 28)
  | desc (addr : GReg)
  deriving DecidableEq, Repr

/-- The weight formats of the matrix engine (R457). -/
inductive WFmt where
  | bf16 | f8 | sp2x
  deriving DecidableEq, Repr

/-- The activation formats of the matrix engine (R457). -/
inductive AFmt where
  | bf16 | f8
  deriving DecidableEq, Repr

/-- The collective operations (R392). -/
inductive CollOp where
  | allred | redscat | allgath | bcast
  deriving DecidableEq, Repr

/-- The engine that ENGQ reads (R414). -/
inductive EngSel where
  | copy | coll | press
  deriving DecidableEq, Repr

/-- The scalar core beside a compute core (R147). -/
inductive Role where
  | loader | storer
  deriving DecidableEq, Repr

/-- The conditional branches of RV64I. -/
inductive RvBr where
  | beq | bne | blt | bge | bltu | bgeu
  deriving DecidableEq, Repr

/-- The access widths of RV64I loads and stores. -/
inductive RvMem where
  | b | h | w | d | bu | hu | wu
  deriving DecidableEq, Repr

/-- The two-operand operations of RV64I and RV64M. -/
inductive RvAlu where
  | add | sub | sll | slt | sltu | xor | srl | sra | or | and
  | mul | mulh | mulhsu | mulhu | div | divu | rem | remu
  | addw | subw | sllw | srlw | sraw | mulw | divw | divuw | remw | remuw
  deriving DecidableEq, Repr

/-- The three CSR operations of Zicsr. -/
inductive RvCsr where
  | rw | rs | rc
  deriving DecidableEq, Repr

/-- The instructions of a loader or storer core other than Xfltile (R147): RV64IMC with Zicsr, machine
mode. A compressed form is the instruction it expands to, with `len` its length in bytes. -/
inductive RvOp where
  | lui (rd : BitVec 5) (imm : Word)
  | auipc (rd : BitVec 5) (imm : Word)
  | jal (rd : BitVec 5) (imm : Word)
  | jalr (rd rs1 : BitVec 5) (imm : Word)
  | branch (c : RvBr) (rs1 rs2 : BitVec 5) (imm : Word)
  | load (wd : RvMem) (rd rs1 : BitVec 5) (imm : Word)
  | store (wd : RvMem) (rs1 rs2 : BitVec 5) (imm : Word)
  | alui (o : RvAlu) (rd rs1 : BitVec 5) (imm : Word)
  | alu (o : RvAlu) (rd rs1 rs2 : BitVec 5)
  | csr (o : RvCsr) (rd rs1 : BitVec 5) (num : BitVec 12)
  | csri (o : RvCsr) (rd : BitVec 5) (imm : BitVec 5) (num : BitVec 12)
  | fence
  | ecall
  | ebreak
  | mret
  | wfi
  | illegal (wd : W32)
  deriving DecidableEq, Repr

/-- An RV64IMC or Zicsr instruction with its length in bytes, 2 or 4. -/
structure RvInstr where
  op : RvOp
  len : BitVec 3
  deriving DecidableEq, Repr

/-- The header of a fabric message (R403). -/
structure FabHdr where
  tag : BitVec 16
  seq : W32
  nmem : BitVec 16
  rank : BitVec 16
  swid : BitVec 16
  chunk : Byte
  seg : BitVec 16
  length : BitVec 16
  offset : BitVec 40
  deriving DecidableEq, Repr

/-- A fabric flit as it arrives (R476): SEQ, ACK, whether its CRC holds, and its payload bytes. -/
structure Flit where
  seq : BitVec 12
  ack : BitVec 12
  crcOk : Bool
  payload : List Byte
  deriving DecidableEq, Repr

/-- The registers of a format window (R78). -/
inductive FwReg where
  | cfg | vbase | sbase | scbase | stat
  deriving DecidableEq, Repr

/-- The AtomicOps of PCI Express (R194, R474). -/
inductive AtomOp where
  | fetchAdd | swap | cas
  deriving DecidableEq, Repr

/-- Every row of the opcode table. The compute-core rows carry `Ctl`; the event rows name the agent
they concern and the data they bring. -/
inductive Instr where
  -- scalar and control (R57, R98)
  | nop (ct : Ctl)
  | add (ct : Ctl) (a b c : GReg)
  | sub (ct : Ctl) (a b c : GReg)
  | addi (ct : Ctl) (a b : GReg) (imm : BitVec 42)
  | mul (ct : Ctl) (a b c : GReg)
  | mulh (ct : Ctl) (a b c : GReg)
  | mulhn (ct : Ctl) (a b c : GReg)
  | div (ct : Ctl) (a b c : GReg)
  | divn (ct : Ctl) (a b c : GReg)
  | rem (ct : Ctl) (a b c : GReg)
  | remn (ct : Ctl) (a b c : GReg)
  | and (ct : Ctl) (a b c : GReg)
  | or (ct : Ctl) (a b c : GReg)
  | xor (ct : Ctl) (a b c : GReg)
  | andn (ct : Ctl) (a b c : GReg)
  | andi (ct : Ctl) (a b : GReg) (imm : BitVec 42)
  | ori (ct : Ctl) (a b : GReg) (imm : BitVec 42)
  | xori (ct : Ctl) (a b : GReg) (imm : BitVec 42)
  | shl (ct : Ctl) (a b : GReg) (n : ShiftAmt)
  | shr (ct : Ctl) (a b : GReg) (n : ShiftAmt)
  | sra (ct : Ctl) (a b : GReg) (n : ShiftAmt)
  | rol (ct : Ctl) (a b : GReg) (n : ShiftAmt)
  | clz (ct : Ctl) (a b : GReg)
  | ctz (ct : Ctl) (a b : GReg)
  | popc (ct : Ctl) (a b : GReg)
  | min (ct : Ctl) (a b c : GReg)
  | max (ct : Ctl) (a b c : GReg)
  | minn (ct : Ctl) (a b c : GReg)
  | maxn (ct : Ctl) (a b c : GReg)
  | sextB (ct : Ctl) (a b : GReg)
  | sextH (ct : Ctl) (a b : GReg)
  | sextW (ct : Ctl) (a b : GReg)
  | bfxZ (ct : Ctl) (a b : GReg) (pos : BitVec 6) (wr : BitVec 7)
  | bfxS (ct : Ctl) (a b : GReg) (pos : BitVec 6) (wr : BitVec 7)
  | bfi (ct : Ctl) (a b c : GReg) (pos : BitVec 6) (wr : BitVec 7)
  | sel (ct : Ctl) (a b c : GReg) (p : PReg)
  | mov (ct : Ctl) (a b : GReg)
  | movi (ct : Ctl) (a : GReg) (imm : BitVec 56)
  | movhi (ct : Ctl) (a : GReg) (imm : BitVec 8)
  | lea (ct : Ctl) (a b : GReg) (m : AddrOp)
  | cmp (ct : Ctl) (c : Cond) (t : IType) (p : PReg) (a b : GReg)
  | cmpi (ct : Ctl) (c : Cond) (t : IType) (p : PReg) (a : GReg) (imm : BitVec 42)
  | pand (ct : Ctl) (a b c : PReg)
  | por (ct : Ctl) (a b c : PReg)
  | pxor (ct : Ctl) (a b c : PReg)
  | pnot (ct : Ctl) (a b : PReg)
  | br (ct : Ctl) (target : CodeAddr)
  | jmp (ct : Ctl) (b : GReg)
  | call (ct : Ctl) (target : CodeAddr)
  | callr (ct : Ctl) (b : GReg)
  | ret (ct : Ctl)
  | loop (ct : Ctl) (a : GReg) (target : CodeAddr)
  | coord (ct : Ctl) (a : GReg) (c : CoordSel)
  -- memory (R59, R130)
  | ld (ct : Ctl) (sz : Size) (sgn : Bool) (a : GReg) (b : Base) (m : AddrOp)
  | st (ct : Ctl) (sz : Size) (a : GReg) (b : Base) (m : AddrOp)
  | ldq (ct : Ctl) (a d : GReg) (b : Base) (m : AddrOp)
  | stq (ct : Ctl) (a d : GReg) (b : Base) (m : AddrOp)
  | ldv (ct : Ctl) (a d : VReg) (b : Base) (m : AddrOp)
  | stv (ct : Ctl) (a d : VReg) (b : Base) (m : AddrOp)
  | ldvx (ct : Ctl) (wd : GWidth) (a : VReg) (b : Base) (c : VReg) (k : KReg) (sh : BitVec 3) (off : BitVec 24)
  | stvx (ct : Ctl) (wd : GWidth) (a : VReg) (b : Base) (c : VReg) (k : KReg) (sh : BitVec 3) (off : BitVec 24)
  | ldf (ct : Ctl) (a b : GReg) (m : AddrOp) (p : PReg) (e : GReg)
  | ldfe (ct : Ctl) (a b : GReg) (m : AddrOp) (p : PReg) (e : GReg)
  | stf (ct : Ctl) (a b : GReg) (m : AddrOp)
  | stef (ct : Ctl) (a b : GReg) (m : AddrOp) (p : PReg) (e : GReg)
  | sete (ct : Ctl) (p : PReg) (b : GReg) (m : AddrOp)
  | tdef (ct : Ctl) (t : TReg) (b c : GReg)
  | trel (ct : Ctl) (t : TReg) (mode : Bool)
  | tstat (ct : Ctl) (a : GReg) (t : TReg)
  | pref (ct : Ctl) (lv : CacheLevel) (b : GReg) (m : AddrOp)
  | wbl (ct : Ctl) (b : GReg) (m : AddrOp)
  | zline (ct : Ctl) (b : GReg) (m : AddrOp)
  | rgnq (ct : Ctl) (a b : GReg) (m : AddrOp)
  -- ordering (R184)
  | phase (ct : Ctl) (sc : Scope)
  | fence (ct : Ctl) (sc : Scope)
  | dfence (ct : Ctl) (sc : Scope)
  | tlwait (ct : Ctl) (p : PReg) (t : TlReg) (c : GReg) (tmo : BitVec 28)
  | tlread (ct : Ctl) (a : GReg) (t : TlReg) (issued : Bool)
  | ldnow (ct : Ctl) (acq : Bool) (sz : Size) (sc : Scope) (a b : GReg) (m : AddrOp) (d : GReg)
  | stnow (ct : Ctl) (rel : Bool) (sz : Size) (sc : Scope) (a b : GReg) (m : AddrOp) (d : GReg)
  -- atomics, reductions, accumulator lines (R205)
  | amo (ct : Ctl) (ar : Bool) (op : AmoOp) (sc : Scope) (a b : GReg) (m : AddrOp) (d : GReg)
  | amoi (ct : Ctl) (ar : Bool) (op : AmoOp) (sc : Scope) (a b : GReg) (imm : BitVec 22) (off : BitVec 20)
  | cas (ct : Ctl) (ar : Bool) (dw : Bool) (sc : Scope) (a b : GReg) (m : AddrOp) (d : GReg) (p : PReg)
  | casq (ct : Ctl) (ar : Bool) (sc : Scope) (a b : GReg) (m : AddrOp) (d : GReg) (p : PReg)
  | red (ct : Ctl) (rel : Bool) (op : RedOp) (sc : Scope) (a b : GReg) (m : AddrOp)
  | redv (ct : Ctl) (rel : Bool) (op : AccOp) (sc : Scope) (a d : VReg) (b : GReg) (m : AddrOp) (k : KReg)
  | acinit (ct : Ctl) (chain : Option GReg) (op : AccOp) (fmt : AccFmt) (sc : Scope) (b : GReg) (r : RangeOp)
  | acread (ct : Ctl) (rd : AcRead) (b : GReg) (m : AddrOp)
  | acchain (ct : Ctl) (p : PReg) (b c : GReg) (r : RangeOp)
  | acflush (ct : Ctl) (fin : Bool) (b : GReg) (r : RangeOp)
  | acckpt (ct : Ctl) (b c : GReg) (r : RangeOp)
  | acrstr (ct : Ctl) (b c : GReg) (r : RangeOp)
  -- messages, waits, barrier objects, quiescence (R228, R233)
  | send (ct : Ctl) (rel hi : Bool) (a b : GReg)
  | sendv (ct : Ctl) (rel hi : Bool) (a : GReg) (b c : VReg)
  | recv (ct : Ctl) (acq : Bool) (dst : RecvDst) (b : GReg) (p : PReg) (tmo : Timeout)
  | recvp (ct : Ctl) (acq : Bool) (dst : RecvDst) (b : GReg) (p : PReg)
  | waitfe (ct : Ctl) (empty : Bool) (p : PReg) (b : GReg) (m : AddrOp) (e : GReg)
  | waitb (ct : Ctl) (acq : Bool) (p : PReg) (b : GReg) (tmo : Timeout)
  | waitc (ct : Ctl) (acq : Bool) (p : PReg) (b : GReg) (c : ChunkOp) (tmo : Timeout)
  | binit (ct : Ctl) (sc : Scope) (b c d : GReg)
  | barr (ct : Ctl) (rel : Bool) (a b c : GReg)
  | stc (ct : Ctl) (sz : Size) (sc : Scope) (a b : GReg) (m : AddrOp) (d : GReg) (chunk : Option GReg)
  | bread (ct : Ctl) (a b : GReg) (i : BitVec 4)
  | qwave (ct : Ctl) (a b : GReg)
  | qreset (ct : Ctl) (b : GReg)
  | sleep (ct : Ctl) (b : GReg) (imm : BitVec 40)
  -- tasks (R277)
  | launch (ct : Ctl) (a b : GReg)
  | fork (ct : Ctl) (a : GReg) (target : CodeAddr)
  | join (ct : Ctl) (p : PReg) (b : GReg) (tmo : Timeout)
  | jinit (ct : Ctl) (b c : GReg)
  | suspend (ct : Ctl) (b c : GReg) (cond : SuspendCond) (tmo : BitVec 28)
  | resume (ct : Ctl) (p : PReg) (b : GReg)
  | migrate (ct : Ctl) (b : GReg) (m : AddrOp)
  | endt (ct : Ctl)
  | exit (ct : Ctl)
  | setpri (ct : Ctl) (b : GReg)
  | yield (ct : Ctl) (p : PReg)
  | lend (ct : Ctl) (n : BitVec 8)
  | dqlen (ct : Ctl) (a : GReg)
  | aqspill (ct : Ctl) (clr : Bool) (a : GReg)
  -- vector, stream, special-function, random (R306)
  | vadd (ct : Ctl) (t : VType) (a b c : VReg) (k : KReg) (v : VCtl)
  | vsub (ct : Ctl) (t : VType) (a b c : VReg) (k : KReg) (v : VCtl)
  | vmul (ct : Ctl) (t : VType) (a b c : VReg) (k : KReg) (v : VCtl)
  | vfma (ct : Ctl) (t : VType) (a b c d : VReg) (k : KReg) (v : VCtl)
  | vfms (ct : Ctl) (t : VType) (a b c d : VReg) (k : KReg) (v : VCtl)
  | vmin (ct : Ctl) (t : VType) (a b c : VReg) (k : KReg) (v : VCtl)
  | vmax (ct : Ctl) (t : VType) (a b c : VReg) (k : KReg) (v : VCtl)
  | vabs (ct : Ctl) (t : VType) (a b : VReg) (k : KReg) (v : VCtl)
  | vneg (ct : Ctl) (t : VType) (a b : VReg) (k : KReg) (v : VCtl)
  | vcmp (ct : Ctl) (c : VCond) (t : VType) (ka : KReg) (b c' : VReg) (k : KReg) (v : VCtl)
  | vsel (ct : Ctl) (wd : VWidth) (a b c : VReg) (kd : KReg) (v : VCtl)
  | vcvt (ct : Ctl) (src dst : VType) (a b : VReg) (k : KReg) (v : VCtl)
  | vshuf (ct : Ctl) (wd : VWidth) (a b c d : VReg) (k : KReg) (v : VCtl)
  | vbcast (ct : Ctl) (wd : VWidth) (a : VReg) (b : GReg) (k : KReg) (v : VCtl)
  | vred (ct : Ctl) (op : AccOp) (t : VType) (a : GReg) (b : VReg) (k : KReg) (v : VCtl)
  | vscan (ct : Ctl) (op : AccOp) (a b : VReg) (k : KReg) (v : VCtl)
  | viadd (ct : Ctl) (sat : Bool) (t : VType) (a b c : VReg) (k : KReg) (v : VCtl)
  | visub (ct : Ctl) (sat : Bool) (t : VType) (a b c : VReg) (k : KReg) (v : VCtl)
  | vimul (ct : Ctl) (t : VType) (a b c : VReg) (k : KReg) (v : VCtl)
  | vand (ct : Ctl) (wd : VWidth) (a b c : VReg) (k : KReg) (v : VCtl)
  | vor (ct : Ctl) (wd : VWidth) (a b c : VReg) (k : KReg) (v : VCtl)
  | vxor (ct : Ctl) (wd : VWidth) (a b c : VReg) (k : KReg) (v : VCtl)
  | vshl (ct : Ctl) (t : VType) (a b : VReg) (n : VShift) (k : KReg) (v : VCtl)
  | vshr (ct : Ctl) (t : VType) (a b : VReg) (n : VShift) (k : KReg) (v : VCtl)
  | vdot (ct : Ctl) (t : VType) (a : GReg) (b c : VReg) (k : KReg) (v : VCtl)
  | vsp2 (ct : Ctl) (hi : Bool) (a b : VReg) (c : GReg) (k : KReg) (v : VCtl)
  | vmov (ct : Ctl) (wd : VWidth) (a b : VReg) (k : KReg) (v : VCtl)
  | kand (ct : Ctl) (a b c : KReg)
  | kor (ct : Ctl) (a b c : KReg)
  | knot (ct : Ctl) (a b : KReg)
  | kmov (ct : Ctl) (m : KMove)
  | scfg (ct : Ctl) (wr : Bool) (size : BitVec 2) (a : VReg) (c : StreamCfg)
  | sstart (ct : Ctl) (a : VReg)
  | sstop (ct : Ctl) (a : VReg)
  | sstat (ct : Ctl) (a : GReg) (b : VReg)
  | vexp (ct : Ctl) (a b : VReg) (k : KReg) (v : VCtl)
  | vexp2 (ct : Ctl) (a b : VReg) (k : KReg) (v : VCtl)
  | vlog2 (ct : Ctl) (a b : VReg) (k : KReg) (v : VCtl)
  | vrcp (ct : Ctl) (a b : VReg) (k : KReg) (v : VCtl)
  | vrsq (ct : Ctl) (a b : VReg) (k : KReg) (v : VCtl)
  | vsqrt (ct : Ctl) (a b : VReg) (k : KReg) (v : VCtl)
  | vsin (ct : Ctl) (a b : VReg) (k : KReg) (v : VCtl)
  | vcos (ct : Ctl) (a b : VReg) (k : KReg) (v : VCtl)
  | vtanh (ct : Ctl) (a b : VReg) (k : KReg) (v : VCtl)
  | rng (ct : Ctl) (a : GReg)
  | vrng (ct : Ctl) (a : VReg) (k : KReg)
  | rngsave (ct : Ctl) (a d : GReg)
  | rngload (ct : Ctl) (b c : GReg)
  | rngjump (ct : Ctl)
  | cbrng (ct : Ctl) (u : Bool) (a : VReg) (b c d e : GReg)
  -- matrix (R342)
  | mldw (ct : Ctl) (f : WFmt) (a b c : GReg)
  | mswap (ct : Ctl) (a : GReg)
  | mstream (ct : Ctl) (f : AFmt) (o64 : Bool) (rows : BitVec 9) (a b c d : GReg)
  | mattn (ct : Ctl) (a b : GReg)
  | mtags (ct : Ctl) (a b : GReg)
  | mcfg (ct : Ctl) (a b : GReg)
  | mcancel (ct : Ctl) (a b : GReg)
  | mqstat (ct : Ctl) (a : GReg)
  -- rope (R373)
  | rdesc (ct : Ctl) (src : Option GReg) (id : BitVec 4)
  | rnew (ct : Ctl) (a b c : GReg) (id : BitVec 4)
  | rcat (ct : Ctl) (a b c : GReg)
  | rsplit (ct : Ctl) (a b c d : GReg)
  | rsplice (ct : Ctl) (a b c d : GReg) (del n : BitVec 8)
  | rwalk (ct : Ctl) (a b c d e : GReg)
  | rsum (ct : Ctl) (a b c d : GReg) (slot : BitVec 3)
  | rget (ct : Ctl) (sgn : Bool) (a b c : GReg)
  | riter (ct : Ctl) (a b c d e : GReg)
  | rlen (ct : Ctl) (a b : GReg)
  | rref (ct : Ctl) (b : GReg)
  | rdrop (ct : Ctl) (b : GReg)
  | rpub (ct : Ctl) (sc : Scope) (p : PReg) (b c d e : GReg)
  | rload (ct : Ctl) (acq : Bool) (sc : Scope) (a b d : GReg)
  -- copy, collective, press (R392)
  | cpy (ct : Ctl) (a b c : GReg) (len : Timeout)
  | cpy2d (ct : Ctl) (a b : GReg)
  | cpyf (ct : Ctl) (src dst : VType) (a b c d : GReg)
  | cpyg (ct : Ctl) (a b c d e : GReg) (rowb : BitVec 13)
  | coll (ct : Ctl) (op : CollOp) (a b c d e : GReg) (nchm1 group : BitVec 6)
  | colla (ct : Ctl) (a b : GReg)
  | smpl (ct : Ctl) (a b : GReg)
  | smplv (ct : Ctl) (a b : GReg)
  | smcommit (ct : Ctl) (a b c : GReg)
  | smcancel (ct : Ctl) (a b : GReg)
  | treedef (ct : Ctl) (b : GReg) (id : BitVec 5)
  | engq (ct : Ctl) (e : EngSel) (a : GReg)
  -- system (R425)
  | trap (ct : Ctl) (imm : BitVec 42)
  | sysc (ct : Ctl) (imm : BitVec 42)
  | rett (ct : Ctl)
  | rdsr (ct : Ctl) (a : GReg) (num : BitVec 12)
  | wrsr (ct : Ctl) (b : GReg) (num : BitVec 12)
  | tlbinv (ct : Ctl) (sc : Scope) (b c : GReg)
  | tlbsync (ct : Ctl)
  | ctxsave (ct : Ctl) (p : PReg) (b : GReg)
  | ctxload (ct : Ctl) (b : GReg)
  | halt (ct : Ctl)
  | bkpt (ct : Ctl) (imm : BitVec 16)
  | llrcl (ct : Ctl) (b : GReg) (m : AddrOp)
  | hirq (ct : Ctl) (b : GReg) (n : BitVec 3)
  | perf (ct : Ctl) (b : GReg) (n : BitVec 2)
  -- Xfltile (R148)
  | tfill (rd rs1 rs2 : BitVec 5)
  | tfill2 (rd rs1 : BitVec 5)
  | tready (rd rs1 rs2 : BitVec 5)
  | twaite (rd rs1 rs2 : BitVec 5)
  | tdrain (rd rs1 rs2 : BitVec 5)
  | twaitd (rd rs1 rs2 : BitVec 5)
  | tempty (rd rs1 rs2 : BitVec 5)
  | tcfgReadEntry (rd rs1 : BitVec 5)
  | tcfgRole (rd rs1 : BitVec 5)
  | tcfgFailedAddress (rd rs1 : BitVec 5)
  | tcfgReturnEmpty (rd rs1 : BitVec 5)
  | rv64imcInstruction (i : RvInstr)
  -- events of a core and its threads (95_what_each_step_holds.md)
  | repetitionIssue (g : GCore) (k : Slot)
  | idleTurn (g : GCore) (k : Slot)
  | fetchLineArrival (g : GCore) (k : Slot)
  | longLatencyComplete (g : GCore) (k : Slot) (j : Nat)
  | deferredTrapDetect (g : GCore) (k : Slot) (j : Nat)
  | trapEntry (g : GCore) (k : Slot)
  | phlimit (g : GCore) (k : Slot)
  | tilewait (g : GCore) (k : Slot)
  | wakeReinsert (g : GCore) (k : Slot)
  | waitDeadline (g : GCore) (k : Slot)
  | parkContext (g : GCore) (k : Slot)
  | admitContext (g : GCore) (k : Slot)
  | stealProbe (g : GCore)
  | priorityAging (g : GCore)
  | arrivalAppend (n : Nat)
  | timeSliceExpiry (g : GCore)
  | tenantRestore (g : GCore) (t : TenantNo)
  | tenantHandover (g : GCore)
  | lqprodWrite (t : TenantNo) (v : Word)
  | launchRecordTake (t : TenantNo)
  | launchStart (t : TenantNo)
  | launchComplete (lid : Nat)
  | exitMarkSeen (g : GCore) (lid : Nat)
  | workAreaFault (lid : Nat) (addr : Word)
  | messageAccept (n : Nat)
  | continuationQueue (n : Nat)
  | stcCount (n : Nat)
  | qwaveCollect (n : Nat)
  | publicationComplete (n : Nat)
  | leesRelease
  | sluiceWindow
  | regionMerge (d : DieNo) (n : Nat)
  | remoteSpadTurn (g : GCore)
  | lineRecall (line : Nat)
  | reductionApply (n : Nat)
  | copyEvictFold (g : GCore) (line : Nat)
  | accLineEvict (line : Nat)
  | commandAccept (g : GCore) (k : Slot) (j : Nat)
  | arbiterVisit (c : ClusterNo)
  | matrixTileStart (c : ClusterNo)
  | matrixRowDrain (c : ClusterNo) (n : Nat)
  | matrixJobDone (g : GCore) (n : Nat)
  | copyPiece (c : ClusterNo)
  | copyJobDone (g : GCore)
  | collectiveJobStart (g : GCore)
  | reductionReply (h : FabHdr) (payload : List Byte)
  | multicastData (h : FabHdr) (payload : List Byte)
  | collChunkCount (g : GCore) (j : BitVec 6)
  | collTimeout (g : GCore)
  | pressRequestStart (d : DieNo)
  | pressNodeBoundary (d : DieNo)
  | prcancWrite (t : TenantNo) (d : DieNo) (seq : Word)
  | ropeUnitAccept (g : GCore) (k : Slot) (j : Nat)
  | ropeComplete (d : DieNo) (u : BitVec 4) (n : Nat)
  | ropeReclaim (d : DieNo) (n : Nat)
  | fillDrainComplete (g : GCore) (n : Nat)
  | scalarWaitTimeout (g : GCore) (r : Role)
  | sfuStart (g : GCore)
  | sfuResultWrite (g : GCore)
  | streamReadahead (g : GCore) (k : Slot) (r : BitVec 2)
  | streamStorePerform (g : GCore) (k : Slot) (r : BitVec 2)
  | tlbInvalidateDeliver (n : Nat)
  | agentDead (d : DieNo)
  | uncorrectableError (line : Nat)
  | eccCorrected (d : DieNo)
  | hostAtomicCompletion (n : Nat) (old : BitVec 128) (err : Bool)
  | hostLinkDown (i : BitVec 1)
  | cxlMemRead (addr : Nat)
  | cxlMemWrite (addr : Nat) (bytes : List Byte)
  | hostAtomicop (op : AtomOp) (sz : Size) (addr : Nat) (x y : BitVec 128)
  | fabricDataFlit (p : BitVec 5) (f : Flit)
  | fabricAckFlit (p : BitVec 5) (f : Flit)
  | fabricNakFlit (p : BitVec 5) (f : Flit)
  | fabricIdleFlit (p : BitVec 5) (f : Flit)
  | powerStep (power : BitVec 10) (temp : BitVec 8)
  | thermalTrip
  | moduleReset (failing : BitVec 3)
  | controllerTakeover
  | getVersion
  | getCapabilities
  | negotiateAlgorithms
  | getDigests
  | getCertificate (slot : BitVec 4)
  | challenge (slot : BitVec 4)
  | getMeasurements (idx : BitVec 8)
  | keyExchange
  | finish
  | tenantReset (t : TenantNo)
  | keyGen (t : TenantNo) (slot : BitVec 4)
  | fwRegisterWrite (d : DieNo) (n : BitVec 4) (r : FwReg) (v : Word)
  | configRegisterWrite (addr : Nat) (v : Word)
  | hostLinkRetrain (i : BitVec 1) (cxl : Bool)
  | fabricPortTrained (p : BitVec 5) (lanes : BitVec 3)
  | atsInvalidation (i : BitVec 1) (addr len : Nat)
  | doeDiscovery
  | sliceEviction (g : GCore) (line : Nat)
  deriving DecidableEq, Repr

end Sys2Proof
end

