-- ==== Sys2Proof/Decode.lean ====
section
/-! DEFINITION. The decoder of the 96-bit instruction words (R43–R62 and the encoding tables R98, R130,
R184, R205, R228, R233, R240, R243, R277, R306, R342, R373, R392, R425) and of the 32-bit and 16-bit
words of the loader and storer cores (R147, R148). It is total; a word that is no instruction is
rejected by the ILLOP reason or ILLOPND field of R54 and R55. The encoder and the scalar cores' decoder follow. -/

namespace Sys2Proof

/-- The fields of an instruction word (R43). -/
structure Fields where
  major : BitVec 8
  minor : BitVec 8
  a : BitVec 7
  b : BitVec 7
  c : BitVec 7
  d : BitVec 7
  e : BitVec 7
  ct : Ctl
  imm : BitVec 28
  deriving DecidableEq, Repr

/-- Why a word is no instruction: an ILLOP reason, or the field of an ILLOPND kind violation (R55). -/
inductive DecErr where
  | illop (reason : BitVec 8)
  | illopnd (field : BitVec 3)
  deriving DecidableEq, Repr

/-- The fields of a word (R43). -/
def splitWord (w : BitVec 96) : Fields where
  major := w.extractLsb' 88 8
  minor := w.extractLsb' 80 8
  a := w.extractLsb' 73 7
  b := w.extractLsb' 66 7
  c := w.extractLsb' 59 7
  d := w.extractLsb' 52 7
  e := w.extractLsb' 45 7
  ct := { g1 := w.extractLsb' 42 3, n1 := w.getLsbD 41, g2 := w.extractLsb' 38 3, n2 := w.getLsbD 37,
          comb := w.getLsbD 36, hint := w.extractLsb' 33 3, la := w.extractLsb' 29 4, yld := w.getLsbD 28 }
  imm := w.extractLsb' 0 28

/-- The word that holds the given fields (R43). -/
def joinWord (f : Fields) : BitVec 96 :=
  f.major ++ f.minor ++ f.a ++ f.b ++ f.c ++ f.d ++ f.e ++ f.ct.g1 ++ BitVec.ofBool f.ct.n1 ++ f.ct.g2 ++
    BitVec.ofBool f.ct.n2 ++ BitVec.ofBool f.ct.comb ++ f.ct.hint ++ f.ct.la ++ BitVec.ofBool f.ct.yld ++ f.imm

/-- The result of decoding. -/
abbrev Dec := Except DecErr Instr

/-- The unassigned-minor rejection (R54, check 5). -/
def badMinor : Dec := .error (.illop 0x02)
/-- The reserved-field rejection (R54, check 6). -/
def badField : Dec := .error (.illop 0x04)

/-- Check 6 of R54 for an instruction with or without marks L and H: `used` says that every other
reserved field is zero. DESIGN CHOICE (log entry 77): of a word that breaks both of check 6's rules the reason is that of
the reserved field, 0x04. -/
def row (f : Fields) (l h : Bool) (used : Bool) (k : Dec) : Dec :=
  if !used || (!l && f.ct.la != 0) || (!h && f.ct.hint != 0) then badField
  else if f.ct.hint = 7 then .error (.illop 0x05)
  else k

/-- A V field: bit 5 of the field is zero (R46). DESIGN CHOICE (log entry 77): where several fields are illegal for their
kinds, TVAL names the lowest of them, and it names a kind violation before a port named twice. -/
def vfield (i : BitVec 3) (x : BitVec 7) (k : VReg → Dec) : Dec :=
  if x.getLsbD 5 then .error (.illopnd i) else k ⟨x.getLsbD 6, x.extractLsb' 0 5⟩
/-- A P or K field: below 8 (R46). -/
def pfield (i : BitVec 3) (x : BitVec 7) (k : BitVec 3 → Dec) : Dec :=
  if x.extractLsb' 3 4 ≠ 0 then .error (.illopnd i) else k (x.extractLsb' 0 3)
/-- A TL field: below 4 (R46). -/
def tlfield (i : BitVec 3) (x : BitVec 7) (k : TlReg → Dec) : Dec :=
  if x.extractLsb' 2 5 ≠ 0 then .error (.illopnd i) else k (x.extractLsb' 0 2)
/-- A T field: below 32 (R46). -/
def tfield (i : BitVec 3) (x : BitVec 7) (k : TReg → Dec) : Dec :=
  if x.extractLsb' 5 2 ≠ 0 then .error (.illopnd i) else k (x.extractLsb' 0 5)

/-- The 42-bit immediate of format F-W (R44). -/
def imm42 (f : Fields) : BitVec 42 := f.d ++ f.e ++ f.imm
/-- The 56-bit immediate of format F-X (R44). -/
def imm56 (f : Fields) : BitVec 56 := f.b ++ f.c ++ f.d ++ f.e ++ f.imm
/-- The index, shift and offset of the layout "addr" (R129). -/
def addrOf (f : Fields) : AddrOp := ⟨f.c, f.imm.extractLsb' 24 3, f.imm.extractLsb' 0 24⟩
/-- IMM28[27] is clear: the layout "addr" with TA = 0. -/
def noTa (f : Fields) : Bool := !f.imm.getLsbD 27
/-- The base of a memory operand that may name a tile (R129). -/
def baseOf (f : Fields) (k : Base → Dec) : Dec :=
  if f.imm.getLsbD 27 then tfield 1 f.b (fun t => k (.tile t)) else k (.reg f.b)
/-- The layout "lr" (R206). -/
def rangeOf (f : Fields) : RangeOp := ⟨f.imm.extractLsb' 16 12, f.imm.extractLsb' 0 16⟩

/-- The scope of a code in MINOR[2:0] (R53). -/
def scopeOf (x : BitVec 3) : Option Scope :=
  match x with
  | 0 => some .thread | 1 => some .core | 2 => some .cluster | 3 => some .die
  | 4 => some .module | 5 => some .system | _ => none

/-- A scope code limited to the codes lo to hi; another is an unassigned minor (R53). -/
def scopeIn (x : BitVec 3) (lo hi : Nat) (k : Scope → Dec) : Dec :=
  if x.toNat < lo || hi < x.toNat then badMinor else
  match scopeOf x with
  | some s => k s
  | none => badMinor

/-- The condition of MINOR[6:4] (R58). -/
def condOf (x : BitVec 3) : Option Cond :=
  match x with
  | 0 => some .eq | 1 => some .ne | 2 => some .lt | 3 => some .le | 4 => some .gt | 5 => some .ge | _ => none

/-- The type of MINOR[2:0] (R58). -/
def itypeOf (x : BitVec 3) : IType :=
  match x with
  | 0 => .i8 | 1 => .i16 | 2 => .i32 | 3 => .i64 | 4 => .n8 | 5 => .n16 | 6 => .n32 | _ => .n64

/-- The lane type of a type code (R293). -/
def vtypeOf (x : BitVec 4) : Option VType :=
  match x with
  | 0 => some .f32 | 1 => some .bf16 | 2 => some .fp16 | 3 => some .f8 | 4 => some .i8 | 5 => some .i16
  | 6 => some .i32 | 7 => some .i64 | 8 => some .n8 | 9 => some .n16 | 10 => some .n32 | 11 => some .n64
  | 12 => some .sp2x | 13 => some .sp2 | _ => none

/-- "type F" of R306. -/
def VType.isF : VType → Bool
  | .f32 | .bf16 | .fp16 => true
  | _ => false

/-- "type I" of R306. -/
def VType.isI : VType → Bool
  | .i8 | .i16 | .i32 | .i64 | .n8 | .n16 | .n32 | .n64 => true
  | _ => false

/-- A signed integer lane type (R293). -/
def VType.isSigned : VType → Bool
  | .i8 | .i16 | .i32 | .i64 => true
  | _ => false

/-- The conversions that R76 lists, from source to destination. -/
def cvtPair (src dst : VType) : Bool :=
  match src, dst with
  | .f32, .fp16 | .f32, .bf16 | .f32, .f8 | .fp16, .f32 | .fp16, .bf16 | .fp16, .f8
  | .bf16, .f32 | .bf16, .fp16 | .bf16, .f8 | .f8, .f32 | .f8, .fp16 | .f8, .bf16
  | .sp2, .f32 | .sp2, .fp16 | .sp2, .bf16 | .sp2, .f8
  | .sp2x, .f32 | .sp2x, .fp16 | .sp2x, .bf16 | .sp2x, .f8 => true
  | .f32, .i8 | .f32, .i16 | .f32, .i32 | .fp16, .i8 | .fp16, .i16 | .fp16, .i32
  | .bf16, .i8 | .bf16, .i16 | .bf16, .i32 | .f8, .i8 | .f8, .i16 | .f8, .i32 => true
  | .i8, .f32 | .i8, .fp16 | .i8, .bf16 | .i8, .f8 | .i16, .f32 | .i16, .fp16 | .i16, .bf16 | .i16, .f8
  | .i32, .f32 | .i32, .fp16 | .i32, .bf16 | .i32, .f8 => true
  | .i8, .i8 | .i8, .i16 | .i8, .i32 | .i16, .i8 | .i16, .i16 | .i16, .i32 | .i32, .i8 | .i32, .i16 | .i32, .i32 => true
  | _, _ => false

/-- The width code of an untyped vector instruction (R293). -/
def vwidthOf (x : BitVec 8) : Option VWidth :=
  match x with
  | 0 => some .b | 1 => some .h | 2 => some .w | 3 => some .d | _ => none

/-- The layout "vctl" without a shift amount: check 6 for its reserved bits, GRP 3 among them (R296). -/
def vctlOk (f : Fields) : Bool := f.imm.extractLsb' 25 2 != 3 && f.imm.extractLsb' 0 25 == 0
/-- The layout "vctl" with a shift amount in bits [5:0] (R296). -/
def vctlAmtOk (f : Fields) : Bool := f.imm.extractLsb' 25 2 != 3 && f.imm.extractLsb' 6 19 == 0
/-- REP and GRP (R296). -/
def vctlOf (f : Fields) : VCtl := ⟨f.imm.getLsbD 27, f.imm.extractLsb' 25 2⟩

/-- The special-register numbers of R424. -/
def srNumbers : List Nat :=
  [0x000, 0x001, 0x002, 0x003, 0x004, 0x005, 0x006, 0x007, 0x008, 0x009, 0x00A, 0x010, 0x011, 0x012, 0x013,
   0x014, 0x020, 0x021, 0x022, 0x023, 0x024, 0x025, 0x026, 0x027, 0x030, 0x031, 0x032, 0x033, 0x034, 0x035,
   0x036, 0x037, 0x040, 0x041, 0x042, 0x043]

/-- Three G operands and nothing else (R98). -/
def rowG3 (f : Fields) (k : Instr) : Dec := row f false false (f.d == 0 && f.e == 0 && f.imm == 0) (.ok k)
/-- Two G operands and nothing else (R98). -/
def rowG2 (f : Fields) (k : Instr) : Dec :=
  row f false false (f.c == 0 && f.d == 0 && f.e == 0 && f.imm == 0) (.ok k)
/-- An F-W row with operands A and B (R98). -/
def rowW (f : Fields) (k : Instr) : Dec := row f false false (f.c == 0) (.ok k)
/-- An F-X row whose immediate is a code address: bits [5:3] are reserved (R38, R39, R98). -/
def rowCode (f : Fields) (noA : Bool) (k : Instr) : Dec :=
  row f false false (f.imm.extractLsb' 3 3 == 0 && (!noA || f.a == 0)) (.ok k)
/-- A shift of minor 0x00–0x03 or 0x04–0x07 (R98, R100). -/
def rowShift (f : Fields) (k : ShiftAmt → Instr) : Dec :=
  if f.minor.getLsbD 2 then
    row f false false (f.c == 0 && f.d == 0 && f.e == 0 && f.imm.extractLsb' 6 22 == 0)
      (.ok (k (.imm (f.imm.extractLsb' 0 6))))
  else row f false false (f.d == 0 && f.e == 0 && f.imm == 0) (.ok (k (.reg f.c)))
/-- A bit-field row: pos in IMM28[5:0] and width in IMM28[12:6] (R98, R101). -/
def rowBf (f : Fields) (noC : Bool) (k : BitVec 6 → BitVec 7 → Instr) : Dec :=
  row f false false (f.d == 0 && f.e == 0 && f.imm.extractLsb' 13 15 == 0 && (!noC || f.c == 0))
    (.ok (k (f.imm.extractLsb' 0 6) (f.imm.extractLsb' 6 7)))

/-- CMP and CMPI: MINOR[7] and MINOR[3] are zero (R58). -/
def cmpMinor (f : Fields) (k : Cond → IType → Dec) : Dec :=
  if f.minor.getLsbD 7 || f.minor.getLsbD 3 then badMinor else
  match condOf (f.minor.extractLsb' 4 3) with
  | some c => k c (itypeOf (f.minor.extractLsb' 0 3))
  | none => badMinor

/-- Majors 0x00–0x1B (R57, R58, R98). -/
def decodeScalar (f : Fields) : Dec :=
  match f.major with
  | 0x00 => if f.minor = 0x01 then
      row f false false (f.a == 0 && f.b == 0 && f.c == 0 && f.d == 0 && f.e == 0 && f.imm == 0) (.ok (.nop f.ct))
    else badMinor
  | 0x01 => match f.minor with
    | 0 => rowG3 f (.add f.ct f.a f.b f.c)
    | 1 => rowG3 f (.sub f.ct f.a f.b f.c)
    | _ => badMinor
  | 0x02 => if f.minor = 0 then rowW f (.addi f.ct f.a f.b (imm42 f)) else badMinor
  | 0x03 => match f.minor with
    | 0 => rowG3 f (.mul f.ct f.a f.b f.c)
    | 1 => rowG3 f (.mulh f.ct f.a f.b f.c)
    | 2 => rowG3 f (.mulhn f.ct f.a f.b f.c)
    | _ => badMinor
  | 0x04 => match f.minor with
    | 0 => rowG3 f (.div f.ct f.a f.b f.c)
    | 1 => rowG3 f (.divn f.ct f.a f.b f.c)
    | 2 => rowG3 f (.rem f.ct f.a f.b f.c)
    | 3 => rowG3 f (.remn f.ct f.a f.b f.c)
    | _ => badMinor
  | 0x05 => match f.minor with
    | 0 => rowG3 f (.and f.ct f.a f.b f.c)
    | 1 => rowG3 f (.or f.ct f.a f.b f.c)
    | 2 => rowG3 f (.xor f.ct f.a f.b f.c)
    | 3 => rowG3 f (.andn f.ct f.a f.b f.c)
    | _ => badMinor
  | 0x06 => match f.minor with
    | 0 => rowW f (.andi f.ct f.a f.b (imm42 f))
    | 1 => rowW f (.ori f.ct f.a f.b (imm42 f))
    | 2 => rowW f (.xori f.ct f.a f.b (imm42 f))
    | _ => badMinor
  | 0x07 => match f.minor with
    | 0 | 4 => rowShift f (.shl f.ct f.a f.b)
    | 1 | 5 => rowShift f (.shr f.ct f.a f.b)
    | 2 | 6 => rowShift f (.sra f.ct f.a f.b)
    | 3 | 7 => rowShift f (.rol f.ct f.a f.b)
    | _ => badMinor
  | 0x08 => match f.minor with
    | 0 => rowG2 f (.clz f.ct f.a f.b)
    | 1 => rowG2 f (.ctz f.ct f.a f.b)
    | 2 => rowG2 f (.popc f.ct f.a f.b)
    | _ => badMinor
  | 0x09 => match f.minor with
    | 0 => rowG3 f (.min f.ct f.a f.b f.c)
    | 1 => rowG3 f (.max f.ct f.a f.b f.c)
    | 2 => rowG3 f (.minn f.ct f.a f.b f.c)
    | 3 => rowG3 f (.maxn f.ct f.a f.b f.c)
    | _ => badMinor
  | 0x0A => match f.minor with
    | 0 => rowG2 f (.sextB f.ct f.a f.b)
    | 1 => rowG2 f (.sextH f.ct f.a f.b)
    | 2 => rowG2 f (.sextW f.ct f.a f.b)
    | _ => badMinor
  | 0x0B => match f.minor with
    | 0 => rowBf f true (.bfxZ f.ct f.a f.b)
    | 1 => rowBf f true (.bfxS f.ct f.a f.b)
    | _ => badMinor
  | 0x0C => if f.minor = 0 then rowBf f false (.bfi f.ct f.a f.b f.c) else badMinor
  | 0x0D => if f.minor = 0 then
      row f false false (f.e == 0 && f.imm == 0) (pfield 3 f.d fun p => .ok (.sel f.ct f.a f.b f.c p))
    else badMinor
  | 0x0E => if f.minor = 0 then rowG2 f (.mov f.ct f.a f.b) else badMinor
  | 0x0F => if f.minor = 0 then row f false false true (.ok (.movi f.ct f.a (imm56 f))) else badMinor
  | 0x10 => if f.minor = 0 then
      row f false false (f.b == 0 && f.c == 0 && f.d == 0 && f.e == 0 && f.imm.extractLsb' 8 20 == 0)
        (.ok (.movhi f.ct f.a (f.imm.extractLsb' 0 8)))
    else badMinor
  | 0x11 => if f.minor = 0 then
      row f false false (f.d == 0 && f.e == 0 && noTa f) (.ok (.lea f.ct f.a f.b (addrOf f)))
    else badMinor
  | 0x12 => cmpMinor f fun c t => row f false false (f.d == 0 && f.e == 0 && f.imm == 0)
      (pfield 0 f.a fun p => .ok (.cmp f.ct c t p f.b f.c))
  | 0x13 => cmpMinor f fun c t => row f false false (f.c == 0)
      (pfield 0 f.a fun p => .ok (.cmpi f.ct c t p f.b (imm42 f)))
  | 0x14 =>
    let p3 (k : PReg → PReg → PReg → Instr) : Dec := row f false false (f.d == 0 && f.e == 0 && f.imm == 0)
      (pfield 0 f.a fun a => pfield 1 f.b fun b => pfield 2 f.c fun c => .ok (k a b c))
    match f.minor with
    | 0 => p3 (.pand f.ct)
    | 1 => p3 (.por f.ct)
    | 2 => p3 (.pxor f.ct)
    | 3 => row f false false (f.c == 0 && f.d == 0 && f.e == 0 && f.imm == 0)
        (pfield 0 f.a fun a => pfield 1 f.b fun b => .ok (.pnot f.ct a b))
    | _ => badMinor
  | 0x15 => if f.minor = 0 then rowCode f true (.br f.ct (imm56 f)) else badMinor
  | 0x16 => if f.minor = 0 then
      row f false false (f.a == 0 && f.c == 0 && f.d == 0 && f.e == 0 && f.imm == 0) (.ok (.jmp f.ct f.b))
    else badMinor
  | 0x17 => if f.minor = 0 then rowCode f true (.call f.ct (imm56 f)) else badMinor
  | 0x18 => if f.minor = 0 then
      row f false false (f.a == 0 && f.c == 0 && f.d == 0 && f.e == 0 && f.imm == 0) (.ok (.callr f.ct f.b))
    else badMinor
  | 0x19 => if f.minor = 0 then
      row f false false (f.a == 0 && f.b == 0 && f.c == 0 && f.d == 0 && f.e == 0 && f.imm == 0) (.ok (.ret f.ct))
    else badMinor
  | 0x1A => if f.minor = 0 then rowCode f false (.loop f.ct f.a (imm56 f)) else badMinor
  | 0x1B => if f.minor = 0 then
      row f false false (f.b == 0 && f.c == 0 && f.d == 0 && f.e == 0 && f.imm.extractLsb' 2 26 == 0)
        (.ok (.coord f.ct f.a (match f.imm.extractLsb' 0 2 with
          | 0 => .x | 1 => .y | 2 => .z | _ => .lin)))
    else badMinor
  | _ => .error (.illop 0x01)

/-- The size of a scalar load or store minor (R59). -/
def sizeOf (x : BitVec 2) : Size :=
  match x with
  | 0 => .b | 1 => .h | 2 => .w | _ => .d

/-- The element width of a gather or scatter minor (R130). -/
def gwidthOf (x : BitVec 8) : Option GWidth :=
  match x with
  | 0 => some .h | 1 => some .w | 2 => some .d | _ => none

/-- A scalar load or store with a base that may be a tile (R130). -/
def rowMem (f : Fields) (used : Bool) (k : Base → Dec) : Dec := row f true true used (baseOf f k)

/-- Majors 0x30–0x3E (R59, R130). -/
def decodeMemory (f : Fields) : Dec :=
  match f.major with
  | 0x30 =>
    if f.minor.toNat < 7 then rowMem f (f.d == 0 && f.e == 0) fun b =>
      .ok (.ld f.ct (sizeOf (f.minor.extractLsb' 0 2)) (f.minor.getLsbD 2) f.a b (addrOf f))
    else badMinor
  | 0x31 =>
    if f.minor.toNat < 4 then rowMem f (f.d == 0 && f.e == 0) fun b =>
      .ok (.st f.ct (sizeOf (f.minor.extractLsb' 0 2)) f.a b (addrOf f))
    else badMinor
  | 0x32 => if f.minor = 0 then rowMem f (f.e == 0) fun b => .ok (.ldq f.ct f.a f.d b (addrOf f)) else badMinor
  | 0x33 => if f.minor = 0 then rowMem f (f.e == 0) fun b => .ok (.stq f.ct f.a f.d b (addrOf f)) else badMinor
  | 0x34 => if f.minor = 0 then row f true true (f.e == 0) (vfield 0 f.a fun a => baseOf f fun b =>
      vfield 3 f.d fun d => .ok (.ldv f.ct a d b (addrOf f))) else badMinor
  | 0x35 => if f.minor = 0 then row f true true (f.e == 0) (vfield 0 f.a fun a => baseOf f fun b =>
      vfield 3 f.d fun d => .ok (.stv f.ct a d b (addrOf f))) else badMinor
  | 0x36 => match gwidthOf f.minor with
    | some g => row f true true (f.e == 0) (vfield 0 f.a fun a => baseOf f fun b => vfield 2 f.c fun c =>
        pfield 3 f.d fun k => .ok (.ldvx f.ct g a b c k (addrOf f).shift (addrOf f).off))
    | none => badMinor
  | 0x37 => match gwidthOf f.minor with
    | some g => row f true true (f.e == 0) (vfield 0 f.a fun a => baseOf f fun b => vfield 2 f.c fun c =>
        pfield 3 f.d fun k => .ok (.stvx f.ct g a b c k (addrOf f).shift (addrOf f).off))
    | none => badMinor
  | 0x38 => match f.minor with
    | 0 => row f true true (noTa f) (pfield 3 f.d fun p => .ok (.ldf f.ct f.a f.b (addrOf f) p f.e))
    | 1 => row f true true (noTa f) (pfield 3 f.d fun p => .ok (.ldfe f.ct f.a f.b (addrOf f) p f.e))
    | _ => badMinor
  | 0x39 => match f.minor with
    | 0 => row f true true (f.d == 0 && f.e == 0 && noTa f) (.ok (.stf f.ct f.a f.b (addrOf f)))
    | 1 => row f true true (noTa f) (pfield 3 f.d fun p => .ok (.stef f.ct f.a f.b (addrOf f) p f.e))
    | _ => badMinor
  | 0x3A => if f.minor = 0 then row f true false (f.d == 0 && f.e == 0 && noTa f)
      (pfield 0 f.a fun p => .ok (.sete f.ct p f.b (addrOf f))) else badMinor
  | 0x3B => match f.minor with
    | 0 => row f false false (f.d == 0 && f.e == 0 && f.imm == 0) (tfield 0 f.a fun t => .ok (.tdef f.ct t f.b f.c))
    | 1 => row f false false (f.b == 0 && f.c == 0 && f.d == 0 && f.e == 0 && f.imm.extractLsb' 1 27 == 0)
        (tfield 0 f.a fun t => .ok (.trel f.ct t (f.imm.getLsbD 0)))
    | 2 => row f false false (f.c == 0 && f.d == 0 && f.e == 0 && f.imm == 0)
        (tfield 1 f.b fun t => .ok (.tstat f.ct f.a t))
    | _ => badMinor
  | 0x3C =>
    let p (lv : CacheLevel) : Dec := row f false true (f.a == 0 && f.d == 0 && f.e == 0 && noTa f)
      (.ok (.pref f.ct lv f.b (addrOf f)))
    match f.minor with
    | 0 => p .l1
    | 1 => p .l2
    | _ => badMinor
  | 0x3D => match f.minor with
    | 0 => row f true true (f.a == 0 && f.d == 0 && f.e == 0 && noTa f) (.ok (.wbl f.ct f.b (addrOf f)))
    | 1 => row f true true (f.a == 0 && f.d == 0 && f.e == 0 && noTa f) (.ok (.zline f.ct f.b (addrOf f)))
    | _ => badMinor
  | 0x3E => if f.minor = 0 then row f true false (f.d == 0 && f.e == 0 && noTa f)
      (.ok (.rgnq f.ct f.a f.b (addrOf f))) else badMinor
  | _ => .error (.illop 0x01)

/-- PHASE, FENCE and DFENCE: the minor is the scope code 0x01–0x05 (R59, R184). -/
def rowScope (f : Fields) (k : Scope → Instr) : Dec :=
  if f.minor.extractLsb' 3 5 ≠ 0 then badMinor else
  scopeIn (f.minor.extractLsb' 0 3) 1 5 fun s =>
    row f false false (f.a == 0 && f.b == 0 && f.c == 0 && f.d == 0 && f.e == 0 && f.imm == 0) (.ok (k s))

/-- LDNOW and STNOW: the size in MINOR[5:3], the scope in MINOR[2:0]; D is used by .Q alone (R184). -/
def rowNow (f : Fields) (k : Size → Scope → Dec) : Dec :=
  if f.minor.getLsbD 7 then badMinor else
  let sz : Option Size := match f.minor.extractLsb' 3 3 with
    | 0 => some .b | 1 => some .h | 2 => some .w | 3 => some .d | 4 => some .q | _ => none
  match sz with
  | none => badMinor
  | some s => scopeIn (f.minor.extractLsb' 0 3) 2 5 fun sc =>
      row f (!f.minor.getLsbD 6) false (f.e == 0 && noTa f && (s == .q || f.d == 0)) (k s sc)

/-- Majors 0x50–0x55 (R59, R184). -/
def decodeOrdering (f : Fields) : Dec :=
  match f.major with
  | 0x50 => rowScope f (.phase f.ct)
  | 0x51 => rowScope f (.fence f.ct)
  | 0x52 => rowScope f (.dfence f.ct)
  | 0x53 => match f.minor with
    | 0 => row f false false (f.d == 0 && f.e == 0)
        (pfield 0 f.a fun p => tlfield 1 f.b fun t => .ok (.tlwait f.ct p t f.c f.imm))
    | 1 => row f false false (f.c == 0 && f.d == 0 && f.e == 0 && f.imm.extractLsb' 1 27 == 0)
        (tlfield 1 f.b fun t => .ok (.tlread f.ct f.a t (f.imm.getLsbD 0)))
    | _ => badMinor
  | 0x54 => rowNow f fun sz sc => .ok (.ldnow f.ct (f.minor.getLsbD 6) sz sc f.a f.b (addrOf f) f.d)
  | 0x55 => rowNow f fun sz sc => .ok (.stnow f.ct (f.minor.getLsbD 6) sz sc f.a f.b (addrOf f) f.d)
  | _ => .error (.illop 0x01)

/-- The AMO operation of a code (R205). -/
def amoOf (x : BitVec 4) : Option AmoOp :=
  match x with
  | 0 => some .add | 1 => some .and | 2 => some .or | 3 => some .xor | 4 => some .min | 5 => some .max
  | 6 => some .minn | 7 => some .maxn | 8 => some .swap | _ => none

/-- The RED operation of a code (R205). -/
def redOf (x : BitVec 4) : Option RedOp :=
  match x with
  | 0x0 => some (.flt false .add) | 0x1 => some (.flt false .min) | 0x2 => some (.flt false .max)
  | 0x3 => some (.flt true .add) | 0x4 => some (.flt true .min) | 0x5 => some (.flt true .max)
  | 0x8 => some (.int .add) | 0x9 => some (.int .min) | 0xA => some (.int .max) | 0xB => some (.int .minn)
  | 0xC => some (.int .maxn) | 0xD => some (.int .and) | 0xE => some (.int .or) | 0xF => some (.int .xor)
  | _ => none

/-- The accumulator operation of an ID or op code (R195, R314). -/
def accOpOf (x : BitVec 2) : Option AccOp :=
  match x with
  | 0 => some .add | 1 => some .min | 2 => some .max | _ => none

/-- Majors 0x58–0x63 (R60, R205). -/
def decodeAtomic (f : Fields) : Dec :=
  let ar := f.minor.getLsbD 7
  let sc := f.minor.extractLsb' 0 3
  match f.major with
  | 0x58 => match amoOf (f.minor.extractLsb' 3 4) with
    | some op => scopeIn sc 1 5 fun s => row f (!ar) false (f.e == 0 && noTa f)
        (.ok (.amo f.ct ar op s f.a f.b (addrOf f) f.d))
    | none => badMinor
  | 0x59 => match amoOf (f.minor.extractLsb' 3 4) with
    | some op => scopeIn sc 1 5 fun s => row f (!ar) false (f.c == 0)
        (.ok (.amoi f.ct ar op s f.a f.b ((imm42 f).extractLsb' 20 22) ((imm42 f).extractLsb' 0 20)))
    | none => badMinor
  | 0x5A => if f.minor.extractLsb' 4 3 ≠ 0 then badMinor else
      scopeIn sc 1 5 fun s => row f (!ar) false (noTa f)
        (pfield 4 f.e fun p => .ok (.cas f.ct ar (f.minor.getLsbD 3) s f.a f.b (addrOf f) f.d p))
  | 0x5B => if f.minor.extractLsb' 3 4 ≠ 0 then badMinor else
      scopeIn sc 1 5 fun s => row f (!ar) false (noTa f)
        (pfield 4 f.e fun p => .ok (.casq f.ct ar s f.a f.b (addrOf f) f.d p))
  | 0x5C => match redOf (f.minor.extractLsb' 3 4) with
    | some op => scopeIn sc 1 4 fun s => row f true false (f.d == 0 && f.e == 0 && noTa f)
        (.ok (.red f.ct ar op s f.a f.b (addrOf f)))
    | none => badMinor
  | 0x5D => if f.minor.extractLsb' 5 2 ≠ 0 then badMinor else match accOpOf (f.minor.extractLsb' 3 2) with
    | some op => scopeIn sc 1 4 fun s => row f true false (noTa f)
        (vfield 0 f.a fun a => vfield 3 f.d fun d => pfield 4 f.e fun k =>
          .ok (.redv f.ct ar op s a d f.b (addrOf f) k))
    | none => badMinor
  | 0x5E => if f.minor.getLsbD 4 then badMinor else match accOpOf (f.minor.extractLsb' 5 2) with
    | some op => scopeIn sc 1 4 fun s =>
        row f true false (f.a == 0 && (ar || f.c == 0) && f.d == 0 && f.e == 0)
          (.ok (.acinit f.ct (if ar then some f.c else none) op
            (if f.minor.getLsbD 3 then .acc64 else .acc32) s f.b (rangeOf f)))
    | none => badMinor
  | 0x5F => if f.minor.extractLsb' 3 5 ≠ 0 then badMinor else
      let clr := f.minor.getLsbD 2
      match f.minor.extractLsb' 0 2 with
      | 0 => row f true false (f.d == 0 && f.e == 0 && noTa f) (.ok (.acread f.ct (.w clr f.a) f.b (addrOf f)))
      | 1 => row f true false (f.d == 0 && f.e == 0 && noTa f) (.ok (.acread f.ct (.d clr f.a) f.b (addrOf f)))
      | 2 => row f true false (f.e == 0 && noTa f) (vfield 0 f.a fun a => vfield 3 f.d fun d =>
          .ok (.acread f.ct (.v clr a d) f.b (addrOf f)))
      | _ => if clr then badMinor else
          row f true false (f.d == 0 && f.e == 0 && noTa f) (.ok (.acread f.ct (.hdr f.a) f.b (addrOf f)))
  | 0x60 => if f.minor = 0 then row f false false (f.d == 0 && f.e == 0)
      (pfield 0 f.a fun p => .ok (.acchain f.ct p f.b f.c (rangeOf f))) else badMinor
  | 0x61 => if f.minor.extractLsb' 1 7 ≠ 0 then badMinor else
      row f true false (f.a == 0 && f.c == 0 && f.d == 0 && f.e == 0)
        (.ok (.acflush f.ct (f.minor.getLsbD 0) f.b (rangeOf f)))
  | 0x62 => if f.minor = 0 then row f true false (f.a == 0 && f.d == 0 && f.e == 0)
      (.ok (.acckpt f.ct f.b f.c (rangeOf f))) else badMinor
  | 0x63 => if f.minor = 0 then row f true false (f.a == 0 && f.d == 0 && f.e == 0)
      (.ok (.acrstr f.ct f.b f.c (rangeOf f))) else badMinor
  | _ => .error (.illop 0x01)

/-- The timeout of a wait: IMM28, or E when MINOR[7] is set (R228, R233, R277). -/
def tmoOf (f : Fields) : Timeout := if f.minor.getLsbD 7 then .reg f.e else .imm f.imm
/-- The field the timeout does not use is zero. -/
def tmoOk (f : Fields) : Bool := if f.minor.getLsbD 7 then f.imm == 0 else f.e == 0

/-- Majors 0x68–0x75 (R60, R228, R233, R240, R243). -/
def decodeMessage (f : Fields) : Dec :=
  match f.major with
  | 0x68 => if f.minor.extractLsb' 2 6 ≠ 0 then badMinor else
      row f true false (f.c == 0 && f.d == 0 && f.e == 0 && f.imm == 0)
        (.ok (.send f.ct (f.minor.getLsbD 1) (f.minor.getLsbD 0) f.a f.b))
  | 0x69 => if f.minor.extractLsb' 2 6 ≠ 0 then badMinor else
      row f true false (f.d == 0 && f.e == 0 && f.imm == 0) (vfield 1 f.b fun b => vfield 2 f.c fun c =>
        .ok (.sendv f.ct (f.minor.getLsbD 1) (f.minor.getLsbD 0) f.a b c))
  | 0x6A => if f.minor.extractLsb' 1 5 ≠ 0 then badMinor else
      row f false false (tmoOk f && (f.minor.getLsbD 0 || f.d == 0))
        (if f.minor.getLsbD 0 then vfield 0 f.a fun a => pfield 2 f.c fun p => vfield 3 f.d fun d =>
            .ok (.recv f.ct (f.minor.getLsbD 6) (.line a d) f.b p (tmoOf f))
         else pfield 2 f.c fun p => .ok (.recv f.ct (f.minor.getLsbD 6) (.dword f.a) f.b p (tmoOf f)))
  | 0x6B => if f.minor.extractLsb' 1 5 ≠ 0 || f.minor.getLsbD 7 then badMinor else
      row f true false (f.e == 0 && f.imm == 0 && (f.minor.getLsbD 0 || f.d == 0))
        (if f.minor.getLsbD 0 then vfield 0 f.a fun a => pfield 2 f.c fun p => vfield 3 f.d fun d =>
            .ok (.recvp f.ct (f.minor.getLsbD 6) (.line a d) f.b p)
         else pfield 2 f.c fun p => .ok (.recvp f.ct (f.minor.getLsbD 6) (.dword f.a) f.b p))
  | 0x6C => if f.minor.extractLsb' 1 7 ≠ 0 then badMinor else
      row f false false (f.d == 0 && noTa f)
        (pfield 0 f.a fun p => .ok (.waitfe f.ct (f.minor.getLsbD 0) p f.b (addrOf f) f.e))
  | 0x6D => if f.minor.extractLsb' 0 6 ≠ 0 then badMinor else
      row f false false (f.c == 0 && f.d == 0 && tmoOk f)
        (pfield 0 f.a fun p => .ok (.waitb f.ct (f.minor.getLsbD 6) p f.b (tmoOf f)))
  | 0x6E => if f.minor.extractLsb' 0 5 ≠ 0 then badMinor else
      row f false false (f.d == 0 && tmoOk f)
        (pfield 0 f.a fun p => .ok (.waitc f.ct (f.minor.getLsbD 6) p f.b
          (if f.minor.getLsbD 5 then .reg f.c else .imm f.c) (tmoOf f)))
  | 0x6F => if f.minor.extractLsb' 3 5 ≠ 0 then badMinor else
      scopeIn (f.minor.extractLsb' 0 3) 2 5 fun s => row f true false (f.a == 0 && f.e == 0 && f.imm == 0)
        (.ok (.binit f.ct s f.b f.c f.d))
  | 0x70 => if f.minor ≠ 0x00 && f.minor ≠ 0x40 then badMinor else
      row f true false (f.d == 0 && f.e == 0 && f.imm == 0) (.ok (.barr f.ct (f.minor.getLsbD 6) f.a f.b f.c))
  | 0x71 => if f.minor.extractLsb' 6 2 ≠ 0 then badMinor else
      scopeIn (f.minor.extractLsb' 0 3) 2 5 fun s =>
        row f true false (noTa f && (f.minor.getLsbD 5 || f.e == 0))
          (.ok (.stc f.ct (sizeOf (f.minor.extractLsb' 3 2)) s f.a f.b (addrOf f) f.d
            (if f.minor.getLsbD 5 then some f.e else none)))
  | 0x72 => if f.minor.extractLsb' 4 4 ≠ 0 then badMinor else
      row f true false (f.c == 0 && f.d == 0 && f.e == 0 && f.imm == 0)
        (.ok (.bread f.ct f.a f.b (f.minor.extractLsb' 0 4)))
  | 0x73 => if f.minor = 0 then row f true false (f.c == 0 && f.d == 0 && f.e == 0 && f.imm == 0)
      (.ok (.qwave f.ct f.a f.b)) else badMinor
  | 0x74 => if f.minor = 0 then row f true false (f.a == 0 && f.c == 0 && f.d == 0 && f.e == 0 && f.imm == 0)
      (.ok (.qreset f.ct f.b)) else badMinor
  | 0x75 => if f.minor = 0 then row f false false (f.a == 0 && f.c == 0 && (imm42 f).extractLsb' 40 2 == 0)
      (.ok (.sleep f.ct f.b ((imm42 f).extractLsb' 0 40))) else badMinor
  | _ => .error (.illop 0x01)

/-- Majors 0x78–0x85 (R60, R277). -/
def decodeTask (f : Fields) : Dec :=
  match f.major with
  | 0x78 => if f.minor = 0 then row f true false (f.c == 0 && f.d == 0 && f.e == 0 && f.imm == 0)
      (.ok (.launch f.ct f.a f.b)) else badMinor
  | 0x79 => if f.minor = 0 then rowCode f false (.fork f.ct f.a (imm56 f)) else badMinor
  | 0x7A => if f.minor.extractLsb' 0 7 ≠ 0 then badMinor else
      row f false false (f.c == 0 && f.d == 0 && tmoOk f) (pfield 0 f.a fun p => .ok (.join f.ct p f.b (tmoOf f)))
  | 0x7B => if f.minor = 0 then row f false false (f.a == 0 && f.d == 0 && f.e == 0 && f.imm == 0)
      (.ok (.jinit f.ct f.b f.c)) else badMinor
  | 0x7C => match f.minor with
    | 0 => row f false false (f.a == 0 && f.d == 0 && f.e == 0) (.ok (.suspend f.ct f.b f.c .plain f.imm))
    | 1 => row f false false (f.a == 0) (tlfield 4 f.e fun t => .ok (.suspend f.ct f.b f.c (.tl f.d t) f.imm))
    | 2 => row f false false (f.a == 0 && f.e == 0) (.ok (.suspend f.ct f.b f.c (.bar f.d) f.imm))
    | 3 => row f false false (f.a == 0 && f.e == 0) (.ok (.suspend f.ct f.b f.c (.join f.d) f.imm))
    | _ => badMinor
  | 0x7D => if f.minor = 0 then row f false false (f.c == 0 && f.d == 0 && f.e == 0 && f.imm == 0)
      (pfield 0 f.a fun p => .ok (.resume f.ct p f.b)) else badMinor
  | 0x7E => if f.minor = 0 then row f false false (f.a == 0 && f.d == 0 && f.e == 0 && noTa f)
      (.ok (.migrate f.ct f.b (addrOf f))) else badMinor
  | 0x7F => if f.minor = 0 then
      row f false false (f.a == 0 && f.b == 0 && f.c == 0 && f.d == 0 && f.e == 0 && f.imm == 0) (.ok (.endt f.ct))
    else badMinor
  | 0x80 => if f.minor = 0 then
      row f false false (f.a == 0 && f.b == 0 && f.c == 0 && f.d == 0 && f.e == 0 && f.imm == 0) (.ok (.exit f.ct))
    else badMinor
  | 0x81 => if f.minor = 0 then row f false false (f.a == 0 && f.c == 0 && f.d == 0 && f.e == 0 && f.imm == 0)
      (.ok (.setpri f.ct f.b)) else badMinor
  | 0x82 => if f.minor = 0 then row f false false (f.b == 0 && f.c == 0 && f.d == 0 && f.e == 0 && f.imm == 0)
      (pfield 0 f.a fun p => .ok (.yield f.ct p)) else badMinor
  | 0x83 => if f.minor = 0 then
      row f false false (f.a == 0 && f.b == 0 && f.c == 0 && f.d == 0 && f.e == 0 && f.imm.extractLsb' 8 20 == 0)
        (.ok (.lend f.ct (f.imm.extractLsb' 0 8))) else badMinor
  | 0x84 => if f.minor = 0 then row f false false (f.b == 0 && f.c == 0 && f.d == 0 && f.e == 0 && f.imm == 0)
      (.ok (.dqlen f.ct f.a)) else badMinor
  | 0x85 => if f.minor.extractLsb' 1 7 ≠ 0 then badMinor else
      row f false false (f.b == 0 && f.c == 0 && f.d == 0 && f.e == 0 && f.imm == 0)
        (.ok (.aqspill f.ct (f.minor.getLsbD 0) f.a))
  | _ => .error (.illop 0x01)

/-- A lane type accepted by `ok`, named by MINOR[3:0] with MINOR[7:4] zero. -/
def vtyped (f : Fields) (ok : VType → Bool) (k : VType → Dec) : Dec :=
  if f.minor.extractLsb' 4 4 ≠ 0 then badMinor else
  match vtypeOf (f.minor.extractLsb' 0 4) with
  | some t => if ok t then k t else badMinor
  | none => badMinor

/-- A width code in MINOR. -/
def vsized (f : Fields) (k : VWidth → Dec) : Dec :=
  match vwidthOf f.minor with
  | some wd => k wd
  | none => badMinor

/-- Operands A, B, C in V registers and a mask in E. -/
def rowV3 (f : Fields) (k : VReg → VReg → VReg → KReg → VCtl → Instr) : Dec :=
  row f false false (f.d == 0 && vctlOk f) (vfield 0 f.a fun a => vfield 1 f.b fun b => vfield 2 f.c fun c =>
    pfield 4 f.e fun m => .ok (k a b c m (vctlOf f)))
/-- Operands A, B, C, D in V registers and a mask in E. -/
def rowV4 (f : Fields) (k : VReg → VReg → VReg → VReg → KReg → VCtl → Instr) : Dec :=
  row f false false (vctlOk f) (vfield 0 f.a fun a => vfield 1 f.b fun b => vfield 2 f.c fun c =>
    vfield 3 f.d fun d => pfield 4 f.e fun m => .ok (k a b c d m (vctlOf f)))
/-- Operands A and B in V registers and a mask in E. -/
def rowV2 (f : Fields) (l : Bool) (k : VReg → VReg → KReg → VCtl → Instr) : Dec :=
  row f l false (f.c == 0 && f.d == 0 && vctlOk f) (vfield 0 f.a fun a => vfield 1 f.b fun b =>
    pfield 4 f.e fun m => .ok (k a b m (vctlOf f)))
/-- VSHL and VSHR: MINOR[4] selects the immediate amount (R306). -/
def rowVShift (f : Fields) (k : VType → VReg → VReg → VShift → KReg → VCtl → Instr) : Dec :=
  if f.minor.extractLsb' 5 3 ≠ 0 then badMinor else
  match vtypeOf (f.minor.extractLsb' 0 4) with
  | some t =>
    if !t.isI then badMinor
    else if f.minor.getLsbD 4 then
      row f false false (f.c == 0 && f.d == 0 && vctlAmtOk f) (vfield 0 f.a fun a => vfield 1 f.b fun b =>
        pfield 4 f.e fun m => .ok (k t a b (.imm (f.imm.extractLsb' 0 6)) m (vctlOf f)))
    else
      row f false false (f.d == 0 && vctlOk f) (vfield 0 f.a fun a => vfield 1 f.b fun b => vfield 2 f.c fun c =>
        pfield 4 f.e fun m => .ok (k t a b (.lanes c) m (vctlOf f)))
  | none => badMinor
/-- VIADD and VISUB: MINOR[4] is .SAT (R306). -/
def rowVSat (f : Fields) (k : Bool → VType → VReg → VReg → VReg → KReg → VCtl → Instr) : Dec :=
  if f.minor.extractLsb' 5 3 ≠ 0 then badMinor else
  match vtypeOf (f.minor.extractLsb' 0 4) with
  | some t => if t.isI then rowV3 f (k (f.minor.getLsbD 4) t) else badMinor
  | none => badMinor
/-- A special-function row: minor 0x00 (R306). -/
def rowSfu (f : Fields) (k : VReg → VReg → KReg → VCtl → Instr) : Dec :=
  if f.minor = 0 then rowV2 f true k else badMinor

/-- The condition of a VCMP (R308). -/
def vcondOf (x : BitVec 3) : Option VCond :=
  if x = 6 then some .un else (condOf x).map .ord

/-- The types a VCMP condition accepts (R308). -/
def vcmpOk (c : VCond) (t : VType) : Bool :=
  match c with
  | .un => t.isF
  | .ord _ => t.isF || t.isI

/-- Majors 0x88–0xA2 (R61, R306). -/
def decodeVector (f : Fields) : Dec :=
  match f.major with
  | 0x88 => vtyped f VType.isF fun t => rowV3 f (.vadd f.ct t)
  | 0x89 => vtyped f VType.isF fun t => rowV3 f (.vsub f.ct t)
  | 0x8A => vtyped f VType.isF fun t => rowV3 f (.vmul f.ct t)
  | 0x8B => vtyped f VType.isF fun t => rowV4 f (.vfma f.ct t)
  | 0x8C => vtyped f VType.isF fun t => rowV4 f (.vfms f.ct t)
  | 0x8D => vtyped f VType.isF fun t => rowV3 f (.vmin f.ct t)
  | 0x8E => vtyped f VType.isF fun t => rowV3 f (.vmax f.ct t)
  | 0x8F => vtyped f VType.isF fun t => rowV2 f false (.vabs f.ct t)
  | 0x90 => vtyped f VType.isF fun t => rowV2 f false (.vneg f.ct t)
  | 0x91 => if f.minor.getLsbD 7 then badMinor else
      match vcondOf (f.minor.extractLsb' 4 3), vtypeOf (f.minor.extractLsb' 0 4) with
      | some c, some t => if !vcmpOk c t then badMinor else
          row f false false (f.d == 0 && vctlOk f) (pfield 0 f.a fun a => vfield 1 f.b fun b =>
            vfield 2 f.c fun c' => pfield 4 f.e fun m => .ok (.vcmp f.ct c t a b c' m (vctlOf f)))
      | _, _ => badMinor
  | 0x92 => vsized f fun wd => row f false false (f.e == 0 && vctlOk f) (vfield 0 f.a fun a => vfield 1 f.b fun b =>
      vfield 2 f.c fun c => pfield 3 f.d fun m => .ok (.vsel f.ct wd a b c m (vctlOf f)))
  | 0x93 => match vtypeOf (f.minor.extractLsb' 4 4), vtypeOf (f.minor.extractLsb' 0 4) with
    | some s, some t => if cvtPair s t then rowV2 f false (.vcvt f.ct s t) else badMinor
    | _, _ => badMinor
  | 0x94 => vsized f fun wd => rowV4 f (.vshuf f.ct wd)
  | 0x95 => vsized f fun wd => row f false false (f.c == 0 && f.d == 0 && vctlOk f) (vfield 0 f.a fun a =>
      pfield 4 f.e fun m => .ok (.vbcast f.ct wd a f.b m (vctlOf f)))
  | 0x96 => if f.minor.extractLsb' 6 2 ≠ 0 then badMinor else
      match accOpOf (f.minor.extractLsb' 4 2), vtypeOf (f.minor.extractLsb' 0 4) with
      | some op, some t => if !t.isF then badMinor else
          row f false false (f.c == 0 && f.d == 0 && vctlOk f) (vfield 1 f.b fun b => pfield 4 f.e fun m =>
            .ok (.vred f.ct op t f.a b m (vctlOf f)))
      | _, _ => badMinor
  | 0x97 => if f.minor.extractLsb' 6 2 ≠ 0 || f.minor.extractLsb' 0 4 ≠ 0 then badMinor else
      match accOpOf (f.minor.extractLsb' 4 2) with
      | some op => rowV2 f false (.vscan f.ct op)
      | none => badMinor
  | 0x98 => rowVSat f (.viadd f.ct)
  | 0x99 => rowVSat f (.visub f.ct)
  | 0x9A => vtyped f VType.isI fun t => rowV3 f (.vimul f.ct t)
  | 0x9B => vsized f fun wd => rowV3 f (.vand f.ct wd)
  | 0x9C => vsized f fun wd => rowV3 f (.vor f.ct wd)
  | 0x9D => vsized f fun wd => rowV3 f (.vxor f.ct wd)
  | 0x9E => rowVShift f (.vshl f.ct)
  | 0x9F => rowVShift f (.vshr f.ct)
  | 0xA0 => vtyped f (fun t => t.isF || t == .f8) fun t => row f false false (f.d == 0 && vctlOk f)
      (vfield 1 f.b fun b => vfield 2 f.c fun c => pfield 4 f.e fun m => .ok (.vdot f.ct t f.a b c m (vctlOf f)))
  | 0xA1 => if f.minor.extractLsb' 1 7 ≠ 0 then badMinor else row f false false (f.d == 0 && vctlOk f)
      (vfield 0 f.a fun a => vfield 1 f.b fun b => pfield 4 f.e fun m =>
        .ok (.vsp2 f.ct (f.minor.getLsbD 0) a b f.c m (vctlOf f)))
  | 0xA2 => vsized f fun wd => rowV2 f false (.vmov f.ct wd)
  | _ => .error (.illop 0x01)

/-- The stream operand of SCFG, SSTART, SSTOP: nothing else is used but what `used` allows. -/
def rowStream (f : Fields) (k : VReg → Instr) : Dec :=
  if f.minor = 0 then row f false false (f.b == 0 && f.c == 0 && f.d == 0 && f.e == 0 && f.imm == 0)
    (vfield 0 f.a fun a => .ok (k a)) else badMinor

/-- Majors 0xA3–0xB9 (R61, R306). -/
def decodeStream (f : Fields) : Dec :=
  let k3 (k : KReg → KReg → KReg → Instr) : Dec :=
    if f.minor = 0 then row f false false (f.d == 0 && f.e == 0 && f.imm == 0)
      (pfield 0 f.a fun a => pfield 1 f.b fun b => pfield 2 f.c fun c => .ok (k a b c)) else badMinor
  match f.major with
  | 0xA3 => k3 (.kand f.ct)
  | 0xA4 => k3 (.kor f.ct)
  | 0xA5 => if f.minor = 0 then row f false false (f.c == 0 && f.d == 0 && f.e == 0 && f.imm == 0)
      (pfield 0 f.a fun a => pfield 1 f.b fun b => .ok (.knot f.ct a b)) else badMinor
  | 0xA6 =>
    let used := f.c == 0 && f.d == 0 && f.e == 0 && f.imm == 0
    match f.minor with
    | 0 => row f false false used (pfield 0 f.a fun a => pfield 1 f.b fun b => .ok (.kmov f.ct (.kk a b)))
    | 1 => row f false false used (pfield 0 f.a fun a => .ok (.kmov f.ct (.kg a f.b)))
    | 2 => row f false false used (pfield 1 f.b fun b => .ok (.kmov f.ct (.gk f.a b)))
    | _ => badMinor
  | 0xA7 => if f.minor.extractLsb' 4 4 ≠ 0 then badMinor else
      let n := f.minor.getLsbD 3
      row f false false (f.c == 0 && f.d == 0 && f.e == 0 && (!n || f.imm == 0))
        (vfield 0 f.a fun a => .ok (.scfg f.ct (f.minor.getLsbD 2) (f.minor.extractLsb' 0 2) a
          (if n then .desc f.b else .one f.b f.imm)))
  | 0xA8 => rowStream f (.sstart f.ct)
  | 0xA9 => rowStream f (.sstop f.ct)
  | 0xAA => if f.minor = 0 then row f false false (f.c == 0 && f.d == 0 && f.e == 0 && f.imm == 0)
      (vfield 1 f.b fun b => .ok (.sstat f.ct f.a b)) else badMinor
  | 0xAB => rowSfu f (.vexp f.ct)
  | 0xAC => rowSfu f (.vexp2 f.ct)
  | 0xAD => rowSfu f (.vlog2 f.ct)
  | 0xAE => rowSfu f (.vrcp f.ct)
  | 0xAF => rowSfu f (.vrsq f.ct)
  | 0xB0 => rowSfu f (.vsqrt f.ct)
  | 0xB1 => rowSfu f (.vsin f.ct)
  | 0xB2 => rowSfu f (.vcos f.ct)
  | 0xB3 => rowSfu f (.vtanh f.ct)
  | 0xB4 => if f.minor = 0 then row f false false (f.b == 0 && f.c == 0 && f.d == 0 && f.e == 0 && f.imm == 0)
      (.ok (.rng f.ct f.a)) else badMinor
  | 0xB5 => if f.minor = 0 then row f false false (f.b == 0 && f.c == 0 && f.d == 0 && f.imm == 0)
      (vfield 0 f.a fun a => pfield 4 f.e fun m => .ok (.vrng f.ct a m)) else badMinor
  | 0xB6 => if f.minor = 0 then row f false false (f.b == 0 && f.c == 0 && f.e == 0 && f.imm == 0)
      (.ok (.rngsave f.ct f.a f.d)) else badMinor
  | 0xB7 => if f.minor = 0 then row f false false (f.a == 0 && f.d == 0 && f.e == 0 && f.imm == 0)
      (.ok (.rngload f.ct f.b f.c)) else badMinor
  | 0xB8 => if f.minor = 0 then
      row f false false (f.a == 0 && f.b == 0 && f.c == 0 && f.d == 0 && f.e == 0 && f.imm == 0) (.ok (.rngjump f.ct))
    else badMinor
  | 0xB9 => if f.minor.extractLsb' 1 7 ≠ 0 then badMinor else row f false false (f.imm == 0)
      (vfield 0 f.a fun a => .ok (.cbrng f.ct (f.minor.getLsbD 0) a f.b f.c f.d f.e))
  | _ => .error (.illop 0x01)

/-- A job row of the matrix engine: minor 0x00, marks M L (R342). -/
def rowJob (f : Fields) (used : Bool) (k : Instr) : Dec :=
  if f.minor = 0 then row f true false used (.ok k) else badMinor

/-- Majors 0xC0–0xC7 (R62, R342, R457). -/
def decodeMatrix (f : Fields) : Dec :=
  match f.major with
  | 0xC0 => if f.minor ≠ 0 then badMinor else
      let used := f.d == 0 && f.e == 0 && f.imm.extractLsb' 2 26 == 0
      match f.imm.extractLsb' 0 2 with
      | 0 => row f true false used (.ok (.mldw f.ct .bf16 f.a f.b f.c))
      | 1 => row f true false used (.ok (.mldw f.ct .f8 f.a f.b f.c))
      | 2 => row f true false used (.ok (.mldw f.ct .sp2x f.a f.b f.c))
      | _ => badField
  | 0xC1 => rowJob f (f.b == 0 && f.c == 0 && f.d == 0 && f.e == 0 && f.imm == 0) (.mswap f.ct f.a)
  | 0xC2 => if f.minor ≠ 0 then badMinor else
      let used := f.e == 0 && f.imm.extractLsb' 13 15 == 0 && !f.imm.getLsbD 9
      match f.imm.extractLsb' 10 2 with
      | 0 => row f true false used (.ok (.mstream f.ct .bf16 (f.imm.getLsbD 12) (f.imm.extractLsb' 0 9) f.a f.b f.c f.d))
      | 1 => row f true false used (.ok (.mstream f.ct .f8 (f.imm.getLsbD 12) (f.imm.extractLsb' 0 9) f.a f.b f.c f.d))
      | _ => badField
  | 0xC3 => rowJob f (f.c == 0 && f.d == 0 && f.e == 0 && f.imm == 0) (.mattn f.ct f.a f.b)
  | 0xC4 => rowJob f (f.c == 0 && f.d == 0 && f.e == 0 && f.imm == 0) (.mtags f.ct f.a f.b)
  | 0xC5 => rowJob f (f.c == 0 && f.d == 0 && f.e == 0 && f.imm == 0) (.mcfg f.ct f.a f.b)
  | 0xC6 => rowJob f (f.c == 0 && f.d == 0 && f.e == 0 && f.imm == 0) (.mcancel f.ct f.a f.b)
  | 0xC7 => rowJob f (f.b == 0 && f.c == 0 && f.d == 0 && f.e == 0 && f.imm == 0) (.mqstat f.ct f.a)
  | _ => .error (.illop 0x01)

/-- Majors 0xCC–0xD9 (R62, R373). -/
def decodeRope (f : Fields) : Dec :=
  match f.major with
  | 0xCC => match f.minor with
    | 0 => row f true false (f.a == 0 && f.c == 0 && f.d == 0 && f.e == 0 && f.imm.extractLsb' 4 24 == 0)
        (.ok (.rdesc f.ct (some f.b) (f.imm.extractLsb' 0 4)))
    | 1 => row f true false
        (f.a == 0 && f.b == 0 && f.c == 0 && f.d == 0 && f.e == 0 && f.imm.extractLsb' 4 24 == 0)
        (.ok (.rdesc f.ct none (f.imm.extractLsb' 0 4)))
    | _ => badMinor
  | 0xCD => rowJob f (f.d == 0 && f.e == 0 && f.imm.extractLsb' 4 24 == 0)
      (.rnew f.ct f.a f.b f.c (f.imm.extractLsb' 0 4))
  | 0xCE => rowJob f (f.d == 0 && f.e == 0 && f.imm == 0) (.rcat f.ct f.a f.b f.c)
  | 0xCF => rowJob f (f.e == 0 && f.imm == 0) (.rsplit f.ct f.a f.b f.c f.d)
  | 0xD0 => rowJob f (f.e == 0 && f.imm.extractLsb' 16 12 == 0)
      (.rsplice f.ct f.a f.b f.c f.d (f.imm.extractLsb' 8 8) (f.imm.extractLsb' 0 8))
  | 0xD1 => rowJob f (f.imm == 0) (.rwalk f.ct f.a f.b f.c f.d f.e)
  | 0xD2 => rowJob f (f.e == 0 && f.imm.extractLsb' 3 25 == 0)
      (.rsum f.ct f.a f.b f.c f.d (f.imm.extractLsb' 0 3))
  | 0xD3 => if f.minor.extractLsb' 1 7 ≠ 0 then badMinor else row f true false (f.d == 0 && f.e == 0 && f.imm == 0)
      (.ok (.rget f.ct (f.minor.getLsbD 0) f.a f.b f.c))
  | 0xD4 => rowJob f (f.imm == 0) (.riter f.ct f.a f.b f.c f.d f.e)
  | 0xD5 => rowJob f (f.c == 0 && f.d == 0 && f.e == 0 && f.imm == 0) (.rlen f.ct f.a f.b)
  | 0xD6 => rowJob f (f.a == 0 && f.c == 0 && f.d == 0 && f.e == 0 && f.imm == 0) (.rref f.ct f.b)
  | 0xD7 => rowJob f (f.a == 0 && f.c == 0 && f.d == 0 && f.e == 0 && f.imm == 0) (.rdrop f.ct f.b)
  | 0xD8 => if f.minor.extractLsb' 3 5 ≠ 0 then badMinor else
      scopeIn (f.minor.extractLsb' 0 3) 3 4 fun s => row f true false (f.imm == 0)
        (pfield 0 f.a fun p => .ok (.rpub f.ct s p f.b f.c f.d f.e))
  | 0xD9 => if f.minor.extractLsb' 3 3 ≠ 0 || f.minor.getLsbD 7 then badMinor else
      scopeIn (f.minor.extractLsb' 0 3) 3 4 fun s =>
        row f true false (f.c == 0 && f.e == 0 && f.imm == 0)
          (.ok (.rload f.ct (f.minor.getLsbD 6) s f.a f.b f.d))
  | _ => .error (.illop 0x01)

/-- The collective operation of a code (R392). -/
def collOf (x : BitVec 2) : CollOp :=
  match x with
  | 0 => .allred | 1 => .redscat | 2 => .allgath | _ => .bcast

/-- Majors 0xDC–0xE7 (R62, R392). -/
def decodeEngine (f : Fields) : Dec :=
  match f.major with
  | 0xDC => match f.minor with
    | 0 => row f true false (f.d == 0 && f.e == 0) (.ok (.cpy f.ct f.a f.b f.c (.imm f.imm)))
    | 1 => row f true false (f.e == 0 && f.imm == 0) (.ok (.cpy f.ct f.a f.b f.c (.reg f.d)))
    | _ => badMinor
  | 0xDD => rowJob f (f.c == 0 && f.d == 0 && f.e == 0 && f.imm == 0) (.cpy2d f.ct f.a f.b)
  | 0xDE => match vtypeOf (f.minor.extractLsb' 4 4), vtypeOf (f.minor.extractLsb' 0 4) with
    | some s, some t => if !cvtPair s t then badMinor else row f true false (f.e == 0 && f.imm == 0)
        (.ok (.cpyf f.ct s t f.a f.b f.c f.d))
    | _, _ => badMinor
  | 0xDF => rowJob f (f.imm.extractLsb' 13 15 == 0) (.cpyg f.ct f.a f.b f.c f.d f.e (f.imm.extractLsb' 0 13))
  | 0xE0 => if f.minor.extractLsb' 2 6 ≠ 0 then badMinor else
      let op := collOf (f.minor.extractLsb' 0 2)
      row f true false (f.imm.extractLsb' 14 14 == 0 && f.imm.extractLsb' 6 2 == 0 && (op == .bcast || f.e == 0))
        (.ok (.coll f.ct op f.a f.b f.c f.d f.e (f.imm.extractLsb' 8 6) (f.imm.extractLsb' 0 6)))
  | 0xE1 => rowJob f (f.c == 0 && f.d == 0 && f.e == 0 && f.imm == 0) (.colla f.ct f.a f.b)
  | 0xE2 => rowJob f (f.c == 0 && f.d == 0 && f.e == 0 && f.imm == 0) (.smpl f.ct f.a f.b)
  | 0xE3 => rowJob f (f.c == 0 && f.d == 0 && f.e == 0 && f.imm == 0) (.smplv f.ct f.a f.b)
  | 0xE4 => rowJob f (f.d == 0 && f.e == 0 && f.imm == 0) (.smcommit f.ct f.a f.b f.c)
  | 0xE5 => rowJob f (f.c == 0 && f.d == 0 && f.e == 0 && f.imm == 0) (.smcancel f.ct f.a f.b)
  | 0xE6 => rowJob f (f.a == 0 && f.c == 0 && f.d == 0 && f.e == 0 && f.imm.extractLsb' 5 23 == 0)
      (.treedef f.ct f.b (f.imm.extractLsb' 0 5))
  | 0xE7 =>
    let used := f.b == 0 && f.c == 0 && f.d == 0 && f.e == 0 && f.imm == 0
    match f.minor with
    | 0 => row f true false used (.ok (.engq f.ct .copy f.a))
    | 1 => row f true false used (.ok (.engq f.ct .coll f.a))
    | 2 => row f true false used (.ok (.engq f.ct .press f.a))
    | _ => badMinor
  | _ => .error (.illop 0x01)

/-- Majors 0xEC–0xF9 (R62, R425). -/
def decodeSystem (f : Fields) : Dec :=
  let none5 := f.a == 0 && f.b == 0 && f.c == 0 && f.d == 0 && f.e == 0
  match f.major with
  | 0xEC => if f.minor = 0 then row f false false (f.a == 0 && f.b == 0 && f.c == 0) (.ok (.trap f.ct (imm42 f)))
      else badMinor
  | 0xED => if f.minor = 0 then row f false false (f.a == 0 && f.b == 0 && f.c == 0) (.ok (.sysc f.ct (imm42 f)))
      else badMinor
  | 0xEE => if f.minor = 0 then row f false false (none5 && f.imm == 0) (.ok (.rett f.ct)) else badMinor
  | 0xEF => if f.minor = 0 then
      row f false false (f.b == 0 && f.c == 0 && f.d == 0 && f.e == 0 && f.imm.extractLsb' 12 16 == 0 &&
          srNumbers.contains (f.imm.extractLsb' 0 12).toNat)
        (.ok (.rdsr f.ct f.a (f.imm.extractLsb' 0 12))) else badMinor
  | 0xF0 => if f.minor = 0 then
      row f false false (f.a == 0 && f.c == 0 && f.d == 0 && f.e == 0 && f.imm.extractLsb' 12 16 == 0 &&
          srNumbers.contains (f.imm.extractLsb' 0 12).toNat)
        (.ok (.wrsr f.ct f.b (f.imm.extractLsb' 0 12))) else badMinor
  | 0xF1 => if f.minor.extractLsb' 3 5 ≠ 0 then badMinor else
      scopeIn (f.minor.extractLsb' 0 3) 1 4 fun s => row f true false (f.a == 0 && f.d == 0 && f.e == 0 && f.imm == 0)
        (.ok (.tlbinv f.ct s f.b f.c))
  | 0xF2 => if f.minor = 0 then row f false false (none5 && f.imm == 0) (.ok (.tlbsync f.ct)) else badMinor
  | 0xF3 => if f.minor = 0 then row f true false (f.c == 0 && f.d == 0 && f.e == 0 && f.imm == 0)
      (pfield 0 f.a fun p => .ok (.ctxsave f.ct p f.b)) else badMinor
  | 0xF4 => if f.minor = 0 then row f true false (f.a == 0 && f.c == 0 && f.d == 0 && f.e == 0 && f.imm == 0)
      (.ok (.ctxload f.ct f.b)) else badMinor
  | 0xF5 => if f.minor = 0 then row f false false (none5 && f.imm == 0) (.ok (.halt f.ct)) else badMinor
  | 0xF6 => if f.minor = 0 then row f false false (none5 && f.imm.extractLsb' 16 12 == 0)
      (.ok (.bkpt f.ct (f.imm.extractLsb' 0 16))) else badMinor
  | 0xF7 => if f.minor = 0 then row f true false (f.a == 0 && f.d == 0 && f.e == 0 && noTa f)
      (.ok (.llrcl f.ct f.b (addrOf f))) else badMinor
  | 0xF8 => if f.minor = 0 then
      row f false false (f.a == 0 && f.c == 0 && f.d == 0 && f.e == 0 && f.imm.extractLsb' 3 25 == 0)
        (.ok (.hirq f.ct f.b (f.imm.extractLsb' 0 3))) else badMinor
  | 0xF9 => if f.minor = 0 then
      row f false false (f.a == 0 && f.c == 0 && f.d == 0 && f.e == 0 && f.imm.extractLsb' 2 26 == 0)
        (.ok (.perf f.ct f.b (f.imm.extractLsb' 0 2))) else badMinor
  | _ => .error (.illop 0x01)

/-- The decoder over the fields of a word: the family by its major opcode (R56–R62). -/
def decodeFields (f : Fields) : Dec :=
  let m := f.major.toNat
  if m < 0x30 then decodeScalar f
  else if m < 0x50 then decodeMemory f
  else if m < 0x58 then decodeOrdering f
  else if m < 0x68 then decodeAtomic f
  else if m < 0x78 then decodeMessage f
  else if m < 0x88 then decodeTask f
  else if m < 0xA3 then decodeVector f
  else if m < 0xC0 then decodeStream f
  else if m < 0xCC then decodeMatrix f
  else if m < 0xDC then decodeRope f
  else if m < 0xEC then decodeEngine f
  else decodeSystem f

/-- The decoder of a compute-core word: check 3 of R54 and the decode of its fields. -/
def decodeWord (w : BitVec 96) : Dec :=
  if w = 0 then .error (.illop 0x03) else decodeFields (splitWord w)

/-- The issue classes of R56. -/
inductive IClass where
  | s | v | m | x
  deriving DecidableEq, Repr

/-- The issue class of a major opcode and minor (R57–R62). -/
def classOf (major : BitVec 8) : IClass :=
  let m := major.toNat
  if m < 0x30 then .s
  else if m < 0x78 then .m
  else if m < 0x88 then .x
  else if m < 0xA7 then .v
  else if m < 0xAB then .m
  else if m < 0xB4 then .v
  else if m = 0xB5 || m = 0xB9 then .v
  else if m < 0xC0 then .s
  else if m < 0xEC then .m
  else if m = 0xEF || m = 0xF0 || m = 0xF9 then .s
  else if m = 0xF7 then .m
  else .x

/-- Mark C: a control transfer (R57, R60, R62). -/
def isTransfer (major : BitVec 8) : Bool :=
  [0x15, 0x16, 0x17, 0x18, 0x19, 0x1A, 0x7C, 0x7E, 0x7F, 0x80, 0xEC, 0xED, 0xEE, 0xF5, 0xF6].contains major.toNat

/-- Mark L: a long-latency major (R57–R62). -/
def isLong (major : BitVec 8) : Bool :=
  let m := major.toNat
  (0x30 ≤ m && m ≤ 0x3A) || m = 0x3D || m = 0x3E || m = 0x54 || m = 0x55 || (0x58 ≤ m && m ≤ 0x63) ||
  [0x68, 0x69, 0x6B, 0x6F, 0x70, 0x71, 0x72, 0x73, 0x74, 0x78].contains m || (0xAB ≤ m && m ≤ 0xB3) ||
  (0xC0 ≤ m && m ≤ 0xE7) || [0xF1, 0xF3, 0xF4, 0xF7].contains m

/-! ### The encoder -/

/-- A word of format F-R (R44). -/
def fr (major minor : BitVec 8) (ct : Ctl) (a b c d e : BitVec 7) (imm : BitVec 28) : Option Fields :=
  some ⟨major, minor, a, b, c, d, e, ct, imm⟩
/-- A word of format F-W (R44). -/
def fw (major minor : BitVec 8) (ct : Ctl) (a b c : BitVec 7) (imm : BitVec 42) : Option Fields :=
  some ⟨major, minor, a, b, c, imm.extractLsb' 35 7, imm.extractLsb' 28 7, ct, imm.extractLsb' 0 28⟩
/-- A word of format F-X (R44). -/
def fx (major minor : BitVec 8) (ct : Ctl) (a : BitVec 7) (imm : BitVec 56) : Option Fields :=
  some ⟨major, minor, a, imm.extractLsb' 49 7, imm.extractLsb' 42 7, imm.extractLsb' 35 7, imm.extractLsb' 28 7, ct,
    imm.extractLsb' 0 28⟩

/-- A V field (R46). -/
def VReg.code (r : VReg) : BitVec 7 := BitVec.ofBool r.shared ++ (0#1 ++ r.idx)
/-- The B field of a memory operand. -/
def Base.code : Base → BitVec 7
  | .reg g => g
  | .tile t => t.setWidth 7
/-- TA of a memory operand (R129). -/
def Base.isTile : Base → Bool
  | .tile _ => true
  | .reg _ => false
/-- The layout "addr" (R129). -/
def addrImm (ta : Bool) (m : AddrOp) : BitVec 28 := BitVec.ofBool ta ++ (m.shift ++ m.off)
/-- MINOR[7] set or clear. -/
def hiBit (b : Bool) : BitVec 8 := if b then 128 else 0
/-- The code of a scope (R53). -/
def scopeCode : Scope → BitVec 8
  | .thread => 0 | .core => 1 | .cluster => 2 | .die => 3 | .module => 4 | .system => 5
/-- The code of a condition (R58). -/
def condCode : Cond → BitVec 8
  | .eq => 0 | .ne => 1 | .lt => 2 | .le => 3 | .gt => 4 | .ge => 5
/-- The code of an integer type (R58). -/
def itypeCode : IType → BitVec 8
  | .i8 => 0 | .i16 => 1 | .i32 => 2 | .i64 => 3 | .n8 => 4 | .n16 => 5 | .n32 => 6 | .n64 => 7
/-- The minor of CMP and CMPI (R58). -/
def cmpCode (c : Cond) (t : IType) : BitVec 8 := (condCode c <<< 4) ||| itypeCode t
/-- IMM28 of COORD (R109). -/
def coordCode : CoordSel → BitVec 28
  | .x => 0 | .y => 1 | .z => 2 | .lin => 3
/-- The code of a size (R59, R184). -/
def sizeCode : Size → BitVec 8
  | .b => 0 | .h => 1 | .w => 2 | .d => 3 | .q => 4
/-- The code of a gather width (R130). -/
def gwidthCode : GWidth → BitVec 8
  | .h => 0 | .w => 1 | .d => 2
/-- The minor of LDNOW and STNOW (R184). -/
def nowCode (m : Bool) (sz : Size) (sc : Scope) : BitVec 8 := (if m then 64 else 0) ||| (sizeCode sz <<< 3) ||| scopeCode sc
/-- The code of an AMO operation (R205). -/
def amoOpCode : AmoOp → BitVec 8
  | .add => 0 | .and => 1 | .or => 2 | .xor => 3 | .min => 4 | .max => 5 | .minn => 6 | .maxn => 7 | .swap => 8
/-- The minor of AMO and AMOI (R205). -/
def amoCode (ar : Bool) (op : AmoOp) (sc : Scope) : BitVec 8 := hiBit ar ||| (amoOpCode op <<< 3) ||| scopeCode sc
/-- The code of an accumulator operation. -/
def accCode : AccOp → BitVec 8
  | .add => 0 | .min => 1 | .max => 2
/-- The code of a RED operation (R205). -/
def redCode : RedOp → BitVec 8
  | .flt dbl op => (if dbl then 3 else 0) + accCode op
  | .int .add => 8 | .int .min => 9 | .int .max => 10 | .int .minn => 11 | .int .maxn => 12 | .int .and => 13
  | .int .or => 14 | .int .xor => 15 | .int .swap => 8
/-- MINOR[7] of a timeout. -/
def Timeout.code : Timeout → BitVec 8
  | .imm _ => 0 | .reg _ => 128
/-- The E field of a timeout. -/
def Timeout.field : Timeout → BitVec 7
  | .imm _ => 0 | .reg e => e
/-- IMM28 of a timeout. -/
def Timeout.imm28 : Timeout → BitVec 28
  | .imm n => n | .reg _ => 0
/-- The code of a lane type (R293). -/
def VType.code : VType → BitVec 4
  | .f32 => 0 | .bf16 => 1 | .fp16 => 2 | .f8 => 3 | .i8 => 4 | .i16 => 5 | .i32 => 6 | .i64 => 7 | .n8 => 8
  | .n16 => 9 | .n32 => 10 | .n64 => 11 | .sp2x => 12 | .sp2 => 13
/-- The code of a width (R293). -/
def vwidthCode : VWidth → BitVec 8
  | .b => 0 | .h => 1 | .w => 2 | .d => 3
/-- The code of a VCMP condition (R308). -/
def VCond.code : VCond → BitVec 8
  | .ord c => condCode c
  | .un => 6
/-- The layout "vctl" (R296). -/
def vctlImm (v : VCtl) (n : BitVec 6) : BitVec 28 := BitVec.ofBool v.rep ++ (v.grp ++ n.setWidth 25)
/-- IMM28 of MLDW (R342). -/
def wfmtCode : WFmt → BitVec 28
  | .bf16 => 0 | .f8 => 1 | .sp2x => 2
/-- IMM28 of MSTREAM (R342). -/
def mstreamImm (f : AFmt) (o : Bool) (r : BitVec 9) : BitVec 28 :=
  (BitVec.ofBool o ++ ((if f = .bf16 then 0#2 else 1#2) ++ (0#1 ++ r))).setWidth 28
/-- The minor of COLL (R392). -/
def collCode : CollOp → BitVec 8
  | .allred => 0 | .redscat => 1 | .allgath => 2 | .bcast => 3
/-- The minor of ENGQ (R392). -/
def engCode : EngSel → BitVec 8
  | .copy => 0 | .coll => 1 | .press => 2

/-- The fields of a compute-core instruction, from the encoding tables of the class chapters; none for the
rows that have no 96-bit word. -/
def encodeFields (i : Instr) : Option Fields :=
  match i with
  | .nop ct => fr 0x00 1 ct 0 0 0 0 0 0
  | .add ct a b c => fr 0x01 0 ct a b c 0 0 0
  | .sub ct a b c => fr 0x01 1 ct a b c 0 0 0
  | .addi ct a b imm => fw 0x02 0 ct a b 0 imm
  | .mul ct a b c => fr 0x03 0 ct a b c 0 0 0
  | .mulh ct a b c => fr 0x03 1 ct a b c 0 0 0
  | .mulhn ct a b c => fr 0x03 2 ct a b c 0 0 0
  | .div ct a b c => fr 0x04 0 ct a b c 0 0 0
  | .divn ct a b c => fr 0x04 1 ct a b c 0 0 0
  | .rem ct a b c => fr 0x04 2 ct a b c 0 0 0
  | .remn ct a b c => fr 0x04 3 ct a b c 0 0 0
  | .and ct a b c => fr 0x05 0 ct a b c 0 0 0
  | .or ct a b c => fr 0x05 1 ct a b c 0 0 0
  | .xor ct a b c => fr 0x05 2 ct a b c 0 0 0
  | .andn ct a b c => fr 0x05 3 ct a b c 0 0 0
  | .andi ct a b imm => fw 0x06 0 ct a b 0 imm
  | .ori ct a b imm => fw 0x06 1 ct a b 0 imm
  | .xori ct a b imm => fw 0x06 2 ct a b 0 imm
  | .shl ct a b (.reg c) => fr 0x07 0 ct a b c 0 0 0
  | .shl ct a b (.imm n) => fr 0x07 4 ct a b 0 0 0 (n.setWidth 28)
  | .shr ct a b (.reg c) => fr 0x07 1 ct a b c 0 0 0
  | .shr ct a b (.imm n) => fr 0x07 5 ct a b 0 0 0 (n.setWidth 28)
  | .sra ct a b (.reg c) => fr 0x07 2 ct a b c 0 0 0
  | .sra ct a b (.imm n) => fr 0x07 6 ct a b 0 0 0 (n.setWidth 28)
  | .rol ct a b (.reg c) => fr 0x07 3 ct a b c 0 0 0
  | .rol ct a b (.imm n) => fr 0x07 7 ct a b 0 0 0 (n.setWidth 28)
  | .clz ct a b => fr 0x08 0 ct a b 0 0 0 0
  | .ctz ct a b => fr 0x08 1 ct a b 0 0 0 0
  | .popc ct a b => fr 0x08 2 ct a b 0 0 0 0
  | .min ct a b c => fr 0x09 0 ct a b c 0 0 0
  | .max ct a b c => fr 0x09 1 ct a b c 0 0 0
  | .minn ct a b c => fr 0x09 2 ct a b c 0 0 0
  | .maxn ct a b c => fr 0x09 3 ct a b c 0 0 0
  | .sextB ct a b => fr 0x0A 0 ct a b 0 0 0 0
  | .sextH ct a b => fr 0x0A 1 ct a b 0 0 0 0
  | .sextW ct a b => fr 0x0A 2 ct a b 0 0 0 0
  | .bfxZ ct a b pos wr => fr 0x0B 0 ct a b 0 0 0 ((wr ++ pos).setWidth 28)
  | .bfxS ct a b pos wr => fr 0x0B 1 ct a b 0 0 0 ((wr ++ pos).setWidth 28)
  | .bfi ct a b c pos wr => fr 0x0C 0 ct a b c 0 0 ((wr ++ pos).setWidth 28)
  | .sel ct a b c p => fr 0x0D 0 ct a b c (p.setWidth 7) 0 0
  | .mov ct a b => fr 0x0E 0 ct a b 0 0 0 0
  | .movi ct a imm => fx 0x0F 0 ct a imm
  | .movhi ct a imm => fx 0x10 0 ct a (imm.setWidth 56)
  | .lea ct a b m => fr 0x11 0 ct a b m.index 0 0 (addrImm false m)
  | .cmp ct c t p a b => fr 0x12 (cmpCode c t) ct (p.setWidth 7) a b 0 0 0
  | .cmpi ct c t p a imm => fw 0x13 (cmpCode c t) ct (p.setWidth 7) a 0 imm
  | .pand ct a b c => fr 0x14 0 ct (a.setWidth 7) (b.setWidth 7) (c.setWidth 7) 0 0 0
  | .por ct a b c => fr 0x14 1 ct (a.setWidth 7) (b.setWidth 7) (c.setWidth 7) 0 0 0
  | .pxor ct a b c => fr 0x14 2 ct (a.setWidth 7) (b.setWidth 7) (c.setWidth 7) 0 0 0
  | .pnot ct a b => fr 0x14 3 ct (a.setWidth 7) (b.setWidth 7) 0 0 0 0
  | .br ct t => fx 0x15 0 ct 0 t
  | .jmp ct b => fr 0x16 0 ct 0 b 0 0 0 0
  | .call ct t => fx 0x17 0 ct 0 t
  | .callr ct b => fr 0x18 0 ct 0 b 0 0 0 0
  | .ret ct => fr 0x19 0 ct 0 0 0 0 0 0
  | .loop ct a t => fx 0x1A 0 ct a t
  | .coord ct a c => fr 0x1B 0 ct a 0 0 0 0 (coordCode c)
  | .ld ct sz sgn a b m => fr 0x30 (sizeCode sz ||| (if sgn then 4 else 0)) ct a b.code m.index 0 0 (addrImm b.isTile m)
  | .st ct sz a b m => fr 0x31 (sizeCode sz) ct a b.code m.index 0 0 (addrImm b.isTile m)
  | .ldq ct a d b m => fr 0x32 0 ct a b.code m.index d 0 (addrImm b.isTile m)
  | .stq ct a d b m => fr 0x33 0 ct a b.code m.index d 0 (addrImm b.isTile m)
  | .ldv ct a d b m => fr 0x34 0 ct a.code b.code m.index d.code 0 (addrImm b.isTile m)
  | .stv ct a d b m => fr 0x35 0 ct a.code b.code m.index d.code 0 (addrImm b.isTile m)
  | .ldvx ct wd a b c k sh off => fr 0x36 (gwidthCode wd) ct a.code b.code c.code (k.setWidth 7) 0 (addrImm b.isTile ⟨0, sh, off⟩)
  | .stvx ct wd a b c k sh off => fr 0x37 (gwidthCode wd) ct a.code b.code c.code (k.setWidth 7) 0 (addrImm b.isTile ⟨0, sh, off⟩)
  | .ldf ct a b m p e => fr 0x38 0 ct a b m.index (p.setWidth 7) e (addrImm false m)
  | .ldfe ct a b m p e => fr 0x38 1 ct a b m.index (p.setWidth 7) e (addrImm false m)
  | .stf ct a b m => fr 0x39 0 ct a b m.index 0 0 (addrImm false m)
  | .stef ct a b m p e => fr 0x39 1 ct a b m.index (p.setWidth 7) e (addrImm false m)
  | .sete ct p b m => fr 0x3A 0 ct (p.setWidth 7) b m.index 0 0 (addrImm false m)
  | .tdef ct t b c => fr 0x3B 0 ct (t.setWidth 7) b c 0 0 0
  | .trel ct t mode => fr 0x3B 1 ct (t.setWidth 7) 0 0 0 0 ((BitVec.ofBool mode).setWidth 28)
  | .tstat ct a t => fr 0x3B 2 ct a (t.setWidth 7) 0 0 0 0
  | .pref ct lv b m => fr 0x3C (if lv = .l1 then 0 else 1) ct 0 b m.index 0 0 (addrImm false m)
  | .wbl ct b m => fr 0x3D 0 ct 0 b m.index 0 0 (addrImm false m)
  | .zline ct b m => fr 0x3D 1 ct 0 b m.index 0 0 (addrImm false m)
  | .rgnq ct a b m => fr 0x3E 0 ct a b m.index 0 0 (addrImm false m)
  | .phase ct sc => fr 0x50 (scopeCode sc) ct 0 0 0 0 0 0
  | .fence ct sc => fr 0x51 (scopeCode sc) ct 0 0 0 0 0 0
  | .dfence ct sc => fr 0x52 (scopeCode sc) ct 0 0 0 0 0 0
  | .tlwait ct p t c tmo => fr 0x53 0 ct (p.setWidth 7) (t.setWidth 7) c 0 0 tmo
  | .tlread ct a t i => fr 0x53 1 ct a (t.setWidth 7) 0 0 0 ((BitVec.ofBool i).setWidth 28)
  | .ldnow ct acq sz sc a b m d => fr 0x54 (nowCode acq sz sc) ct a b m.index d 0 (addrImm false m)
  | .stnow ct rel sz sc a b m d => fr 0x55 (nowCode rel sz sc) ct a b m.index d 0 (addrImm false m)
  | .amo ct ar op sc a b m d => fr 0x58 (amoCode ar op sc) ct a b m.index d 0 (addrImm false m)
  | .amoi ct ar op sc a b imm off => fw 0x59 (amoCode ar op sc) ct a b 0 (imm ++ off)
  | .cas ct ar dw sc a b m d p => fr 0x5A (hiBit ar ||| (if dw then 8 else 0) ||| scopeCode sc) ct a b m.index d (p.setWidth 7) (addrImm false m)
  | .casq ct ar sc a b m d p => fr 0x5B (hiBit ar ||| scopeCode sc) ct a b m.index d (p.setWidth 7) (addrImm false m)
  | .red ct rel op sc a b m => fr 0x5C (hiBit rel ||| (redCode op <<< 3) ||| scopeCode sc) ct a b m.index 0 0 (addrImm false m)
  | .redv ct rel op sc a d b m k => fr 0x5D (hiBit rel ||| (accCode op <<< 3) ||| scopeCode sc) ct a.code b m.index d.code (k.setWidth 7) (addrImm false m)
  | .acinit ct ch op fmt sc b r => fr 0x5E (hiBit ch.isSome ||| (accCode op <<< 5) ||| (if fmt = .acc64 then 8 else 0) ||| scopeCode sc) ct 0 b (ch.getD 0) 0 0 (r.nm1 ++ r.off)
  | .acread ct (.w clr a) b m => fr 0x5F (if clr then 4 else 0) ct a b m.index 0 0 (addrImm false m)
  | .acread ct (.d clr a) b m => fr 0x5F (if clr then 5 else 1) ct a b m.index 0 0 (addrImm false m)
  | .acread ct (.v clr a d) b m => fr 0x5F (if clr then 6 else 2) ct a.code b m.index d.code 0 (addrImm false m)
  | .acread ct (.hdr a) b m => fr 0x5F 3 ct a b m.index 0 0 (addrImm false m)
  | .acchain ct p b c r => fr 0x60 0 ct (p.setWidth 7) b c 0 0 (r.nm1 ++ r.off)
  | .acflush ct fin b r => fr 0x61 ((BitVec.ofBool fin).setWidth 8) ct 0 b 0 0 0 (r.nm1 ++ r.off)
  | .acckpt ct b c r => fr 0x62 0 ct 0 b c 0 0 (r.nm1 ++ r.off)
  | .acrstr ct b c r => fr 0x63 0 ct 0 b c 0 0 (r.nm1 ++ r.off)
  | .send ct rel hi a b => fr 0x68 ((if rel then 2 else 0) ||| (if hi then 1 else 0)) ct a b 0 0 0 0
  | .sendv ct rel hi a b c => fr 0x69 ((if rel then 2 else 0) ||| (if hi then 1 else 0)) ct a b.code c.code 0 0 0
  | .recv ct acq (.dword a) b p t => fr 0x6A (t.code ||| (if acq then 64 else 0)) ct a b (p.setWidth 7) 0 t.field t.imm28
  | .recv ct acq (.line a d) b p t => fr 0x6A (t.code ||| (if acq then 64 else 0) ||| 1) ct a.code b (p.setWidth 7) d.code t.field t.imm28
  | .recvp ct acq (.dword a) b p => fr 0x6B (if acq then 64 else 0) ct a b (p.setWidth 7) 0 0 0
  | .recvp ct acq (.line a d) b p => fr 0x6B (if acq then 65 else 1) ct a.code b (p.setWidth 7) d.code 0 0
  | .waitfe ct em p b m e => fr 0x6C ((BitVec.ofBool em).setWidth 8) ct (p.setWidth 7) b m.index 0 e (addrImm false m)
  | .waitb ct acq p b t => fr 0x6D (t.code ||| (if acq then 64 else 0)) ct (p.setWidth 7) b 0 0 t.field t.imm28
  | .waitc ct acq p b (.imm j) t => fr 0x6E (t.code ||| (if acq then 64 else 0)) ct (p.setWidth 7) b (j.setWidth 7) 0 t.field t.imm28
  | .waitc ct acq p b (.reg c) t => fr 0x6E (t.code ||| (if acq then 64 else 0) ||| 32) ct (p.setWidth 7) b c 0 t.field t.imm28
  | .binit ct sc b c d => fr 0x6F (scopeCode sc) ct 0 b c d 0 0
  | .barr ct rel a b c => fr 0x70 (if rel then 64 else 0) ct a b c 0 0 0
  | .stc ct sz sc a b m d ch => fr 0x71 ((if ch.isSome then 32 else 0) ||| (sizeCode sz <<< 3) ||| scopeCode sc) ct a b m.index d (ch.getD 0) (addrImm false m)
  | .bread ct a b i => fr 0x72 (i.setWidth 8) ct a b 0 0 0 0
  | .qwave ct a b => fr 0x73 0 ct a b 0 0 0 0
  | .qreset ct b => fr 0x74 0 ct 0 b 0 0 0 0
  | .sleep ct b imm => fw 0x75 0 ct 0 b 0 (imm.setWidth 42)
  | .launch ct a b => fr 0x78 0 ct a b 0 0 0 0
  | .fork ct a t => fx 0x79 0 ct a t
  | .join ct p b t => fr 0x7A t.code ct (p.setWidth 7) b 0 0 t.field t.imm28
  | .jinit ct b c => fr 0x7B 0 ct 0 b c 0 0 0
  | .suspend ct b c .plain t => fr 0x7C 0 ct 0 b c 0 0 t
  | .suspend ct b c (.tl d tl) t => fr 0x7C 1 ct 0 b c d (tl.setWidth 7) t
  | .suspend ct b c (.bar d) t => fr 0x7C 2 ct 0 b c d 0 t
  | .suspend ct b c (.join d) t => fr 0x7C 3 ct 0 b c d 0 t
  | .resume ct p b => fr 0x7D 0 ct (p.setWidth 7) b 0 0 0 0
  | .migrate ct b m => fr 0x7E 0 ct 0 b m.index 0 0 (addrImm false m)
  | .endt ct => fr 0x7F 0 ct 0 0 0 0 0 0
  | .exit ct => fr 0x80 0 ct 0 0 0 0 0 0
  | .setpri ct b => fr 0x81 0 ct 0 b 0 0 0 0
  | .yield ct p => fr 0x82 0 ct (p.setWidth 7) 0 0 0 0 0
  | .lend ct n => fr 0x83 0 ct 0 0 0 0 0 (n.setWidth 28)
  | .dqlen ct a => fr 0x84 0 ct a 0 0 0 0 0
  | .aqspill ct clr a => fr 0x85 ((BitVec.ofBool clr).setWidth 8) ct a 0 0 0 0 0
  | .vadd ct t a b c k v => fr 0x88 (t.code.setWidth 8) ct a.code b.code c.code 0 (k.setWidth 7) (vctlImm v 0)
  | .vsub ct t a b c k v => fr 0x89 (t.code.setWidth 8) ct a.code b.code c.code 0 (k.setWidth 7) (vctlImm v 0)
  | .vmul ct t a b c k v => fr 0x8A (t.code.setWidth 8) ct a.code b.code c.code 0 (k.setWidth 7) (vctlImm v 0)
  | .vfma ct t a b c d k v => fr 0x8B (t.code.setWidth 8) ct a.code b.code c.code d.code (k.setWidth 7) (vctlImm v 0)
  | .vfms ct t a b c d k v => fr 0x8C (t.code.setWidth 8) ct a.code b.code c.code d.code (k.setWidth 7) (vctlImm v 0)
  | .vmin ct t a b c k v => fr 0x8D (t.code.setWidth 8) ct a.code b.code c.code 0 (k.setWidth 7) (vctlImm v 0)
  | .vmax ct t a b c k v => fr 0x8E (t.code.setWidth 8) ct a.code b.code c.code 0 (k.setWidth 7) (vctlImm v 0)
  | .vabs ct t a b k v => fr 0x8F (t.code.setWidth 8) ct a.code b.code 0 0 (k.setWidth 7) (vctlImm v 0)
  | .vneg ct t a b k v => fr 0x90 (t.code.setWidth 8) ct a.code b.code 0 0 (k.setWidth 7) (vctlImm v 0)
  | .vcmp ct c t ka b c' k v => fr 0x91 ((c.code <<< 4) ||| t.code.setWidth 8) ct (ka.setWidth 7) b.code c'.code 0 (k.setWidth 7) (vctlImm v 0)
  | .vsel ct wd a b c kd v => fr 0x92 (vwidthCode wd) ct a.code b.code c.code (kd.setWidth 7) 0 (vctlImm v 0)
  | .vcvt ct s t a b k v => fr 0x93 (s.code ++ t.code) ct a.code b.code 0 0 (k.setWidth 7) (vctlImm v 0)
  | .vshuf ct wd a b c d k v => fr 0x94 (vwidthCode wd) ct a.code b.code c.code d.code (k.setWidth 7) (vctlImm v 0)
  | .vbcast ct wd a b k v => fr 0x95 (vwidthCode wd) ct a.code b 0 0 (k.setWidth 7) (vctlImm v 0)
  | .vred ct op t a b k v => fr 0x96 ((accCode op <<< 4) ||| t.code.setWidth 8) ct a b.code 0 0 (k.setWidth 7) (vctlImm v 0)
  | .vscan ct op a b k v => fr 0x97 (accCode op <<< 4) ct a.code b.code 0 0 (k.setWidth 7) (vctlImm v 0)
  | .viadd ct sat t a b c k v => fr 0x98 ((if sat then 16 else 0) ||| t.code.setWidth 8) ct a.code b.code c.code 0 (k.setWidth 7) (vctlImm v 0)
  | .visub ct sat t a b c k v => fr 0x99 ((if sat then 16 else 0) ||| t.code.setWidth 8) ct a.code b.code c.code 0 (k.setWidth 7) (vctlImm v 0)
  | .vimul ct t a b c k v => fr 0x9A (t.code.setWidth 8) ct a.code b.code c.code 0 (k.setWidth 7) (vctlImm v 0)
  | .vand ct wd a b c k v => fr 0x9B (vwidthCode wd) ct a.code b.code c.code 0 (k.setWidth 7) (vctlImm v 0)
  | .vor ct wd a b c k v => fr 0x9C (vwidthCode wd) ct a.code b.code c.code 0 (k.setWidth 7) (vctlImm v 0)
  | .vxor ct wd a b c k v => fr 0x9D (vwidthCode wd) ct a.code b.code c.code 0 (k.setWidth 7) (vctlImm v 0)
  | .vshl ct t a b (.lanes c) k v => fr 0x9E (t.code.setWidth 8) ct a.code b.code c.code 0 (k.setWidth 7) (vctlImm v 0)
  | .vshl ct t a b (.imm n) k v => fr 0x9E (16 ||| t.code.setWidth 8) ct a.code b.code 0 0 (k.setWidth 7) (vctlImm v n)
  | .vshr ct t a b (.lanes c) k v => fr 0x9F (t.code.setWidth 8) ct a.code b.code c.code 0 (k.setWidth 7) (vctlImm v 0)
  | .vshr ct t a b (.imm n) k v => fr 0x9F (16 ||| t.code.setWidth 8) ct a.code b.code 0 0 (k.setWidth 7) (vctlImm v n)
  | .vdot ct t a b c k v => fr 0xA0 (t.code.setWidth 8) ct a b.code c.code 0 (k.setWidth 7) (vctlImm v 0)
  | .vsp2 ct hi a b c k v => fr 0xA1 ((BitVec.ofBool hi).setWidth 8) ct a.code b.code c 0 (k.setWidth 7) (vctlImm v 0)
  | .vmov ct wd a b k v => fr 0xA2 (vwidthCode wd) ct a.code b.code 0 0 (k.setWidth 7) (vctlImm v 0)
  | .kand ct a b c => fr 0xA3 0 ct (a.setWidth 7) (b.setWidth 7) (c.setWidth 7) 0 0 0
  | .kor ct a b c => fr 0xA4 0 ct (a.setWidth 7) (b.setWidth 7) (c.setWidth 7) 0 0 0
  | .knot ct a b => fr 0xA5 0 ct (a.setWidth 7) (b.setWidth 7) 0 0 0 0
  | .kmov ct (.kk a b) => fr 0xA6 0 ct (a.setWidth 7) (b.setWidth 7) 0 0 0 0
  | .kmov ct (.kg a b) => fr 0xA6 1 ct (a.setWidth 7) b 0 0 0 0
  | .kmov ct (.gk a b) => fr 0xA6 2 ct a (b.setWidth 7) 0 0 0 0
  | .scfg ct wr size a (.one b n) => fr 0xA7 ((if wr then 4 else 0) ||| size.setWidth 8) ct a.code b 0 0 0 n
  | .scfg ct wr size a (.desc b) => fr 0xA7 (8 ||| (if wr then 4 else 0) ||| size.setWidth 8) ct a.code b 0 0 0 0
  | .sstart ct a => fr 0xA8 0 ct a.code 0 0 0 0 0
  | .sstop ct a => fr 0xA9 0 ct a.code 0 0 0 0 0
  | .sstat ct a b => fr 0xAA 0 ct a b.code 0 0 0 0
  | .vexp ct a b k v => fr 0xAB 0 ct a.code b.code 0 0 (k.setWidth 7) (vctlImm v 0)
  | .vexp2 ct a b k v => fr 0xAC 0 ct a.code b.code 0 0 (k.setWidth 7) (vctlImm v 0)
  | .vlog2 ct a b k v => fr 0xAD 0 ct a.code b.code 0 0 (k.setWidth 7) (vctlImm v 0)
  | .vrcp ct a b k v => fr 0xAE 0 ct a.code b.code 0 0 (k.setWidth 7) (vctlImm v 0)
  | .vrsq ct a b k v => fr 0xAF 0 ct a.code b.code 0 0 (k.setWidth 7) (vctlImm v 0)
  | .vsqrt ct a b k v => fr 0xB0 0 ct a.code b.code 0 0 (k.setWidth 7) (vctlImm v 0)
  | .vsin ct a b k v => fr 0xB1 0 ct a.code b.code 0 0 (k.setWidth 7) (vctlImm v 0)
  | .vcos ct a b k v => fr 0xB2 0 ct a.code b.code 0 0 (k.setWidth 7) (vctlImm v 0)
  | .vtanh ct a b k v => fr 0xB3 0 ct a.code b.code 0 0 (k.setWidth 7) (vctlImm v 0)
  | .rng ct a => fr 0xB4 0 ct a 0 0 0 0 0
  | .vrng ct a k => fr 0xB5 0 ct a.code 0 0 0 (k.setWidth 7) 0
  | .rngsave ct a d => fr 0xB6 0 ct a 0 0 d 0 0
  | .rngload ct b c => fr 0xB7 0 ct 0 b c 0 0 0
  | .rngjump ct => fr 0xB8 0 ct 0 0 0 0 0 0
  | .cbrng ct u a b c d e => fr 0xB9 ((BitVec.ofBool u).setWidth 8) ct a.code b c d e 0
  | .mldw ct f a b c => fr 0xC0 0 ct a b c 0 0 (wfmtCode f)
  | .mswap ct a => fr 0xC1 0 ct a 0 0 0 0 0
  | .mstream ct f o r a b c d => fr 0xC2 0 ct a b c d 0 (mstreamImm f o r)
  | .mattn ct a b => fr 0xC3 0 ct a b 0 0 0 0
  | .mtags ct a b => fr 0xC4 0 ct a b 0 0 0 0
  | .mcfg ct a b => fr 0xC5 0 ct a b 0 0 0 0
  | .mcancel ct a b => fr 0xC6 0 ct a b 0 0 0 0
  | .mqstat ct a => fr 0xC7 0 ct a 0 0 0 0 0
  | .rdesc ct (some b) id => fr 0xCC 0 ct 0 b 0 0 0 (id.setWidth 28)
  | .rdesc ct none id => fr 0xCC 1 ct 0 0 0 0 0 (id.setWidth 28)
  | .rnew ct a b c id => fr 0xCD 0 ct a b c 0 0 (id.setWidth 28)
  | .rcat ct a b c => fr 0xCE 0 ct a b c 0 0 0
  | .rsplit ct a b c d => fr 0xCF 0 ct a b c d 0 0
  | .rsplice ct a b c d del n => fr 0xD0 0 ct a b c d 0 ((del ++ n).setWidth 28)
  | .rwalk ct a b c d e => fr 0xD1 0 ct a b c d e 0
  | .rsum ct a b c d slot => fr 0xD2 0 ct a b c d 0 (slot.setWidth 28)
  | .rget ct sgn a b c => fr 0xD3 ((BitVec.ofBool sgn).setWidth 8) ct a b c 0 0 0
  | .riter ct a b c d e => fr 0xD4 0 ct a b c d e 0
  | .rlen ct a b => fr 0xD5 0 ct a b 0 0 0 0
  | .rref ct b => fr 0xD6 0 ct 0 b 0 0 0 0
  | .rdrop ct b => fr 0xD7 0 ct 0 b 0 0 0 0
  | .rpub ct sc p b c d e => fr 0xD8 (scopeCode sc) ct (p.setWidth 7) b c d e 0
  | .rload ct acq sc a b d => fr 0xD9 ((if acq then 64 else 0) ||| scopeCode sc) ct a b 0 d 0 0
  | .cpy ct a b c (.imm n) => fr 0xDC 0 ct a b c 0 0 n
  | .cpy ct a b c (.reg d) => fr 0xDC 1 ct a b c d 0 0
  | .cpy2d ct a b => fr 0xDD 0 ct a b 0 0 0 0
  | .cpyf ct s t a b c d => fr 0xDE (s.code ++ t.code) ct a b c d 0 0
  | .cpyg ct a b c d e r => fr 0xDF 0 ct a b c d e (r.setWidth 28)
  | .coll ct op a b c d e nch grp => fr 0xE0 (collCode op) ct a b c d e ((nch ++ (0#2 ++ grp)).setWidth 28)
  | .colla ct a b => fr 0xE1 0 ct a b 0 0 0 0
  | .smpl ct a b => fr 0xE2 0 ct a b 0 0 0 0
  | .smplv ct a b => fr 0xE3 0 ct a b 0 0 0 0
  | .smcommit ct a b c => fr 0xE4 0 ct a b c 0 0 0
  | .smcancel ct a b => fr 0xE5 0 ct a b 0 0 0 0
  | .treedef ct b id => fr 0xE6 0 ct 0 b 0 0 0 (id.setWidth 28)
  | .engq ct e a => fr 0xE7 (engCode e) ct a 0 0 0 0 0
  | .trap ct imm => fw 0xEC 0 ct 0 0 0 imm
  | .sysc ct imm => fw 0xED 0 ct 0 0 0 imm
  | .rett ct => fr 0xEE 0 ct 0 0 0 0 0 0
  | .rdsr ct a n => fw 0xEF 0 ct a 0 0 (n.setWidth 42)
  | .wrsr ct b n => fw 0xF0 0 ct 0 b 0 (n.setWidth 42)
  | .tlbinv ct sc b c => fr 0xF1 (scopeCode sc) ct 0 b c 0 0 0
  | .tlbsync ct => fr 0xF2 0 ct 0 0 0 0 0 0
  | .ctxsave ct p b => fr 0xF3 0 ct (p.setWidth 7) b 0 0 0 0
  | .ctxload ct b => fr 0xF4 0 ct 0 b 0 0 0 0
  | .halt ct => fr 0xF5 0 ct 0 0 0 0 0 0
  | .bkpt ct imm => fr 0xF6 0 ct 0 0 0 0 0 (imm.setWidth 28)
  | .llrcl ct b m => fr 0xF7 0 ct 0 b m.index 0 0 (addrImm false m)
  | .hirq ct b n => fr 0xF8 0 ct 0 b 0 0 0 (n.setWidth 28)
  | .perf ct b n => fr 0xF9 0 ct 0 b 0 0 0 (n.setWidth 28)
  | .tfill _ _ _ => none
  | .tfill2 _ _ => none
  | .tready _ _ _ => none
  | .twaite _ _ _ => none
  | .tdrain _ _ _ => none
  | .twaitd _ _ _ => none
  | .tempty _ _ _ => none
  | .tcfgReadEntry _ _ => none
  | .tcfgRole _ _ => none
  | .tcfgFailedAddress _ _ => none
  | .tcfgReturnEmpty _ _ => none
  | .idleTurn _ _ => none
  | .fetchLineArrival _ _ => none
  | .longLatencyComplete _ _ _ => none
  | .deferredTrapDetect _ _ _ => none
  | .trapEntry _ _ => none
  | .phlimit _ _ => none
  | .tilewait _ _ => none
  | .wakeReinsert _ _ => none
  | .waitDeadline _ _ => none
  | .parkContext _ _ => none
  | .admitContext _ _ => none
  | .stealProbe _ => none
  | .priorityAging _ => none
  | .arrivalAppend _ => none
  | .timeSliceExpiry _ => none
  | .tenantRestore _ _ => none
  | .tenantHandover _ => none
  | .lqprodWrite _ _ => none
  | .launchRecordTake _ => none
  | .launchStart _ => none
  | .launchComplete _ => none
  | .exitMarkSeen _ _ => none
  | .workAreaFault _ _ => none
  | .messageAccept _ => none
  | .continuationQueue _ => none
  | .stcCount _ => none
  | .qwaveCollect _ => none
  | .publicationComplete _ => none
  | .leesRelease => none
  | .sluiceWindow => none
  | .regionMerge _ _ => none
  | .remoteSpadTurn _ => none
  | .lineRecall _ => none
  | .reductionApply _ => none
  | .copyEvictFold _ _ => none
  | .accLineEvict _ => none
  | .commandAccept _ _ _ => none
  | .arbiterVisit _ => none
  | .matrixTileStart _ => none
  | .matrixRowDrain _ _ => none
  | .matrixJobDone _ _ => none
  | .copyPiece _ => none
  | .copyJobDone _ => none
  | .collectiveJobStart _ => none
  | .reductionReply _ _ => none
  | .multicastData _ _ => none
  | .collChunkCount _ _ => none
  | .collTimeout _ => none
  | .pressRequestStart _ => none
  | .pressNodeBoundary _ => none
  | .prcancWrite _ _ _ => none
  | .ropeUnitAccept _ _ _ => none
  | .ropeComplete _ _ _ => none
  | .ropeReclaim _ _ => none
  | .fillDrainComplete _ _ => none
  | .scalarWaitTimeout _ _ => none
  | .sfuStart _ => none
  | .sfuResultWrite _ => none
  | .streamReadahead _ _ _ => none
  | .streamStorePerform _ _ _ => none
  | .tlbInvalidateDeliver _ => none
  | .agentDead _ => none
  | .uncorrectableError _ => none
  | .eccCorrected _ => none
  | .hostAtomicCompletion _ _ _ => none
  | .hostLinkDown _ => none
  | .cxlMemRead _ => none
  | .cxlMemWrite _ _ => none
  | .hostAtomicop _ _ _ _ _ => none
  | .fabricDataFlit _ _ => none
  | .fabricAckFlit _ _ => none
  | .fabricNakFlit _ _ => none
  | .fabricIdleFlit _ _ => none
  | .powerStep _ _ => none
  | .thermalTrip => none
  | .moduleReset _ => none
  | .controllerTakeover => none
  | .getVersion => none
  | .getCapabilities => none
  | .negotiateAlgorithms => none
  | .getDigests => none
  | .getCertificate _ => none
  | .challenge _ => none
  | .getMeasurements _ => none
  | .keyExchange => none
  | .finish => none
  | .tenantReset _ => none
  | .keyGen _ _ => none
  | .fwRegisterWrite _ _ _ _ => none
  | .configRegisterWrite _ _ => none
  | .rv64imcInstruction _ => none
  | .repetitionIssue _ _ => none
  | .hostLinkRetrain _ _ => none
  | .fabricPortTrained _ _ => none
  | .atsInvalidation _ _ _ => none
  | .doeDiscovery => none
  | .sliceEviction _ _ => none

/-- The 96-bit word of a compute-core instruction (R43). -/
def encode (i : Instr) : Option (BitVec 96) := (encodeFields i).map joinWord

/-- The 32-bit word of an Xfltile instruction (R148). -/
def encodeTile (i : Instr) : Option (BitVec 32) :=
  let r (f7 : BitVec 7) (rs2 rs1 : BitVec 5) (f3 : BitVec 3) (rd : BitVec 5) (op : BitVec 7) : Option (BitVec 32) :=
    some (f7 ++ rs2 ++ rs1 ++ f3 ++ rd ++ op)
  match i with
  | .tfill rd a b => r 0 b a 0 rd 0x0B
  | .tfill2 rd a => r 0 0 a 1 rd 0x0B
  | .tready rd a b => r 0 b a 2 rd 0x0B
  | .twaite rd a b => r 0 b a 3 rd 0x0B
  | .tdrain rd a b => r 0 b a 0 rd 0x2B
  | .twaitd rd a b => r 0 b a 1 rd 0x2B
  | .tempty rd a b => r 0 b a 2 rd 0x2B
  | .tcfgReadEntry rd a => r 0 0 a 3 rd 0x2B
  | .tcfgRole rd a => r 1 0 a 3 rd 0x2B
  | .tcfgFailedAddress rd a => r 2 0 a 3 rd 0x2B
  | .tcfgReturnEmpty rd a => r 3 0 a 3 rd 0x2B
  | _ => none

/-! ### The loader and storer cores -/

/-- A sign-extended immediate. -/
def rvImm (w : Nat) (x : BitVec w) : Word := x.signExtend 64

/-- OP and OP-32 of RV64IM. -/
def rvOp (f7 : BitVec 7) (f3 : BitVec 3) : Option RvAlu :=
  match f7, f3 with
  | 0, 0 => some .add | 0x20, 0 => some .sub | 0, 1 => some .sll | 0, 2 => some .slt | 0, 3 => some .sltu
  | 0, 4 => some .xor | 0, 5 => some .srl | 0x20, 5 => some .sra | 0, 6 => some .or | 0, 7 => some .and
  | 1, 0 => some .mul | 1, 1 => some .mulh | 1, 2 => some .mulhsu | 1, 3 => some .mulhu | 1, 4 => some .div
  | 1, 5 => some .divu | 1, 6 => some .rem | 1, 7 => some .remu
  | _, _ => none
/-- OP-32 of RV64IM. -/
def rvOp32 (f7 : BitVec 7) (f3 : BitVec 3) : Option RvAlu :=
  match f7, f3 with
  | 0, 0 => some .addw | 0x20, 0 => some .subw | 0, 1 => some .sllw | 0, 5 => some .srlw | 0x20, 5 => some .sraw
  | 1, 0 => some .mulw | 1, 4 => some .divw | 1, 5 => some .divuw | 1, 6 => some .remw | 1, 7 => some .remuw
  | _, _ => none
/-- The branch of a funct3. -/
def rvBr (f3 : BitVec 3) : Option RvBr :=
  match f3 with
  | 0 => some .beq | 1 => some .bne | 4 => some .blt | 5 => some .bge | 6 => some .bltu | 7 => some .bgeu | _ => none
/-- The load width of a funct3. -/
def rvLoad (f3 : BitVec 3) : Option RvMem :=
  match f3 with
  | 0 => some .b | 1 => some .h | 2 => some .w | 3 => some .d | 4 => some .bu | 5 => some .hu | 6 => some .wu | _ => none
/-- The store width of a funct3. -/
def rvStore (f3 : BitVec 3) : Option RvMem :=
  match f3 with
  | 0 => some .b | 1 => some .h | 2 => some .w | 3 => some .d | _ => none

/-- A 32-bit instruction of RV64IM or Zicsr. -/
def rv32 (w : BitVec 32) : RvOp :=
  let rd := w.extractLsb' 7 5
  let rs1 := w.extractLsb' 15 5
  let rs2 := w.extractLsb' 20 5
  let f3 := w.extractLsb' 12 3
  let f7 := w.extractLsb' 25 7
  let iimm := rvImm 12 (w.extractLsb' 20 12)
  let bad : RvOp := .illegal w
  match w.extractLsb' 0 7 with
  | 0x37 => .lui rd (rvImm 32 (w.extractLsb' 12 20 ++ 0#12))
  | 0x17 => .auipc rd (rvImm 32 (w.extractLsb' 12 20 ++ 0#12))
  | 0x6F => .jal rd (rvImm 21 (w.extractLsb' 31 1 ++ (w.extractLsb' 12 8 ++ (w.extractLsb' 20 1 ++ (w.extractLsb' 21 10 ++ 0#1)))))
  | 0x67 => if f3 = 0 then .jalr rd rs1 iimm else bad
  | 0x63 => match rvBr f3 with
    | some c => .branch c rs1 rs2
        (rvImm 13 (w.extractLsb' 31 1 ++ (w.extractLsb' 7 1 ++ (w.extractLsb' 25 6 ++ (w.extractLsb' 8 4 ++ 0#1)))))
    | none => bad
  | 0x03 => match rvLoad f3 with
    | some m => .load m rd rs1 iimm
    | none => bad
  | 0x23 => match rvStore f3 with
    | some m => .store m rs1 rs2 (rvImm 12 (f7 ++ rd))
    | none => bad
  | 0x13 => match f3 with
    | 0 => .alui .add rd rs1 iimm
    | 1 => if w.extractLsb' 26 6 = 0 then .alui .sll rd rs1 ((w.extractLsb' 20 6).setWidth 64) else bad
    | 2 => .alui .slt rd rs1 iimm
    | 3 => .alui .sltu rd rs1 iimm
    | 4 => .alui .xor rd rs1 iimm
    | 5 => match w.extractLsb' 26 6 with
      | 0 => .alui .srl rd rs1 ((w.extractLsb' 20 6).setWidth 64)
      | 0x10 => .alui .sra rd rs1 ((w.extractLsb' 20 6).setWidth 64)
      | _ => bad
    | 6 => .alui .or rd rs1 iimm
    | _ => .alui .and rd rs1 iimm
  | 0x1B => match f3 with
    | 0 => .alui .addw rd rs1 iimm
    | 1 => if f7 = 0 then .alui .sllw rd rs1 (rs2.setWidth 64) else bad
    | 5 => match f7 with
      | 0 => .alui .srlw rd rs1 (rs2.setWidth 64)
      | 0x20 => .alui .sraw rd rs1 (rs2.setWidth 64)
      | _ => bad
    | _ => bad
  | 0x33 => match rvOp f7 f3 with
    | some o => .alu o rd rs1 rs2
    | none => bad
  | 0x3B => match rvOp32 f7 f3 with
    | some o => .alu o rd rs1 rs2
    | none => bad
  | 0x0F => if f3 = 0 then .fence else bad
  | 0x73 => match f3 with
    | 0 =>
      if w = 0x00000073 then .ecall else if w = 0x00100073 then .ebreak
      else if w = 0x30200073 then .mret else if w = 0x10500073 then .wfi else bad
    | 1 => .csr .rw rd rs1 (w.extractLsb' 20 12)
    | 2 => .csr .rs rd rs1 (w.extractLsb' 20 12)
    | 3 => .csr .rc rd rs1 (w.extractLsb' 20 12)
    | 5 => .csri .rw rd rs1 (w.extractLsb' 20 12)
    | 6 => .csri .rs rd rs1 (w.extractLsb' 20 12)
    | 7 => .csri .rc rd rs1 (w.extractLsb' 20 12)
    | _ => bad
  | _ => bad

/-- A 16-bit instruction of the C extension for RV64, as the instruction it expands to. -/
def rv16 (h : BitVec 16) : RvOp :=
  let w : BitVec 32 := h.setWidth 32
  let bad : RvOp := .illegal w
  let x (i n : Nat) : BitVec n := w.extractLsb' i n
  let rd := x 7 5
  let rs2 := x 2 5
  let r7 : BitVec 5 := 1#2 ++ x 7 3
  let r2 : BitVec 5 := 1#2 ++ x 2 3
  let i6 : Word := rvImm 6 (x 12 1 ++ x 2 5)
  let sh : Word := (x 12 1 ++ x 2 5).setWidth 64
  match x 0 2, x 13 3 with
  | 0, 0 =>
    let n : BitVec 10 := x 7 4 ++ (x 11 2 ++ (x 5 1 ++ (x 6 1 ++ 0#2)))
    if n = 0 then bad else .alui .add r2 2 (n.setWidth 64)
  | 0, 2 => .load .w r2 r7 ((x 5 1 ++ (x 10 3 ++ (x 6 1 ++ 0#2))).setWidth 64)
  | 0, 3 => .load .d r2 r7 ((x 5 2 ++ (x 10 3 ++ 0#3)).setWidth 64)
  | 0, 6 => .store .w r7 r2 ((x 5 1 ++ (x 10 3 ++ (x 6 1 ++ 0#2))).setWidth 64)
  | 0, 7 => .store .d r7 r2 ((x 5 2 ++ (x 10 3 ++ 0#3)).setWidth 64)
  | 1, 0 => .alui .add rd rd i6
  | 1, 1 => if rd = 0 then bad else .alui .addw rd rd i6
  | 1, 2 => .alui .add rd 0 i6
  | 1, 3 =>
    if i6 = 0 then bad
    else if rd = 2 then .alui .add 2 2 (rvImm 10 (x 12 1 ++ (x 3 2 ++ (x 5 1 ++ (x 2 1 ++ (x 6 1 ++ 0#4))))))
    else .lui rd (i6 <<< 12)
  | 1, 4 =>
    match x 10 2 with
    | 0 => .alui .srl r7 r7 sh
    | 1 => .alui .sra r7 r7 sh
    | 2 => .alui .and r7 r7 i6
    | _ =>
      match x 12 1, x 5 2 with
      | 0, 0 => .alu .sub r7 r7 r2
      | 0, 1 => .alu .xor r7 r7 r2
      | 0, 2 => .alu .or r7 r7 r2
      | 0, _ => .alu .and r7 r7 r2
      | _, 0 => .alu .subw r7 r7 r2
      | _, 1 => .alu .addw r7 r7 r2
      | _, _ => bad
  | 1, 5 => .jal 0 (rvImm 12 (x 12 1 ++ (x 8 1 ++ (x 9 2 ++ (x 6 1 ++ (x 7 1 ++ (x 2 1 ++ (x 11 1 ++ (x 3 3 ++ 0#1)))))))))
  | 1, 6 => .branch .beq r7 0 (rvImm 9 (x 12 1 ++ (x 5 2 ++ (x 2 1 ++ (x 10 2 ++ (x 3 2 ++ 0#1))))))
  | 1, 7 => .branch .bne r7 0 (rvImm 9 (x 12 1 ++ (x 5 2 ++ (x 2 1 ++ (x 10 2 ++ (x 3 2 ++ 0#1))))))
  | 2, 0 => .alui .sll rd rd sh
  | 2, 2 => if rd = 0 then bad else .load .w rd 2 ((x 2 2 ++ (x 12 1 ++ (x 4 3 ++ 0#2))).setWidth 64)
  | 2, 3 => if rd = 0 then bad else .load .d rd 2 ((x 2 3 ++ (x 12 1 ++ (x 5 2 ++ 0#3))).setWidth 64)
  | 2, 4 =>
    match x 12 1 with
    | 0 => if rs2 = 0 then (if rd = 0 then bad else .jalr 0 rd 0) else .alu .add rd 0 rs2
    | _ => if rs2 = 0 then (if rd = 0 then .ebreak else .jalr 1 rd 0) else .alu .add rd rd rs2
  | 2, 6 => .store .w 2 rs2 ((x 7 2 ++ (x 9 4 ++ 0#2)).setWidth 64)
  | 2, 7 => .store .d 2 rs2 ((x 7 3 ++ (x 10 3 ++ 0#3)).setWidth 64)
  | _, _ => bad

/-- The instruction of a loader or storer core at a 32-bit fetch: an Xfltile row (R148), else RV64IMC. -/
def decodeRv (w : BitVec 32) : Instr :=
  let rd := w.extractLsb' 7 5
  let rs1 := w.extractLsb' 15 5
  let rs2 := w.extractLsb' 20 5
  let f7 := w.extractLsb' 25 7
  let rv : Instr := if w.extractLsb' 0 2 = 3 then .rv64imcInstruction ⟨rv32 w, 4⟩ else .rv64imcInstruction ⟨rv16 (w.extractLsb' 0 16), 2⟩
  match w.extractLsb' 0 7, w.extractLsb' 12 3 with
  | 0x0B, 0 => if f7 = 0 then .tfill rd rs1 rs2 else rv
  | 0x0B, 1 => if f7 = 0 && rs2 == 0 then .tfill2 rd rs1 else rv
  | 0x0B, 2 => if f7 = 0 then .tready rd rs1 rs2 else rv
  | 0x0B, 3 => if f7 = 0 then .twaite rd rs1 rs2 else rv
  | 0x2B, 0 => if f7 = 0 then .tdrain rd rs1 rs2 else rv
  | 0x2B, 1 => if f7 = 0 then .twaitd rd rs1 rs2 else rv
  | 0x2B, 2 => if f7 = 0 then .tempty rd rs1 rs2 else rv
  | 0x2B, 3 =>
    if rs2 ≠ 0 then rv else
    match f7 with
    | 0 => .tcfgReadEntry rd rs1
    | 1 => .tcfgRole rd rs1
    | 2 => .tcfgFailedAddress rd rs1
    | 3 => .tcfgReturnEmpty rd rs1
    | _ => rv
  | _, _ => rv

/-- The instruction that the decoder reads from the bits of an opcode-table row: a 96-bit word of a compute
core (R43), or a word of at most 32 bits of a loader or storer core (R148). -/
def decodeTableWord (nbits w : Nat) : Option Instr :=
  if nbits ≤ 32 then some (decodeRv (BitVec.ofNat 32 w))
  else
    match decodeWord (BitVec.ofNat 96 w) with
    | .ok i => some i
    | .error _ => none

end Sys2Proof
end

