-- ==== Sys2Proof/Config.lean ====
section
/-! DEFINITION. The free values: what the manual leaves open and no statement may know. None has a
body that a proof can see; each is named in an entry of the assumption log. -/

namespace Sys2Proof.Config

/-- The special functions of R89. -/
inductive SfuFn where
  | exp | exp2 | log2 | rcp | rsq | sqrt | sin | cos | tanh
  deriving DecidableEq, Repr

/-- Whether the n-th acquire of the run takes an optional publication, by its number (R160, R162). DESIGN CHOICE: free, log entry 2. -/
opaque takesOptional : Nat → Nat → Bool
/-- The result of a special function where R89 fixes only a bound: a function of the input (R89). DESIGN CHOICE: free, log entry 3. -/
opaque sfuValue : SfuFn → W32 → W32
/-- A byte that strong accesses of different sizes overlapped (R128). DESIGN CHOICE: free, log entry 4. -/
opaque mixedByte : Nat → Byte
/-- A return-address entry at or above a changed STORED (R108). DESIGN CHOICE: free, log entry 5. -/
opaque rasEntry : Nat → CodeAddr
/-- A byte of a line whose key was replaced (R442). DESIGN CHOICE: free, log entry 6. -/
opaque keyNoise : Nat → Byte
/-- Which of two values an unpredictable read returns (R394). DESIGN CHOICE: free, log entry 7. -/
opaque oldOrNew : Nat → Bool
/-- The bytes of the streams and of the opaque area of a saved context (R430). DESIGN CHOICE: free, log entry 8. -/
opaque opaqueByte : Nat → Byte
/-- Which entry of a group of differing page-table entries a page translates by (R122). DESIGN CHOICE: free, log entry 9. -/
opaque groupEntry : Nat → Nat
/-- The contents of an SPDM answer beyond what R483 fixes. DESIGN CHOICE: free, log entry 10. -/
opaque spdmByte : Nat → Byte
/-- The version of an image that the boot accepts (R481). DESIGN CHOICE: free, log entry 11. -/
opaque imageVersion : Nat → Nat

/-- The place of the line that a full instruction cache gives up, by the line that comes (R21). DESIGN CHOICE: free, log entry 12. -/
opaque fetchVictim : Nat → Nat
/-- How far beyond the present logical time the home extends a read lease, by the line and the time (R174). DESIGN CHOICE: free, log entry 76. -/
opaque leaseTerm : Nat → Nat → Nat
/-- The place among n waiting agents of the one that is served first, by a number of the run (R115, R137). DESIGN CHOICE: free, log entry 13. -/
opaque arrival : Nat → Nat → Nat
/-- The identity registers of a loader or storer core, by CSR number and core (R147). DESIGN CHOICE: free, log entry 14. -/
opaque scalarId : Nat → Nat → Word
/-- Whether a loader or storer core writes mtval at an exception, by its cause, or zero (R147). DESIGN CHOICE: free, log entry 15. -/
opaque mtvalSet : Nat → Bool

end Sys2Proof.Config
end

