-- ==== Sys2Proof/Machine/State.lean ====
section
/-! DEFINITION. The state of the module: every register, queue, table and memory that the manual names,
as plain data, and the state after module reset. INVENTORY.md lists each field with its rule. -/

namespace Sys2Proof.Machine

/-- The parts of R1. -/
inductive Part where
  | p8 | n8 | n4
  deriving DecidableEq, Repr

/-- Who executes the instruction at hand: a thread slot, a scalar core, or a unit of the module. -/
inductive Agent where
  | slot (g : GCore) (k : Slot)
  | scalar (g : GCore) (r : Role)
  | unit
  deriving DecidableEq, Repr

/-- What moves next: a slot's issue turn (R90), a lent turn of the given slot's context (R95), a step of a
scalar core (R147), an event of the opcode table, or the host's store of bytes to its own memory (R248). -/
inductive Action where
  | turn (g : GCore) (k : Slot)
  | lent (g : GCore) (k : Slot)
  | scalar (g : GCore) (r : Role)
  | event (i : Instr)
  | hostStore (off : Nat) (bs : List Byte)
  deriving DecidableEq, Repr

/-- Memory: address and byte pairs, addresses strictly rising; an unlisted byte reads 0. -/
abbrev Memory := List Host.Cell

/-- The canonical form of a memory: equal memories are equal lists. -/
abbrev Memory.wf (m : Memory) : Prop := twf 0 m = true

/-- A trap of R419 before it is delivered: cause, DETAIL and TVAL. -/
structure Trap where
  code : BitVec 8
  detail : BitVec 8 := 0
  val : Word := 0
  deriving DecidableEq, Repr

/-- A trap with the code addresses that its entry records (R421). -/
structure Entry where
  trap : Trap
  epc : CodeAddr
  res : CodeAddr
  deriving DecidableEq, Repr

/-- A run of bytes of one page: virtual address, physical address, length and the page's leaf entry
(zero for a local alias) (R120–R126). -/
structure Piece where
  va : Nat
  pa : Nat
  n : Nat
  leaf : Word
  deriving DecidableEq, Repr

/-- The source values that an instruction read at issue (R423): scalar values, vectors, its mask, the
translated pieces of its addresses, the bytes that its load bound (R174), and a number: the job that a command
took (R182) or a deadline. `parts` says that its access is performed part by part (R126, R127): `got` holds the bytes
read so far, `sent` counts the bytes stored so far. -/
structure Src where
  w : List Word := []
  v : List VWord := []
  k : Word := 0
  ps : List Piece := []
  qs : List Piece := []
  bs : Option (List Byte) := none
  job : Nat := 0
  tmo : Nat := 0
  parts : Bool := false
  got : List Byte := []
  sent : Nat := 0
  deriving DecidableEq, Repr

/-- Queue-port progress of an instruction (R47): values popped by port, values to push (port, value), whether
an access failed, whether a port was named, and whether the pushes have begun. -/
structure PortSt where
  popped : Table (Option Word) := []
  pushes : List (Nat × Word) := []
  failed : Bool := false
  used : Bool := false
  pushing : Bool := false
  deriving DecidableEq, Repr

/-- What a wait waits for (R218). -/
inductive WaitKind where
  | mail (line : Bool)
  | word (pa : Nat) (full take : Bool)
  | barrier (pa : Nat)
  | chunk (pa : Nat) (j : Nat)
  | timeline (t : TlReg) (n : Word)
  | chain (pa : Nat)
  | join (pa : Nat)
  | pop (q : Nat)
  | push (q : Nat)
  | tile (t : TReg)
  | sleep
  deriving DecidableEq, Repr

/-- The wake-table entry of a context (R219, R221, R222): the tag, the issue cc, the absolute deadline, and
whether an arrival has re-inserted the context; `reg` orders the waiters of one object. -/
structure Wait where
  kind : WaitKind
  since : Nat
  deadline : Nat
  woken : Bool := false
  reg : Nat := 0
  deriving DecidableEq, Repr

/-- An outstanding long-latency instruction (R92): its sources, how many further instructions may issue in
its window, the trap it met after issue (R94), its queue accesses, and the wait that it has begun at a remote word or a
full queue (R135, R218). `shadow` lists the registers that the second instruction of its pair has written, whose value
persists, and `upon` is the first one's number where it is the second (R41). -/
structure Out where
  id : Nat
  i : Instr
  src : Src
  pc : CodeAddr
  left : Nat
  trap : Option Trap := none
  port : PortSt := {}
  wait : Option Wait := none
  upon : Option Nat := none
  shadow : List Nat := []
  deriving DecidableEq, Repr

/-- The private registers of a context (R21, R96); p0, g0 and k0 are not stored. -/
structure Regs where
  g : Table Word := []
  v : Table VWord := []
  p : BitVec 8 := 0
  k : Table Word := []
  deriving DecidableEq, Repr

/-- The register values that a paired second instruction reads: those before the pair (R41), with the number of the next
outstanding instruction. -/
structure PairView where
  regs : Regs
  s : Table Word
  vs : Table VWord
  next : Nat
  deriving DecidableEq, Repr

/-- The trap registers and the mode of a context (R417, R420, R424). -/
structure TrapRegs where
  mode : Bool := false
  code : BitVec 8 := 0
  detail : BitVec 8 := 0
  tvec : BitVec 56 := 0
  tepc : BitVec 56 := 0
  tres : BitVec 56 := 0
  tval : Word := 0
  ctxptr : Word := 0
  tscr0 : Word := 0
  tscr1 : Word := 0
  deriving DecidableEq, Repr

/-- The return-address store with RASPTR and RASDEPTH (R106). -/
structure Ras where
  base : BitVec 44 := 0
  sz : BitVec 4 := 0
  stored : Nat := 0
  spilled : BitVec 16 := 0
  head : BitVec 16 := 0
  depth : BitVec 16 := 0
  entries : Table CodeAddr := []
  deriving DecidableEq, Repr

/-- The states of a stream (R299). -/
inductive StreamState where
  | unconfigured | configured | running | exhausted
  deriving DecidableEq, Repr

/-- An element read ahead: its address, pieces and bytes, or the trap of a failed read and whether it has been raised
(R302, R304). -/
inductive Ahead where
  | ok (va : Nat) (ps : List Piece) (bytes : List Byte)
  | bad (va : Nat) (t : Trap) (raised : Bool)
  deriving DecidableEq, Repr

/-- A stream register (R299–R305): its configuration, position, read-ahead and pushed stores. -/
structure Stream where
  st : StreamState := .unconfigured
  wr : Bool := false
  size : BitVec 2 := 0
  base : BitVec 56 := 0
  n : List Nat := []
  stride : List Word := []
  left : Nat := 0
  flt : Bool := false
  ahead : List Ahead := []
  pushed : List (List Piece × List Byte) := []
  deriving DecidableEq, Repr

/-- A request of the special-function unit (R320): the function's instruction, its source and mask, the
destination, for a write stream the pieces of each lane's element (R303), and the outstanding instruction it
belongs to. -/
structure SfuReq where
  g : GCore
  k : Slot
  out : Nat
  last : Bool
  i : Instr
  dst : VReg
  src : VWord
  mask : Word
  elems : Option (List (Nat × List Piece)) := none
  deriving DecidableEq, Repr

/-- Progress of a repeated instruction (R297): its address, repetitions done and the running value. -/
structure Rep where
  pc : CodeAddr := 0
  done : Nat := 0
  x : Option W32 := none
  deriving DecidableEq, Repr

/-- What the context's task is: launch, tile coordinate, priority, join counter, counts (R109, R241, R259). -/
structure Task where
  lid : Nat := 0
  x : BitVec 16 := 0
  y : BitVec 16 := 0
  z : BitVec 16 := 0
  pri : BitVec 2 := 0
  jctr : BitVec 56 := 0
  taken : Nat := 0
  deriving DecidableEq, Repr

/-- How a context is issuing: outstanding instructions, waits, turns given up, and the multi-turn progress
of the instruction at its PC with the sources that it read at issue; `issued` counts its instructions. `yielded` says that
the instruction at the PC has given up its turn (R52); `upon` and `shadow` are those of the instruction that acts (R41). -/
structure Issue where
  outs : List Out := []
  wait : Option Wait := none
  skip : Bool := false
  lend : Nat := 0
  prev : Option CodeAddr := none
  seq : Bool := false
  entry : Option Entry := none
  port : PortSt := {}
  rep : Rep := {}
  hold : Option Nat := none
  stage : Nat := 0
  src : Option Src := none
  pair : Option PairView := none
  yielded : Bool := false
  upon : Option Nat := none
  shadow : List Nat := []
  issued : Nat := 0
  deriving DecidableEq, Repr

/-- A context (R96, R417, R423): registers, PC, task, trap state and everything that a saved context holds;
`cancelled` and `cancelOuts` are its cancelled special-function requests with their instructions (R321),
`replay` says that withdrawn operations are to be performed before the next issue, and `again` holds the requests
that CTXSAVE cancelled, which re-enter the queue before it; the last `kept` of the withdrawn operations are left to RETT
(R202). `fpNow` holds the FPSTAT bits that instructions have raised
in one cc, with that cc (R74). -/
structure Ctx where
  regs : Regs := {}
  pc : CodeAddr := 0
  tid : BitVec 32 := 0
  tenant : TenantNo := 0
  fpctl : BitVec 2 := 0
  fpstat : BitVec 6 := 0
  fpNow : Nat × BitVec 6 := (0, 0)
  ras : Ras := {}
  task : Task := {}
  trap : TrapRegs := {}
  lo : Word := 0
  hi : Word := 0
  streams : Table Stream := []
  iss : Issue := {}
  withdrawn : List Out := []
  cancelled : List SfuReq := []
  cancelOuts : List Out := []
  failures : List (Nat × Nat) := []
  halted : Bool := false
  replay : Bool := false
  savedRep : Rep := {}
  again : List SfuReq := []
  kept : Nat := 0
  deriving DecidableEq, Repr

/-- A tile-table entry (R138) with the address of its last failed access (R153). -/
structure Tile where
  state : BitVec 2 := 0
  dfn : Bool := false
  fault : Bool := false
  base : BitVec 10 := 0
  size : BitVec 11 := 0
  pend : BitVec 16 := 0
  failed : Word := 0
  deriving DecidableEq, Repr

/-- A fill or drain command in progress (R150, R151): rows of `rowb` bytes between memory and the tile; `stale` says that the
tile it was pushed for is no longer defined (R138, R154). -/
structure FillJob where
  drain : Bool
  tile : TReg
  mem : Word
  stride : Word
  off : Nat
  pitch : Nat
  rows : Nat
  rowb : Nat
  stale : Bool := false
  deriving DecidableEq, Repr

/-- A loader or storer core (R147): registers, pc, CSRs, instruction store, and the deadline of its Xfltile wait. -/
structure Scalar where
  x : Table Word := []
  pc : Word := 0
  running : Bool := false
  csr : Table Word := []
  imem : Table Byte := []
  deadline : Option Nat := none
  deriving DecidableEq, Repr

/-- A message of R224, accepted by a core or still in flight to it; `accepted` says that its acceptance has been
counted and reported already (R222). -/
structure Msg where
  dst : BitVec 32
  src : BitVec 32
  tenant : TenantNo
  lid : Nat
  hi : Bool
  line : Bool
  data : List Byte
  spilled : Bool := false
  out : Nat := 0
  accepted : Bool := false
  deriving DecidableEq, Repr

/-- The kinds of a task entry (R265) and the tile task of R255. -/
inductive TaskKind where
  | tile | forked | migration | resumed
  deriving DecidableEq, Repr

/-- A task entry (R265) with its ready time (R271), the scope of the release that made it (R172), the place of its
continuation record, and the PC of that record where it is no code address (R39). -/
structure TaskEntry where
  kind : TaskKind
  pc : CodeAddr
  task : Task
  p : BitVec 8 := 0
  fs : BitVec 6 := 0
  rm : BitVec 2 := 0
  crec : Word := 0
  args : List Word := []
  ready : Nat := 0
  scope : Scope := .core
  pa : Nat := 0
  badPc : Option Word := none
  deriving DecidableEq, Repr

/-- The state a core keeps for each bound launch (R263): its registers, counters, deque and arrival queue.
Tile tasks `tileLo` to `tileHi` of the core are still to be generated. `stolen` holds what a probe took (R269),
`probe` the next victim of the steal, `victims` the last giver of each group of victims. `loaded` says that the
launch's images are in place (R256). -/
structure Bind where
  lid : Nat
  lcore : BitVec 12 := 0
  qp : Bool := false
  fuse : Bool := false
  parkt : BitVec 32 := 0
  qpto : BitVec 32 := 0
  qpbind : Word := 0
  spill : Word := 0
  sent : Word := 0
  rcvd : Word := 0
  deque : List TaskEntry := []
  arrivals : List TaskEntry := []
  ring : List TaskEntry := []
  tileLo : Nat := 0
  tileHi : Nat := 0
  since : Nat := 0
  seenExit : Bool := false
  admitted : Bool := false
  tileSeen : Bool := false
  loaded : Bool := false
  stolen : List TaskEntry := []
  probe : Nat := 0
  victims : Table Nat := []
  boundAt : Nat := 0
  deriving DecidableEq, Repr

/-- A context in a park slot: parked and blocked, re-queued by a wake, or yielded (R275, R288). -/
structure Parked where
  slot : Nat
  ctx : Ctx
  yielded : Bool
  queued : Bool
  ready : Nat
  deriving DecidableEq, Repr

/-- The context that pushed a job, which keeps the job's failure (R183): its TID and its launch. -/
structure Owner where
  tid : BitVec 32 := 0
  lid : Nat := 0
  deriving DecidableEq, Repr

/-- A command of the matrix engine (R343–R348); `bad` is a command block that fails with code 6 (R262). -/
inductive MCmd where
  | mldw (base rs : Word) (f : WFmt)
  | mswap
  | mstream (a c : Word) (d : Option Word) (rows : Nat) (f : AFmt) (o64 : Bool)
  | mattn (desc : Word)
  | mcfg (mode : BitVec 4)
  | bad
  deriving DecidableEq, Repr

/-- A queued or running matrix command with its job number, the tile it takes next, and the control block or
descriptor, rotation table and weights that it read when it started; `ended` says that its last tile is in
the array. -/
structure MJob where
  job : Nat
  cmd : MCmd
  tenant : TenantNo
  own : Owner := {}
  started : Bool := false
  ended : Bool := false
  pos : Nat := 0
  blk : List Byte := []
  tab : List Byte := []
  weights : WFmt × List Byte := (.bf16, [])
  deriving DecidableEq, Repr

/-- A row that is in the array or has left it, and whose updates are still to be applied (R338): its job, the
drain mode, the address of its first element, and its sums; or a row of finished scores (R341). -/
structure MRow where
  g : GCore
  tenant : TenantNo
  own : Owner
  job : Nat
  mode : BitVec 4
  out : Nat
  o64 : Bool
  row : Nat
  sums : List W32
  blk : List Byte
  tab : List Byte
  score : Bool := false
  deriving DecidableEq, Repr

/-- The matrix queue of a core (R331, R332): commands, weight slots, tags, MMODE and the last failure; whether a
tile of it is in the array, and the jobs that have left the array and are not done. -/
structure MQueue where
  cmds : List MJob := []
  active : Option (WFmt × List Byte) := none
  shadow : Option (WFmt × List Byte) := none
  tags : List Byte := []
  mmode : BitVec 4 := 3
  fcode : BitVec 8 := 0
  fjob : Nat := 0
  run : Bool := false
  gone : List Nat := []
  deriving DecidableEq, Repr

/-- A job of the copy unit (R393–R396) with the number of rows or pieces already moved. -/
inductive CpyCmd where
  | cpy (dst src len : Word)
  | cpy2d (desc : Word)
  | cpyf (src dst : VType) (d s c : Word)
  | cpyg (d s list k : Word) (rb : Nat)
  | bad
  deriving DecidableEq, Repr

/-- A queued copy command: the rows, elements or bytes already moved, its descriptor or snapshot of the source, and
what bytes of an overlapping CPY2D held before the job (R394). -/
structure CpyJob where
  job : Nat
  tenant : TenantNo
  own : Owner := {}
  cmd : CpyCmd
  started : Bool := false
  pos : Nat := 0
  blk : List Byte := []
  old : Table (Option Byte) := []
  fail : Nat := 0
  finished : Bool := false
  deriving DecidableEq, Repr

/-- A copy queue, or the queue of the collective engine or press, keeps the last failure (R391). -/
structure Fail where
  code : BitVec 8 := 0
  job : Nat := 0
  deriving DecidableEq, Repr

/-- A piece that a collective job awaits, or has (R403). -/
structure CollPiece where
  chunk : Nat
  seg : Nat
  off : Nat
  len : Nat
  dst : Word
  deriving DecidableEq, Repr

/-- A collective job (R399–R403): its descriptor and SEQ as given at acceptance, the pieces that it awaits, the chunks
counted, the cc of its last reply, and the code with which it is to fail (R391). -/
structure CollJob where
  g : GCore
  job : Nat
  tenant : TenantNo
  own : Owner := {}
  desc : List Word
  seq : W32
  group : BitVec 6
  started : Bool := false
  want : List CollPiece := []
  counted : List Nat := []
  clock : Nat := 0
  bad : Nat := 0
  deriving DecidableEq, Repr

/-- The request kinds of the press (R408–R412). -/
inductive PrCmd where
  | smpl (req : Word)
  | smplv (req : Word)
  | smcommit (seq : Word) (vjob : Nat)
  deriving DecidableEq, Repr

/-- A queued press request; `seqb` is its sequence block once known, `cancel` a cancel that met it. -/
structure PrJob where
  g : GCore
  job : Nat
  tenant : TenantNo
  own : Owner := {}
  cmd : PrCmd
  cancel : Bool := false
  step : Word := 0
  deriving DecidableEq, Repr

/-- The walk of a running SMPLV (R411): its request, sequence block and stage chain as read at its start, the
template's parents, the draft tokens by node, the current node with its depth and path, p and q; `leaf` says
that no child was taken. -/
structure PrWalk where
  job : PrJob
  req : List Byte
  blk : List Byte
  chain : List (List Byte)
  parents : List Byte
  drafts : List W32
  node : Nat := 0
  depth : Nat := 0
  path : List Nat := []
  p : List W32 := []
  q : List W32 := []
  leaf : Bool := false
  deriving DecidableEq, Repr

/-- A pending verdict (R411, R412). -/
structure Verdict where
  tenant : TenantNo
  g : GCore
  seq : Word
  job : Nat
  toks : List W32
  next : W32
  deriving DecidableEq, Repr

/-- ISSUED and DONE of a core's engine context (R182); jobs finished above DONE are listed. -/
structure Timeline where
  issued : Nat := 0
  done : Nat := 0
  ahead : List Nat := []
  deriving DecidableEq, Repr

/-- A counter of R444: its event and its value. -/
structure Pmc where
  event : BitVec 16 := 0
  count : Word := 0
  deriving DecidableEq, Repr

/-- A line held in an L1: the launch and core that pinned it, its eviction priority and the time of its last use (R118,
R119), the tenant in its tag (R441) and the end of its read lease (R174). -/
structure L1Line where
  pin : Option (Nat × Nat)
  pri : BitVec 2
  used : Nat
  tenant : TenantNo
  lease : Nat
  deriving DecidableEq, Repr

/-- A line held in a die's L2, at its home or as a replica: its tenant, eviction priority and last use, and whether
DRAM holds other bytes (R20, R117–R119, R441). -/
structure L2Line where
  tenant : TenantNo
  pri : BitVec 2
  used : Nat
  dirty : Bool
  deriving DecidableEq, Repr

/-- A fetch line held in an instruction cache, with the tenant that fetched it (R21, R35). -/
structure FetchLine where
  tenant : TenantNo
  bytes : List Byte
  deriving DecidableEq, Repr

/-- A cached translation (R435): tenant, virtual page, page size in bits, leaf. -/
structure Tlb where
  tenant : TenantNo
  page : Nat
  bits : Nat
  leaf : Word
  deriving DecidableEq, Repr

/-- The phase state of a core (R155–R157, R162): the publications up to `upto` are in its snapshot but for
`missing`, and its logical time (R174); unpublished bytes; lines whose bytes sit in L2 private copies; when the
snapshot last moved. -/
structure Phase where
  upto : Nat := 0
  missing : List Nat := []
  time : Nat := 0
  unpub : Table (Option Byte) := []
  l2 : List Nat := []
  moved : Nat := 0
  deriving DecidableEq, Repr

/-- The registers of a core that its slots share (R96, R139, R156, R444), for each of them the cc and slot of
the last write and the value before that cc (R31, R97), its scalar cores and its tiles. -/
structure CoreRegs where
  s : Table Word := []
  vs : Table VWord := []
  shw : Table (Option (Nat × Nat × Nat)) := []
  twto : BitVec 32 := 0
  phlim : BitVec 32 := 0x00100000
  pmc : Table Pmc := []
  tiles : Table Tile := []
  fe : Table Bool := []
  loader : Scalar := {}
  storer : Scalar := {}
  mq : MQueue := {}
  deriving DecidableEq, Repr

/-- What a core keeps of caches and translation. -/
structure CoreCache where
  l1 : Table (Option L1Line) := []
  icache : Table (Option FetchLine) := []
  tlb : List Tlb := []
  deriving DecidableEq, Repr

/-- The engine side of a core: timelines, copy queue, port jobs, fills, special-function unit. -/
structure CoreEng where
  tl : Table Timeline := []
  cq : List CpyJob := []
  cqFail : Fail := {}
  collFail : Fail := {}
  pressFail : Fail := {}
  portJobs : List (Nat × Nat) := []
  fills : List FillJob := []
  sfuQ : List SfuReq := []
  sfuRun : List (SfuReq × Nat) := []
  sfuNext : Nat := 0
  deriving DecidableEq, Repr

/-- A core block (R433): registers, the bytes of the scratchpad and the data memories, and stores to host windows
that the release of R172 does not publish (R185). -/
structure Block where
  regs : CoreRegs := {}
  cells : List (Nat × Byte) := []
  unpub : Table (Option Byte) := []
  deriving DecidableEq, Repr

/-- A compute core (R21). `saved` holds the contexts of tenants that a time slice took off the core with their
slots, `blocks` the tenants' core blocks, `log` the arrivals aimed at saved contexts (R222, R276), `turnAt` the cc
after the last issue turn, `reserved` the cc after the last reserved turn of its scratchpad (R115), `leaving` says
that its tenant's contexts are saved and the core is to pass to another tenant, `ended` is the cc after the last
end of a context, `tileFrom` the cc after the last change of a tile entry (R140). -/
structure Core where
  regs : CoreRegs := {}
  cache : CoreCache := {}
  eng : CoreEng := {}
  ph : Phase := {}
  tenant : Option TenantNo := none
  gens : Table (BitVec 16) := []
  mail : List Msg := []
  parked : List Parked := []
  sliceStart : Nat := 0
  lastRan : Table Nat := []
  saved : Table (List (Nat × Ctx)) := []
  blocks : Table (Option Block) := []
  log : List Msg := []
  leaving : Bool := false
  ended : Nat := 0
  freed : Table Nat := []
  turnAt : Nat := 0
  reserved : Nat := 0
  tileFrom : Nat := 0
  deriving DecidableEq, Repr

/-- The matrix and copy side of a cluster (R328–R330, R390) and its L2 TLB: the queue that the arbiter visits, the
tiles that the visit has taken and may take, the core whose tile the cells hold, and the rows in flight. -/
structure Cluster where
  pos : BitVec 3 := 7
  used : Nat := 0
  budget : Nat := 0
  cells : Option Nat := none
  rows : List MRow := []
  rr : Nat := 0
  tlb : List Tlb := []
  deriving DecidableEq, Repr

/-- A directory region (R177, R178): the lines that dies have written and touched in the window, the lines whose reads
count toward raising the degree, and the replicas that dies have evicted. -/
structure Region where
  line : Nat
  gran : Nat
  deg : Nat
  lastUse : Table Nat := []
  conflictAt : Nat := 0
  writes : List (Nat × Nat) := []
  touches : List (Nat × Nat) := []
  rises : List Nat := []
  evicts : List (Nat × Nat) := []
  deriving DecidableEq, Repr

/-- A lost-line entry (R450). -/
structure Lost where
  line : Nat
  cause : BitVec 3
  deriving DecidableEq, Repr

/-- A rope instruction in progress at a trellis unit (R352). -/
structure RopeJob where
  g : GCore
  k : Slot
  out : Nat
  unit : Nat
  deriving DecidableEq, Repr

/-- A line to be reclaimed: who dropped it, and whether it is a node or a piece line (R371). -/
structure Reclaim where
  g : GCore
  tenant : TenantNo
  line : Nat
  node : Bool
  deriving DecidableEq, Repr

/-- A summary descriptor: its sixteen dwords (R360). -/
structure RopeDesc where
  words : List Word
  deriving DecidableEq, Repr

/-- A compute die: the lines in its L2, lost lines, directory, inter-group queues, trellis work, press (R20). -/
structure Die where
  l2 : Table (Option L2Line) := []
  lost : List Lost := []
  lostRgn : Table (BitVec 512) := []
  regions : List Region := []
  igq : Table (List Word) := []
  ropes : List RopeJob := []
  reclaim : List Reclaim := []
  press : List PrJob := []
  walk : Option PrWalk := none
  verdicts : List Verdict := []
  deriving DecidableEq, Repr

/-- A launch that is bound (R255) or waiting to start (R254): record, exit mark, counts, failures, and whether a dead die
held a context of it (R449). -/
structure Launch where
  lid : Nat
  tenant : TenantNo
  words : List Word
  limg : List Byte := []
  simg : List Byte := []
  perm : List Nat := []
  exiting : Bool := false
  stopped : Option Word := none
  discarded : Nat := 0
  failures : List (Nat × Nat) := []
  dead : Bool := false
  deriving DecidableEq, Repr

/-- Why a continuation record is registered (R283). -/
inductive CondKind where
  | timeline (g : GCore) (t : TlReg) (n : Word)
  | barrier (pa : Nat)
  | join (pa : Nat)
  | plain
  deriving DecidableEq, Repr

/-- A registered continuation: its record, condition and deadline (R283); `late` says that the deadline passed before the
condition held (R290). -/
structure Registered where
  pa : Nat
  va : Word
  tenant : TenantNo
  lid : Nat
  home : GCore
  kind : CondKind
  deadline : Nat
  scope : Scope
  late : Bool := false
  deriving DecidableEq, Repr

/-- An arrival on its way to a core's arrival queue (R274). -/
structure Arrival where
  g : GCore
  tenant : TenantNo
  entry : TaskEntry
  deriving DecidableEq, Repr

/-- Who made a publication: a core, an engine job that a core pushed, or the host. -/
inductive PubSrc where
  | core (g : GCore)
  | engine (g : GCore)
  | host
  deriving DecidableEq, Repr

/-- A publication (R158): the bytes it wrote with the values they displaced. -/
structure Pub where
  id : Nat
  src : PubSrc
  scope : Scope
  cells : List (Nat × Byte × Byte)
  deriving DecidableEq, Repr

/-- A publication that waits for lees space (R175). -/
structure PubWait where
  id : Nat
  g : GCore
  scope : Scope
  cells : List (Nat × Byte)
  since : Nat
  deriving DecidableEq, Repr

/-- A phase-exempt or engine write that has found no lees space: who makes it, the bytes it writes, and since when
(R175, R176, R180). -/
structure Thirst where
  who : Agent
  cells : List Nat
  since : Nat
  deriving DecidableEq, Repr

/-- A partial copy or slice of an accumulator line: element values that were touched (R197, R200). -/
abbrev Partial := Table (Option Word)

/-- A TLB invalidation of a context (R436, R437): on its way, or delivered with the outstanding instructions that
had translated through a dropped entry. -/
structure TlbInv where
  g : GCore
  tid : BitVec 32
  tenant : TenantNo
  lo : Nat
  len : Nat
  scope : Scope
  delivered : Bool := false
  waits : List Nat := []
  deriving DecidableEq, Repr

/-- A fabric port (R476): sequence numbers, the retry buffer with the messages that it carries and the SEQ of their last
flits, consecutive replays, the bytes received of a message that has not arrived whole, whether a negative acknowledge
is out, and the flits sent with their kinds. -/
structure FPort where
  txSeq : BitVec 12 := 0
  rxNext : BitVec 12 := 0
  retry : List Flit := []
  msgs : List (BitVec 12 × Byte × FabHdr × List Byte) := []
  replays : Nat := 0
  rx : List Byte := []
  nak : Bool := false
  sent : List (BitVec 4 × Flit) := []
  deriving DecidableEq, Repr

/-- What the module sends to the host through a port (R447, R474). -/
inductive HostMsg where
  | data (addr : Nat) (bytes : List Byte) (poison : Bool)
  | atomic (old : List Byte)
  | atomicError
  | atsDone (i : BitVec 1)
  deriving DecidableEq, Repr

/-- The boot and attestation state (R480–R483): measurements taken, the flash's rollback counters, whether the standby
controller stands by, how far the SPDM handshake has come, whether a session is open, and the answers given over DOE. -/
structure Secure where
  measured : List Nat := []
  rollback : Table Nat := []
  standby : Bool := false
  handshake : Nat := 0
  session : Bool := false
  answers : List (List Byte) := []
  deriving DecidableEq, Repr

/-- What is in flight: messages, arrivals, TLB invalidations, registered continuations, fabric messages to be sent,
collective jobs, and what went to the host. -/
structure Flight where
  mesh : List Msg := []
  arrivals : List Arrival := []
  invs : List TlbInv := []
  conds : List Registered := []
  fabOut : List (Byte × FabHdr × List Byte) := []
  toHost : List HostMsg := []
  colls : List CollJob := []
  deriving DecidableEq, Repr

/-- The coherence state of the module: publications with the logical time of the last one (R174), those that wait for
lees space, accumulator lines with their copies and slices (`sliceHome` lists the evicted ones, R200), keys, and for
each line the attributes of the page through which it was last stored: WP, MIR and EVP (R121). -/
structure Coh where
  pubs : List Pub := []
  base : Nat := 0
  waiting : List PubWait := []
  nextPub : Nat := 1
  time : Nat := 0
  thirst : List Thirst := []
  hdr : Table Word := []
  copies : Table Partial := []
  slices : Table Partial := []
  sliceHome : List Nat := []
  owned : Table (Option GCore) := []
  mirror : List Nat := []
  keyGen : Table Nat := []
  lineKey : Table (Option (Nat × Nat)) := []
  strong : Table Nat := []
  attr : Table Nat := []
  deriving DecidableEq, Repr

/-- The whole module. `eventsFrom` and `turnsFrom` are the earliest cc of an event and of an issue turn that comes next:
what the manual places before them within one cc is done. `opaques` keeps, by number, the contexts whose saved records the device has written: what the
opaque areas of those records hold (R430). -/
structure State where
  part : Part
  cycle : Nat
  eventsFrom : Nat
  turnsFrom : Nat
  pending : List Action
  who : Agent
  mem : Memory
  ctxs : Table (Option Ctx)
  cores : Table Core
  binds : Table (Option Bind)
  clusters : Table Cluster
  dies : Table Die
  cfg : Table (Option Word)
  coh : Coh
  fl : Flight
  launches : List Launch
  nextLid : Nat
  trees : Table (Option (List Byte))
  descs : Table (Option RopeDesc)
  msix : List (Nat × Nat)
  linkUp : List Bool
  linkCxl : List Bool
  ats : List (Nat × Nat)
  fports : Table FPort
  sec : Secure
  nextId : Nat
  fresh : Nat
  opaques : List (Nat × Ctx)
  deriving DecidableEq, Repr

/-- Why a step stops. -/
inductive Fault where
  /-- Raised by a compute-core instruction that is executed while no context holds the slot: no run reaches
  it through `step`, which issues only for a context. Safe. -/
  | noContext
  /-- Raised by an instruction executed by an agent of another kind (a compute-core instruction by a scalar
  core, an Xfltile instruction by a thread): no run reaches it through `step`. Safe. -/
  | wrongAgent
  deriving DecidableEq, Repr

/-- Why an instruction has no meaning in the model. -/
inductive Refusal where
  /-- Raised by the dispatch arm of an instruction that is not modelled yet. Safe. -/
  | notModelled (mnemonic : String)
  deriving DecidableEq, Repr

/-- The module right after reset (R424, R438): cycle 0, every register at its reset value, memory with
nothing listed, the host ports not yet enabled (R480), nothing pending. DESIGN CHOICE: the part, what an unlisted byte
reads as, the first launch number and the tables for which no rule speaks of reset (log entries 1, 16, 17, 18, 22). -/
def State.reset : State where
  part := .p8
  cycle := 0
  eventsFrom := 0
  turnsFrom := 0
  pending := []
  who := .unit
  mem := []
  ctxs := []
  cores := []
  binds := []
  clusters := []
  dies := []
  cfg := []
  coh := {}
  fl := {}
  launches := []
  nextLid := 1
  trees := []
  descs := []
  msix := []
  linkUp := [false, false]
  linkCxl := [false, false]
  ats := []
  fports := []
  sec := {}
  nextId := 1
  fresh := 0
  opaques := []

end Sys2Proof.Machine
end

