-- ==== Sys2Proof/Machine/Access.lean ====
section
/-! DEFINITION. Reading and replacing the parts of the state: cores, contexts, bindings, clusters, dies,
configuration registers, event counters; the physical address map and the scopes. -/

namespace Sys2Proof.Machine

/-- A table of records with v at key k. -/
def tput (t : Table α) (k : Nat) (v : α) : Table α := tins (tdel t k) k v

/-- Core g. -/
def State.core (s : State) (g : Nat) : Core := tget {} s.cores g
/-- The state with core g replaced. -/
def State.setCore (s : State) (g : Nat) (c : Core) : State := { s with cores := tput s.cores g c }
/-- The state with core g changed. -/
def State.modCore (s : State) (g : Nat) (f : Core → Core) : State := s.setCore g (f (s.core g))

/-- The key of slot k of core g among the contexts. -/
def ctxKey (g : GCore) (k : Slot) : Nat := g.toNat * 16 + k.toNat
/-- The context in slot k of core g. -/
def State.ctx (s : State) (g : GCore) (k : Slot) : Option Ctx := tget none s.ctxs (ctxKey g k)
/-- The state with slot k of core g holding c, or free. -/
def State.setCtx (s : State) (g : GCore) (k : Slot) (c : Option Ctx) : State :=
  { s with ctxs := tset none s.ctxs (ctxKey g k) c }
/-- The state with the context in slot k of core g changed; a free slot stays free. -/
def State.modCtx (s : State) (g : GCore) (k : Slot) (f : Ctx → Ctx) : State :=
  match s.ctx g k with
  | some c => s.setCtx g k (some (f c))
  | none => s

/-- The launch state of tenant t on core g (R263). -/
def State.bind (s : State) (g : Nat) (t : TenantNo) : Option Bind := tget none s.binds (g * 16 + t.toNat)
/-- The state with that binding replaced. -/
def State.setBind (s : State) (g : Nat) (t : TenantNo) (b : Option Bind) : State :=
  { s with binds := tset none s.binds (g * 16 + t.toNat) b }
/-- The state with that binding changed; an unbound core stays unbound. -/
def State.modBind (s : State) (g : Nat) (t : TenantNo) (f : Bind → Bind) : State :=
  match s.bind g t with
  | some b => s.setBind g t (some (f b))
  | none => s

/-- Cluster c of the module. -/
def State.cluster (s : State) (c : Nat) : Cluster := tget {} s.clusters c
/-- The state with cluster c changed. -/
def State.modCluster (s : State) (c : Nat) (f : Cluster → Cluster) : State :=
  { s with clusters := tput s.clusters c (f (s.cluster c)) }

/-- Die d. -/
def State.die (s : State) (d : Nat) : Die := tget {} s.dies d
/-- The state with die d changed. -/
def State.modDie (s : State) (d : Nat) (f : Die → Die) : State :=
  { s with dies := tput s.dies d (f (s.die d)) }

/-- The number of compute dies present (R1). -/
def Part.dies : Part → Nat
  | .p8 | .n8 => 8
  | .n4 => 4

/-- The number of fabric ports (R1). -/
def Part.ports : Part → Nat
  | .p8 | .n8 => 18
  | .n4 => 9

/-- The value of CAPS (R3, R4). -/
def Part.caps : Part → Word
  | .p8 => 0x0000011200FF0080
  | .n8 => 0x0000011200FF0000
  | .n4 => 0x00000109000F0000

/-- Whether the part has press engines (R1, R3). -/
def Part.press (p : Part) : Bool := p.caps.getLsbD 7

/-- The die of a core (R12). -/
def dieOf (g : Nat) : Nat := g / 512
/-- The cluster of a core, numbered over the module (R12). -/
def clusterOf (g : Nat) : Nat := g / 8

/-- Whether cores a and b lie in one instance of a scope (R11, R160). -/
def inScope (sc : Scope) (a b : Nat) : Bool :=
  match sc with
  | .thread | .core => a == b
  | .cluster => clusterOf a == clusterOf b
  | .die => dieOf a == dieOf b
  | .module | .system => true

/-- The narrowest scope that contains both cores (R172, R229). -/
def pairScope (a b : Nat) : Scope :=
  if a == b then .core else if clusterOf a == clusterOf b then .cluster
  else if dieOf a == dieOf b then .die else .module

/-- The scopes by number (R53). -/
def scopeRank : Scope → Nat
  | .thread => 0 | .core => 1 | .cluster => 2 | .die => 3 | .module => 4 | .system => 5

/-- The scope of a number; SYSTEM above 4. -/
def scopeOfNat (n : Nat) : Scope :=
  match n with
  | 0 => .thread | 1 => .core | 2 => .cluster | 3 => .die | 4 => .module | _ => .system

/-- The wider of two scopes. -/
def scopeMax (a b : Scope) : Scope := if scopeRank a < scopeRank b then b else a

/-- What a physical address names (R110, R111). -/
inductive Place where
  | dram (d : Nat)
  | view (d : Nat)
  | spad (g : Nat)
  | smem (g : Nat) (r : Role)
  | config
  | host (i : Nat)
  | hole
  deriving DecidableEq, Repr

/-- The base of the scratchpads (R110). -/
def spadBase : Nat := 0x3000000000000
/-- The base of the loader and storer data memories (R110). -/
def smemBase : Nat := 0x3000100000000
/-- The base of the host link windows (R110). -/
def hostBase : Nat := 0x8000000000000

/-- The physical address map of R110; absent dies are unpopulated (R6, R111). -/
def placeOf (p : Part) (pa : Nat) : Place :=
  if pa < 0x1000000000000 then
    if pa / 2 ^ 36 < p.dies && pa % 2 ^ 36 < 48 * 2 ^ 30 then .dram (pa / 2 ^ 36) else .hole
  else if pa < 0x2000000000000 then
    if (pa - 0x1000000000000) / 2 ^ 38 < p.dies then .dram ((pa - 0x1000000000000) / 2 ^ 38) else .hole
  else if pa < spadBase then
    if (pa - 0x2000000000000) / 2 ^ 36 < p.dies then .view ((pa - 0x2000000000000) / 2 ^ 36) else .hole
  else if pa < smemBase then
    if (pa - spadBase) / 2 ^ 17 < p.dies * 512 then .spad ((pa - spadBase) / 2 ^ 17) else .hole
  else if pa < 0x4000000000000 then
    if (pa - smemBase) / 2 ^ 14 < p.dies * 512 then
      .smem ((pa - smemBase) / 2 ^ 14) (if pa % 2 ^ 14 < 2 ^ 13 then .loader else .storer)
    else .hole
  else if pa < hostBase then .config
  else if pa < 0x10000000000000 then .host ((pa - hostBase) / 2 ^ 50)
  else .hole

/-- The home slice of a line within its die (R113). -/
def sliceOf (pa : Nat) : Nat :=
  let b (lo : Nat) : BitVec 8 := BitVec.ofNat 8 (pa / 2 ^ lo)
  (b 7 ^^^ b 15 ^^^ b 23 ^^^ b 31 ^^^ b 39 ^^^ BitVec.ofNat 8 (pa / 2 ^ 47 % 32)).toNat

/-- The line of an address. -/
def lineOf (a : Nat) : Nat := a / 128

/-- The configuration register of tenant t at an offset of its block (R438). -/
def tenReg (t : TenantNo) (off : Nat) : Nat := 0x4000000000000 + t.toNat * 0x100000 + off
/-- The configuration register of die d at an offset of its block (R438). -/
def dieReg (d off : Nat) : Nat := 0x5000000000000 + d * 0x1000000 + off
/-- The module's configuration register at an offset (R438, R477, R479, R482). -/
def modReg (off : Nat) : Nat := 0x6000000000000 + off

/-- The reset values of configuration registers: TSLICE (R250), CTO (R398), PWRCTL (R479); all others 0. -/
def cfgReset (a : Nat) : Word :=
  if a = modReg 0 then 0x00010000
  else if a = modReg 0x10 then 720
  else if 0x4000000000000 ≤ a && a < 0x4000001000000 && a % 0x100000 == 0x220 then 0x002AB980
  else 0

/-- A configuration register as it is stored. -/
def State.cfgAt (s : State) (a : Nat) : Word := (tget none s.cfg a).getD (cfgReset a)
/-- The state with a stored configuration register replaced. -/
def State.setCfg (s : State) (a : Nat) (v : Word) : State := { s with cfg := tset none s.cfg a (some v) }

/-- The core of the running agent. -/
def State.g (s : State) : GCore :=
  match s.who with
  | .slot g _ => g
  | .scalar g _ => g
  | .unit => 0
/-- The slot of the running thread. -/
def State.k (s : State) : Slot :=
  match s.who with
  | .slot _ k => k
  | _ => 0
/-- The state with a slot's thread as the running agent. -/
def State.asWho (s : State) (g : GCore) (k : Slot) : State := { s with who := .slot g k }
/-- The running context. -/
def State.c (s : State) : Ctx := (s.ctx s.g s.k).getD {}
/-- The state with the running context changed. -/
def State.modC (s : State) (f : Ctx → Ctx) : State := s.setCtx s.g s.k (some (f s.c))
/-- The tenant of the running context. -/
def State.t (s : State) : TenantNo := s.c.tenant
/-- The launch state of the running context on its core. -/
def State.b (s : State) : Bind := (s.bind s.g.toNat s.t).getD { lid := 0 }
/-- The state with that launch state changed. -/
def State.modB (s : State) (f : Bind → Bind) : State := s.modBind s.g.toNat s.t f

/-- Counters of core g that count event ev rise by n (R444). -/
def State.bumpBy (s : State) (g ev n : Nat) : State :=
  if (s.core g).regs.pmc.any (fun p => p.2.event.toNat == ev) then
    s.modCore g fun c => { c with regs := { c.regs with pmc := c.regs.pmc.map fun p =>
      if p.2.event.toNat == ev then (p.1, { p.2 with count := p.2.count + BitVec.ofNat 64 n }) else p } }
  else s
/-- Counters of core g that count event ev rise by one. -/
def State.bump (s : State) (g ev : Nat) : State := s.bumpBy g ev 1
/-- Counters of every core that satisfies p and counts event ev rise by n: the events counted for a
cluster, a die or the module. -/
def State.bumpAll (s : State) (p : Nat → Bool) (ev n : Nat) : State :=
  (tkeys s.cores).foldl (fun s g => if p g then s.bumpBy g ev n else s) s
/-- A die-wide event (R180, R246, R386, R416, R444). -/
def State.bumpDie (s : State) (d ev n : Nat) : State := s.bumpAll (fun g => dieOf g == d) ev n

/-- n cc pass. -/
def State.tick (s : State) (n : Nat) : State :=
  ({ s with cycle := s.cycle + n } : State).bumpAll (fun _ => true) 0x0001 n

/-- A message-signalled interrupt is sent: function (16 for the physical function) and vector (R443); it
is lost while no host link is up (R475). -/
def State.raise (s : State) (fn vec : Nat) : State :=
  if s.linkUp.any id then { s with msix := s.msix ++ [(fn, vec)] } else s

/-- The next identifier of an outstanding instruction. -/
def State.takeId (s : State) : State := { s with nextId := s.nextId + 1 }

/-- Whether a die is present and not declared dead (R6, R449). -/
def State.alive (s : State) (d : Nat) : Bool := d < s.part.dies && !(s.cfgAt (modReg 8)).getLsbD d

/-- A launch that is bound or waiting, by its number. -/
def State.launch? (s : State) (lid : Nat) : Option Launch := s.launches.find? (fun l => l.lid == lid)
/-- The launches with that one changed. -/
def State.modLaunch (s : State) (lid : Nat) (f : Launch → Launch) : State :=
  { s with launches := s.launches.map fun l => if l.lid == lid then f l else l }
/-- Dword i of a launch's record. -/
def Launch.dw (l : Launch) (i : Nat) : Word := l.words.getD i 0
/-- The stealing domain of a launch (R252, R172). -/
def Launch.domain (l : Launch) : Scope := scopeOfNat (fld (l.dw 3) 4 2)
/-- The domain scope of the running context's launch (R172). -/
def State.domain (s : State) : Scope :=
  match s.launch? s.c.task.lid with
  | some l => l.domain
  | none => .core

/-- Tenant t's TENCTL.EN (R439). -/
def State.tenEn (s : State) (t : TenantNo) : Bool := (s.cfgAt (tenReg t 0)).getLsbD 0
/-- Tenant t's TENCTL.DBG (R439). -/
def State.tenDbg (s : State) (t : TenantNo) : Bool := (s.cfgAt (tenReg t 0)).getLsbD 1

end Sys2Proof.Machine
end

