-- ==== Sys2Proof/Machine/Fp.lean ====
section
/-! DEFINITION. Number formats (R64–R69), exact arithmetic on their values, the roundings of R70 and the
conversions of R76 and R77. Every operation forms its exact result as a sign, a natural number and a power
of two, and rounds once. -/

namespace Sys2Proof.Machine

/-- The floating-point formats of R64. -/
inductive Fmt where
  | f32 | f16 | bf16 | f8 | f64
  deriving DecidableEq, Repr

/-- The rounding modes of R70, by their FPCTL.RM codes (R72). -/
inductive RMode where
  | rne | rz | ru | rd
  deriving DecidableEq, Repr

/-- The mode that FPCTL.RM holds (R72). -/
def rmodeOf (x : BitVec 2) : RMode :=
  match x with
  | 0 => .rne | 1 => .rz | 2 => .ru | _ => .rd

/-- Exponent bits (R64). -/
def Fmt.eb : Fmt → Nat
  | .f32 => 8 | .f16 => 5 | .bf16 => 8 | .f8 => 4 | .f64 => 11
/-- Fraction bits (R64). -/
def Fmt.fb : Fmt → Nat
  | .f32 => 23 | .f16 => 10 | .bf16 => 7 | .f8 => 3 | .f64 => 52
/-- Bias (R64). -/
def Fmt.bias : Fmt → Nat
  | .f32 => 127 | .f16 => 15 | .bf16 => 127 | .f8 => 8 | .f64 => 1023
/-- Width in bits (R64). -/
def Fmt.width (f : Fmt) : Nat := 1 + f.eb + f.fb
/-- The canonical NaN (R64). -/
def Fmt.nan : Fmt → Nat
  | .f32 => 0x7FC00000 | .f16 => 0x7E00 | .bf16 => 0x7FC0 | .f8 => 0x80 | .f64 => 0x7FF8000000000000
/-- The code of +infinity; F8 has none. -/
def Fmt.inf (f : Fmt) : Nat := (2 ^ f.eb - 1) * 2 ^ f.fb
/-- The code of the largest finite value (R64). -/
def Fmt.maxFin (f : Fmt) : Nat := if f = .f8 then 0x7F else f.inf - 1
/-- The sign bit set when neg. -/
def Fmt.signed (f : Fmt) (neg : Bool) (x : Nat) : Nat := if neg then 2 ^ (f.width - 1) + x else x

/-- A value: a NaN, signalling or not; an infinity; or (−1)^neg · m · 2^e (R65). -/
inductive Val where
  | nan (sig : Bool)
  | inf (neg : Bool)
  | fin (neg : Bool) (m : Nat) (e : Int)
  deriving DecidableEq, Repr

/-- The FPSTAT bits of R73. -/
def fNX : BitVec 6 := 1
def fUF : BitVec 6 := 2
def fOF : BitVec 6 := 4
def fDZ : BitVec 6 := 8
def fNV : BitVec 6 := 16
def fSAT : BitVec 6 := 32

/-- The value that a code holds (R65, R66). -/
def Fmt.val (f : Fmt) (x : Nat) : Val :=
  let frac := x % 2 ^ f.fb
  let ex := x / 2 ^ f.fb % 2 ^ f.eb
  let neg := x / 2 ^ (f.width - 1) % 2 == 1
  if f = .f8 then
    if x % 256 = 0x80 then .nan false
    else if ex = 0 then .fin neg frac (-10) else .fin neg (8 + frac) ((ex : Int) - 11)
  else if ex = 2 ^ f.eb - 1 then
    if frac = 0 then .inf neg else .nan (frac / 2 ^ (f.fb - 1) == 0)
  else if ex = 0 then .fin neg frac (1 - (f.bias : Int) - f.fb)
  else .fin neg (2 ^ f.fb + frac) ((ex : Int) - f.bias - f.fb)

/-- Whether rounding by mode takes the next larger magnitude, for n and a remainder r of a whole 2^d. -/
def roundUp (rm : RMode) (neg : Bool) (n r d : Nat) : Bool :=
  match rm with
  | .rne => decide (2 ^ d < 2 * r) || (2 * r == 2 ^ d && n % 2 == 1)
  | .rz => false
  | .ru => !neg && r != 0
  | .rd => neg && r != 0

/-- m · 2^e with m > 0 rounded to a multiple of 2^q: the multiple and whether it is inexact. -/
def toQuantum (rm : RMode) (neg : Bool) (m : Nat) (e q : Int) : Nat × Bool :=
  if q ≤ e then (m * 2 ^ (e - q).toNat, false)
  else
    let d := (q - e).toNat
    let n := m / 2 ^ d
    let r := m % 2 ^ d
    (if roundUp rm neg n r d then n + 1 else n, r != 0)

/-- The number of bits of m. -/
def bits (m : Nat) : Nat := if m = 0 then 0 else m.log2 + 1

/-- What an overflow delivers (R70); F8 saturates (R77). -/
def overflowTo (f : Fmt) (rm : RMode) (neg : Bool) : Nat :=
  if f = .f8 then f.signed neg f.maxFin
  else
    let toMax := match rm with
      | .rne => false
      | .rz => true
      | .ru => neg
      | .rd => !neg
    f.signed neg (if toMax then f.maxFin else f.inf)

/-- The largest biased exponent of a finite value. -/
def Fmt.topExp (f : Fmt) : Nat := if f = .f8 then 15 else 2 ^ f.eb - 2

/-- The zero of a sign: F8 has one zero (R66). -/
def Fmt.zero (f : Fmt) (neg : Bool) : Nat := if f = .f8 then 0 else f.signed neg 0

/-- The rounded operation of R70 on (−1)^neg · m · 2^e: code and flags. Tininess is found after rounding. -/
def roundFin (f : Fmt) (rm : RMode) (neg : Bool) (m : Nat) (e : Int) : Nat × BitVec 6 :=
  if m = 0 then (f.zero neg, 0) else
  let emin : Int := 1 - (f.bias : Int)
  let ex : Int := e + bits m - 1
  let q : Int := (if ex < emin then emin else ex) - f.fb
  let (n, inexact) := toQuantum rm neg m e q
  let tiny := decide (ex < emin) &&
    !((ex + 1 == emin) && ((toQuantum rm neg m e (ex - f.fb)).1 == 2 ^ (f.fb + 1)))
  let be : Int := q + f.fb + f.bias
  let code : Nat := if n < 2 ^ f.fb then n else be.toNat * 2 ^ f.fb + (n - 2 ^ f.fb)
  if (f.topExp + 1) * 2 ^ f.fb ≤ code then
    (overflowTo f rm neg, if f = .f8 then fSAT ||| fNX else fOF ||| fNX)
  else if n = 0 then (f.zero neg, fNX ||| fUF)
  else (f.signed neg code, (if inexact then fNX else 0) ||| (if tiny && inexact then fUF else 0))

/-- The code that a value takes in a format, rounded (R70, R75, R77). An infinity saturates in F8. -/
def roundVal (f : Fmt) (rm : RMode) (v : Val) : Nat × BitVec 6 :=
  match v with
  | .nan sig => (f.nan, if sig then fNV else 0)
  | .inf neg => if f = .f8 then (f.signed neg f.maxFin, fSAT ||| fNX) else (f.signed neg f.inf, 0)
  | .fin neg m e => roundFin f rm neg m e

/-- The sign of a value. -/
def Val.neg : Val → Bool
  | .nan _ => false
  | .inf n => n
  | .fin n _ _ => n
/-- A NaN. -/
def Val.isNan : Val → Bool
  | .nan _ => true
  | _ => false
/-- A signalling NaN. -/
def Val.isSig : Val → Bool
  | .nan s => s
  | _ => false
/-- A zero. -/
def Val.isZero : Val → Bool
  | .fin _ m _ => m == 0
  | _ => false
/-- The value with its sign inverted. -/
def Val.negate : Val → Val
  | .nan s => .nan s
  | .inf n => .inf (!n)
  | .fin n m e => .fin (!n) m e

/-- m · 2^e with its sign as an integer multiple of 2^q, for q ≤ e. -/
def sgnAt (neg : Bool) (m : Nat) (e q : Int) : Int :=
  let x : Int := (m * 2 ^ (e - q).toNat : Nat)
  if neg then -x else x

/-- The exact product (R75): the value and the NV it raises. -/
def mulVal (a b : Val) : Val × BitVec 6 :=
  let sig : BitVec 6 := if a.isSig || b.isSig then fNV else 0
  match a, b with
  | .nan _, _ => (.nan false, sig)
  | _, .nan _ => (.nan false, sig)
  | .inf x, .inf y => (.inf (x != y), 0)
  | .inf x, .fin y m _ => if m = 0 then (.nan false, fNV) else (.inf (x != y), 0)
  | .fin x m _, .inf y => if m = 0 then (.nan false, fNV) else (.inf (x != y), 0)
  | .fin x m e, .fin y n d => (.fin (x != y) (m * n) (e + d), 0)

/-- The exact sum (R70, R75): a zero sum of opposite signs is −0 only in RD. -/
def addVal (rm : RMode) (a b : Val) : Val × BitVec 6 :=
  let sig : BitVec 6 := if a.isSig || b.isSig then fNV else 0
  match a, b with
  | .nan _, _ => (.nan false, sig)
  | _, .nan _ => (.nan false, sig)
  | .inf x, .inf y => if x = y then (.inf x, 0) else (.nan false, fNV)
  | .inf x, .fin _ _ _ => (.inf x, 0)
  | .fin _ _ _, .inf y => (.inf y, 0)
  | .fin x m e, .fin y n d =>
    let q := if e < d then e else d
    let t := sgnAt x m e q + sgnAt y n d q
    if t = 0 then (.fin (if x = y then x else rm == .rd) 0 0, 0)
    else (.fin (decide (t < 0)) t.natAbs q, 0)

/-- A rounded sum, with its flags. -/
def fadd (f : Fmt) (rm : RMode) (a b : Val) : Nat × BitVec 6 :=
  let (v, x) := addVal rm a b
  let (r, y) := roundVal f rm v
  (r, x ||| y)
/-- A rounded product, with its flags. -/
def fmul (f : Fmt) (rm : RMode) (a b : Val) : Nat × BitVec 6 :=
  let (v, x) := mulVal a b
  let (r, y) := roundVal f rm v
  (r, x ||| y)
/-- a · b + c rounded once (R307). -/
def ffma (f : Fmt) (rm : RMode) (a b c : Val) : Nat × BitVec 6 :=
  let (p, x) := mulVal a b
  let sc : BitVec 6 := if c.isSig then fNV else 0
  let (v, y) := addVal rm p c
  let (r, z) := roundVal f rm v
  (r, x ||| y ||| z ||| sc)

/-- Order of two values that are no NaN: −1, 0 or 1 as Int; zeros are equal. -/
def cmpVal (a b : Val) : Int :=
  match a, b with
  | .inf x, .inf y => if x = y then 0 else if x then -1 else 1
  | .inf x, _ => if x then -1 else 1
  | _, .inf y => if y then 1 else -1
  | .fin x m e, .fin y n d =>
    let q := if e < d then e else d
    let t := sgnAt x m e q - sgnAt y n d q
    if t < 0 then -1 else if t = 0 then 0 else 1
  | _, _ => 0

/-- Whether a stands below b where −0 stands below +0 (R75). -/
def belowVal (a b : Val) : Bool :=
  decide (cmpVal a b < 0) || (a.isZero && b.isZero && a.neg && !b.neg)

/-- The minimum or maximum of R75 over codes of a format: the code and NV. -/
def fminmax (f : Fmt) (mx : Bool) (x y : Nat) : Nat × BitVec 6 :=
  let a := f.val x
  let b := f.val y
  let nv : BitVec 6 := if a.isSig || b.isSig then fNV else 0
  if a.isNan && b.isNan then (f.nan, nv)
  else if a.isNan then (y, nv)
  else if b.isNan then (x, nv)
  else if mx then (if belowVal a b then y else x, nv)
  else (if belowVal b a then y else x, nv)

/-- The quotient of finite values as a value with a sticky low bit; rounds as the exact quotient does. -/
def divVal (a b : Val) : Val :=
  match a, b with
  | .fin x m e, .fin y n d =>
    if n = 0 then (if m = 0 then .nan false else .inf (x != y))
    else if m = 0 then .fin (x != y) 0 0
    else
      let t := m * 2 ^ (bits n + 64)
      .fin (x != y) (2 * (t / n) + (if t % n = 0 then 0 else 1)) (e - d - (bits n + 64 : Nat) - 1)
  | .inf x, .fin y _ _ => .inf (x != y)
  | .fin x _ _, .inf y => .fin (x != y) 0 0
  | _, _ => .nan false

/-- The integer square root, one result bit per step from bit `fuel` down. -/
def isqrt (fuel n : Nat) (r : Nat) : Nat :=
  match fuel with
  | 0 => r
  | k + 1 => isqrt k n (if (r + 2 ^ k) * (r + 2 ^ k) ≤ n then r + 2 ^ k else r)

/-- The square root of a positive finite value with a sticky low bit. -/
def sqrtVal (m : Nat) (e : Int) : Val :=
  let e' : Int := if e % 2 = 0 then e else e - 1
  let m' := if e % 2 = 0 then m else 2 * m
  let n := m' * 2 ^ 128
  let r := isqrt (bits n / 2 + 1) n 0
  .fin false (2 * r + (if r * r = n then 0 else 1)) (e' / 2 - 64 - 1)

/-- The format of a floating-point lane type. -/
def fmtOf : VType → Fmt
  | .bf16 => .bf16
  | .fp16 => .f16
  | .f8 => .f8
  | _ => .f32

/-- The value of an SP2 half (R68). -/
def sp2Half (h : Nat) : Val :=
  let c := h % 8
  if c = 7 then .fin false 0 0 else .fin (h / 8 % 2 == 1) 1 (-(c : Int))
/-- The value of an SP2X half (R69). -/
def sp2xHalf (h : Nat) : Val :=
  let e : Int := if h % 128 < 64 then h % 128 else (h % 128 : Int) - 128
  if h % 128 = 64 then .fin false 0 0 else .fin (h / 128 % 2 == 1) 1 e

/-- The exact sum of two halves; a zero sum is +0. -/
def halves (a b : Val) : Val := (addVal .rne a b).1

/-- The value of an SP2 byte (R68). -/
def sp2Val (b : Nat) : Val := halves (sp2Half (b / 16)) (sp2Half (b % 16))
/-- The value of an SP2X element (R69). -/
def sp2xVal (x : Nat) : Val := halves (sp2xHalf (x / 256)) (sp2xHalf (x % 256))

/-- Lane width in bits (R293). -/
def lanesBits : VType → Nat
  | .f32 | .i32 | .n32 => 32
  | .bf16 | .fp16 | .i16 | .n16 | .sp2x => 16
  | .f8 | .i8 | .n8 | .sp2 => 8
  | .i64 | .n64 => 64

/-- The signed value of w low bits. -/
def sintOf (w x : Nat) : Int :=
  let y := x % 2 ^ w
  if 2 ^ (w - 1) ≤ y then (y : Int) - (2 ^ w : Nat) else y

/-- An integer as w low bits. -/
def wrapTo (w : Nat) (x : Int) : Nat := (x % (2 ^ w : Nat)).toNat

/-- An integer as an exact value. -/
def intVal (x : Int) : Val := .fin (decide (x < 0)) x.natAbs 0

/-- The value of an element of a type, for conversions (R76). -/
def elemVal (t : VType) (x : Nat) : Val :=
  match t with
  | .f32 => Fmt.f32.val x
  | .bf16 => Fmt.bf16.val x
  | .fp16 => Fmt.f16.val x
  | .f8 => Fmt.f8.val x
  | .sp2 => sp2Val x
  | .sp2x => sp2xVal x
  | .i8 => intVal (sintOf 8 x)
  | .i16 => intVal (sintOf 16 x)
  | .i32 => intVal (sintOf 32 x)
  | .i64 => intVal (sintOf 64 x)
  | .n8 | .n16 | .n32 | .n64 => intVal (x % 2 ^ lanesBits t : Nat)

/-- Rule RI of R77: to a signed integer of w bits. -/
def toInt (w : Nat) (rm : RMode) (v : Val) : Nat × BitVec 6 :=
  let hi : Int := (2 ^ (w - 1) : Nat) - 1
  let lo : Int := -(2 ^ (w - 1) : Nat)
  match v with
  | .nan _ => (0, fNV)
  | .inf neg => (wrapTo w (if neg then lo else hi), fNV ||| fSAT)
  | .fin neg m e =>
    let (n, inexact) := toQuantum rm neg m e 0
    let x : Int := if neg then -(n : Int) else n
    if hi < x then (wrapTo w hi, fNV ||| fSAT)
    else if x < lo then (wrapTo w lo, fNV ||| fSAT)
    else (wrapTo w x, if inexact then fNX else 0)

/-- Rule "E or N" of R77: from an integer value to a signed integer of w bits. -/
def narrowInt (w : Nat) (x : Int) : Nat × BitVec 6 :=
  let hi : Int := (2 ^ (w - 1) : Nat) - 1
  let lo : Int := -(2 ^ (w - 1) : Nat)
  if hi < x then (wrapTo w hi, fSAT) else if x < lo then (wrapTo w lo, fSAT) else (wrapTo w x, 0)

/-- One conversion of R76 under its rule of R77: the destination code and the flags. -/
def convert (rm : RMode) (src dst : VType) (x : Nat) : Nat × BitVec 6 :=
  match dst with
  | .i8 | .i16 | .i32 =>
    match src with
    | .i8 | .i16 | .i32 => narrowInt (lanesBits dst) (sintOf (lanesBits src) x)
    | _ => toInt (lanesBits dst) rm (elemVal src x)
  | _ => roundVal (fmtOf dst) rm (elemVal src x)

/-- HalfFold of R80: the SP2X half and its SAT and UNF events. -/
def halfFold (h : Nat) (s : Int) : Nat × Bool × Bool :=
  if h % 8 = 7 then (0x40, false, false)
  else
    let e := s - (h % 8 : Nat)
    let (e, sat) := if 63 < e then ((63 : Int), true) else (e, false)
    if e < -63 then (0x40, false, true)
    else ((if h / 8 % 2 = 1 then 128 else 0) + wrapTo 7 e, sat, false)

/-- SP2Fold of R80 for a scale other than 0xFF, with SAT and UNF. -/
def sp2Fold (b : Nat) (s : Int) : Nat × Bool × Bool :=
  let (h, s1, u1) := halfFold (b / 16 % 16) s
  let (l, s2, u2) := halfFold (b % 16) s
  (h * 256 + l, s1 || s2, u1 || u2)

/-- F8Scale of R80 for scale byte e: the BF16 code with SAT, UNF and BADSCALE. -/
def f8Scale (b e : Nat) : Nat × Bool × Bool × Bool :=
  if b = 0x80 || e = 0xFF then (0x7FC0, false, false, e == 0xFF)
  else
    match Fmt.f8.val b with
    | .fin neg m x =>
      let (r, fl) := roundFin .bf16 .rne neg m (x + (e : Int) - 127)
      if r % 0x8000 = 0x7F80 then (Fmt.bf16.signed neg 0x7F7F, true, false, false)
      else (r, false, fl &&& fUF != 0, false)
    | _ => (0x7FC0, false, false, false)

/-- Adding a binary32 value into an element of ACC32 or ACC64, or a binary64 value, with one RNE rounding
in the element's format; MIN and MAX under R75 (R83, R210). -/
def accApply (fmt : Fmt) (op : AccOp) (e : Nat) (xf : Fmt) (x : Nat) : Nat :=
  match op with
  | .add => (fadd fmt .rne (fmt.val e) (xf.val x)).1
  | .min =>
    let a := fmt.val e
    let b := xf.val x
    if a.isNan then (roundVal fmt .rne b).1
    else if b.isNan then e
    else if belowVal b a then (roundVal fmt .rne b).1 else e
  | .max =>
    let a := fmt.val e
    let b := xf.val x
    if a.isNan then (roundVal fmt .rne b).1
    else if b.isNan then e
    else if belowVal a b then (roundVal fmt .rne b).1 else e

/-- The identity of an accumulator line (R195). -/
def accIdentity (fmt : Fmt) : AccOp → Nat
  | .add => 0
  | .min => fmt.inf
  | .max => fmt.signed true fmt.inf

end Sys2Proof.Machine
end

