-- ==== Sys2Proof/Machine/Mem.lean ====
section
/-! DEFINITION. Memory: page-table walks and access checks (R120–R125, R441), what the home and what a core
reads (R132, R162, R199), ordinary stores, publications and acquires (R155–R169), lost lines, keys and the
sharing directory. -/

namespace Sys2Proof.Machine

/-! ### Page-table entries -/

/-- Page-table entry bits of R121. -/
def leafKey (e : Word) : Nat := fld e 63 60
def leafMir (e : Word) : Bool := bit e 59
def leafRepl (e : Word) : Bool := bit e 58
def leafEvp (e : Word) : BitVec 2 := e.extractLsb' 56 2
def leafCl (e : Word) : Nat := fld e 11 10
/-- WP of a page as it acts on a published line: an uncached page's lines go to DRAM and stay in no cache (R117). -/
def leafWp (e : Word) : Nat := if leafCl e = 2 then 2 else fld e 54 53

/-- What the model keeps of the page through which a line was last stored: WP, MIR, EVP and the tenant (R117, R121). -/
def attrOf (t : TenantNo) (e : Word) : Nat := leafWp e + (if leafMir e then 4 else 0) + (leafEvp e).toNat * 8 + t.toNat * 32
def attrWp (a : Nat) : Nat := a % 4
def attrMir (a : Nat) : Bool := a / 4 % 2 == 1
def attrEvp (a : Nat) : BitVec 2 := BitVec.ofNat 2 (a / 8)
def attrTenant (a : Nat) : TenantNo := BitVec.ofNat 4 (a / 32)

/-- The cell that holds the byte at a physical address: both host link windows reach the same host memory, host
address a at offset a of either (R446). -/
def cellAddr (a : Nat) : Nat := if hostBase ≤ a then hostBase + (a - hostBase) % 2 ^ 50 else a

/-- Raw bytes of memory. -/
def State.memAt (s : State) (a : Nat) : Byte := tget 0 s.mem (cellAddr a)
/-- n bytes of memory from a. -/
def State.memBytes (s : State) (a n : Nat) : List Byte := (upTo n).map fun i => s.memAt (a + i)

/-- The home die of a DRAM or decoded-view address; 0 for others. -/
def homeDie (s : State) (pa : Nat) : Nat :=
  match placeOf s.part pa with
  | .dram d => d
  | .view d => d
  | _ => 0

/-- Whether a line is in its home's lost-line table or a region record (R447, R451). -/
def lineLost (s : State) (pa : Nat) : Bool :=
  let d := s.die (homeDie s pa)
  d.lost.any (fun l => l.line == lineOf pa) || (tget 0 d.lostRgn (pa / 65536)).getLsbD (lineOf pa % 512)

/-- Whether a line's home is dead and no buddy serves it (R449). -/
def homeGone (s : State) (pa : Nat) (leaf : Word) : Bool :=
  let d := homeDie s pa
  d < s.part.dies && !s.alive d && !(leafMir leaf && s.alive (Nat.xor d 1))

/-- The size in bits of a page by level and size code; none where R122 reserves it. -/
def pageBits (level sz : Nat) : Option Nat :=
  match level, sz with
  | 0, 0 => some 12 | 0, 1 => some 14 | 0, 2 => some 16
  | 1, 0 => some 21 | 1, 1 => some 25 | 1, 2 => some 29
  | 2, 0 => some 30 | 2, 1 => some 34
  | _, _ => none

/-- The index of a level and the reach of one entry in bits (R120). -/
def levelIndex (level va : Nat) : Nat :=
  match level with
  | 0 => va / 2 ^ 12 % 512
  | 1 => va / 2 ^ 21 % 512
  | 2 => va / 2 ^ 30 % 512
  | _ => va / 2 ^ 39 % 131072
def levelBits (level : Nat) : Nat := 12 + 9 * level

/-- A translation: physical address, page size in bits, leaf entry. -/
structure Xlat where
  pa : Nat
  bits : Nat
  leaf : Word
  deriving DecidableEq, Repr

/-- The address of a page that a leaf maps, for va. -/
def leafPa (e : Word) (bits va : Nat) : Nat := fld e 51 12 * 4096 + va % 2 ^ bits

/-- Whether the walker may read a table at an address (R123). -/
def tableOk (s : State) (pa : Nat) : Bool :=
  match placeOf s.part pa with
  | .dram _ => true
  | _ => false

/-- Whether the tenant's enabled windows hold pa (R439, R441). -/
def inWindow (s : State) (t : TenantNo) (pa : Nat) : Bool :=
  (upTo 16).any fun w =>
    let b := s.cfgAt (tenReg t (0x100 + 16 * w))
    let l := s.cfgAt (tenReg t (0x108 + 16 * w))
    bit b 0 && fld b 51 16 * 65536 ≤ pa && pa < fld l 51 16 * 65536

/-- The entry that translates va where the entries of its group differ (R122). -/
def groupPick (s : State) (base idx n va : Nat) : Word :=
  let first := idx / n * n
  let e (i : Nat) : Word := wordOfBytes (s.memBytes (base + 8 * (first + i)) 8)
  if (upTo n).all (fun i => e i == e 0) then e 0 else e (Config.groupEntry va % n)

/-- How a walk fails (R123, R441): PAGEFLT, PAGEFLT at a lost table line, or PROT at a table that lies outside the
tenant's windows. -/
inductive WalkEnd where
  | fault | lost | denied
  deriving DecidableEq, Repr

/-- The walk from a level down (R120–R123, R441). -/
def walkFrom (s : State) (t : TenantNo) (level base va : Nat) : Except WalkEnd Xlat :=
  if !tableOk s base then .error .fault else
  let a := base + 8 * levelIndex level va
  if !inWindow s t a then .error .denied
  else if lineLost s a || homeGone s a 0 then .error .lost else
  let e : Word := wordOfBytes (s.memBytes a 8)
  if !bit e 0 then .error .fault
  else if bit e 1 then
    match pageBits level (fld e 9 8) with
    | none => .error .fault
    | some pb =>
      let e := groupPick s base (levelIndex level va) (2 ^ (pb - levelBits level)) va
      if !bit e 0 || !bit e 1 || bit e 52 || fld e 7 5 != 0 || fld e 54 53 == 3 || leafCl e == 3 ||
          pageBits level (fld e 9 8) != some pb || (fld e 51 12 * 4096) % 2 ^ pb != 0 then .error .fault
      else .ok ⟨leafPa e pb va, pb, e⟩
  else
    match level with
    | 0 => .error .fault
    | l + 1 => if fld e 63 52 != 0 || fld e 11 2 != 0 then .error .fault else walkFrom s t l (fld e 51 12 * 4096) va

/-- A walk from the tenant's root (R120, R439). -/
def walk (s : State) (t : TenantNo) (va : Nat) : Except WalkEnd Xlat :=
  let r := s.cfgAt (tenReg t 8)
  if !bit r 0 then .error .fault else walkFrom s t 3 (fld r 51 20 * 2 ^ 20) va

/-- A cached translation of va for tenant t (R435). -/
def tlbFind (l : List Tlb) (t : TenantNo) (va : Nat) : Option Xlat :=
  (l.find? fun e => e.tenant == t && va / 2 ^ e.bits == e.page).map fun e => ⟨leafPa e.leaf e.bits va, e.bits, e.leaf⟩

/-- The translation of va for tenant t on core g: the core's TLB, its cluster's, or a walk. -/
def xlat (s : State) (g : Nat) (t : TenantNo) (va : Nat) : Except WalkEnd Xlat :=
  match tlbFind (s.core g).cache.tlb t va with
  | some x => .ok x
  | none =>
    match tlbFind (s.cluster (clusterOf g)).tlb t va with
    | some x => .ok x
    | none => walk s t va

/-- The physical address of a local alias of core g, or none where reserved (R112). -/
def aliasPa (g va : Nat) : Option Nat :=
  if 0xFFFFFFFFFE0000 ≤ va then some (spadBase + g * 2 ^ 17 + (va - 0xFFFFFFFFFE0000))
  else if va < 0xFFFFFFFFFD4000 then some (smemBase + g * 2 ^ 14 + (va - 0xFFFFFFFFFD0000))
  else none

/-- Whether a virtual address lies in the alias ranges (R112). -/
def isAlias (va : Nat) : Bool := 0xFFFFFFFFFD0000 ≤ va

/-! ### Access checks -/

/-- The kinds of access that R123 tells apart. -/
inductive Acc where
  | rd | wr | ex | none
  deriving DecidableEq, Repr

/-- DETAIL bit W of R420. -/
def accDetail (a : Acc) : BitVec 8 :=
  match a with
  | .wr => 1
  | .ex => 2
  | _ => 0

/-- The lowest enabled host range of I/O die i that holds an offset (R445, R446). -/
def hostRange (s : State) (i off : Nat) : Option (Word × Word) :=
  ((upTo 8).map fun j => (s.cfgAt (modReg (0x100 + 16 * (8 * i + j))), s.cfgAt (modReg (0x108 + 16 * (8 * i + j))))).find?
    fun r => bit r.1 0 && fld r.1 49 30 * 2 ^ 30 ≤ off && off < fld r.2 49 30 * 2 ^ 30

/-- Whether tenant t may use host address pa (R446, R475). -/
def hostOk (s : State) (t : TenantNo) (pa : Nat) : Bool :=
  match placeOf s.part pa with
  | .host i =>
    match hostRange s i ((pa - hostBase) % 2 ^ 50) with
    | some r => s.linkUp.getD i false && bit r.2 t.toNat && (!bit r.1 1 || s.linkCxl.getD i false)
    | none => false
  | _ => false

/-- The format window of die d that decodes pa (R79). -/
def viewWindow (s : State) (d pa : Nat) : Option Nat :=
  (upTo 16).find? fun n =>
    let c := s.cfgAt (dieReg d (64 * n))
    let base := fld (s.cfgAt (dieReg d (64 * n + 8))) 51 16 * 65536
    let size := fld c 47 16 * 65536
    bit c 0 && size != 0 && fld c 3 2 < 2 && 0x2000000000000 + d * 2 ^ 36 ≤ base &&
      base + size ≤ 0x2000000000000 + (d + 1) * 2 ^ 36 && base ≤ pa && pa < base + size

/-- The permission of an access to a place (R111, R123, R125, R441, R446): none when allowed, else the
DETAIL bits beyond W and X. -/
def placeDenied (s : State) (g : Nat) (t : TenantNo) (pa : Nat) : Option (BitVec 8) :=
  match placeOf s.part pa with
  | .dram _ => if inWindow s t pa then none else some 8
  | .view d => if (viewWindow s d pa).isNone then some 0 else if inWindow s t pa then none else some 8
  | .spad h => if h == g || (s.core h).tenant == some t then none else some 8
  | .smem h _ => if h == g || (s.core h).tenant == some t then none else some 8
  | .host _ => if hostOk s t pa then none else some 0
  | .config => some 0
  | .hole => some 0

/-- Whether a page's leaf permits the access (R123). -/
def leafAllows (a : Acc) (leaf : Word) : Bool :=
  match a with
  | .rd => bit leaf 2
  | .wr => bit leaf 3
  | .ex => bit leaf 4
  | .none => true

/-- The runs of one page of [va, va+n), cut at 4 KiB; addresses wrap at 2^56. -/
def pageRuns (fuel va n : Nat) : List (Nat × Nat) :=
  match fuel with
  | 0 => []
  | f + 1 =>
    if n = 0 then [] else
    let m := min n (4096 - va % 4096)
    (va % 2 ^ 56, m) :: pageRuns f ((va + m) % 2 ^ 56) (n - m)

/-- The trap of a failed walk (R123, R420, R441). -/
def walkTrap (a : Acc) (va : Nat) : WalkEnd → Trap
  | .fault => ⟨0x05, accDetail a, BitVec.ofNat 64 va⟩
  | .lost => ⟨0x05, accDetail a ||| 16, BitVec.ofNat 64 va⟩
  | .denied => ⟨0x06, accDetail a ||| 8, BitVec.ofNat 64 va⟩

/-- The translated piece of one run, or PAGEFLT, or PROT for a reserved alias (R112, R123). -/
def pieceOf (s : State) (g : Nat) (t : TenantNo) (a : Acc) (r : Nat × Nat) : Except Trap Piece :=
  if isAlias r.1 then
    match aliasPa g r.1 with
    | some pa => .ok ⟨r.1, pa, r.2, 0⟩
    | none => .error ⟨0x06, accDetail a, BitVec.ofNat 64 r.1⟩
  else
    match xlat s g t r.1 with
    | .ok x => .ok ⟨r.1, x.pa, r.2, x.leaf⟩
    | .error e => .error (walkTrap a r.1 e)

/-- PROT of a piece (R123). -/
def pieceProt (s : State) (g : Nat) (t : TenantNo) (a : Acc) (p : Piece) : Option Trap :=
  if isAlias p.va then none
  else if !leafAllows a p.leaf then some ⟨0x06, accDetail a, BitVec.ofNat 64 p.va⟩
  else (placeDenied s g t p.pa).map fun d => ⟨0x06, accDetail a ||| d, BitVec.ofNat 64 p.va⟩

/-- WINWRITE of a piece that is written (R125). -/
def pieceWin (s : State) (p : Piece) : Option Trap :=
  match placeOf s.part p.pa with
  | .view _ => some ⟨0x07, 1, BitVec.ofNat 64 p.va⟩
  | _ => none

/-- The pieces of every run, or the first PAGEFLT. -/
def piecesOf (s : State) (g : Nat) (t : TenantNo) (a : Acc) : List (Nat × Nat) → Except Trap (List Piece)
  | [] => .ok []
  | r :: rs =>
    match pieceOf s g t a r with
    | .error e => .error e
    | .ok p =>
      match piecesOf s g t a rs with
      | .error e => .error e
      | .ok ps => .ok (p :: ps)

/-- Steps 4 to 6 of R131 for the runs of an access: translation, PROT, WINWRITE. -/
def checkRuns (s : State) (g : Nat) (t : TenantNo) (a : Acc) (rs : List (Nat × Nat)) : Except Trap (List Piece) :=
  match piecesOf s g t a rs with
  | .error e => .error e
  | .ok ps =>
    match ps.findSome? (pieceProt s g t a) with
    | some e => .error e
    | none =>
      match (if a = .wr then ps.findSome? (pieceWin s) else none) with
      | some e => .error e
      | none => .ok ps

/-- Translation and checks of n bytes at va (R126, R131). -/
def check (s : State) (g : Nat) (t : TenantNo) (a : Acc) (va n : Nat) : Except Trap (List Piece) :=
  checkRuns s g t a (pageRuns (n / 4096 + 2) va n)

/-! ### Reading -/

/-- The current generation of key slot k of tenant t (R442). -/
def keyGenOf (s : State) (t : TenantNo) (k : Nat) : Nat := tget 0 s.coh.keyGen (t.toNat * 16 + k)

/-- Whether the bytes of a line were stored under the reader's present key (R441, R442). -/
def keyOk (s : State) (t : TenantNo) (leaf : Word) (pa : Nat) : Bool :=
  let k := t.toNat * 16 + leafKey leaf
  match tget none s.coh.lineKey (lineOf pa) with
  | none => keyGenOf s t (leafKey leaf) == 0
  | some (k', gen) => k' == k && gen == keyGenOf s t (leafKey leaf)

/-- A byte as a reader with another key sees it. -/
def noiseAt (s : State) (t : TenantNo) (leaf : Word) (pa : Nat) : Byte :=
  Config.keyNoise (pa + 2 ^ 52 * (t.toNat * 16 + leafKey leaf + 256 * keyGenOf s t (leafKey leaf)))

/-- Byte b of DRAM as tenant t reads it through a leaf. -/
def keyed (s : State) (t : TenantNo) (leaf : Word) (pa : Nat) (b : Byte) : Byte :=
  match placeOf s.part pa with
  | .dram _ => if keyOk s t leaf pa then b else noiseAt s t leaf pa
  | _ => b

/-- The storage byte and the scale byte addresses of a decoded half, with its window (R80). -/
def viewSource (s : State) (d n pa : Nat) : Nat × Nat :=
  let off := pa - fld (s.cfgAt (dieReg d (64 * n + 8))) 51 16 * 65536
  let line := off / 128
  (fld (s.cfgAt (dieReg d (64 * n + 16))) 51 7 * 128 + line / 2 * 128 + line % 2 * 64 + off % 128 / 2,
   fld (s.cfgAt (dieReg d (64 * n + 24))) 51 0 + line / 2)

/-- The decoded half at pa: its code, and the FWSTAT bits its decode sets (R78, R80). -/
def decodeHalf (s : State) (d n pa : Nat) : Nat × BitVec 3 :=
  let (sa, ea) := viewSource s d n pa
  let b := (s.memAt sa).toNat
  let e := (s.memAt ea).toNat
  if fld (s.cfgAt (dieReg d (64 * n))) 3 2 = 0 then
    if e = 0xFF then (0x4040, 4)
    else
      let (h, sat, unf) := sp2Fold b ((e : Int) - 127)
      (h, (if sat then 2 else 0) ||| (if unf then 1 else 0))
  else
    let (h, sat, unf, bad) := f8Scale b e
    (h, (if sat then 2 else 0) ||| (if unf then 1 else 0) ||| (if bad then 4 else 0))

/-- A byte of a decoded view. -/
def viewByte (s : State) (d pa : Nat) : Byte :=
  match viewWindow s d pa with
  | some n => BitVec.ofNat 8 ((decodeHalf s d n pa).1 / (if pa % 2 = 0 then 1 else 256))
  | none => 0

/-- A byte as its home holds it (R181, R190). -/
def homeByte (s : State) (t : TenantNo) (leaf : Word) (pa : Nat) : Byte :=
  match placeOf s.part pa with
  | .view d => viewByte s d pa
  | _ => keyed s t leaf pa (s.memAt pa)

/-- Whether a publication is in core g's snapshot or is its own write (R162). -/
def pubIn (s : State) (g : Nat) (p : Pub) : Bool :=
  let ph := (s.core g).ph
  (p.id ≤ ph.upto && !ph.missing.contains p.id) ||
    (match p.src with | .core h => h.toNat == g | _ => false)

/-- The publications' view of a byte: the value of the last one in the snapshot that writes it, else what
the first one that writes it displaced (R162, R175). -/
def snapFold (s : State) (g a : Nat) : List Pub → Option Byte → Option Byte → Option Byte
  | [], first, last => last.or first
  | p :: ps, first, last =>
    match p.cells.find? (fun c => c.1 == a) with
    | none => snapFold s g a ps first last
    | some c => snapFold s g a ps (first.or (some c.2.1)) (if pubIn s g p then some c.2.2 else last)

/-- A byte under core g's snapshot. -/
def snapByte (s : State) (g a : Nat) : Byte := (snapFold s g a s.coh.pubs none none).getD (s.memAt a)

/-- Whether a line is an accumulator line (R195). -/
def isAcc (s : State) (pa : Nat) : Bool := tget 0 s.coh.hdr (lineOf pa) != 0

/-- A store of core g that no completed publication has carried yet: unpublished, or carried by one that waits for lees
space, the latest first (R155, R175). -/
def ownByte (s : State) (g a : Nat) : Option Byte :=
  match tget none (s.core g).ph.unpub a with
  | some b => some b
  | none => (s.coh.waiting.filter fun w => w.g.toNat == g).reverse.findSome? fun w => (w.cells.find? fun c => c.1 == a).map (·.2)

/-- A byte as an ordinary load of core g reads it (R132, R199): its own unpublished byte, else its snapshot;
an accumulator line binds at its home; scratchpads and data memories are read where they are. -/
def coreByte (s : State) (g : Nat) (t : TenantNo) (leaf : Word) (pa : Nat) : Byte :=
  match placeOf s.part pa with
  | .view d => viewByte s d pa
  | .dram _ =>
    match ownByte s g pa with
    | some b => b
    | none => if isAcc s pa then keyed s t leaf pa (s.memAt pa) else keyed s t leaf pa (snapByte s g pa)
  | .host _ =>
    match ownByte s g pa with
    | some b => b
    | none => snapByte s g pa
  | _ => s.memAt pa

/-- The bytes of the pieces of an ordinary load. -/
def coreBytes (s : State) (g : Nat) (t : TenantNo) (ps : List Piece) : List Byte :=
  ps.flatMap fun p => (upTo p.n).map fun i => coreByte s g t p.leaf (p.pa + i)

/-- The bytes of the pieces of a read at the home. -/
def homeBytes (s : State) (t : TenantNo) (ps : List Piece) : List Byte :=
  ps.flatMap fun p => (upTo p.n).map fun i => homeByte s t p.leaf (p.pa + i)

/-- The lines that a piece touches. -/
def pieceLines (p : Piece) : List Nat :=
  (upTo (lineOf (p.pa + p.n - 1) + 1 - lineOf p.pa)).map fun i => lineOf p.pa + i

/-- Whether a byte's line is lost: for a decoded byte its storage or scale line (R125, R449, R451). -/
def lostAt (s : State) (leaf : Word) (pa : Nat) : Bool :=
  match placeOf s.part pa with
  | .dram _ => lineLost s pa || homeGone s pa leaf
  | .view d =>
    match viewWindow s d pa with
    | some n =>
      let (sa, ea) := viewSource s d n pa
      lineLost s sa || lineLost s ea || homeGone s sa 0 || homeGone s ea 0
    | none => false
  | _ => false

/-- The first lost byte of the pieces, by virtual address: LOSTLINE (R419). -/
def lostIn (s : State) (ps : List Piece) : Option Trap :=
  ps.findSome? fun p =>
    ((upTo p.n).find? fun i => lostAt s p.leaf (p.pa + i)).map fun _ => ⟨0x08, 0, BitVec.ofNat 64 p.va⟩

/-! ### Accumulator copies -/

/-- The key of core g's copy or slice of a line. -/
def partKey (line g : Nat) : Nat := line * 4096 + g

/-- The format, operation and element size of an accumulator header (R195). -/
def hdrFmt (h : Word) : Fmt := if bit h 3 then .f64 else .f32
def hdrOp (h : Word) : AccOp :=
  match fld h 5 4 with
  | 1 => .min
  | 2 => .max
  | _ => .add
def hdrElem (h : Word) : Nat := if bit h 3 then 8 else 4
def hdrChain (h : Word) : Bool := bit h 6
def hdrScope (h : Word) : Nat := fld h 2 0
def hdrFirst (h : Word) : Nat := fld h 25 14
def hdrLen (h : Word) : Nat := fld h 38 26
def hdrNdone (h : Word) : Nat := fld h 51 39

/-- A header is valid (R195). -/
def hdrValid (h : Word) : Bool :=
  fld h 63 52 == 0 && fld h 13 8 == 0 && fld h 5 4 ≤ 2 && 1 ≤ hdrScope h && hdrScope h ≤ 4 &&
  (if hdrChain h then 1 ≤ hdrLen h && hdrFirst h + hdrLen h ≤ 4096 && hdrNdone h ≤ hdrLen h
   else hdrLen h == 0 && hdrFirst h == 0 && hdrNdone h == 0)

/-- Bytes written into memory. -/
def State.poke (s : State) (ws : List (Nat × Byte)) : State :=
  { s with mem := ws.foldl (fun m w => tset 0 m (cellAddr w.1) w.2) s.mem }

/-- The bytes of an n-byte number at an address. -/
def cellsOf (a n v : Nat) : List (Nat × Byte) :=
  (upTo n).map fun i => (a + i, BitVec.ofNat 8 (v / 2 ^ (8 * i)))

/-- A list of bytes at an address. -/
def cellsAt (a : Nat) (bs : List Byte) : List (Nat × Byte) :=
  match bs with
  | [] => []
  | b :: r => (a, b) :: cellsAt (a + 1) r

/-- The distinct lines of a list of cells. -/
def cellLines (ws : List (Nat × Byte)) : List Nat := (ws.map fun w => lineOf w.1).eraseDups

/-- A wider publication of a core makes its earlier ones as wide (R160). -/
def widen (s : State) (g : GCore) (sc : Scope) : State :=
  let w (p : Pub) : Pub := if p.src = .core g then { p with scope := scopeMax p.scope sc } else p
  { s with coh := { s.coh with pubs := s.coh.pubs.map w } }

/-- A phase-exempt or engine write finds no lees space and waits for it (R175, R176). -/
def thirstFor (s : State) (ws : List (Nat × Byte)) : State :=
  let as := ws.map (·.1)
  if s.coh.thirst.any fun x => x.who == s.who && x.cells == as then s
  else { s with coh := { s.coh with thirst := s.coh.thirst ++ [⟨s.who, as, s.cycle⟩] } }

/-- Such a write is made: it waits no longer, and PHWAIT of R180 counts its wait where a core makes it. -/
def quench (s : State) (ws : List (Nat × Byte)) : State :=
  if s.coh.thirst = [] then s else
  let mine (x : Thirst) : Bool := x.who == s.who && (x.cells.map lineOf).eraseDups == cellLines ws
  let s1 : State := { s with coh := { s.coh with thirst := s.coh.thirst.filter fun x => !mine x } }
  match s.coh.thirst.find? mine, s.who with
  | some x, .slot g _ => s1.bumpBy g.toNat 0x0041 (s.cycle - x.since)
  | _, _ => s1

/-- Whether a line is one of a decoded view. -/
def isView (s : State) (line : Nat) : Bool :=
  match placeOf s.part (line * 128) with
  | .view _ => true
  | _ => false

/-- The storage line of a decoded line, and the line of its scale bytes (R80). -/
def viewLines (s : State) (v : Nat) : List Nat :=
  match placeOf s.part (v * 128) with
  | .view d =>
    match viewWindow s d (v * 128) with
    | some n =>
      let (sa, ea) := viewSource s d n (v * 128)
      [lineOf sa, lineOf ea]
    | none => []
  | _ => []

/-- Whether a decoded line takes data from a line (R80). -/
def decodedFrom (s : State) (line v : Nat) : Bool := (viewLines s v).contains line

/-- The cached lines that satisfy p leave every L1 and L2 (R81). -/
def dropLines (s : State) (p : Nat → Bool) : State :=
  { s with
    cores := s.cores.map fun e => (e.1, { e.2 with cache := { e.2.cache with l1 := e.2.cache.l1.filter fun x => !p x.1 } })
    dies := s.dies.map fun e => (e.1, { e.2 with l2 := e.2.l2.filter fun x => !p x.1 }) }

/-- The decoded lines that caches hold. -/
def cachedViews (s : State) : List Nat :=
  (s.cores.flatMap fun e => tkeys e.2.cache.l1).filter (isView s) ++ (s.dies.flatMap fun e => tkeys e.2.l2).filter (isView s)

/-- The decoded lines derived from a line that is written are invalidated (R81). -/
def dropViews (s : State) (line : Nat) : State :=
  if (cachedViews s).any (decodedFrom s line) then dropLines s (decodedFrom s line) else s

/-- The logical time of a publication: later than the one before it and than every read lease of its lines (R174). -/
def pubTime (s : State) (lines : List Nat) : Nat :=
  (s.cores.flatMap fun e => lines.filterMap fun l => (tget none e.2.cache.l1 l).map (·.lease)).foldl max s.coh.time + 1

/-- A publication is recorded with the values that it displaces, and its bytes are written (R158); the source core's
earlier ones become as wide (R160), and decoded lines that its lines feed are invalidated (R81). -/
def pubLog (s : State) (src : PubSrc) (sc : Scope) (ws : List (Nat × Byte)) : State :=
  if ws = [] then s else
  let lines := cellLines ws
  let s := quench (match src with | .core g => widen s g sc | _ => s) ws
  let s := lines.foldl dropViews s
  let pub : Pub := ⟨s.coh.nextPub, src, sc, ws.map fun w => (w.1, s.memAt w.1, w.2)⟩
  ({ s with coh := { s.coh with pubs := s.coh.pubs ++ [pub], nextPub := s.coh.nextPub + 1, time := pubTime s lines } } : State).poke ws

/-- The bytes of element i of an accumulator line after an update by x in a format. -/
def elemCells (s : State) (line : Nat) (h : Word) (i : Nat) (xf : Fmt) (x : Nat) : List (Nat × Byte) :=
  let a := line * 128 + i * hdrElem h
  cellsOf a (hdrElem h) (accApply (hdrFmt h) (hdrOp h) (ofBytes (s.memBytes a (hdrElem h))) xf x)

/-- The touched elements of core g's partial sum folded into the line (R84, R197, R214). -/
def foldPartial (s : State) (g : GCore) (sc : Scope) (line : Nat) (h : Word) (p : Partial) : State :=
  pubLog s (.core g) sc (p.flatMap fun e => match e.2 with
    | none => []
    | some x => elemCells s line h e.1 (hdrFmt h) x.toNat)

/-- A line that its home had evicted is recalled with PART = 0 (R201). -/
def unpart (s : State) (line : Nat) : State :=
  let h := tget 0 s.coh.hdr line
  if bit h 7 then { s with coh := { s.coh with hdr := tset 0 s.coh.hdr line (setFld h 7 7 0) } } else s

/-- The combine of R197: every copy of a line without CHAIN is folded in ascending GCORE order. -/
def combine (s : State) (line : Nat) : State :=
  let s := unpart s line
  let h := tget 0 s.coh.hdr line
  if h = 0 || hdrChain h then s else
  let mine := s.coh.copies.filter fun c => c.1 / 4096 == line
  if mine = [] then s else
  let s := mine.foldl (fun s c => foldPartial s (BitVec.ofNat 12 (c.1 % 4096)) .core line h c.2) s
  { s with coh := { s.coh with copies := s.coh.copies.filter fun c => c.1 / 4096 != line } }

/-- Lines combined before an access binds. -/
def combineAll (s : State) (lines : List Nat) : State := lines.foldl combine s

/-! ### The L2 and the sharing directory -/

/-- A region holds a line. -/
def Region.holds (r : Region) (line : Nat) : Bool := r.line ≤ line && line < r.line + 2 ^ (r.gran - 7)

/-- The region of a line at its home; a line not tracked yet lies in a new 64 KiB region (R177). -/
def regionOf (s : State) (line : Nat) : Region :=
  ((s.die (homeDie s (line * 128))).regions.find? (fun r => r.holds line)).getD ⟨line / 512 * 512, 16, 0, [], 0, [], [], [], []⟩

/-- The line as die d's L2 holds it: at its home, or as a replica (R20). -/
def l2At (s : State) (d line : Nat) : Option L2Line := tget none (s.die d).l2 line

/-- The dies with a replica of a line of the region (R178). -/
def regionDies (s : State) (r : Region) : List Nat :=
  (upTo 8).filter fun d => d != homeDie s (r.line * 128) && (tkeys (s.die d).l2).any r.holds

/-- The dies with a replica of a line. -/
def replicaDies (s : State) (line : Nat) : List Nat :=
  (upTo 8).filter fun d => d != homeDie s (line * 128) && (l2At s d line).isSome

/-- Die d's L2 gives a line up. -/
def l2Drop (s : State) (line d : Nat) : State := s.modDie d fun x => { x with l2 := tset none x.l2 line none }

/-- A line whose bytes DRAM holds leaves the buddy's mirror store; a mirrored page's lines have their home there too
(R448). -/
def unmirror (s : State) (line : Nat) : State :=
  if attrMir (tget 0 s.coh.attr line) || !s.coh.mirror.contains line then s
  else { s with coh := { s.coh with mirror := s.coh.mirror.filter fun l => l != line } }

/-- The line that a set gives up: of the lowest priority, least recently used (R119). -/
def l2Victim (l : List (Nat × Option L2Line)) : Option Nat :=
  (l.foldl (fun (best : Option (Nat × Nat × Nat)) e =>
    match e.2, best with
    | some x, none => some (e.1, x.pri.toNat, x.used)
    | some x, some (_, p, u) => if x.pri.toNat < p || (x.pri.toNat == p && x.used < u) then some (e.1, x.pri.toNat, x.used) else best
    | none, _ => best) none).map (·.1)

/-- A line leaves die d's L2 for room: at its home it is written to DRAM, a replica counts in its region (R117, R178). -/
def l2Evict (s : State) (d line : Nat) : State :=
  let home := homeDie s (line * 128)
  let s := l2Drop s line d
  if d = home then unmirror s line
  else s.modDie home fun die => { die with regions := die.regions.map fun r =>
    (if Region.holds r line then { r with evicts := (d, line) :: r.evicts } else r) }

/-- Room for a line in its slice of die d's L2, which holds 384 KiB, 3,072 lines (R20). -/
def l2Room (s : State) (d line : Nat) : State :=
  let set := (s.die d).l2.filter fun e => sliceOf (e.1 * 128) == sliceOf (line * 128)
  if set.length < 3072 then s
  else match l2Victim set with
    | some v => l2Evict s d v
    | none => s

/-- A line as die d's L2 is to hold it. -/
def l2Put (s : State) (d line : Nat) (x : L2Line) : State :=
  let s := if (l2At s d line).isSome then s else l2Room s d line
  s.modDie d fun die => { die with l2 := tset none die.l2 line (some x) }

/-- A read of a line at die d's L2: a present line is used, an absent one is allocated or not. A line that another
tenant's tag holds does not serve (R441): its bytes go to DRAM. -/
def l2Use (s : State) (d : Nat) (t : TenantNo) (line : Nat) (pri : BitVec 2) (alloc : Bool) : State :=
  match l2At s d line with
  | some x =>
    if x.tenant = t then l2Put s d line { x with pri := pri, used := s.cycle }
    else l2Put (unmirror s line) d line ⟨t, pri, s.cycle, false⟩
  | none => if alloc then l2Put s d line ⟨t, pri, s.cycle, false⟩ else s

/-- Two halves of a region (R177): each keeps what concerns its own lines. -/
def Region.halves (r : Region) (now : Nat) : List Region :=
  let m := 2 ^ (r.gran - 8)
  let part (b : Nat) : Region :=
    let mine (l : Nat) : Bool := b ≤ l && l < b + m
    { r with
      line := b, gran := r.gran - 1, conflictAt := now
      writes := r.writes.filter fun x => mine x.2
      touches := r.touches.filter fun x => mine x.2
      rises := r.rises.filter mine
      evicts := r.evicts.filter fun x => mine x.2 }
  [part r.line, part (r.line + m)]

/-- A half that still holds both lines splits again (R177): the regions, and how many splits. -/
def splitRegion (fuel : Nat) (r : Region) (a b now : Nat) : List Region × Nat :=
  match fuel with
  | 0 => ([r], 0)
  | f + 1 =>
    if r.gran ≤ 7 || !(r.holds a && r.holds b) then ([r], 0)
    else
      (r.halves now).foldl (fun acc h =>
        let (l, n) := splitRegion f h a b now
        (acc.1 ++ l, acc.2 + n)) ([], 1)

/-- Regions split until none of them holds line a with a line that conflicts with it (R177). -/
def splitAll (rs : List Region) (a now : Nat) : List Nat → List Region × Nat
  | [] => (rs, 0)
  | b :: bs =>
    let l := rs.map fun r => splitRegion 10 r a b now
    let (out, n) := splitAll (l.flatMap (·.1)) a now bs
    (out, (l.map (·.2)).sum + n)

/-- An access of die d to a line, as the directory records it, with the splits that its conflicts make
(R177, R178). -/
def noteAccess (s : State) (d line : Nat) (write : Bool) : State :=
  let home := homeDie s (line * 128)
  let r := regionOf s line
  let others := ((if write then r.touches else r.writes).filter fun x => x.1 != d && x.2 != line).map (·.2)
  let rose := !write && d != home && !(regionDies s r).contains d
  let r' : Region := { r with
    writes := if write then (d, line) :: r.writes else r.writes
    touches := (d, line) :: r.touches
    rises := if rose then line :: r.rises else r.rises
    lastUse := if write then r.lastUse else tput r.lastUse d s.cycle }
  let (rs, n) := splitAll [r'] line s.cycle others
  let s := s.modDie home fun die => { die with regions := rs ++ die.regions.filter fun x => !(x.line == r.line && x.gran == r.gran) }
  if n = 0 then s else s.bumpDie home 0x0048 n

/-- The replicas of a line are collapsed (R179): RPLCOLL of R180 counts those that a publication collapses. -/
def collapse (count : Bool) (s : State) (line : Nat) : State :=
  match replicaDies s line with
  | [] => s
  | ds =>
    let s := ds.foldl (fun s d => l2Drop s line d) s
    if count then s.bumpDie (homeDie s (line * 128)) 0x0045 ds.length else s

/-- The home of a line that is cached: one of DRAM or of a decoded view (R113). -/
def lineHome (s : State) (pa : Nat) : Option Nat :=
  match placeOf s.part pa with
  | .dram d => some d
  | .view d => some d
  | _ => none

/-- The home decodes a line of a view as it fills it: FWSTAT takes the bits of all its halves (R78, R80). -/
def noteDecode (s : State) (line : Nat) : State :=
  match placeOf s.part (line * 128) with
  | .view d =>
    match viewWindow s d (line * 128) with
    | some n =>
      let st := (upTo 64).foldl (fun (b : BitVec 3) i => b ||| (decodeHalf s d n (line * 128 + 2 * i)).2) 0
      if st = 0 then s else s.setCfg (dieReg d (64 * n + 32)) (s.cfgAt (dieReg d (64 * n + 32)) ||| st.setWidth 64)
    | none => s
  | _ => s

/-- The priority with which a read's hint allocates a line in the L2 (R118). -/
def l2Pri (hint : BitVec 3) (leaf : Word) : BitVec 2 := if hint = 1 then 3 else leafEvp leaf

/-- A read miss of core g's die fills a replica (R26, R117, R118, R178, R193). -/
def mayReplicate (s : State) (d : Nat) (hint : BitVec 3) (leaf : Word) (line : Nat) : Bool :=
  let r := regionOf s line
  leafRepl leaf && hint != 4 && !isAcc s (line * 128) && (tget none s.coh.owned line).isNone &&
    ((regionDies s r).contains d || decide ((regionDies s r).length < r.deg))

/-- A read of core g for tenant t at the line that a piece begins in, beyond the L1: at the home, which an uncached page's
read leaves as it was, or at a replica of the die, with the replica that the read fills (R117, R118, R178). -/
def noteRead (s : State) (g : Nat) (t : TenantNo) (hint : BitVec 3) (p : Piece) : State :=
  match lineHome s p.pa with
  | none => s
  | some home =>
    let d := dieOf g
    let line := lineOf p.pa
    let near := d != home && leafCl p.leaf != 2 && ((l2At s d line).map (·.tenant)) == some t
    let fill := d != home && leafCl p.leaf != 2 && !near && mayReplicate s d hint p.leaf line
    let here := near || (leafCl p.leaf != 2 && ((l2At s home line).map (·.tenant)) == some t)
    let s := noteAccess (if here then s else noteDecode s line) d line false
    if leafCl p.leaf = 2 then s
    else if near then l2Use s d t line (l2Pri hint p.leaf) true
    else
      let s := l2Use s home t line (l2Pri hint p.leaf) (hint != 4)
      if fill then (l2Use s d t line (l2Pri hint p.leaf) true).bumpDie d 0x0044 1 else s

/-! ### Writes at the home -/

/-- A line's entry or bit leaves the lost-line table (R451). -/
def clearLost (s : State) (line : Nat) : State :=
  let d := homeDie s (line * 128)
  if lineLost s (line * 128) then
    s.modDie d fun die => { die with
      lost := die.lost.filter fun l => l.line != line
      lostRgn := tset 0 die.lostRgn (line / 512) (tget 0 die.lostRgn (line / 512) &&& ~~~((1 : BitVec 512) <<< (line % 512))) }
  else s

/-- What the home does to a line before a write: it recalls ownership, collapses replicas, combines, and the
directory notes the write (R179, R193, R197, R199). -/
def prepLine (d : Nat) (s : State) (line : Nat) : State :=
  let s := { s with coh := { s.coh with owned := tset none s.coh.owned line none } }
  noteAccess (combine (collapse true s line) line) d line true

/-- The die that a publication's source sits on. -/
def srcDie (src : PubSrc) (home : Nat) : Nat :=
  match src with
  | .core g => dieOf g.toNat
  | .engine g => dieOf g.toNat
  | .host => home

/-- Whether a list of cells covers a whole line. -/
def coversLine (ws : List (Nat × Byte)) (line : Nat) : Bool :=
  (upTo 128).all fun i => ws.any fun w => w.1 == line * 128 + i

/-- A line is mirrored to the buddy (R448). -/
def toBuddy (s : State) (d line : Nat) : State :=
  if s.alive (Nat.xor d 1) && !s.coh.mirror.contains line then
    { s with coh := { s.coh with mirror := line :: s.coh.mirror } }
  else s

/-- What becomes of a line that was written at its home, by the WP of its page (R117, R448): kept dirty in L2 and mirrored,
kept and written to DRAM, or written to DRAM only. A mirrored page's line has its home on both dies. -/
def homeLine (s : State) (line : Nat) : State :=
  match placeOf s.part (line * 128) with
  | .dram d =>
    let a := tget 0 s.coh.attr line
    if attrWp a = 0 then toBuddy (l2Put s d line ⟨attrTenant a, attrEvp a, s.cycle, true⟩) d line
    else
      let s := if attrWp a = 1 then l2Put s d line ⟨attrTenant a, attrEvp a, s.cycle, false⟩ else l2Drop s line d
      if attrMir a then toBuddy s d line else unmirror s line
  | _ => s

/-- One publication at its home (R158, R161): the writes, with the values they displace kept for open
snapshots; full lines leave the lost-line table; each line is kept, mirrored or written to DRAM. -/
def writeHome (s : State) (src : PubSrc) (sc : Scope) (ws : List (Nat × Byte)) : State :=
  if ws = [] then s else
  let lines := cellLines ws
  let s := lines.foldl (fun s l => prepLine (srcDie src (homeDie s (l * 128))) s l) s
  lines.foldl (fun s l => homeLine (if coversLine ws l && !isAcc s (l * 128) then clearLost s l else s) l)
    (pubLog s src sc ws)

/-- Writes that need no publication: scratchpads and data memories (R115). -/
def isSpadPlace (s : State) (pa : Nat) : Bool :=
  match placeOf s.part pa with
  | .spad _ => true
  | .smem _ _ => true
  | _ => false

/-- A phase-exempt write (R115, R158): at once where memory is not cached, else one publication. -/
def writeNow (s : State) (src : PubSrc) (sc : Scope) (ws : List (Nat × Byte)) : State :=
  let s := s.poke (ws.filter fun w => isSpadPlace s w.1)
  writeHome s src sc (ws.filter fun w => !isSpadPlace s w.1)

/-- Core g holds bytes of a line that no completed publication has carried. -/
def holdsOwn (s : State) (g line : Nat) : Bool :=
  ((s.core g).ph.unpub.any fun e => lineOf e.1 == line) ||
    s.coh.waiting.any fun w => w.g.toNat == g && w.cells.any fun c => lineOf c.1 == line

/-- The L2 private copies of core g that hold no such byte any more are free (R132). -/
def trimL2 (s : State) (g : Nat) : State :=
  if (s.core g).ph.l2 = [] then s
  else s.modCore g fun c => { c with ph := { c.ph with l2 := c.ph.l2.filter (holdsOwn s g) } }

/-- An element read ahead that holds one of the addresses. -/
def Ahead.meets (as : List Nat) : Ahead → Bool
  | .ok _ ps _ => ps.any fun p => as.any fun a => decide (p.pa ≤ a) && decide (a < p.pa + p.n)
  | .bad _ _ _ => false

/-- An element that core g has stored to since it was read ahead, where it takes the value after the store. -/
def Ahead.after (s : State) (g : Nat) (t : TenantNo) (as : List Nat) : Ahead → Ahead
  | .ok va ps bs => .ok va ps ((ps.flatMap fun p => (upTo p.n).map fun i => (p.leaf, p.pa + i)).zipWith (fun a b =>
      if as.contains a.2 then coreByte s g t a.1 a.2 else b) bs)
  | a => a

/-- Read-ahead elements of a stream after a store of the core: each that it meets keeps its value or takes the new one
(R302); `n` and the place of the element number the choice. -/
def aheadAfter (s : State) (g : Nat) (t : TenantNo) (as : List Nat) (n : Nat) : List Ahead → List Ahead
  | [] => []
  | a :: l => (if a.meets as && Config.oldOrNew (2 ^ 121 + n) then a.after s g t as else a) :: aheadAfter s g t as (n + 1) l

/-- The streams of core g's contexts after the core has stored to the addresses: whether a pop of an element that was
read before returns the value before or after the store is free (R302). -/
def refreshAhead (s : State) (g : Nat) (as : List Nat) : State :=
  let hit (c : Ctx) : Bool := c.streams.any fun e => e.2.ahead.any (Ahead.meets as)
  let new (k : Nat) (c : Ctx) : Ctx := { c with streams := c.streams.map fun e =>
    (e.1, { e.2 with ahead := aheadAfter s g c.tenant as (((s.fresh * 16 + k) * 32 + e.1) * 1024) e.2.ahead }) }
  if !(s.ctxs.any fun e => e.1 / 16 == g && e.2.elim false hit) then s
  else { s with
    fresh := s.fresh + 1
    ctxs := s.ctxs.map fun e => if e.1 / 16 = g then (e.1, e.2.map (new (e.1 % 16))) else e }

/-- Core g's unpublished bytes among the addresses are dropped, also from its publications that wait: the core has written
there (R171). -/
def dropUnpub (s : State) (g : Nat) (as : List Nat) : State :=
  let s := if s.coh.waiting = [] then s else { s with coh := { s.coh with waiting := s.coh.waiting.map fun w =>
    if w.g.toNat = g then { w with cells := w.cells.filter fun c => !as.contains c.1 } else w } }
  let s := if (s.core g).ph.unpub = [] then s else
    trimL2 (s.modCore g fun c => { c with ph := { c.ph with unpub := as.foldl (fun u a => tset none u a none) c.ph.unpub } }) g
  refreshAhead s g as

/-- A line is given to the writer's key and takes its page's attributes; a line of another key turns to noise first (R121,
R442). -/
def claimLine (s : State) (t : TenantNo) (leaf : Word) (line : Nat) : State :=
  match placeOf s.part (line * 128) with
  | .dram _ =>
    let tag := some (t.toNat * 16 + leafKey leaf, keyGenOf s t (leafKey leaf))
    let s : State := { s with coh := { s.coh with attr := tset 0 s.coh.attr line (attrOf t leaf) } }
    if keyOk s t leaf (line * 128) then { s with coh := { s.coh with lineKey := tset none s.coh.lineKey line tag } }
    else
      ({ s with coh := { s.coh with lineKey := tset none s.coh.lineKey line tag } } : State).poke
        ((upTo 128).map fun i => (line * 128 + i, noiseAt s t leaf (line * 128 + i)))
  | _ => s

/-- Every line of the pieces is given to the writer's key. -/
def claim (s : State) (t : TenantNo) (ps : List Piece) : State :=
  ps.foldl (fun s p => (pieceLines p).foldl (fun s l => claimLine s t p.leaf l) s) s

/-- The cells of bytes laid over pieces. -/
def pieceCells (ps : List Piece) (bs : List Byte) : List (Nat × Byte) :=
  match ps with
  | [] => []
  | p :: r => cellsAt p.pa (bs.take p.n) ++ pieceCells r (bs.drop p.n)

/-! ### The L1 -/

/-- The core whose L1 array holds a line: its own, or the line's in a fused cluster (R114). -/
def l1Core (s : State) (g pa : Nat) (fused : Bool) : Nat :=
  let _ := s
  if fused then clusterOf g * 8 + Nat.xor (pa / 128 % 8) (pa / 1024 % 8) else g

/-- Whether core g's L1s are fused, as its running tenant's launch set them (R258). -/
def fusedOf (s : State) (g : Nat) : Bool :=
  match (s.core g).tenant with
  | some t => ((s.bind g t).map (·.fuse)).getD false
  | none => false

/-- The cores whose lines an L1 array holds (R114). -/
def arrayCores (s : State) (h : Nat) : List Nat :=
  if fusedOf s h then (upTo 8).map fun i => clusterOf h * 8 + i else [h]

/-- The way of an L1 set that is evicted: unpinned, of the lowest priority, least recently used (R119). -/
def victimOf (l : List (Nat × Option L1Line)) : Option Nat :=
  (l.foldl (fun (best : Option (Nat × Nat × Nat)) e =>
    match e.2 with
    | some x =>
      if x.pin.isSome then best else
      match best with
      | none => some (e.1, x.pri.toNat, x.used)
      | some (_, p, u) => if x.pri.toNat < p || (x.pri.toNat == p && x.used < u) then some (e.1, x.pri.toNat, x.used) else best
    | none => best) none).map (·.1)

/-- The lines of an L1 that share a set with a line; an L1 has 320 sets of 16 ways (R21). -/
def l1Set (s : State) (h line : Nat) : List (Nat × Option L1Line) :=
  (s.core h).cache.l1.filter fun e => e.1 % 320 == line % 320

/-- A line leaves an L1 array: the unpublished bytes that cores have in it move to L2 private copies (R117–R119). -/
def l1Evict (s : State) (h line : Nat) : State :=
  (arrayCores s h).foldl (fun s g =>
    if (s.core g).ph.unpub.any (fun e => lineOf e.1 == line) && !(s.core g).ph.l2.contains line then
      s.modCore g fun c => { c with ph := { c.ph with l2 := line :: c.ph.l2 } }
    else s) (s.modCore h fun c => { c with cache := { c.cache with l1 := tset none c.cache.l1 line none } })

/-- A line placed in an L1 array, with a victim's way where the set is full; at most 12 ways of a set are pinned
(R119). -/
def l1Put (s : State) (h line : Nat) (x : L1Line) : State :=
  let set := l1Set s h line
  let present := set.any fun e => e.1 == line
  let pinned := (set.filter fun e => match e.2 with | some y => y.pin.isSome && e.1 != line | none => false).length
  let x := if x.pin.isSome && 12 ≤ pinned then { x with pin := none, pri := 3 } else x
  let ins (s : State) : State := s.modCore h fun c => { c with cache := { c.cache with l1 := tset none c.cache.l1 line (some x) } }
  if present || set.length < 16 then ins s
  else
    match victimOf set with
    | none => s
    | some v => ins (l1Evict s h v)

/-- Whether a tenant's line is in the L1 array (R441). -/
def inL1 (s : State) (t : TenantNo) (h line : Nat) : Bool :=
  match tget none (s.core h).cache.l1 line with
  | some x => x.tenant == t
  | none => false

/-- Whether core g's snapshot holds every publication that writes a line. -/
def sees (s : State) (g line : Nat) : Bool :=
  s.coh.pubs.all fun p => pubIn s g p || !(p.cells.any fun c => lineOf c.1 == line)

/-- The lease with which the home answers core g's read of a line (R174): beyond the present time for the current
version, else the time of the snapshot that an older version serves. -/
def leaseFor (s : State) (g line : Nat) : Nat :=
  if sees s g line then s.coh.time + Config.leaseTerm line s.coh.time else (s.core g).ph.time

/-- A copy in the L1 array serves core g's loads: its tag is the tenant's and its lease covers the snapshot (R174,
R441). -/
def l1Hits (s : State) (g : Nat) (t : TenantNo) (h line : Nat) : Bool :=
  match tget none (s.core h).cache.l1 line with
  | some x => x.tenant == t && decide ((s.core g).ph.time ≤ x.lease)
  | none => false

/-- CL of the page of a piece (R117): host link windows are always uncached. -/
def pieceCl (s : State) (p : Piece) : Nat :=
  match placeOf s.part p.pa with
  | .host _ => 2
  | _ => leafCl p.leaf

/-- What an access to a cacheable line does to the L1 under its hint (R118). -/
def l1Touch (s : State) (g : Nat) (t : TenantNo) (fused : Bool) (hint : BitVec 3) (p : Piece) (line : Nat) : State :=
  match lineHome s p.pa with
  | some _ =>
    let h := l1Core s g (line * 128) fused
    let here := inL1 s t h line
    if leafCl p.leaf ≠ 0 || isAcc s p.pa then s
    else
      let fresh : L1Line := ⟨none, 0, 0, t, leaseFor s g line⟩
      let old := if here then (tget none (s.core h).cache.l1 line).getD fresh else fresh
      let lease := if l1Hits s g t h line then old.lease else fresh.lease
      let put (pin : Option (Nat × Nat)) (pri : BitVec 2) : State := l1Put s h line ⟨old.pin.or pin, pri, s.cycle, t, lease⟩
      match hint with
      | 1 => put none 3
      | 2 => put none 0
      | 3 => if here then put none old.pri else s
      | 4 => if here then put none old.pri else s
      | 5 => if here && !(arrayCores s h).any (fun g => holdsOwn s g line) then l1Evict s h line else s
      | 6 => put (some (s.c.task.lid, g)) (leafEvp p.leaf)
      | _ => put none (leafEvp p.leaf)
  | none => s

/-- The pins that a launch's tasks set from core g are released in the L1 arrays that serve the core (R119). -/
def unpin (s : State) (lid g : Nat) : State :=
  let free (x : Option L1Line) : Option L1Line := x.map fun x => if x.pin = some (lid, g) then { x with pin := none } else x
  (arrayCores s g).foldl (fun s h =>
    if (s.core h).cache.l1.any fun e => e.2 != free e.2 then
      s.modCore h fun c => { c with cache := { c.cache with l1 := c.cache.l1.map fun e => (e.1, free e.2) } }
    else s) s

/-- The device caches the host's translation of a host page that is accessed (R474). -/
def noteAts (s : State) (p : Piece) : State :=
  match placeOf s.part p.pa with
  | .host i =>
    let e := (i, (p.pa - hostBase) % 2 ^ 50 / 4096)
    if s.ats.contains e then s else { s with ats := e :: s.ats }
  | _ => s

/-- Translations that an access used are kept by the core's L1 TLB of 256 entries and the cluster's L2 TLB
of 4,096 (R21, R435). -/
def tlbFill (s : State) (g : Nat) (t : TenantNo) (p : Piece) : State :=
  let s := noteAts s p
  if isAlias p.va || (tlbFind (s.core g).cache.tlb t p.va).isSome then s else
  match xlat s g t p.va with
  | .error _ => s
  | .ok x =>
    let e : Tlb := ⟨t, p.va / 2 ^ x.bits, x.bits, x.leaf⟩
    let s := s.bump g 0x0007
    let s := s.modCore g fun c => { c with cache := { c.cache with tlb := (e :: c.cache.tlb).take 256 } }
    s.modCluster (clusterOf g) fun c => { c with tlb := (e :: c.tlb.filter fun y => y != e).take 4096 }

/-- What a read by core g leaves in caches, TLBs, counters and the directory; no value changes. -/
def touchRead (s : State) (g : Nat) (t : TenantNo) (hint : BitVec 3) (ps : List Piece) : State :=
  ps.foldl (fun s p =>
    let f := fusedOf s g
    (pieceLines p).foldl (fun s l =>
      match lineHome s p.pa with
      | some _ =>
        let s := if l1Hits s g t (l1Core s g (l * 128) f) l then s
          else noteRead (s.bump g 0x0006) g t hint { p with pa := l * 128 }
        l1Touch s g t f hint p l
      | none => s) (tlbFill s g t p)) s

/-- What a write by core g leaves in TLBs and its L1. -/
def touchWrite (s : State) (g : Nat) (t : TenantNo) (hint : BitVec 3) (ps : List Piece) : State :=
  ps.foldl (fun s p =>
    let f := fusedOf s g
    (pieceLines p).foldl (fun s l => l1Touch s g t f hint p l) (tlbFill s g t p)) s

/-! ### Ordinary stores -/

/-- Whether a store's line is kept in an L2 private copy rather than the L1 (R117, R119, R132). -/
def storeInL2 (s : State) (g : Nat) (t : TenantNo) (hint : BitVec 3) (p : Piece) (line : Nat) : Bool :=
  let h := l1Core s g (line * 128) (fusedOf s g)
  pieceCl s p != 0 || (!inL1 s t h line &&
    ([3, 4, 5].contains hint.toNat ||
      (16 ≤ (l1Set s h line).length && (victimOf (l1Set s h line)).isNone)))

/-- The lines of a store that the core's L2 private copies would hold anew. -/
def newL2 (s : State) (g : Nat) (t : TenantNo) (hint : BitVec 3) (ps : List Piece) : List Nat :=
  (ps.flatMap fun p =>
    if isSpadPlace s p.pa then [] else
    (pieceLines p).filter fun l => storeInL2 s g t hint p l && !(s.core g).ph.l2.contains l).eraseDups

/-- PHQUOTA of R132: unpublished L2 private copies beyond 2 MiB. -/
def overQuota (s : State) (g : Nat) (t : TenantNo) (hint : BitVec 3) (ps : List Piece) : Bool :=
  let n := newL2 s g t hint ps
  n != [] && 16384 < (s.core g).ph.l2.length + n.length

/-- An ordinary store performed in core g (R132, R155): at once where memory is not cached, else
unpublished bytes of the core. -/
def storeNow (s : State) (g : Nat) (t : TenantNo) (hint : BitVec 3) (ps : List Piece) (bs : List Byte) : State :=
  let ws := pieceCells ps bs
  let l2 := newL2 s g t hint ps
  let s := claim s t ps
  let s := s.poke (ws.filter fun w => isSpadPlace s w.1)
  let un := ws.filter fun w => !isSpadPlace s w.1
  let s := if un = [] then s else s.modCore g fun c => { c with ph := { c.ph with
    unpub := un.foldl (fun u w => tset none u w.1 (some w.2)) c.ph.unpub
    l2 := l2 ++ c.ph.l2 } }
  touchWrite (refreshAhead s g (ws.map (·.1))) g t hint ps

/-! ### Publications and acquires -/

/-- The core at which a publication's source sits, for scope tests. -/
def srcCore (p : Pub) : Option Nat :=
  match p.src with
  | .core g => some g.toNat
  | .engine g => some g.toNat
  | .host => none

/-- Whether a publication is required for an acquire of core g at scope sc (R160). -/
def required (g : Nat) (sc : Scope) (p : Pub) : Bool :=
  match srcCore p with
  | some h => inScope p.scope h g && inScope sc g h
  | none => sc == .system

/-- An acquire of core g (R162, R169): every required publication, and of the others those that the free
choice takes. -/
def acquire (s : State) (g : Nat) (sc : Scope) : State :=
  let fresh := s.coh.pubs.filter fun p => !pubIn s g p
  let miss := fresh.filter fun p => !required g sc p && !Config.takesOptional s.fresh p.id
  let s : State := if fresh.all (required g sc) then s else { s with fresh := s.fresh + 1 }
  s.modCore g fun c => { c with ph := { c.ph with
    upto := s.coh.nextPub - 1, missing := miss.map (·.id), time := s.coh.time, moved := s.cycle } }

/-- A publication writes a byte. -/
def Pub.writes (p : Pub) (a : Nat) : Bool := p.cells.any fun c => c.1 == a

/-- The value that publication p displaced at a byte is what core g's snapshot reads there (R162, R175): g has taken
neither p nor a later writer, but the writer before p, if there is one. `old` holds the publications before p, the
newest first, `new` those after it. -/
def readsOld (s : State) (g : Nat) (old new : List Pub) (p : Pub) (a : Nat) : Bool :=
  !pubIn s g p && !(new.any fun q => q.writes a && pubIn s g q) &&
    match old.find? (fun q => q.writes a) with
    | none => true
    | some q => pubIn s g q

/-- The cores whose snapshot is open: those that hold a context, in a slot or parked (R175). -/
def openCores (s : State) : List Nat :=
  ((s.ctxs.filterMap fun e => e.2.map fun _ => e.1 / 16) ++
    s.cores.filterMap fun e => if e.2.parked = [] then none else some e.1).eraseDups

/-- The line versions of die d that the publications of a list displaced and an open snapshot may read; accumulator
lines are never read through a snapshot (R175, R199). -/
def oldVersions (s : State) (d : Nat) (gs : List Nat) (old : List Pub) : List Pub → Nat
  | [] => 0
  | p :: ps =>
    ((cellLines (p.cells.map fun c => (c.1, c.2.1))).filter fun l =>
      placeOf s.part (l * 128) == .dram d && !isAcc s (l * 128) &&
        p.cells.any fun c => lineOf c.1 == l && gs.any fun g => readsOld s g old ps p c.1).length +
    oldVersions s d gs (p :: old) ps

/-- The versions that die d's lees store holds, in lines (R175). -/
def leesLines (s : State) (d : Nat) : Nat := oldVersions s d (openCores s) [] s.coh.pubs

/-- Core g's snapshot reads the current version of a byte (R162). -/
def readsNow (s : State) (g a : Nat) : Bool :=
  match s.coh.pubs.reverse.find? (fun p => p.writes a) with
  | none => true
  | some p => pubIn s g p

/-- The lines of die d that a write of the cells by the running agent makes the lees store keep: a snapshot of another
core may read the version that the write displaces (R175, R199). -/
def leesNeed (s : State) (d : Nat) (ws : List (Nat × Byte)) : Nat :=
  let own (g : Nat) : Bool := match s.who with | .slot h _ => h.toNat == g | _ => false
  ((cellLines ws).filter fun l => placeOf s.part (l * 128) == .dram d && !isAcc s (l * 128) &&
    ws.any fun w => lineOf w.1 == l && (openCores s).any fun g => !own g && readsNow s g w.1).length

/-- Whether the lees stores have room for the old versions of the cells that the running agent writes (R175). -/
def leesRoom (s : State) (ws : List (Nat × Byte)) : Bool :=
  (upTo 8).all fun d => leesNeed s d ws == 0 || leesLines s d + leesNeed s d ws ≤ 65536

/-- The unpublished bytes that a publication at scope sc carries: those of host windows only at SYSTEM
(R185). -/
def pubCells (s : State) (g : Nat) (sc : Scope) : List (Nat × Byte) :=
  (s.core g).ph.unpub.filterMap fun e =>
    match e.2 with
    | some b => if sc == .system || e.1 < hostBase then some (e.1, b) else none
    | none => none

/-- The bytes that a publication carries are no longer unpublished (R173). -/
def takeUnpub (s : State) (g : Nat) (ws : List (Nat × Byte)) : State :=
  s.modCore g fun c => { c with ph := { c.ph with unpub := c.ph.unpub.filter fun e => !(ws.any fun w => w.1 == e.1) } }

/-- A publication of core g completes with the stores that it carries (R158). -/
def publishHeld (s : State) (g : GCore) (sc : Scope) (ws : List (Nat × Byte)) : State :=
  if ws = [] then widen s g sc else
  (trimL2 (writeHome s (.core g) sc ws) g.toNat).bump g.toNat 0x0040

/-- A publication of core g's unpublished stores that completes at once. -/
def publish (s : State) (g : GCore) (sc : Scope) (ws : List (Nat × Byte)) : State :=
  publishHeld (if ws = [] then s else takeUnpub s g.toNat ws) g sc ws

/-- A publication begins and waits for lees space: it carries its stores from now on (R173, R175). -/
def pubWait (s : State) (g : GCore) (sc : Scope) (ws : List (Nat × Byte)) : State :=
  let s := takeUnpub s g.toNat ws
  { s with coh := { s.coh with waiting := s.coh.waiting ++ [⟨s.nextId, g, sc, ws, s.cycle⟩] }, nextId := s.nextId + 1 }

/-- A publication is in the snapshot of every core that holds a context (R175). -/
def takenByAll (s : State) (p : Pub) : Bool :=
  (openCores s).all fun g => pubIn s g p

/-- The oldest publications that every open snapshot holds leave the lees stores (R175). -/
def leesDrop (s : State) : List Pub → List Pub
  | [] => []
  | p :: ps => if takenByAll s p then leesDrop s ps else p :: ps

/-! ### The sluice -/

/-- The degree of a region after a window (R178), and whether it rose or fell. -/
def nextDegree (s : State) (r : Region) : Nat :=
  if r.writes != [] || r.evicts.any (fun e => decide (4 ≤ (r.evicts.filter fun x => x.1 == e.1).length)) then r.deg - 1
  else if r.rises != [] then min (r.deg + 1) (s.part.dies - 1)
  else r.deg

/-- Die d put into a list of dies that is ordered by the time of their last read. -/
def placeDie (r : Region) (d : Nat) : List Nat → List Nat
  | [] => [d]
  | e :: es => if tget 0 r.lastUse d < tget 0 r.lastUse e then d :: e :: es else e :: placeDie r d es

/-- The dies of a list by the time of their last read, the earliest first. -/
def byLastUse (r : Region) (ds : List Nat) : List Nat := ds.foldl (fun l d => placeDie r d l) []

/-- Replicas beyond a region's degree are collapsed on the dies that read it least recently (R178). -/
def trimRegion (s : State) (r : Region) : State :=
  let ds := byLastUse r (regionDies s r)
  let out := ds.take (ds.length - r.deg)
  { s with dies := s.dies.map fun e =>
    if out.contains e.1 then (e.1, { e.2 with l2 := e.2.l2.filter fun x => !r.holds x.1 }) else e }

/-- A region at the end of a window of the sluice (R178). -/
def sluiceRegion (d : Nat) (s : State) (r : Region) : State :=
  let n := nextDegree s r
  let r' : Region := { r with deg := n, writes := [], touches := [], rises := [], evicts := [] }
  let s := if r.deg < n then s.bumpDie d 0x0046 1 else if n < r.deg then s.bumpDie d 0x0047 1 else s
  trimRegion (s.modDie d fun die => { die with
    regions := r' :: die.regions.filter fun x => !(x.line == r.line && x.gran == r.gran) }) r'

/-- The end of a window of the sluice (R178): each tracked region is evaluated. -/
def sluice (s : State) : State := (upTo s.part.dies).foldl (fun s d => (s.die d).regions.foldl (sluiceRegion d) s) s

/-! ### Strong accesses -/

/-- A strong access of n bytes meets one of another size at a byte (R128). -/
def mixedAt (s : State) (n a : Nat) : Bool :=
  let m := tget 0 s.coh.strong a
  m != 0 && m != n

/-- The bytes of a strong access are recorded with its size. -/
def strongMark (s : State) (n : Nat) (as : List Nat) : State :=
  { s with coh := { s.coh with strong := as.foldl (fun t a => tset 0 t a n) s.coh.strong } }

/-- The thread number of slot k of core g. -/
def threadNo (g : GCore) (k : Slot) : Nat := g.toNat * 16 + k.toNat

/-- A strong read: bytes that a strong access of another size overlapped are free values (R128). -/
def mixRead (s : State) (n : Nat) (cells : List (Nat × Byte)) : List Byte :=
  cells.map fun c => if mixedAt s n c.1 then Config.mixedByte (s.fresh * 128 + c.1 % 128) else c.2

/-- A strong write: bytes that a strong access of another size overlapped become free values (R128). -/
def mixWrite (s : State) (n : Nat) (cells : List (Nat × Byte)) : List (Nat × Byte) :=
  cells.map fun c => if mixedAt s n c.1 then (c.1, Config.mixedByte (s.fresh * 128 + c.1 % 128)) else c

/-- In debug mode a strong access that meets another size raises MIXSZ (R128). -/
def mixTrap (s : State) (t : TenantNo) (n : Nat) (ps : List Piece) : Option Trap :=
  if s.tenDbg t then
    ps.findSome? fun p => ((upTo p.n).find? fun i => mixedAt s n (p.pa + i)).map fun _ =>
      ⟨0x09, 0, BitVec.ofNat 64 p.va⟩
  else none

end Sys2Proof.Machine
end

