-- ==== Sys2Proof/Machine/Operands.lean ====
section
/-! DEFINITION. Operand forms: scalar, vector, predicate and mask registers with their shared banks (R46, R96,
R97, R31), queue ports as operands (R47), guards (R48), immediates, timeouts and the address operands of
R103 and R129. All of them belong to the running thread. -/

namespace Sys2Proof.Machine

/-! ### Shared registers -/

/-- What a shared register reads as: in the cc of its last write, its value before that cc (R31). -/
def sharedRead (s : State) (g key : Nat) (cur : Nat) : Nat :=
  match tget none (s.core g).regs.shw key with
  | some (cy, _, old) => if cy = s.cycle then old else cur
  | none => cur

/-- Whether a write of slot k to a shared register is lost to a higher-numbered slot's of the same cc (R97). -/
def sharedLost (s : State) (g k key : Nat) : Bool :=
  match tget none (s.core g).regs.shw key with
  | some (cy, k', _) => cy == s.cycle && decide (k < k')
  | none => false

/-- The record of a write to a shared register (R31, R97). -/
def sharedMark (s : State) (g k key cur : Nat) : Option (Nat × Nat × Nat) :=
  match tget none (s.core g).regs.shw key with
  | some (cy, _, old) => some (s.cycle, k, if cy = s.cycle then old else cur)
  | none => some (s.cycle, k, cur)

/-- The running thread's instruction writes a register, by its number: where it is the second of a pair, the first one's
later write of that register is void (R41). -/
def regWrite (s : State) (key : Nat) (write : State → State) : State :=
  if s.c.iss.shadow.contains key then s
  else
    match s.c.iss.upon with
    | none => write s
    | some id =>
      let mark (o : Out) : Out := if o.id = id then { o with shadow := key :: o.shadow } else o
      write (s.modC fun c => { c with iss := { c.iss with outs := c.iss.outs.map mark } })

/-- The stored value of s-register i of core g. -/
def State.sreg (s : State) (g i : Nat) : Word := tget 0 (s.core g).regs.s i
/-- The stored value of vs-register i of core g. -/
def State.vsreg (s : State) (g i : Nat) : VWord := tget 0 (s.core g).regs.vs i

/-- Slot k writes s-register i of core g. -/
def wrShared (s : State) (g k i : Nat) (v : Word) : State :=
  if sharedLost s g k i then s else
  s.modCore g fun c => { c with regs := { c.regs with
    s := tset 0 c.regs.s i v
    shw := tset none c.regs.shw i (sharedMark s g k i (s.sreg g i).toNat) } }

/-- Slot k writes vs-register i of core g. -/
def wrSharedV (s : State) (g k i : Nat) (v : VWord) : State :=
  if sharedLost s g k (64 + i) then s else
  s.modCore g fun c => { c with regs := { c.regs with
    vs := tset 0 c.regs.vs i v
    shw := tset none c.regs.shw (64 + i) (sharedMark s g k (64 + i) (s.vsreg g i).toNat) } }

/-! ### Scalar registers -/

/-- CORECFG.QP as the running thread sees it (R258). -/
def qpOn (s : State) : Bool := s.b.qp

/-- Whether a G field names a queue port (R47). -/
def isPort (s : State) (r : GReg) : Bool := qpOn s && decide (0x78 ≤ r.toNat)

/-- The registers that the instruction at hand reads: those before its pair, or the context's (R41). -/
def viewRegs (s : State) : Regs :=
  match s.c.iss.pair with
  | some p => p.regs
  | none => s.c.regs

/-- A scalar operand (R46, R47): g0 reads zero, a port reads what was popped from it. -/
def rdG (s : State) (r : GReg) : Word :=
  if r = 0 then 0
  else if isPort s r then (tget none s.c.iss.port.popped r.toNat).getD 0
  else if r.toNat < 64 then tget 0 (viewRegs s).g r.toNat
  else
    match s.c.iss.pair with
    | some p => tget 0 p.s (r.toNat - 64)
    | none => BitVec.ofNat 64 (sharedRead s s.g.toNat (r.toNat - 64) (s.sreg s.g.toNat (r.toNat - 64)).toNat)

/-- A scalar destination (R46, R47): a write to g0 is discarded, a port's value is to be pushed. -/
def wrG (s : State) (r : GReg) (v : Word) : State :=
  if r = 0 then s
  else if isPort s r then s.modC fun c => { c with iss := { c.iss with
    port := { c.iss.port with pushes := c.iss.port.pushes ++ [(r.toNat - 0x78, v)] } } }
  else regWrite s r.toNat fun s =>
    if r.toNat < 64 then s.modC fun c => { c with regs := { c.regs with g := tset 0 c.regs.g r.toNat v } }
    else wrShared s s.g.toNat s.k.toNat (r.toNat - 64) v

/-! ### Predicates and masks -/

/-- A predicate (R46): p0 reads true. -/
def rdP (s : State) (p : PReg) : Bool := p == 0 || (viewRegs s).p.getLsbD p.toNat

/-- A predicate written (R46): a write to p0 is ignored. -/
def wrP (s : State) (p : PReg) (b : Bool) : State :=
  if p = 0 then s else
  regWrite s (256 + p.toNat) fun s => s.modC fun c =>
    let m : BitVec 8 := 1#8 <<< p.toNat
    { c with regs := { c.regs with p := if b then c.regs.p ||| m else c.regs.p &&& ~~~m } }

/-- A mask register (R294): k0 reads all ones. -/
def rdK (s : State) (k : KReg) : Word := if k = 0 then BitVec.allOnes 64 else tget 0 (viewRegs s).k k.toNat

/-- A mask register written (R294): a write to k0 is ignored. -/
def wrK (s : State) (k : KReg) (v : Word) : State :=
  if k = 0 then s
  else regWrite s (264 + k.toNat) fun s => s.modC fun c => { c with regs := { c.regs with k := tset 0 c.regs.k k.toNat v } }

/-- The guard value (R48). -/
def guardOf (ct : Ctl) (s : State) : Bool :=
  let a := rdP s ct.g1 != ct.n1
  let b := rdP s ct.g2 != ct.n2
  if ct.comb then a || b else a && b

/-! ### Vector registers -/

/-- A vector register as a source. -/
def rdV (s : State) (r : VReg) : VWord :=
  if r.shared then
    match s.c.iss.pair with
    | some p => tget 0 p.vs r.idx.toNat
    | none => BitVec.ofNat 512 (sharedRead s s.g.toNat (64 + r.idx.toNat) (s.vsreg s.g.toNat r.idx.toNat).toNat)
  else tget 0 (viewRegs s).v r.idx.toNat

/-- A vector register as it stands, for lanes that keep their value; of a shared register the value before this cc, so
that a write leaves no mixture with another slot's of the same cc (R97). -/
def curV (s : State) (r : VReg) : VWord :=
  if r.shared then BitVec.ofNat 512 (sharedRead s s.g.toNat (64 + r.idx.toNat) (s.vsreg s.g.toNat r.idx.toNat).toNat)
  else tget 0 s.c.regs.v r.idx.toNat

/-- A vector register written. -/
def wrV (s : State) (r : VReg) (v : VWord) : State :=
  regWrite s (512 + (if r.shared then 64 else 0) + r.idx.toNat) fun s =>
    if r.shared then wrSharedV s s.g.toNat s.k.toNat r.idx.toNat v
    else s.modC fun c => { c with regs := { c.regs with v := tset 0 c.regs.v r.idx.toNat v } }

/-- The stream that a vector field names, when it is configured, running or exhausted (R299). -/
def streamOf (s : State) (r : VReg) : Option Stream :=
  if r.shared || r.idx.toNat < 28 then none
  else
    let x := tget {} s.c.streams r.idx.toNat
    if x.st = .unconfigured then none else some x

/-- ILLOPND of a stream that an instruction of another chapter names in field f (R299). -/
def noStream (s : State) (fs : List (Nat × VReg)) : Option Trap :=
  (fs.find? fun f => (streamOf s f.2).isSome).map fun f => ⟨0x02, 0, BitVec.ofNat 64 (8 + f.1)⟩

/-! ### Immediates, timeouts, addresses -/

/-- A timeout: IMM28 or g[E][39:0] (R218). -/
def tmoVal (s : State) (t : Timeout) : Nat :=
  match t with
  | .imm n => n.toNat
  | .reg e => fld (rdG s e) 39 0

/-- The sum of the layout "addr" (R103): base, shifted index and signed offset, modulo 2^64. -/
def addrSum (s : State) (base : Word) (m : AddrOp) : Word :=
  base + (rdG s m.index <<< m.shift.toNat) + m.off.signExtend 64

/-- A virtual address of the layout "addr" with a register base (R129). -/
def addrG (s : State) (b : GReg) (m : AddrOp) : Nat := va56 (addrSum s (rdG s b) m)

/-- A shift amount (R100). -/
def shiftVal (s : State) (n : ShiftAmt) : Nat :=
  match n with
  | .reg c => fld (rdG s c) 5 0
  | .imm n => n.toNat

/-- The ILLOPND trap that names a field under a rule other than its kind (R55). -/
def illopnd (f : Nat) : Trap := ⟨0x02, 0, BitVec.ofNat 64 (8 + f)⟩
/-- An ALIGN trap at an address; bit W of DETAIL for stores and atomics (R419, R420). -/
def alignTrap (w : Bool) (va : Nat) : Trap := ⟨0x04, if w then 1 else 0, BitVec.ofNat 64 (va % 2 ^ 56)⟩

end Sys2Proof.Machine
end

