-- ==== Sys2Proof/Machine/Flags.lean ====
section
/-! DEFINITION. The rounding mode and the floating-point status flags (R71–R74). The scalar instructions have
no flags (R99). -/

namespace Sys2Proof.Machine

/-- FPCTL.RM of the running thread (R71, R72). -/
def fpRm (s : State) : RMode := rmodeOf s.c.fpctl

/-- FPSTAT accumulates the flags that an operation raises (R73, R74). -/
def raiseFp (s : State) (f : BitVec 6) : State :=
  if f = 0 then s else s.modC fun c => { c with
    fpstat := c.fpstat ||| f
    fpNow := (s.cycle, if c.fpNow.1 = s.cycle then c.fpNow.2 ||| f else f) }

/-- A value that WRSR writes to FPSTAT, with the bits of the instructions that complete in this cc (R74). -/
def writeFp (s : State) (v : BitVec 6) : State :=
  s.modC fun c => { c with fpstat := v ||| (if c.fpNow.1 = s.cycle then c.fpNow.2 else 0) }

end Sys2Proof.Machine
end

