-- ==== Sys2Proof/Machine/Cmd.lean ====
section
/-! DEFINITION. Engine timelines (R182), the commands that the matrix and copy queues hold with the checks
that their instructions make at issue (R343–R348, R393–R396), command blocks (R262), and the queues behind
queue ports (R260–R262). -/

namespace Sys2Proof.Machine

/-! ### Timelines -/

/-- Timeline t of core g. -/
def State.tl (s : State) (g t : Nat) : Timeline := tget {} (s.core g).eng.tl t
/-- The state with that timeline replaced. -/
def State.setTl (s : State) (g t : Nat) (x : Timeline) : State :=
  s.modCore g fun c => { c with eng := { c.eng with tl := tput c.eng.tl t x } }

/-- The next job number of a timeline is taken (R182). -/
def takeJob (s : State) (g t : Nat) : State × Nat :=
  let x := s.tl g t
  (s.setTl g t { x with issued := x.issued + 1 }, x.issued + 1)

/-- DONE moves over the finished jobs that follow it (R182). -/
def Timeline.settle (fuel : Nat) (x : Timeline) : Timeline :=
  match fuel with
  | 0 => x
  | f + 1 =>
    if x.ahead.contains (x.done + 1) then
      Timeline.settle f { x with done := x.done + 1, ahead := x.ahead.filter fun j => j != x.done + 1 }
    else x

/-- Job n of a timeline has completed or failed (R182). -/
def jobDone (s : State) (g t n : Nat) : State :=
  let x := s.tl g t
  let x := { x with ahead := n :: x.ahead }
  s.setTl g t (x.settle (x.ahead.length + 1))

/-- Whether job n of a timeline is done. -/
def isDone (s : State) (g t n : Nat) : Bool := n ≤ (s.tl g t).done || (s.tl g t).ahead.contains n

/-! ### Commands -/

/-- Element size of a weight format. -/
def wfmtBytes : WFmt → Nat
  | .f8 => 1
  | _ => 2

/-- MLDW's row stride and ALIGN check, whose TVAL is all of g[B] (R343). -/
def mldwCmd (f : WFmt) (b c : Word) : Except Trap MCmd :=
  let rs : Word := if c = 0 then BitVec.ofNat 64 (64 * wfmtBytes f) else c
  if b.toNat % 64 ≠ 0 || rs.toNat % 64 ≠ 0 then .error ⟨0x04, 0, b⟩ else .ok (.mldw b rs f)

/-- MSTREAM's ALIGN checks (R345). -/
def mstreamCmd (f : AFmt) (o64 : Bool) (rows : BitVec 9) (b c : Word) (d : Option Word) : Except Trap MCmd :=
  let asz := if f = .bf16 then 2 else 1
  if b.toNat % asz ≠ 0 then .error (alignTrap false b.toNat)
  else if c.toNat % 128 ≠ 0 then .error (alignTrap false c.toNat)
  else if (d.getD 0).toNat % 128 ≠ 0 then .error (alignTrap false (d.getD 0).toNat)
  else .ok (.mstream b c d (rows.toNat + 1) f o64)

/-- MATTN's ALIGN check (R346). -/
def mattnCmd (b : Word) : Except Trap MCmd :=
  if b.toNat % 128 ≠ 0 then .error (alignTrap false b.toNat) else .ok (.mattn b)

/-- MCFG's operand check (R348). -/
def mcfgCmd (b : Word) : Except Trap MCmd :=
  if fld b 63 4 ≠ 0 || fld b 2 0 < 1 || 4 < fld b 2 0 then .error (illopnd 1) else .ok (.mcfg (b.extractLsb' 0 4))

/-- CPY's length check (R393). -/
def cpyCmd (reg : Bool) (d s n : Word) : Except Trap CpyCmd :=
  if reg && 2 ^ 40 ≤ n.toNat then .error (illopnd 3) else .ok (.cpy d s n)

/-- CPY2D's ALIGN check (R394). -/
def cpy2dCmd (b : Word) : Except Trap CpyCmd :=
  if b.toNat % 8 ≠ 0 then .error (alignTrap false b.toNat) else .ok (.cpy2d b)

/-- CPYF's checks (R395). -/
def cpyfCmd (src dst : VType) (d s c : Word) : Except Trap CpyCmd :=
  if c = 0 || 2 ^ 32 ≤ c.toNat then .error (illopnd 3)
  else if d.toNat % (lanesBits dst / 8) ≠ 0 then .error (alignTrap true d.toNat)
  else if s.toNat % (lanesBits src / 8) ≠ 0 then .error (alignTrap false s.toNat)
  else .ok (.cpyf src dst d s c)

/-- CPYG's checks (R396). -/
def cpygCmd (rb : BitVec 13) (d s l k : Word) : Except Trap CpyCmd :=
  if rb = 0 || 4096 < rb.toNat then .error (illopnd 0)
  else if k = 0 || 2 ^ 20 < k.toNat then .error (illopnd 4)
  else if l.toNat % 4 ≠ 0 then .error (alignTrap false l.toNat)
  else .ok (.cpyg d s l k rb.toNat)

/-! ### The command queues -/

/-- The timeline of a command instruction (R331, R388). -/
def pushTl : Instr → Option Nat
  | .mldw .. | .mswap .. | .mstream .. | .mattn .. | .mcfg .. => some 1
  | .cpy .. | .cpy2d .. | .cpyf .. | .cpyg .. => some 0
  | .coll .. | .colla .. => some 2
  | .smpl .. | .smplv .. | .smcommit .. => some 3
  | _ => none

/-- The contexts of a core. -/
def coreCtxs (s : State) (g : Nat) : List Ctx :=
  s.ctxs.filterMap fun e => if e.1 / 16 = g then e.2 else none

/-- The contexts of a core in its slots and parked. -/
def liveCtxs (s : State) (g : Nat) : List Ctx := coreCtxs s g ++ (s.core g).parked.map (·.ctx)

/-- The job numbers below n that a core's outstanding instructions still have to hand to timeline t's queue. -/
def pendingBelow (s : State) (g t n : Nat) : Bool :=
  (liveCtxs s g).any fun c => c.iss.outs.any fun o => pushTl o.i == some t && o.trap.isNone && decide (o.src.job < n)

/-- Commands of core g in the queue of the module's collective engine. -/
def collQueued (s : State) (g : Nat) : Nat := (s.fl.colls.filter fun j => j.g.toNat == g && !j.started).length

/-- Whether the queue of timeline t has room for a command of core g (R331, R388). -/
def queueRoom (s : State) (g t : Nat) : Bool :=
  match t with
  | 0 => (s.core g).eng.cq.length < 8
  | 1 => (s.core g).regs.mq.cmds.length < 8
  | 2 => collQueued s g < 8
  | _ =>
    let p := (s.die (dieOf g)).press
    (p.filter fun j => j.g.toNat == g).length < 8 && p.length < 64

/-- A command enters the matrix queue. -/
def mEnter (s : State) (g : Nat) (t : TenantNo) (own : Owner) (job : Nat) (c : MCmd) : State :=
  s.modCore g fun x => { x with regs := { x.regs with mq := { x.regs.mq with
    cmds := x.regs.mq.cmds ++ [{ job := job, cmd := c, tenant := t, own := own }] } } }
/-- A command enters the copy queue. -/
def cEnter (s : State) (g : Nat) (t : TenantNo) (own : Owner) (job : Nat) (c : CpyCmd) : State :=
  s.modCore g fun x => { x with eng := { x.eng with
    cq := x.eng.cq ++ [{ job := job, tenant := t, own := own, cmd := c }] } }
/-- The running context as the pusher of a job (R183). -/
def State.owner (s : State) : Owner := ⟨s.c.tid, s.c.task.lid⟩

/-! ### Command blocks -/

/-- The instruction that a command block names (R262); none where its bits are refused. -/
def blockInstr (bs : List Byte) : Option Instr :=
  let d := dwordAt bs 0
  if fld d 63 44 ≠ 0 || dwordAt bs 5 ≠ 0 || dwordAt bs 6 ≠ 0 || dwordAt bs 7 ≠ 0 then none else
  let f : Fields := { major := d.extractLsb' 0 8, minor := d.extractLsb' 8 8, a := 0, b := 0, c := 0, d := 0, e := 0
                      ct := ⟨0, false, 0, false, false, 0, 0, false⟩, imm := d.extractLsb' 16 28 }
  match decodeFields f with
  | .ok i => some i
  | .error _ => none

/-- The matrix command of a block: `bad` where R262 makes it fail as a job. -/
def blockM (bs : List Byte) : MCmd :=
  let v (i : Nat) : Word := dwordAt bs i
  let ok (e : Except Trap MCmd) : MCmd := match e with | .ok c => c | .error _ => .bad
  match blockInstr bs with
  | some (.mldw _ f _ _ _) => ok (mldwCmd f (v 1) (v 2))
  | some (.mswap ..) => .mswap
  | some (.mstream _ f o r _ _ _ _) => ok (mstreamCmd f o r (v 1) (v 2) (if v 3 = 0 then none else some (v 3)))
  | some (.mattn ..) => ok (mattnCmd (v 1))
  | some (.mcfg ..) => ok (mcfgCmd (v 1))
  | _ => .bad

/-- The copy command of a block. -/
def blockC (bs : List Byte) : CpyCmd :=
  let v (i : Nat) : Word := dwordAt bs i
  let ok (e : Except Trap CpyCmd) : CpyCmd := match e with | .ok c => c | .error _ => .bad
  match blockInstr bs with
  | some (.cpy _ _ _ _ (.imm n)) => ok (cpyCmd false (v 1) (v 2) (n.setWidth 64))
  | some (.cpy _ _ _ _ (.reg _)) => ok (cpyCmd true (v 1) (v 2) (v 3))
  | some (.cpy2d ..) => ok (cpy2dCmd (v 1))
  | some (.cpyf _ a b ..) => ok (cpyfCmd a b (v 1) (v 2) (v 3))
  | some (.cpyg _ _ _ _ _ _ r) => ok (cpygCmd r (v 1) (v 2) (v 3) (v 4))
  | _ => .bad

/-! ### Queue ports -/

/-- The queue that a port reaches (R260): a number for the inter-group queue of the running tenant, or the
matrix or copy command queue. -/
inductive PortQ where
  | unbound
  | igq (key : Nat)
  | cmd (copy : Bool)
  deriving DecidableEq, Repr

/-- The binding of port q (R260). -/
def portQ (s : State) (q : Nat) : PortQ :=
  let b := fld s.b.qpbind (8 * q + 7) (8 * q)
  match b / 64, b % 64 with
  | 1, n => .igq (s.t.toNat * 64 + n)
  | 2, 0 => .cmd false
  | 3, 0 => .cmd true
  | _, _ => .unbound

/-- The number under which a queue's waiters register. -/
def PortQ.tag : PortQ → Nat
  | .unbound => 0
  | .igq k => 16 + k
  | .cmd c => if c then 3 else 2

/-- An inter-group queue of core g's die (R261). -/
def State.igq (s : State) (g key : Nat) : List Word := tget [] (s.die (dieOf g)).igq key
/-- The state with that queue replaced. -/
def State.setIgq (s : State) (g key : Nat) (l : List Word) : State :=
  s.modDie (dieOf g) fun d => { d with igq := tset [] d.igq key l }

/-- The waits that a context has begun: of the instruction at its PC and of outstanding ones. -/
def Ctx.waits (c : Ctx) : List Wait := c.iss.wait.toList ++ c.iss.outs.filterMap (·.wait)

/-- The contexts of a core, in slots and parked: a parked context's watches stay registered (R222). -/
def heldCtxs (s : State) : List (Nat × Ctx) :=
  (s.ctxs.filterMap fun e => e.2.map fun c => (e.1 / 16, c)) ++ s.cores.flatMap fun e => e.2.parked.map fun p => (e.1, p.ctx)

/-- Waiters of the die, or of the core for a command queue, that registered on a queue before number r. -/
def waitersBefore (s : State) (g : Nat) (k : WaitKind) (tag r : Nat) : Nat :=
  ((heldCtxs s).filter fun e => (if tag < 16 then e.1 == g else dieOf e.1 == dieOf g) &&
    e.2.waits.any fun w => w.kind == k && decide (w.reg < r)).length

/-- The registration number of the running thread's wait, or the next one. -/
def myReg (s : State) (k : WaitKind) : Nat :=
  match s.c.iss.wait with
  | some w => if w.kind = k then w.reg else s.nextId
  | none => s.nextId

/-- A pop of a queue (R261, R262): the value and the state after it, none while it has to wait. -/
def popQ (s : State) (q : Nat) : Option (Word × State) :=
  let g := s.g.toNat
  let w := waitersBefore s g (.pop (portQ s q).tag) (portQ s q).tag (myReg s (.pop (portQ s q).tag))
  match portQ s q with
  | .unbound => none
  | .igq k =>
    match s.igq g k with
    | [] => none
    | x :: r => if r.length < w then none else some (x, s.setIgq g k r)
  | .cmd cp =>
    let kind := if cp then 3 else 2
    let tl := if cp then 0 else 1
    match findIdx? (fun j : Nat × Nat => j.1 == kind) (s.core g).eng.portJobs with
    | none => none
    | some (i, j) =>
      if isDone s g tl j.2 && w = 0 then
        some (BitVec.ofNat 64 j.2, s.modCore g fun c => { c with eng := { c.eng with portJobs := dropAt c.eng.portJobs i } })
      else none

/-- What a push of a port does. -/
inductive PushRes where
  | done (s : State)
  | full
  | trap (t : Trap) (late : Bool)
  deriving Repr

/-- The check and read of a pushed command block (R262): its bytes, or the trap and whether it is deferred. -/
def readBlock (s : State) (v : Word) : Except (Trap × Bool) (List Byte × State) :=
  let g := s.g.toNat
  if v.toNat % 64 ≠ 0 then .error (alignTrap false v.toNat, false) else
  match check s g s.t .rd (va56 v) 64 with
  | .error t => .error (t, false)
  | .ok ps =>
    match lostIn s ps with
    | some t => .error (t, true)
    | none => .ok (coreBytes s g s.t ps, touchRead s g s.t 0 ps)

/-- A push of a port (R261, R262). -/
def pushQ (s : State) (q : Nat) (v : Word) : PushRes :=
  let g := s.g.toNat
  let w := waitersBefore s g (.push (portQ s q).tag) (portQ s q).tag (myReg s (.push (portQ s q).tag))
  match portQ s q with
  | .unbound => .full
  | .igq k => if (s.igq g k).length + w < 32 then .done (s.setIgq g k (s.igq g k ++ [v])) else .full
  | .cmd cp =>
    let tl := if cp then 0 else 1
    match readBlock s v with
    | .error (t, l) => .trap t l
    | .ok (bs, s) =>
      if !queueRoom s g tl || pendingBelow s g tl ((s.tl g tl).issued + 1) || w ≠ 0 then .full else
      let (s, job) := takeJob s g tl
      let s := if cp then cEnter s g s.t s.owner job (blockC bs) else mEnter s g s.t s.owner job (blockM bs)
      .done (s.modCore g fun c => { c with eng := { c.eng with portJobs := c.eng.portJobs ++ [(if cp then 3 else 2, job)] } })

end Sys2Proof.Machine
end

