-- ==== Sys2Proof/Machine/Ops.lean ====
section
/-! DEFINITION. The shared operations of every instruction: issue with guard, queue ports and retirement (R47,
R49, R90–R92), taking a trap and halting (R421–R423), waits (R218–R221), outstanding instructions (R92, R94),
releases (R169), and the passing of time. -/

namespace Sys2Proof.Machine

/-- The outcome of a step of this machine. -/
abbrev Out' := Host.Outcome State Fault Refusal

/-! ### Code addresses -/

/-- The code address that follows in sequence (R38). -/
def nextPc (pc : CodeAddr) : CodeAddr :=
  if pc.toNat % 64 < 4 then pc + 1 else BitVec.ofNat 56 (pc.toNat / 64 * 64 + 64)

/-- The check of the RET row of R39 on a 56-bit value. -/
def retOk (pc : CodeAddr) : Bool := pc.toNat % 64 < 5

/-! ### Time -/

/-- EXPECT and ARRIVED of a barrier object (R231). -/
def objExpect (bs : List Byte) : Nat := fld (dwordAt bs 0) 31 0
def objArrived (bs : List Byte) : Nat := fld (dwordAt bs 1) 31 0

/-- Whether a join counter holds PENDING ≤ 0 (R281). -/
def joinDone (bs : List Byte) : Bool := decide ((dwordAt bs 0).toInt ≤ 0)

/-- Whether the condition of a registered continuation holds (R283). -/
def contHolds (s : State) (k : CondKind) : Bool :=
  match k with
  | .timeline g t n => n.toNat ≤ (s.tl g.toNat t.toNat).done
  | .barrier pa => let bs := s.memBytes pa 128; objExpect bs ≤ objArrived bs
  | .join pa => joinDone (s.memBytes pa 16)
  | .plain => false

/-- The deadlines of registered continuations that pass before cc `cc` without their condition: the deadline has come
first (R283, R290). -/
def passDeadlines (s : State) (cc : Nat) : State :=
  if s.fl.conds = [] then s else
  let late (r : Registered) : Registered :=
    if r.deadline < cc && !contHolds s r.kind then { r with late := true } else r
  { s with fl := { s.fl with conds := s.fl.conds.map late } }

/-- n cc pass, with the event LEESFULL of R180; the sluice's window ends where CYCLE passes a multiple of 65,536 (R178). -/
def advance (s : State) (n : Nat) : State :=
  let s := passDeadlines s (s.cycle + n)
  let t := (upTo s.part.dies).foldl (fun s d => if 65536 ≤ leesLines s d then s.bumpDie d 0x0042 n else s) (s.tick n)
  if s.cycle / 65536 = (s.cycle + n) / 65536 then t else sluice t

/-- Time passes up to a cc, if it has not come yet. -/
def advanceTo (s : State) (cc : Nat) : State := if s.cycle < cc then advance s (cc - s.cycle) else s

/-! ### Traps -/

/-- The thread's special-function requests are cancelled and kept in order (R321). -/
def cancelSfu (s : State) (g : GCore) (k : Slot) : State :=
  let e := (s.core g.toNat).eng
  let mine (r : SfuReq) : Bool := r.g == g && r.k == k
  let rs := (e.sfuRun.map (·.1)).filter mine ++ e.sfuQ.filter mine ++ ((s.ctx g k).map (·.again)).getD []
  if rs = [] then s else
  let s := s.modCore g.toNat fun c => { c with eng := { c.eng with
    sfuRun := c.eng.sfuRun.filter fun r => !mine r.1
    sfuQ := c.eng.sfuQ.filter fun r => !mine r } }
  s.modCtx g k fun c =>
    let held (o : Out) : Bool := rs.any fun r => r.out == o.id
    { c with again := [], cancelled := c.cancelled ++ rs, cancelOuts := c.cancelOuts ++ c.iss.outs.filter held
             iss := { c.iss with outs := c.iss.outs.filter fun o => !held o } }

/-- The thread's special-function requests leave the unit and are to re-enter its queue before the thread's next
instruction; their instructions stay outstanding (R321). -/
def recallSfu (s : State) (g : GCore) (k : Slot) : State :=
  let e := (s.core g.toNat).eng
  let mine (r : SfuReq) : Bool := r.g == g && r.k == k
  let rs := (e.sfuRun.map (·.1)).filter mine ++ e.sfuQ.filter mine
  if rs = [] then s else
  let s := s.modCore g.toNat fun c => { c with eng := { c.eng with
    sfuRun := c.eng.sfuRun.filter fun r => !mine r.1
    sfuQ := c.eng.sfuQ.filter fun r => !mine r } }
  s.modCtx g k fun c => { c with again := rs ++ c.again }

/-- HALTLOGt takes a halt and the function's vector 1 is raised (R422, R439, R443). -/
def logHalt (s : State) (t : TenantNo) (g : GCore) (k : Slot) (code : BitVec 8) : State :=
  let a := tenReg t 0x28
  let n := fld (s.cfgAt a) 63 48
  let v : Word := setFld (setFld (setFld (BitVec.ofNat 64 ((if n = 0xFFFF then n else n + 1) * 2 ^ 48)) 39 32 code.toNat)
    27 16 g.toNat) 3 0 k.toNat
  (s.setCfg a v).raise t.toNat 1

/-- Halt(code) of R422: the context keeps its slot and registers and issues nothing. -/
def haltCtx (s : State) (g : GCore) (k : Slot) (code : BitVec 8) : State :=
  match s.ctx g k with
  | none => s
  | some c =>
    (logHalt (s.modCtx g k fun c => { c with halted := true, iss := { c.iss with wait := none, entry := none } })
      c.tenant g k code).bump g.toNat 0x0005

/-- What an entry takes from the context's issue state: the instruction at hand has no effect (R421). -/
def Issue.entered (i : Issue) : Issue :=
  { i with wait := none, entry := none, port := {}, hold := none, stage := 0, src := none, pair := none, rep := {}
           yielded := false, upon := none }

/-- A slot's writes that were waiting for lees space wait no longer. -/
def dropThirst (s : State) (g : GCore) (k : Slot) : State :=
  if s.coh.thirst = [] then s
  else { s with coh := { s.coh with thirst := s.coh.thirst.filter fun x => x.who != .slot g k } }

/-- The failure record without the job that an ENGFLT reports, as the trap is delivered (R183). -/
def reported (l : List (Nat × Nat)) (t : Trap) : List (Nat × Nat) :=
  if t.code = 0x13 then l.erase (t.detail.toNat, t.val.toNat) else l

/-- The trap registers that an entry writes (R421). -/
def trapRegs (r : TrapRegs) (e : Entry) : TrapRegs :=
  { r with code := e.trap.code, detail := e.trap.detail, tepc := e.epc, tres := e.res, tval := e.trap.val }

/-- Trap entry (R421, R418): the trap registers are written; the context enters its handler, or halts when it
is in handler mode already or has no usable handler. -/
def enterTrap (s : State) (g : GCore) (k : Slot) (e : Entry) : State :=
  match s.ctx g k with
  | none => s
  | some c =>
    let s := dropThirst s g k
    let c' : Ctx := { c with trap := trapRegs c.trap e, iss := c.iss.entered, savedRep := c.iss.rep, replay := false
                             failures := reported c.failures e.trap }
    if c.trap.mode || c.trap.tvec = 0 || !retOk c.trap.tvec then
      haltCtx (s.setCtx g k (some c')) g k e.trap.code
    else
      (s.setCtx g k (some { c' with
        trap := { c'.trap with mode := true }, pc := c.trap.tvec, iss := { c.iss.entered with prev := none, seq := false } })).bump
          g.toNat 0x0005

/-- Delivery of what is pending (R94, R423): once every outstanding instruction has completed or trapped, the
earliest one that trapped is delivered and all that trapped are withdrawn; else the trap met at issue. -/
def settle (s : State) (g : GCore) (k : Slot) : State :=
  match s.ctx g k with
  | none => s
  | some c =>
    if c.iss.outs.any (fun o => o.trap.isNone) then s else
    match c.iss.outs with
    | [] =>
      match c.iss.entry with
      | some e => enterTrap s g k e
      | none => s
    | o :: os =>
      enterTrap (s.setCtx g k (some { c with withdrawn := (o :: os) ++ c.withdrawn, iss := { c.iss with outs := [] } })) g k
        ⟨o.trap.getD ⟨0, 0, 0⟩, o.pc, c.pc⟩

/-- A dword goes back to the head of the queue that a port popped it from. -/
def unpop (s : State) (q : Nat) (v : Word) : State :=
  let g := s.g.toNat
  match portQ s q with
  | .unbound => s
  | .igq key => s.setIgq g key (v :: s.igq g key)
  | .cmd cp => s.modCore g fun c => { c with eng := { c.eng with portJobs := (if cp then 3 else 2, v.toNat) :: c.eng.portJobs } }

/-- What the instruction at hand has popped goes back to the queues: it has no effect (R54). -/
def unpopAll (s : State) : State :=
  s.c.iss.port.popped.foldr (fun e s => match e.2 with | some v => unpop s (e.1 - 0x78) v | none => s) s

/-- A trap at the running thread's instruction, with the code address at which RETT continues. -/
def trapTo (s : State) (t : Trap) (res : CodeAddr) : State :=
  let s := cancelSfu (unpopAll s) s.g s.k
  settle (s.modC fun c => { c with iss := { c.iss with entry := some ⟨t, c.pc, res⟩, port := {}, wait := none, stage := 0, src := none, pair := none, upon := none } })
    s.g s.k

/-- A trap at issue that resumes at the instruction itself (R419). -/
def trapAt (s : State) (t : Trap) : State := trapTo s t s.c.pc

/-! ### Issue and retirement -/

/-- How an instruction's own part ends: it completes in sequence or at a target, traps, blocks in a wait, is to
be evaluated again at a later turn, or has ended or replaced its context. -/
inductive Res where
  | ok (s : State)
  | goto (s : State) (pc : CodeAddr)
  | trap (t : Trap)
  | trapNext (t : Trap)
  | hold (s : State)
  | left (s : State)
  deriving Repr

/-- A context after its instruction has issued: the PC moves, every window is one instruction shorter (R92),
a yield gives up the turn after the issue (R52), and the progress of the instruction is cleared. -/
def Ctx.retired (c : Ctx) (ct : Ctl) (pc : CodeAddr) (seq : Bool) : Ctx :=
  { c with pc := pc, iss := { c.iss with
      outs := c.iss.outs.map fun o => { o with left := o.left - 1 }
      wait := none, skip := (ct.yld && !c.iss.yielded) || c.iss.skip, prev := some c.pc, seq := seq, port := {}, rep := {}, hold := none
      stage := 0, src := none, pair := none, yielded := false, upon := none, issued := c.iss.issued + 1 } }

/-- The instruction at hand completes, in sequence or at a target. -/
def retire (ct : Ctl) (target : Option CodeAddr) (s : State) : State :=
  (s.modC fun c => c.retired ct (target.getD (nextPc c.pc)) target.isNone).bump s.g.toNat 0x0002

/-- A wait in which the instruction has issued: all but the wait for a tile (R141). -/
def Wait.issued (w : Wait) : Bool :=
  match w.kind with
  | .tile _ => false
  | _ => true

/-- The instruction at the PC has issued before and goes on: its guard was read then (R48). -/
def Ctx.goesOn (c : Ctx) : Bool :=
  let i := c.iss
  i.wait.any Wait.issued || i.src.isSome || i.hold.isSome || i.stage != 0 || i.port.used || (i.rep.done != 0 && i.rep.pc == c.pc)

/-- An instruction with YLD that has issued and goes on at a later turn gives up the turn after its issue (R52). -/
def yieldOnce (ct : Ctl) (s : State) : State :=
  if ct.yld && s.c.goesOn && !s.c.iss.yielded then
    s.modC fun c => { c with iss := { c.iss with skip := true, yielded := true } }
  else s

/-- The state after an instruction's own part. -/
def finish (ct : Ctl) (s0 : State) : Res → State
  | .ok s => retire ct none s
  | .goto s pc => retire ct (some pc) s
  | .trap t => trapAt s0 t
  | .trapNext t => trapTo s0 t (nextPc s0.c.pc)
  | .hold s => yieldOnce ct s
  | .left s => s

/-! ### Waits -/

/-- A wait ends by timeout: WTMOUT of R246 counts it but for SLEEP, and what comes next does not come in this cc, since an
arrival in the cc of the evaluation would have been seen (R220). -/
def countTimeout (kind : WaitKind) (s : State) : State :=
  if kind = .sleep then s else ({ s with turnsFrom := s.cycle + 1 } : State).bump s.g.toNat 0x0055

/-- A wait whose condition does not hold (R219, R221): it blocks until an arrival or its deadline, and at the
deadline it ends as given. Its tag is the one that the present evaluation names. -/
def waitOr (kind : WaitKind) (tmo : Nat) (atEnd : State → Res) (s : State) : Res :=
  match s.c.iss.wait with
  | some w =>
    if w.deadline ≤ s.cycle then atEnd (countTimeout kind s)
    else .hold (s.modC fun c => { c with iss := { c.iss with wait := some { w with kind := kind, woken := false } } })
  | none =>
    if tmo = 0 then atEnd (countTimeout kind s)
    else .hold (({ s with nextId := s.nextId + 1 } : State).modC fun c =>
      { c with iss := { c.iss with wait := some ⟨kind, s.cycle, s.cycle + tmo, false, s.nextId⟩ } })

/-! ### Queue ports of an instruction -/

/-- A G field of an instruction as R47 sees it: field number and register. -/
inductive PortUse where
  | src (f : Nat) (r : GReg)
  | dst (f : Nat) (r : GReg)
  | rw (f : Nat) (r : GReg)
  deriving DecidableEq, Repr

/-- Field number of a use. -/
def PortUse.field : PortUse → Nat
  | .src f _ => f
  | .dst f _ => f
  | .rw f _ => f
/-- Register of a use. -/
def PortUse.reg : PortUse → GReg
  | .src _ r => r
  | .dst _ r => r
  | .rw _ r => r
/-- A source field. -/
def PortUse.isSrc : PortUse → Bool
  | .src _ _ => true
  | _ => false
/-- A field that is both read and written. -/
def PortUse.isRw : PortUse → Bool
  | .rw _ _ => true
  | _ => false

/-- The field that names a port which an earlier source field names (R47, check 8 of R54). DESIGN CHOICE (log entry 77): of
the two fields TVAL names the later. -/
def portTwice (l : List PortUse) : Option Nat :=
  match l with
  | [] => none
  | u :: r =>
    if u.isSrc then
      match r.find? (fun v => v.isSrc && v.reg == u.reg) with
      | some v => some v.field
      | none => portTwice r
    else portTwice r

/-- The pops still to be made, in field order: each pops, waits, or times out (R47, R218). -/
def popPorts (tmo : Nat) (s : State) : List PortUse → Res
  | [] => .ok s
  | u :: us =>
    if !u.isSrc || (tget none s.c.iss.port.popped u.reg.toNat).isSome then popPorts tmo s us else
    let q := u.reg.toNat - 0x78
    let put (s : State) (v : Word) (bad : Bool) : State := s.modC fun c => { c with iss := { c.iss with
      wait := none
      port := { c.iss.port with popped := tset none c.iss.port.popped u.reg.toNat (some v), failed := c.iss.port.failed || bad } } }
    match popQ s q with
    | some (v, s') => popPorts tmo (put s' v false) us
    | none =>
      match waitOr (.pop (portQ s q).tag) tmo (fun s => .ok (put s 0 true)) s with
      | .ok s' => popPorts tmo s' us
      | r => r

/-- The instruction at hand is withdrawn with the pushes that it has left, where the first one meets a trap after issue
(R94, R262); its own part is done, and its operation from there on is its pushes. -/
def latePush (ct : Ctl) (t : Trap) (s : State) : State :=
  ({ s with nextId := s.nextId + 1 } : State).modC fun c => { c with iss := { c.iss with outs :=
    c.iss.outs ++ [{ id := s.nextId, i := .nop ct, src := {}, pc := c.pc, left := 1, trap := some t
                     port := { c.iss.port with popped := [], pushing := true } }] } }

/-- The pushes still to be made (R47, R262). -/
def pushPorts (ct : Ctl) (tmo : Nat) (s : State) : List (Nat × Word) → Res
  | [] => .ok s
  | (q, v) :: ps =>
    let rest (s : State) (bad : Bool) : State := s.modC fun c => { c with iss := { c.iss with
      wait := none, port := { c.iss.port with pushes := ps, failed := c.iss.port.failed || bad } } }
    match pushQ s q v with
    | .done s' => pushPorts ct tmo (rest s' false) ps
    | .trap t late => if late then .left (latePush ct t s) else .trap t
    | .full =>
      match waitOr (.push (portQ s q).tag) tmo (fun s => .ok (rest s true)) s with
      | .ok s' => pushPorts ct tmo s' ps
      | r => r

/-- An instruction that names a queue port (R47): checks, pops, its own part, pushes, p7. -/
def issuePorts (ct : Ctl) (ports : List PortUse) (body : State → Res) (s0 : State) : State :=
  match ports.find? (fun u => u.isRw || portQ s0 (u.reg.toNat - 0x78) == .unbound) with
  | some u => trapAt s0 (illopnd u.field)
  | none =>
    let tmo := s0.b.qpto.toNat
    let p7 (s : State) : State := wrP s 7 (!s.c.iss.port.failed)
    let push (s : State) (pc : Option CodeAddr) : State :=
      match pushPorts ct tmo s s.c.iss.port.pushes with
      | .ok s' => retire ct pc (if s'.c.iss.outs.any (fun o => decide (s0.nextId ≤ o.id) && o.port.used) then s' else p7 s')
      | .trap t => trapAt s0 t
      | .hold s' => yieldOnce ct s'
      | .left s' => settle (retire ct pc (cancelSfu s' s'.g s'.k)) s'.g s'.k
      | _ => s
    if s0.c.iss.port.pushing then push s0 none else
    match popPorts tmo (s0.modC fun c => { c with iss := { c.iss with port := { c.iss.port with used := true } } }) ports with
    | .ok s1 =>
      match body s1 with
      | .ok s2 =>
        push (s2.modC fun c => { c with iss := { c.iss with wait := none, port := { c.iss.port with pushing := true } } }) none
      | .goto s2 pc => push s2 (some pc)
      | .trap t => trapAt s1 t
      | .trapNext t => trapTo s1 t (nextPc s1.c.pc)
      | .hold s2 => yieldOnce ct s2
      | .left s2 => s2
    | .hold s1 => yieldOnce ct s1
    | _ => s0

/-- The issue of an instruction of a compute core (R47, R49, R54): checks 8 to 10, then its own part. `unit`
holds the UNIMPL trap of an absent unit, or the trap of a privileged instruction in user mode, which comes before the
entry's other conditions (R417). -/
def issue (ct : Ctl) (uses : List PortUse) (unit : Option Trap) (body : State → Res) (s : State) : Out' :=
  match s.who with
  | .slot g k =>
    match s.ctx g k with
    | none => .fault .noContext
    | some _ =>
      let ports := uses.filter fun u => isPort s u.reg
      match portTwice ports with
      | some f => .next (trapAt s (illopnd f))
      | none =>
        if !guardOf ct s && !s.c.goesOn then .next (retire ct none s)
        else
          match unit with
          | some t => .next (trapAt s t)
          | none => if ports = [] then .next (finish ct s (body s)) else .next (issuePorts ct ports body s)
  | _ => .fault .wrongAgent

/-! ### Outstanding instructions -/

/-- How the performance of an outstanding instruction ends: it is performed, it meets a trap (R94), it is to be
performed by a later event, or a part of it is performed and its sources say what is left. -/
inductive Perf where
  | done (s : State)
  | trap (t : Trap)
  | wait (s : State)
  | part (s : State) (src : Src)
  deriving Repr

/-- The running thread's instruction becomes outstanding (R92). -/
def addOut (i : Instr) (src : Src) (la : Nat) (trap : Option Trap) (s : State) : State :=
  ({ s with nextId := s.nextId + 1 } : State).modC fun c => { c with iss := { c.iss with
    outs := c.iss.outs ++ [{ id := s.nextId, i := i, src := { src with parts := true, bs := if trap.isSome then none else src.bs }
                             pc := c.pc, left := la + 1, trap := trap, port := { c.iss.port with pushes := [] }
                             upon := c.iss.upon }] } }

/-- Pieces that lie in the running core's own scratchpad or data memories: an access to them alone completes in
the issue turn (R115, R207). -/
def ownSpad (s : State) (ps : List Piece) : Bool :=
  ps != [] && ps.all fun p => match placeOf s.part p.pa with
    | .spad h => h == s.g.toNat
    | .smem h _ => h == s.g.toNat
    | _ => false

/-- A piece lies in another core's scratchpad or data memory (R115, R192). -/
def isRemote (s : State) (p : Piece) : Bool :=
  match placeOf s.part p.pa with
  | .spad h => h != s.g.toNat
  | .smem h _ => h != s.g.toNat
  | _ => false

/-- The accesses of a thread that FENCE orders (R170, R199, R234, R237, R243, R244). -/
def isExempt : Instr → Bool
  | .ldnow .. | .stnow .. | .stc .. | .amo .. | .amoi .. | .cas .. | .casq .. | .red .. | .redv .. | .acinit ..
  | .acread .. | .acchain .. | .acflush .. | .acckpt .. | .acrstr .. | .ldf .. | .ldfe .. | .stf .. | .stef ..
  | .sete .. | .binit .. | .barr .. | .qwave .. | .qreset .. | .llrcl .. => true
  | _ => false

/-- Whether an instruction with these sources is a phase-exempt access. -/
def exemptOp (s : State) (i : Instr) (src : Src) : Bool := isExempt i || (src.ps ++ src.qs).any (isRemote s)

/-- A reduction, whose updates of a line keep the thread's order (R168). -/
def isRed : Instr → Bool
  | .red .. | .redv .. => true
  | _ => false

/-- Two ranges of bytes meet. -/
def vaMeets (a n b m : Nat) : Bool := a < b + m && b < a + n

/-- Two lists of pieces share a byte. -/
def piecesMeet (a b : List Piece) : Bool := a.any fun p => b.any fun q => vaMeets p.pa p.n q.pa q.n

/-- A piece lies in one core's scratchpad or data memories: that core. -/
def spadOf (s : State) (p : Piece) : Option Nat :=
  match placeOf s.part p.pa with
  | .spad h => some h
  | .smem h _ => some h
  | _ => none

/-- Whether outstanding instruction a of a thread has to be performed before an instruction that the thread issued later
(R115, R168, R170): both are phase-exempt and overlap, both are reductions of one line, or both are remote accesses to
one core's scratchpad. -/
def goesFirst (s : State) (a : Out) (i : Instr) (src : Src) : Bool :=
  let ps := a.src.ps ++ a.src.qs
  let qs := src.ps ++ src.qs
  a.trap.isNone && !a.port.pushing &&
  ((exemptOp s a.i a.src && exemptOp s i src && piecesMeet ps qs) ||
    (isRed a.i && isRed i && ps.any fun p => qs.any fun q => lineOf p.pa == lineOf q.pa) ||
    (ps.any fun p => isRemote s p && qs.any fun q => spadOf s q == spadOf s p))

/-- Nothing that the running thread has outstanding has to be performed before an instruction that it issues now. -/
def inOrder (s : State) (i : Instr) (src : Src) : Bool := !(s.c.iss.outs.any fun o => goesFirst s o i src)

/-- A long-latency instruction that has made its checks (R92): with LA = 0, or on the own scratchpad, it is
performed in this turn where nothing else has to come first, else it becomes outstanding. A trap that it meets
after issue stops the thread's later instructions (R94). -/
def startLong (ct : Ctl) (i : Instr) (perf : Src → State → Perf) (src : Src) (s : State) : Res :=
  if (ct.la = 0 || ownSpad s (src.ps ++ src.qs)) && inOrder s i src then
    match perf src s with
    | .done s' => .ok s'
    | .trap t => .ok (cancelSfu (addOut i src ct.la.toNat (some t) s) s.g s.k)
    | .wait s' => .ok (addOut i src ct.la.toNat none s')
    | .part s' src' => .ok (addOut i src' ct.la.toNat none s')
  else .ok (addOut i src ct.la.toNat none s)

/-- The own part of a long-latency instruction: its checks, then its start. -/
def longBody (ct : Ctl) (i : Instr) (perf : Src → State → Perf) (prep : State → Except Trap (Src × State))
    (s : State) : Res :=
  match prep s with
  | .error t => .trap t
  | .ok (src, s') => startLong ct i perf src s'

/-- A trap that a performance in the issue turn met is delivered when the thread has nothing else outstanding. -/
def settled : Out' → Out'
  | .next s => if s.c.iss.outs.any (fun o => o.trap.isSome) then .next (settle s s.g s.k) else .next s
  | r => r

/-- A trap that the home detects in the issue turn of an instruction that is not long-latency (R94, R232): the
instruction counts as issued and is withdrawn with its sources. -/
def lateTrap (ct : Ctl) (i : Instr) (src : Src) (t : Trap) (s : State) : Res :=
  .left (settle (retire ct none (cancelSfu (addOut i src 0 (some t) s) s.g s.k)) s.g s.k)

/-- An instruction that acts at a home in its issue turn, or waits there for its order or for room. -/
def homeNow (ct : Ctl) (i : Instr) (perf : Src → State → Perf) (src : Src) (s : State) : Res :=
  if !inOrder s i src then .hold s else
  match perf src s with
  | .done s' => .ok s'
  | .trap t => lateTrap ct i src t s
  | .wait s' => .hold s'
  | .part s' _ => .hold s'

/-- The issue of a long-latency instruction. -/
def issueLong (ct : Ctl) (i : Instr) (uses : List PortUse) (unit : Option Trap) (perf : Src → State → Perf)
    (prep : State → Except Trap (Src × State)) (s : State) : Out' :=
  settled (issue ct uses unit (longBody ct i perf prep) s)

/-- The slot into which a context was admitted (R223). -/
def Ctx.seat (c : Ctx) : Slot := c.tid.setWidth 4

/-- Every outstanding instruction of the module with its slot, for a parked context the slot that admitted it. -/
def allOuts (s : State) : List (GCore × Slot × Out) :=
  (s.ctxs.flatMap fun e => match e.2 with
    | some c => c.iss.outs.map fun o => (BitVec.ofNat 12 (e.1 / 16), BitVec.ofNat 4 (e.1 % 16), o)
    | none => []) ++
  s.cores.flatMap fun e => e.2.parked.flatMap fun p => p.ctx.iss.outs.map fun o => (BitVec.ofNat 12 e.1, p.ctx.seat, o)

/-- Outstanding instruction j of a slot, or of a parked context, while it has met no trap. -/
def State.outOf (s : State) (g : GCore) (k : Slot) (j : Nat) : Option Out :=
  let live (o : Out) : Bool := o.id == j && o.trap.isNone
  ((s.ctx g k).bind fun c => c.iss.outs.find? live).or
    ((s.core g.toNat).parked.findSome? fun p => p.ctx.iss.outs.find? live)

/-- The outstanding instructions of the thread that has instruction j outstanding, in a slot or parked. -/
def State.outsBy (s : State) (g : GCore) (k : Slot) (j : Nat) : List Out :=
  let has (c : Ctx) : Bool := c.iss.outs.any fun o => o.id == j
  (((s.ctx g k).filter has).or (((s.core g.toNat).parked.find? fun p => has p.ctx).map (·.ctx))).elim [] fun c => c.iss.outs

/-- f for outstanding instruction `id` of a slot: where a parked context has it, which parking withdraws nothing from
(R202), that context stands in the slot meanwhile. -/
def seated (s : State) (g : GCore) (k : Slot) (id : Nat) (f : State → State) : State :=
  match findIdx? (fun (p : Parked) => p.ctx.iss.outs.any fun o => o.id == id) (s.core g.toNat).parked with
  | none => f s
  | some (i, p) =>
    let held := s.ctx g k
    let t := f ((s.modCore g.toNat fun c => { c with parked := dropAt c.parked i }).setCtx g k (some p.ctx))
    let p' : Parked := { p with ctx := (t.ctx g k).getD p.ctx }
    (t.modCore g.toNat fun c => { c with parked := c.parked.take i ++ p' :: c.parked.drop i }).setCtx g k held

/-- The state with `who` set to a slot for f, and restored. -/
def asSlot (s : State) (g : GCore) (k : Slot) (f : State → State) : State :=
  { f { s with who := .slot g k } with who := s.who }

/-- Outstanding instruction `id` of a slot has completed. -/
def dropOut (s : State) (g : GCore) (k : Slot) (id : Nat) : State :=
  s.modCtx g k fun c => { c with iss := { c.iss with outs := c.iss.outs.filter fun o => o.id != id } }

/-- Outstanding instruction `id` of a slot has met a trap (R94). -/
def deferTrap (s : State) (g : GCore) (k : Slot) (id : Nat) (t : Trap) : State :=
  seated s g k id fun s => cancelSfu (s.modCtx g k fun c =>
    let w (o : Out) : Out := if o.id = id then { o with trap := some t, src := { o.src with bs := none } } else o
    { c with iss := { c.iss with outs := c.iss.outs.map w } }) g k

/-- The pushes of an outstanding instruction, as far as they go: the state, whether one failed, those left,
and the trap of one. A push whose time is over fails, as WTMOUT counts (R218, R246). -/
def endPushes (late : Bool) (s : State) (bad : Bool) : List (Nat × Word) → State × Bool × List (Nat × Word) × Option Trap
  | [] => (s, bad, [], none)
  | (q, v) :: ps =>
    match pushQ s q v with
    | .done s' => endPushes late s' bad ps
    | .trap t _ => (s, bad, (q, v) :: ps, some t)
    | .full => if late then endPushes late (s.bump s.g.toNat 0x0055) true ps else (s, bad, (q, v) :: ps, none)

/-- The wait of an outstanding instruction at an object (R218, R221): the one that it has begun, waiting again, or a new
one with its deadline. -/
def outWait (s : State) (old : Option Wait) (kind : WaitKind) (tmo : Nat) : Wait :=
  match old with
  | some w => { w with kind := kind, woken := false }
  | none => ⟨kind, s.cycle, s.cycle + tmo, false, s.nextId⟩

/-- The running thread's outstanding instruction o ends its performance with its pushes and p7 (R47): at a full queue
the context waits up to QPTO cc (R218). -/
def endOut (s : State) (o : Out) : State :=
  let g := s.g
  let k := s.k
  let pushes := if o.port.pushing then o.port.pushes else s.c.iss.port.pushes
  let begun := o.port.pushing && o.wait.isSome
  let late := if begun then o.wait.any (fun w => decide (w.deadline ≤ s.cycle)) else s.b.qpto = 0
  match endPushes late s o.port.failed pushes with
  | (s, bad, [], _) => dropOut (if o.port.used then wrP s 7 (!bad) else s) g k o.id
  | (s, bad, ps, t) =>
    let wait := ps.head?.map fun p => outWait s (if begun then o.wait else none) (.push (portQ s p.1).tag) s.b.qpto.toNat
    let w (x : Out) : Out :=
      if x.id = o.id then { x with wait := wait, port := { o.port with pushing := true, pushes := ps, failed := bad } } else x
    let s := ({ s with nextId := s.nextId + 1 } : State).modCtx g k fun c => { c with iss := { c.iss with outs := c.iss.outs.map w } }
    match t with
    | some t => deferTrap s g k o.id t
    | none => s

/-- The performance of outstanding instruction o of a slot by perf, with the thread's port state set aside. -/
def runOut (s : State) (g : GCore) (k : Slot) (o : Out) (perf : State → Perf) : State :=
  seated s g k o.id fun s => asSlot s g k fun s =>
    let keep := s.c.iss
    let restore (s : State) : State := s.modCtx g k fun c => { c with iss := { c.iss with
      port := keep.port, pair := keep.pair, upon := keep.upon, shadow := keep.shadow, wait := keep.wait } }
    let s1 := s.modCtx g k fun c => { c with iss := { c.iss with
      port := { o.port with pushes := [] }, pair := none, upon := o.upon, shadow := o.shadow, wait := o.wait } }
    if o.port.pushing then restore (endOut s1 o)
    else
      match perf s1 with
      | .done s2 => restore (endOut s2 o)
      | .trap t => deferTrap (restore s1) g k o.id t
      | .wait s2 => restore s2
      | .part s2 src =>
        let w (x : Out) : Out := if x.id = o.id then { x with src := src } else x
        restore (s2.modCtx g k fun c => { c with iss := { c.iss with outs := c.iss.outs.map w } })

/-! ### Releases -/

/-- Instructions whose effect is an access of the thread to memory (R169). -/
def isAccess : Instr → Bool
  | .ld .. | .st .. | .ldq .. | .stq .. | .ldv .. | .stv .. | .ldvx .. | .stvx .. | .ldf .. | .ldfe .. | .stf .. | .stef ..
  | .sete .. | .wbl .. | .zline .. | .ldnow .. | .stnow .. | .amo .. | .amoi .. | .cas .. | .casq .. | .red .. | .redv ..
  | .acinit .. | .acread .. | .acchain .. | .acflush .. | .acckpt .. | .acrstr .. | .binit .. | .barr .. | .stc .. | .bread ..
  | .rpub .. | .rload .. | .rnew .. | .rcat .. | .rsplit .. | .rsplice .. | .rref .. | .rdrop .. | .rdesc .. | .llrcl ..
  | .ctxsave .. | .mtags .. | .qreset .. | .qwave .. | .call .. | .callr .. | .ret .. | .scfg .. | .treedef .. | .launch ..
  | .jinit .. | .fork .. | .resume .. | .waitfe .. => true
  | _ => false

/-- A special-function instruction. -/
def isSfu : Instr → Bool
  | .vexp .. | .vexp2 .. | .vlog2 .. | .vrcp .. | .vrsq .. | .vsqrt .. | .vsin .. | .vcos .. | .vtanh .. => true
  | _ => false

/-- Whether the running thread has an access that is not performed yet; a special-function result that goes to
a write stream is one (R303). -/
def accessesOut (s : State) : Bool := s.c.iss.outs.any fun o => isAccess o.i || (isSfu o.i && o.src.job != 0)

/-- The pushed stores of the running thread's write streams are performed (R303). -/
def flushStreams (s : State) : State :=
  s.c.streams.foldl (fun s e =>
    let s := e.2.pushed.foldl (fun s p => storeNow s s.g.toNat s.t 0 p.1 p.2) s
    if e.2.pushed = [] then s
    else s.modC fun c => { c with streams := tput c.streams e.1 { e.2 with pushed := [] } }) s

/-- Release(sc) of the running thread, then k (R169): it waits for the thread's accesses, makes one publication
of the core's unpublished stores, waits for lees space where there is none (R175), and goes on. -/
def release (sc : Scope) (k : State → Res) (s : State) : Res :=
  if s.c.iss.stage ≠ 0 then k s
  else if accessesOut s then .hold s
  else
    match s.c.iss.hold with
    | some id =>
      if s.coh.waiting.any (fun p => p.id == id) then .hold s
      else k (s.modC fun c => { c with iss := { c.iss with stage := 1, hold := none } })
    | none =>
      let s := flushStreams s
      let ws := pubCells s s.g.toNat sc
      if leesRoom s ws && !s.coh.waiting.any (fun p => p.g == s.g) then k ((publish s s.g sc ws).modC fun c => { c with iss := { c.iss with stage := 1 } })
      else
        let id := s.nextId
        .hold ((pubWait s s.g sc ws).modC fun c => { c with iss := { c.iss with hold := some id } })

/-- An instruction that may release before its access is performed (R169): its checks and sources at issue, the
release, which holds the thread, then k with those sources. -/
def releaseBody (rel : Src → Option Scope) (prep : State → Except Trap Src) (k : Src → State → Res) (s : State) : Res :=
  let go (src : Src) (s : State) : Res :=
    match rel src with
    | none => k src s
    | some sc =>
      match release sc (k src) s with
      | .hold s' => .hold (s'.modC fun c => { c with iss := { c.iss with src := some src } })
      | r => r
  match s.c.iss.src with
  | some src => go src s
  | none =>
    match prep s with
    | .error t => .trap t
    | .ok src => go src s

end Sys2Proof.Machine
end

