-- ==== Sys2Proof/Machine/Arith.lean ====
section
/-! DEFINITION. Integer arithmetic, logic, shifts, counts, bit fields, moves, constants, address arithmetic,
compares and predicate logic (R99–R104). -/

namespace Sys2Proof.Machine

/-! ### Shared forms -/

/-- g[A] := f g[B] g[C]. -/
def alu3 (ct : Ctl) (a b c : GReg) (f : Word → Word → Word) (s : State) : Out' :=
  issue ct [.dst 0 a, .src 1 b, .src 2 c] none (fun s => .ok (wrG s a (f (rdG s b) (rdG s c)))) s

/-- g[A] := f g[B]. -/
def alu2 (ct : Ctl) (a b : GReg) (f : Word → Word) (s : State) : Out' :=
  issue ct [.dst 0 a, .src 1 b] none (fun s => .ok (wrG s a (f (rdG s b)))) s

/-- g[A] := f g[B] n for a shift amount n (R100). -/
def aluShift (ct : Ctl) (a b : GReg) (n : ShiftAmt) (f : Word → Nat → Word) (s : State) : Out' :=
  let uses : List PortUse := match n with
    | .reg c => [.dst 0 a, .src 1 b, .src 2 c]
    | .imm _ => [.dst 0 a, .src 1 b]
  issue ct uses none (fun s => .ok (wrG s a (f (rdG s b) (shiftVal s n)))) s

/-- p[A] := f p[B] p[C] (R104). -/
def pred3 (ct : Ctl) (a b c : PReg) (f : Bool → Bool → Bool) (s : State) : Out' :=
  issue ct [] none (fun s => .ok (wrP s a (f (rdP s b) (rdP s c)))) s

/-! ### Functions of R99–R101 -/

/-- The high 64 bits of the signed product (R99). -/
def mulHigh (a b : Word) : Word := (a.signExtend 128 * b.signExtend 128).extractLsb' 64 64
/-- The high 64 bits of the unsigned product (R99). -/
def mulHighN (a b : Word) : Word := (a.setWidth 128 * b.setWidth 128).extractLsb' 64 64
/-- The most negative dword. -/
def minWord : Word := 0x8000000000000000
/-- DIV of R99. -/
def divS (a b : Word) : Word :=
  if b = 0 then BitVec.allOnes 64
  else if a = minWord && b == BitVec.allOnes 64 then a
  else a.sdiv b
/-- REM of R99. -/
def remS (a b : Word) : Word :=
  if b = 0 then a
  else if a = minWord && b == BitVec.allOnes 64 then 0
  else a - b * divS a b
/-- DIVN of R99. -/
def divN (a b : Word) : Word := if b = 0 then BitVec.allOnes 64 else a / b
/-- REMN of R99. -/
def remN (a b : Word) : Word := if b = 0 then a else a % b
/-- MIN of R99. -/
def minS (a b : Word) : Word := if a.slt b then a else b
/-- MAX of R99. -/
def maxS (a b : Word) : Word := if a.slt b then b else a
/-- MINN of R99. -/
def minN (a b : Word) : Word := if a < b then a else b
/-- MAXN of R99. -/
def maxN (a b : Word) : Word := if a < b then b else a

/-- ROL of R100. -/
def rotl (a : Word) (n : Nat) : Word := if n = 0 then a else (a <<< n) ||| (a >>> (64 - n))
/-- The leading zero bits of the low n bits. -/
def leading (a : Word) (n : Nat) : Nat :=
  match n with
  | 0 => 0
  | n + 1 => if a.getLsbD n then 0 else leading a n + 1
/-- The trailing zero bits from bit 64 - n up. -/
def trailing (a : Word) (n : Nat) : Nat :=
  match n with
  | 0 => 0
  | n + 1 => if a.getLsbD (63 - n) then 0 else trailing a n + 1
/-- The one bits among the low n bits. -/
def ones (a : Word) (n : Nat) : Nat :=
  match n with
  | 0 => 0
  | n + 1 => (if a.getLsbD n then 1 else 0) + ones a n

/-- The width of a bit field, clipped at bit 63 (R101). -/
def clipWidth (pos : BitVec 6) (wr : BitVec 7) : Nat := min wr.toNat (64 - pos.toNat)
/-- BFX.Z of R101. -/
def bfxz (x : Word) (pos : BitVec 6) (wr : BitVec 7) : Word :=
  let w := clipWidth pos wr
  if w = 0 then 0 else (x.extractLsb' pos.toNat w).setWidth 64
/-- BFX.S of R101. -/
def bfxs (x : Word) (pos : BitVec 6) (wr : BitVec 7) : Word :=
  let w := clipWidth pos wr
  if w = 0 then 0 else (x.extractLsb' pos.toNat w).signExtend 64
/-- BFI of R101. -/
def insertField (t x : Word) (pos : BitVec 6) (wr : BitVec 7) : Word :=
  let w := clipWidth pos wr
  if w = 0 then t else
  let m : Word := (BitVec.allOnes 64 >>> (64 - w)) <<< pos.toNat
  (t &&& ~~~m) ||| ((x <<< pos.toNat) &&& m)

/-- The width of an integer type (R58). -/
def itypeBits : IType → Nat
  | .i8 | .n8 => 8
  | .i16 | .n16 => 16
  | .i32 | .n32 => 32
  | .i64 | .n64 => 64
/-- A signed integer type (R104). -/
def itypeSigned : IType → Bool
  | .i8 | .i16 | .i32 | .i64 => true
  | _ => false
/-- A condition on two integers. -/
def condHolds (c : Cond) (x y : Int) : Bool :=
  match c with
  | .eq => x == y
  | .ne => x != y
  | .lt => x < y
  | .le => x ≤ y
  | .gt => y < x
  | .ge => y ≤ x
/-- The comparison of R104. -/
def compareAs (c : Cond) (t : IType) (x y : Word) : Bool :=
  let v (z : Word) : Int := if itypeSigned t then (z.setWidth (itypeBits t)).toInt else (z.setWidth (itypeBits t)).toNat
  condHolds c (v x) (v y)

/-! ### Meanings -/

/-- NOP (R109). -/
def execNop (ct : Ctl) (s : State) : Out' := issue ct [] none .ok s
/-- ADD (R99). -/
def execAdd (ct : Ctl) (a b c : GReg) (s : State) : Out' := alu3 ct a b c (· + ·) s
/-- SUB (R99). -/
def execSub (ct : Ctl) (a b c : GReg) (s : State) : Out' := alu3 ct a b c (· - ·) s
/-- ADDI (R99). -/
def execAddi (ct : Ctl) (a b : GReg) (imm : BitVec 42) (s : State) : Out' := alu2 ct a b (· + imm.signExtend 64) s
/-- MUL (R99). -/
def execMul (ct : Ctl) (a b c : GReg) (s : State) : Out' := alu3 ct a b c (· * ·) s
/-- MULH (R99). -/
def execMulh (ct : Ctl) (a b c : GReg) (s : State) : Out' := alu3 ct a b c mulHigh s
/-- MULHN (R99). -/
def execMulhn (ct : Ctl) (a b c : GReg) (s : State) : Out' := alu3 ct a b c mulHighN s
/-- DIV (R99). -/
def execDiv (ct : Ctl) (a b c : GReg) (s : State) : Out' := alu3 ct a b c divS s
/-- DIVN (R99). -/
def execDivn (ct : Ctl) (a b c : GReg) (s : State) : Out' := alu3 ct a b c divN s
/-- REM (R99). -/
def execRem (ct : Ctl) (a b c : GReg) (s : State) : Out' := alu3 ct a b c remS s
/-- REMN (R99). -/
def execRemn (ct : Ctl) (a b c : GReg) (s : State) : Out' := alu3 ct a b c remN s
/-- AND (R99). -/
def execAnd (ct : Ctl) (a b c : GReg) (s : State) : Out' := alu3 ct a b c (· &&& ·) s
/-- OR (R99). -/
def execOr (ct : Ctl) (a b c : GReg) (s : State) : Out' := alu3 ct a b c (· ||| ·) s
/-- XOR (R99). -/
def execXor (ct : Ctl) (a b c : GReg) (s : State) : Out' := alu3 ct a b c (· ^^^ ·) s
/-- ANDN (R99). -/
def execAndn (ct : Ctl) (a b c : GReg) (s : State) : Out' := alu3 ct a b c (fun x y => x &&& ~~~y) s
/-- ANDI (R99). -/
def execAndi (ct : Ctl) (a b : GReg) (imm : BitVec 42) (s : State) : Out' := alu2 ct a b (· &&& imm.signExtend 64) s
/-- ORI (R99). -/
def execOri (ct : Ctl) (a b : GReg) (imm : BitVec 42) (s : State) : Out' := alu2 ct a b (· ||| imm.signExtend 64) s
/-- XORI (R99). -/
def execXori (ct : Ctl) (a b : GReg) (imm : BitVec 42) (s : State) : Out' := alu2 ct a b (· ^^^ imm.signExtend 64) s
/-- SHL (R100). -/
def execShl (ct : Ctl) (a b : GReg) (n : ShiftAmt) (s : State) : Out' := aluShift ct a b n (· <<< ·) s
/-- SHR (R100). -/
def execShr (ct : Ctl) (a b : GReg) (n : ShiftAmt) (s : State) : Out' := aluShift ct a b n (· >>> ·) s
/-- SRA (R100). -/
def execSra (ct : Ctl) (a b : GReg) (n : ShiftAmt) (s : State) : Out' := aluShift ct a b n (fun x k => x.sshiftRight k) s
/-- ROL (R100). -/
def execRol (ct : Ctl) (a b : GReg) (n : ShiftAmt) (s : State) : Out' := aluShift ct a b n rotl s
/-- CLZ (R100). -/
def execClz (ct : Ctl) (a b : GReg) (s : State) : Out' := alu2 ct a b (fun x => BitVec.ofNat 64 (leading x 64)) s
/-- CTZ (R100). -/
def execCtz (ct : Ctl) (a b : GReg) (s : State) : Out' := alu2 ct a b (fun x => BitVec.ofNat 64 (trailing x 64)) s
/-- POPC (R100). -/
def execPopc (ct : Ctl) (a b : GReg) (s : State) : Out' := alu2 ct a b (fun x => BitVec.ofNat 64 (ones x 64)) s
/-- MIN (R99). -/
def execMin (ct : Ctl) (a b c : GReg) (s : State) : Out' := alu3 ct a b c minS s
/-- MAX (R99). -/
def execMax (ct : Ctl) (a b c : GReg) (s : State) : Out' := alu3 ct a b c maxS s
/-- MINN (R99). -/
def execMinn (ct : Ctl) (a b c : GReg) (s : State) : Out' := alu3 ct a b c minN s
/-- MAXN (R99). -/
def execMaxn (ct : Ctl) (a b c : GReg) (s : State) : Out' := alu3 ct a b c maxN s
/-- SEXT.B (R100). -/
def execSextB (ct : Ctl) (a b : GReg) (s : State) : Out' := alu2 ct a b (sext 8) s
/-- SEXT.H (R100). -/
def execSextH (ct : Ctl) (a b : GReg) (s : State) : Out' := alu2 ct a b (sext 16) s
/-- SEXT.W (R100). -/
def execSextW (ct : Ctl) (a b : GReg) (s : State) : Out' := alu2 ct a b (sext 32) s
/-- BFX.Z (R101). -/
def execBfxZ (ct : Ctl) (a b : GReg) (pos : BitVec 6) (wr : BitVec 7) (s : State) : Out' :=
  alu2 ct a b (bfxz · pos wr) s
/-- BFX.S (R101). -/
def execBfxS (ct : Ctl) (a b : GReg) (pos : BitVec 6) (wr : BitVec 7) (s : State) : Out' :=
  alu2 ct a b (bfxs · pos wr) s
/-- BFI (R101). -/
def execBfi (ct : Ctl) (a b c : GReg) (pos : BitVec 6) (wr : BitVec 7) (s : State) : Out' :=
  alu3 ct a b c (insertField · · pos wr) s
/-- SEL (R102). -/
def execSel (ct : Ctl) (a b c : GReg) (p : PReg) (s : State) : Out' :=
  issue ct [.dst 0 a, .src 1 b, .src 2 c] none (fun s => .ok (wrG s a (if rdP s p then rdG s b else rdG s c))) s
/-- MOV (R102). -/
def execMov (ct : Ctl) (a b : GReg) (s : State) : Out' := alu2 ct a b id s
/-- MOVI (R102). -/
def execMovi (ct : Ctl) (a : GReg) (imm : BitVec 56) (s : State) : Out' :=
  issue ct [.dst 0 a] none (fun s => .ok (wrG s a (imm.signExtend 64))) s
/-- MOVHI (R102): A is read and written. -/
def execMovhi (ct : Ctl) (a : GReg) (imm : BitVec 8) (s : State) : Out' :=
  issue ct [.rw 0 a] none (fun s => .ok (wrG s a (imm ++ (rdG s a).extractLsb' 0 56))) s
/-- LEA (R103). -/
def execLea (ct : Ctl) (a b : GReg) (m : AddrOp) (s : State) : Out' :=
  issue ct [.dst 0 a, .src 1 b, .src 2 m.index] none (fun s => .ok (wrG s a (addrSum s (rdG s b) m))) s
/-- CMP (R104). -/
def execCmp (ct : Ctl) (c : Cond) (t : IType) (p : PReg) (a b : GReg) (s : State) : Out' :=
  issue ct [.src 1 a, .src 2 b] none (fun s => .ok (wrP s p (compareAs c t (rdG s a) (rdG s b)))) s
/-- CMPI (R104). -/
def execCmpi (ct : Ctl) (c : Cond) (t : IType) (p : PReg) (a : GReg) (imm : BitVec 42) (s : State) : Out' :=
  issue ct [.src 1 a] none (fun s => .ok (wrP s p (compareAs c t (rdG s a) (imm.signExtend 64)))) s
/-- PAND (R104). -/
def execPand (ct : Ctl) (a b c : PReg) (s : State) : Out' := pred3 ct a b c (· && ·) s
/-- POR (R104). -/
def execPor (ct : Ctl) (a b c : PReg) (s : State) : Out' := pred3 ct a b c (· || ·) s
/-- PXOR (R104). -/
def execPxor (ct : Ctl) (a b c : PReg) (s : State) : Out' := pred3 ct a b c (· != ·) s
/-- PNOT (R104). -/
def execPnot (ct : Ctl) (a b : PReg) (s : State) : Out' :=
  issue ct [] none (fun s => .ok (wrP s a (!rdP s b))) s

end Sys2Proof.Machine
end

