-- ==== Sys2Proof/Machine/Turn.lean ====
section
/-! DEFINITION. The issue turn (R90, R95): fetch with its checks (R32–R38, R54), pairing (R41, R42), lending
(R95), and what a turn does. -/

namespace Sys2Proof.Machine

/-! ### Fetch lines -/

/-- The sixteen parity bits that a 96-bit slot contributes before its rotation (R34). -/
def foldWord (w : BitVec 96) : BitVec 16 :=
  w.extractLsb' 0 16 ^^^ w.extractLsb' 16 16 ^^^ w.extractLsb' 32 16 ^^^ w.extractLsb' 48 16 ^^^
    w.extractLsb' 64 16 ^^^ w.extractLsb' 80 16

/-- Slot k of a fetch line (R32). -/
def slotWord (bs : List Byte) (k : Nat) : BitVec 96 := BitVec.ofNat 96 (ofBytes ((bs.drop (12 * k)).take 12))
/-- The line word (R33). -/
def lineWord (bs : List Byte) : BitVec 32 := BitVec.ofNat 32 (ofBytes ((bs.drop 60).take 4))

/-- The parity that PAR must hold, for five slots and the low half of the line word (R34). -/
def lineParity (slots : List (BitVec 96)) (low : BitVec 16) : BitVec 16 :=
  low ^^^ (foldWord (slots.getD 0 0)) ^^^ (foldWord (slots.getD 1 0)).rotateLeft 3 ^^^
    (foldWord (slots.getD 2 0)).rotateLeft 6 ^^^ (foldWord (slots.getD 3 0)).rotateLeft 9 ^^^
    (foldWord (slots.getD 4 0)).rotateLeft 12

/-- The five slots of a line. -/
def slotsOf (bs : List Byte) : List (BitVec 96) := (upTo 5).map (slotWord bs)

/-- Line integrity (R35): the ILLOP reason, or none. A line that arrived lost is held as one byte. -/
def lineBad (bs : List Byte) : Option (BitVec 8) :=
  let lw := lineWord bs
  if bs.length ≠ 64 || lineParity (slotsOf bs) (lw.extractLsb' 0 16) ≠ lw.extractLsb' 16 16 then some 0x08
  else if lw.extractLsb' 9 7 ≠ 0 then some 0x07
  else none

/-- PAIR bit of slot k (R33). -/
def pairBit (bs : List Byte) (k : Nat) : Bool := k < 4 && (lineWord bs).getLsbD (5 + k)
/-- TGT bit of slot k (R33). -/
def tgtBit (bs : List Byte) (k : Nat) : Bool := (lineWord bs).getLsbD k

/-- An ILLOP trap with its reason (R55). -/
def illop (reason : BitVec 8) : Trap := ⟨0x01, 0, reason.setWidth 64⟩

/-- Translation and permission of a fetch (R36): the line's piece, or the trap. DESIGN CHOICE (log entry 77): TVAL is the
address of the fetch line, the 64 bytes that the fetch accesses. -/
def fetchPiece (s : State) (g : Nat) (t : TenantNo) (pc : CodeAddr) : Except Trap Piece :=
  let va := pc.toNat / 64 * 64
  if isAlias va then .error ⟨0x06, 2, BitVec.ofNat 64 va⟩ else
  match check s g t .ex va 64 with
  | .error e => .error e
  | .ok ps =>
    let p := ps.headD ⟨va, 0, 64, 0⟩
    match placeOf s.part p.pa with
    | .dram _ => .ok p
    | _ => .error ⟨0x06, 2, BitVec.ofNat 64 va⟩

/-- What a fetch finds. -/
inductive Fetched where
  | trap (t : Trap)
  | miss
  | line (bs : List Byte)
  deriving DecidableEq, Repr

/-- A line that core g's instruction cache holds for a tenant (R21, R441). -/
def cachedFetch (s : State) (g : Nat) (t : TenantNo) (pa : Nat) : Option (List Byte) :=
  match tget none (s.core g).cache.icache pa with
  | some l => if l.tenant = t then some l.bytes else none
  | none => none

/-- The fetch of the line of a code address from the core's instruction cache (R35–R37). -/
def fetch (s : State) (g : Nat) (t : TenantNo) (pc : CodeAddr) : Fetched :=
  match fetchPiece s g t pc with
  | .error e => .trap e
  | .ok p =>
    match cachedFetch s g t p.pa with
    | none => .miss
    | some bs => .line bs

/-! ### What a turn does -/

/-- What comes of a slot's turn: nothing; an event of the opcode table; a trap at issue; one instruction; or a
pair with the registers that both read. -/
inductive Plan where
  | idle
  | event (i : Instr)
  | trap (t : Trap)
  | one (i : Instr)
  | two (i j : Instr)
  deriving DecidableEq, Repr

/-- The decode of slot k of a line with checks 3 to 8 of R54; `joins` says that its pair joins a control
transfer (R42). -/
def decodeSlot (bs : List Byte) (k : Nat) (joins : Bool) : Except Trap Instr :=
  match decodeWord (slotWord bs k) with
  | .ok i => if joins then .error (illop 0x06) else .ok i
  | .error (.illop r) => .error (illop r)
  | .error (.illopnd f) => .error (if joins then illop 0x06 else ⟨0x02, 0, f.setWidth 64⟩)

/-- The major opcode of slot k. -/
def majorAt (bs : List Byte) (k : Nat) : BitVec 8 := (slotWord bs k).extractLsb' 88 8

/-- Whether slot k and its PAIR partner are joined with a control transfer among them (R42). DESIGN CHOICE (log entry 77):
the ILLOP is raised also where the first of the two is entered by a transfer. -/
def joinsTransfer (bs : List Byte) (k : Nat) : Bool :=
  pairBit bs k && (isTransfer (majorAt bs k) || isTransfer (majorAt bs (k + 1)))

/-- Whether two issue classes may issue in one turn (R41). -/
def classesPair (a b : IClass) : Bool := a != b && a != .x && b != .x

/-- A die's lees store has no room for a write of the cells, and holds a version that core g's snapshot may read
(R176). -/
def heldFor (s : State) (g : Nat) (cells : List (Nat × Byte)) : Bool :=
  (upTo 8).any fun d => leesNeed s d cells != 0 && decide (65536 < leesLines s d + leesNeed s d cells) &&
    oldVersions s d [g] [] s.coh.pubs != 0

/-- Some publication in the module waits for lees space that versions which core g's snapshot may read hold (R176): a
release's, or a phase-exempt or engine write. -/
def leesBlocked (s : State) (g : Nat) : Bool :=
  s.coh.waiting.any (fun w => heldFor (s.asWho w.g 0) g w.cells) ||
    s.coh.thirst.any fun x => heldFor { s with who := x.who } g (x.cells.map fun a => (a, 0))

/-- AGE of PHSTAT (R157). -/
def phaseAge (s : State) (g : Nat) : Nat := min (s.cycle - (s.core g).ph.moved) 0xFFFFFFFF

/-- PHLIMIT is due for a context of core g in user mode (R176). -/
def phlimitDue (s : State) (g : Nat) (c : Ctx) : Bool :=
  let lim := (s.core g).regs.phlim.toNat
  !c.trap.mode && lim != 0 && lim ≤ phaseAge s g && leesBlocked s g

/-- Tile t of core g is READY (R140). -/
def tileReady (s : State) (g : Nat) (t : TReg) : Bool := (tget {} (s.core g).regs.tiles t.toNat).state == 2

/-- A tile wait whose time is over (R141). -/
def tileExpired (s : State) (g : Nat) (c : Ctx) : Bool :=
  match c.iss.wait with
  | some w => match w.kind with
    | .tile t => w.deadline ≤ s.cycle && !tileReady s g t
    | _ => false
  | none => false

/-- A wait keeps the context out of the rotation (R219, R221): of the instruction at its PC, or of an outstanding one at a
remote word or a full queue. -/
def blocked (s : State) (c : Ctx) : Bool := c.waits.any fun w => !w.woken && decide (s.cycle < w.deadline)

/-- The second instruction of a pair can issue with the first (R41). -/
def pairOf (bs : List Byte) (k : Nat) (guarded : Bool) (c : Ctx) : Option Instr :=
  if !pairBit bs k || joinsTransfer bs (k + 1) then none
  else if !classesPair (classOf (majorAt bs k)) (classOf (majorAt bs (k + 1))) then none
  else if guarded && isLong (majorAt bs k) && (splitWord (slotWord bs k)).ct.la == 0 then none
  else if c.iss.outs.any (fun o => o.left ≤ 1) then none
  else
    match decodeSlot bs (k + 1) false with
    | .ok j => some j
    | .error _ => none

/-- The next instruction of a fetched line. -/
def planLine (s : State) (c : Ctx) (lent : Bool) (bs : List Byte) : Plan :=
  let k := c.pc.toNat % 64
  if lent && (k = 0 || !pairBit bs (k - 1) || c.iss.prev != some (c.pc - 1) || !c.iss.seq) then .idle
  else
    match lineBad bs with
    | some r => .trap (illop r)
    | none =>
      match decodeSlot bs k (joinsTransfer bs k) with
      | .error t => .trap t
      | .ok i =>
        if lent then .one i else
        match pairOf bs k (guardOf (splitWord (slotWord bs k)).ct s) c with
        | some j => .two i j
        | none => .one i

/-- The context's launch was stopped by a work-area fault: the context ends at its next turn (R264). -/
def stoppedLaunch (s : State) (c : Ctx) : Bool :=
  match s.launch? c.task.lid with
  | some l => l.stopped.isSome
  | none => false

/-- What slot k of core g does at its turn, or at a lent turn (R90, R95). DESIGN CHOICE (log entry 78): a context that owes
a turn it has given up (YLD, R52; LEND, R288) uses no lent turn before that one. -/
def plan (s : State) (g : GCore) (k : Slot) (lent : Bool) : Plan :=
  match s.ctx g k with
  | none => .idle
  | some c =>
    if c.halted || c.iss.skip || c.iss.lend ≠ 0 || stoppedLaunch s c then .idle
    else if c.iss.entry.isSome || c.iss.outs.any (fun o => o.trap.isSome) then
      if lent || c.iss.outs.any (fun o => o.trap.isNone) then .idle else .event (.trapEntry g k)
    else if c.replay || c.again != [] || c.iss.outs.any (fun o => o.left == 0) || blocked s c then .idle
    else if tileExpired s g.toNat c then (if lent then .idle else .event (.tilewait g k))
    else if phlimitDue s g.toNat c then (if lent then .idle else .event (.phlimit g k))
    else if c.iss.rep.done ≠ 0 && c.iss.rep.pc == c.pc then (if lent then .idle else .event (.repetitionIssue g k))
    else
      match fetch s g.toNat c.tenant c.pc with
      | .trap t => if lent then .idle else .trap t
      | .miss => .idle
      | .line bs => planLine s c lent bs

/-! ### The turn's place in time -/

/-- The first cc from `from` on whose remainder modulo 16 is k. -/
def nextTurn (start k : Nat) : Nat := start + (k + 16 - start % 16) % 16

/-- The earliest cc at which core g may have its next issue turn: after its last turn, after the reserved turn of its
scratchpad, which follows slot 0's in its cc (R115), after the last change of a tile entry (R140), and after a cc whose
waits have timed out (R220). -/
def turnFrom (s : State) (g : Nat) : Nat :=
  let c := s.core g
  max (max s.cycle s.turnsFrom) (max (max c.turnAt c.reserved) c.tileFrom)

/-- The state at the next issue turn of slot k of core g, with that slot's thread as the running agent; events that come
after it come in later cc (R220). The registers that an earlier pair read belong to that pair's second instruction, also
where it goes on at later turns (R41). -/
def toTurn (s : State) (g : GCore) (turn who : Slot) : State :=
  let cc := nextTurn (turnFrom s g.toNat) turn.toNat
  let s := advance s (cc - s.cycle)
  (({ s with who := .slot g who, eventsFrom := cc + 1 } : State).modCore g.toNat fun c => { c with turnAt := cc + 1 }).modCtx g who fun c =>
    if c.goesOn then c else { c with iss := { c.iss with pair := none, upon := none } }

/-- The registers that the second instruction of a pair reads (R41, R31). -/
def pairView (s : State) : PairView :=
  let keys (lo n : Nat) (t : List Nat) : List Nat :=
    (t ++ ((tkeys (s.core s.g.toNat).regs.shw).filter fun i => lo ≤ i && i < lo + n).map (· - lo)).eraseDups
  ⟨s.c.regs,
   (keys 0 64 (tkeys (s.core s.g.toNat).regs.s)).map fun i => (i, BitVec.ofNat 64 (sharedRead s s.g.toNat i (s.sreg s.g.toNat i).toNat)),
   (keys 64 32 (tkeys (s.core s.g.toNat).regs.vs)).map fun i =>
     (i, BitVec.ofNat 512 (sharedRead s s.g.toNat (64 + i) (s.vsreg s.g.toNat i).toNat)),
   s.nextId⟩

/-- Whether the second instruction of a pair issues after the first: the context stands at it, in the same
slot, with nothing pending. -/
def pairGoesOn (s0 s : State) : Bool :=
  match s.ctx s0.g s0.k with
  | none => false
  | some c => c.pc == nextPc s0.c.pc && c.iss.prev == some s0.c.pc && c.iss.entry.isNone && !c.halted &&
      c.iss.wait.isNone && !c.iss.outs.any (fun o => o.trap.isSome)

/-- The state in which the second instruction of a pair issues: it reads the registers from before the pair, and the value
that it writes persists over that of a first one still outstanding (R41). -/
def withPair (v : PairView) (s : State) : State := s.modC fun c => { c with iss := { c.iss with
  pair := some v, upon := (c.iss.outs.find? fun o => v.next ≤ o.id).map (·.id) } }

/-- What a turn leaves as it was when its context has issued nothing (R90). -/
def issueMark (s : State) (g : GCore) (k : Slot) : Option (CodeAddr × Nat × Rep × Option Wait × Bool) :=
  (s.ctx g k).map fun c => (c.pc, c.iss.issued, c.iss.rep, c.iss.wait, c.trap.mode || c.halted || c.iss.entry.isSome)

/-- The turn from t to t' has issued nothing for a context that stayed in its slot (R90). -/
def heldTurn (t t' : State) (g : GCore) (k : Slot) : Bool := (t.ctx g k).isSome && issueMark t' g k == issueMark t g k

/-- The event IDLETURN of R444 where a turn with an instruction has issued nothing. -/
def countIdle (t t' : State) (g : GCore) (k : Slot) : State := if heldTurn t t' g k then t'.bump g.toNat 0x0003 else t'

/-! ### The scalar cores -/

/-- The loader or storer core of a compute core (R147). -/
def State.scalar (s : State) (g : Nat) (r : Role) : Scalar :=
  match r with
  | .loader => (s.core g).regs.loader
  | .storer => (s.core g).regs.storer
/-- The state with that scalar core changed. -/
def State.modScalar (s : State) (g : Nat) (r : Role) (f : Scalar → Scalar) : State :=
  s.modCore g fun c => { c with regs :=
    match r with
    | .loader => { c.regs with loader := f c.regs.loader }
    | .storer => { c.regs with storer := f c.regs.storer } }

/-- Bytes of a scalar core's instruction store (R147). -/
def imemBytes (x : Scalar) (a n : Nat) : List Byte := (upTo n).map fun i => tget 0 x.imem (a + i)

/-- The fetch of a scalar core (R147): the 32 bits at its pc, of which a compressed instruction uses 16; none
where the pc lies outside the instruction store. -/
def scalarFetch (x : Scalar) : Option (BitVec 32) :=
  let a := x.pc.toNat
  if 0x4000 ≤ a then none
  else
    let w : BitVec 32 := BitVec.ofNat 32 (ofBytes (imemBytes x a (if a = 0x3FFE then 2 else 4)))
    if a = 0x3FFE && w.extractLsb' 0 2 == 3 then none else some w

/-- The effects of an idle turn of a slot: a turn given up is used (R52, R288). -/
def useIdle (s : State) (g : GCore) (k : Slot) : State :=
  s.modCtx g k fun c => { c with iss := { c.iss with skip := false, lend := c.iss.lend - 1 } }

end Sys2Proof.Machine
end

