-- ==== Sys2Proof/Machine/Memory.lean ====
section
/-! DEFINITION. Loads and stores, gather and scatter, full/empty words, the tile table, prefetch and line
instructions (R126–R146). Each long-latency instruction has a `prep` (its checks at issue), a `perf` (what its
performance does) and its meaning. -/

namespace Sys2Proof.Machine

/-! ### Addresses and tiles -/

/-- The fields of the layout "addr" that name G registers. -/
def addrUses (b : Base) (m : AddrOp) : List PortUse :=
  match b with
  | .reg r => [.src 1 r, .src 2 m.index]
  | .tile _ => [.src 2 m.index]

/-- Tile t of core g. -/
def State.tile (s : State) (g : Nat) (t : TReg) : Tile := tget {} (s.core g).regs.tiles t.toNat
/-- The state with that tile replaced: the entries change again no earlier than in the next cc (R140). -/
def State.setTile (s : State) (g : Nat) (t : TReg) (x : Tile) : State :=
  s.modCore g fun c => { c with regs := { c.regs with tiles := tput c.regs.tiles t.toNat x }, tileFrom := s.cycle + 1 }

/-- TWTO.TMO, 0 standing for 2^32 (R139). -/
def twtoVal (s : State) : Nat :=
  let n := (s.core s.g.toNat).regs.twto.toNat
  if n = 0 then 2 ^ 32 else n

/-- The wait for a tile (R141): k once it is READY, TILEWAIT when TWTO.TMO cc have passed. -/
def needTile (t : TReg) (k : State → Res) (s : State) : Res :=
  if tileReady s s.g.toNat t then k s
  else waitOr (.tile t) (twtoVal s) (fun _ => .trap ⟨0x0E, 0, t.setWidth 64⟩) s

/-- The wait for the tile that a base names. -/
def needBase (b : Base) (k : State → Res) (s : State) : Res :=
  match b with
  | .reg _ => k s
  | .tile t => needTile t k s

/-- The alias address of the own scratchpad (R112). -/
def ownSpadVa (o : Int) : Nat := ((0xFFFFFFFFFE0000 + o) % 2 ^ 56).toNat

/-- An operand of n bytes at base + x (R129): its virtual address, and whether it leaves its tile. -/
def addrAt (s : State) (b : Base) (x : Word) (n : Nat) : Nat × Bool :=
  match b with
  | .reg r => (va56 (rdG s r + x), false)
  | .tile t =>
    let e := s.tile s.g.toNat t
    (ownSpadVa (e.base.toNat * 128 + x.toInt), decide (x.toInt < 0) || decide ((e.size.toNat * 128 : Int) < x.toInt + n))

/-- The address of the layout "addr" with its tile bound (R129). -/
def addrB (s : State) (b : Base) (m : AddrOp) (n : Nat) : Nat × Bool := addrAt s b (addrSum s 0 m) n

/-- PROT of an access that leaves its tile (R129). -/
def tileProt (a : Acc) (va : Nat) : Trap := ⟨0x06, accDetail a, BitVec.ofNat 64 va⟩

/-- Checks 3 to 6 of R131 for n bytes with an alignment. -/
def checkMem (s : State) (a : Acc) (va : Nat × Bool) (n al : Nat) : Except Trap (List Piece) :=
  if va.1 % al ≠ 0 then .error (alignTrap (a == .wr) va.1)
  else if va.2 then .error (tileProt a va.1)
  else check s s.g.toNat s.t a va.1 n

/-- PHQUOTA for the pieces of a store (R131, R132). -/
def quotaTrap (s : State) (hint : BitVec 3) (ps : List Piece) : Option Trap :=
  if overQuota s s.g.toNat s.t hint ps then some ⟨0x0B, 0, BitVec.ofNat 64 ((ps.headD ⟨0, 0, 0, 0⟩).va)⟩ else none

/-! ### Performing accesses -/

/-- A load of these pieces binds its value at issue (R174): all are cached memory without accumulator lines. -/
def bindsAtIssue (s : State) (ps : List Piece) : Bool :=
  ps.all fun p => match placeOf s.part p.pa with
    | .dram _ => (pieceLines p).all fun l => !isAcc s (l * 128)
    | .view _ => true
    | .host _ => true
    | _ => false

/-- The elements that the running thread has pushed to write streams and that are not stored yet, as cells (R303). -/
def pushedCells (s : State) : List (List (Nat × Byte)) :=
  s.c.streams.flatMap fun e => e.2.pushed.map fun p => pieceCells p.1 p.2

/-- The pushed elements that a load sees as stored already; `n` and the place of the element number the free choice. -/
def pushedSeen (n : Nat) : List (List (Nat × Byte)) → List (Nat × Byte)
  | [] => []
  | e :: l => (if Config.oldOrNew (2 ^ 122 + n) then e else []) ++ pushedSeen (n + 1) l

/-- What a load of the running thread reads at the pieces, where `bs` is what it reads without the pushed elements: for
each of those the old or the new value, and which one is free (R303). -/
def pushedOver (s : State) (n : Nat) (ps : List Piece) (bs : List Byte) : List Byte :=
  if pushedCells s = [] then bs else
  let new := (pushedSeen (n * 4096) (pushedCells s)).reverse
  (pieceCells ps bs).map fun c => ((new.find? fun x => x.1 == c.1).map (·.2)).getD c.2

/-- The number of the free choices that a load makes at issue: one for each instruction of a thread. -/
def loadSeed (s : State) : Nat := 2 * (s.c.iss.issued * 2 ^ 32 + s.c.tid.toNat) + 1

/-- The bytes that a load of these pieces binds at issue. -/
def boundBytes (s : State) (ps : List Piece) : Option (List Byte) :=
  if bindsAtIssue s ps then some (pushedOver s (loadSeed s) ps (coreBytes s s.g.toNat s.t ps)) else none

/-- PROT where the access is performed: a scratchpad or data memory whose core runs another tenant (R441), a
host window that the tenant may no longer use (R446, R475). -/
def spadDenied (s : State) (a : Acc) (ps : List Piece) : Option Trap :=
  ps.findSome? fun p =>
    let bad (h : Nat) : Option Trap :=
      if h == s.g.toNat || (s.core h).tenant == some s.t then none
      else some ⟨0x06, accDetail a ||| 8, BitVec.ofNat 64 p.va⟩
    match placeOf s.part p.pa with
    | .spad h => bad h
    | .smem h _ => bad h
    | .host _ => if hostOk s s.t p.pa then none else some ⟨0x06, accDetail a, BitVec.ofNat 64 p.va⟩
    | _ => none

/-- Addresses of a piece. -/
def pieceAddrs (p : Piece) : List Nat := (upTo p.n).map fun i => p.pa + i

/-- The remote pieces of an access are strong accesses of size n (R128, R170). -/
def markRemote (s : State) (n : Nat) (ps : List Piece) : State :=
  (ps.filter (isRemote s)).foldl (fun s p => strongMark s n (pieceAddrs p)) s

/-- A strong access took or left free bytes: the next ones are fresh. -/
def useFresh (s : State) (n : Nat) (ps : List Piece) : State :=
  if ps.any fun p => (pieceAddrs p).any fun a => mixedAt s n a then { s with fresh := s.fresh + 1 } else s

/-- What a load of accesses of n bytes reads: a remote piece is a strong access, a pushed element not stored yet is old or
new. -/
def loadBytes (s : State) (n : Nat) (ps : List Piece) : List Byte :=
  pushedOver s (2 * s.fresh) ps (ps.flatMap fun p =>
    if isRemote s p then mixRead s n (cellsAt p.pa (coreBytes s s.g.toNat s.t [p]))
    else coreBytes s s.g.toNat s.t [p])

/-- A load of the running thread took free choices: the next ones are fresh. -/
def loadFresh (s : State) (n : Nat) (ps : List Piece) : State :=
  if pushedCells s = [] then useFresh s n (ps.filter (isRemote s)) else { s with fresh := s.fresh + 1 }

/-- A piece cut at the multiples of u bytes inside it. -/
def cutPiece (fuel u : Nat) (p : Piece) : List Piece :=
  match fuel with
  | 0 => [p]
  | f + 1 =>
    let m := u - p.pa % u
    if p.n ≤ m then [p]
    else { p with n := m } :: cutPiece f u { p with va := p.va + m, pa := p.pa + m, n := p.n - m }

/-- The parts of accesses of n bytes, each single-copy atomic by itself (R126, R127): of an access on a multiple of n the
whole, but the dwords of a 64-byte one; else it is split at the multiples of n. -/
def partsOf (n : Nat) (ps : List Piece) : List Piece :=
  ps.flatMap fun p => cutPiece p.n (if n = 64 && p.pa % 64 == 0 then 8 else n) p

/-- The parts from byte n on. -/
def partsFrom (n : Nat) : List Piece → List Piece
  | [] => []
  | p :: ps => if n < p.n then p :: ps else partsFrom (n - p.n) ps

/-- What an access performs now and what it leaves: all its pieces, or the next part where it is performed part by
part. -/
def splitNow (n : Nat) (src : Src) : List Piece × List Piece :=
  let l := partsFrom (src.got.length + src.sent) (partsOf n src.ps)
  if src.parts then (l.take 1, l.drop 1) else (src.ps, [])

/-- The performance of a read of accesses of n bytes as loads make it (R132, R94, R115, R441): `rem` at the reserved turn
of a remote scratchpad; `k` goes on with the bytes. One that has not bound its value reads part by part where it is
outstanding (R126). -/
def loadThen (rem : Bool) (hint : BitVec 3) (n : Nat) (k : State → List Byte → Perf) (src : Src) (s : State) : Perf :=
  let (now, rest) := if src.bs.isSome then (src.ps, []) else splitNow n src
  let far := now.filter (isRemote s)
  if !rem && far != [] then .wait s else
  match (spadDenied s .rd now).or ((lostIn s now).or (mixTrap s s.t n far)) with
  | some t => .trap t
  | none =>
    match src.bs with
    | some bs => k (touchRead s s.g.toNat s.t hint src.ps) bs
    | none =>
      let s := combineAll s (now.flatMap pieceLines)
      let bs := loadBytes s n now
      let s := touchRead (markRemote (loadFresh s n now) n far) s.g.toNat s.t hint now
      if rest = [] then k s (src.got ++ bs) else .part s { src with got := src.got ++ bs }

/-- The performance of a load: `fin` writes the destination. -/
def loadPerf (rem : Bool) (hint : BitVec 3) (n : Nat) (fin : State → List Byte → State) (src : Src) (s : State) : Perf :=
  loadThen rem hint n (fun s bs => .done (fin s bs)) src s

/-- Bytes of the pieces with what a strong write of another size overlapped made free. -/
def storeBytes (s : State) (n : Nat) (ps : List Piece) (bs : List Byte) : List Byte :=
  match ps with
  | [] => []
  | p :: r =>
    (if isRemote s p then (mixWrite s n (cellsAt p.pa (bs.take p.n))).map (·.2) else bs.take p.n) ++
      storeBytes s n r (bs.drop p.n)

/-- The performance of a store of accesses of n bytes (R132, R115), part by part where it is outstanding (R126, R127). -/
def storePerf (rem : Bool) (hint : BitVec 3) (n : Nat) (bs : List Byte) (src : Src) (s : State) : Perf :=
  let (now, rest) := splitNow n src
  let far := now.filter (isRemote s)
  if !rem && far != [] then .wait s else
  match (spadDenied s .wr now).or (mixTrap s s.t n far) with
  | some t => .trap t
  | none =>
    let b := storeBytes s n now (bs.drop src.sent)
    let s := storeNow (markRemote (useFresh s n far) n far) s.g.toNat s.t hint now b
    if rest = [] then .done s else .part s { src with sent := src.sent + (now.map (·.n)).sum }

/-! ### LD, ST, LDQ, STQ -/

/-- The bytes of an access size. -/
def sizeBytes : Size → Nat
  | .b => 1
  | .h => 2
  | .w => 4
  | .d => 8
  | .q => 16

/-- A loaded value extended to 64 bits (R132). -/
def extendTo (sgn : Bool) (n : Nat) (x : Word) : Word := if sgn && n < 8 then sext (8 * n) x else x

/-- What a load of n bytes does at issue. -/
def prepLoad (b : Base) (m : AddrOp) (n al : Nat) (s : State) : Except Trap (Src × State) :=
  match checkMem s .rd (addrB s b m n) n al with
  | .error t => .error t
  | .ok ps => .ok ({ ps := ps, bs := boundBytes s ps }, s)

/-- What a store of n bytes does at issue, with its data. -/
def prepStore (hint : BitVec 3) (b : Base) (m : AddrOp) (n al : Nat) (w : List Word) (v : List VWord) (s : State) :
    Except Trap (Src × State) :=
  match checkMem s .wr (addrB s b m n) n al with
  | .error t => .error t
  | .ok ps =>
    match quotaTrap s hint ps with
    | some t => .error t
    | none => .ok ({ ps := ps, w := w, v := v }, s)

/-- LD performed (R132). -/
def perfLd (rem : Bool) (ct : Ctl) (sz : Size) (sgn : Bool) (a : GReg) (src : Src) (s : State) : Perf :=
  loadPerf rem ct.hint (sizeBytes sz)
    (fun s bs => wrG s a (extendTo sgn (sizeBytes sz) (wordOfBytes bs))) src s

/-- LD (R132). -/
def execLd (ct : Ctl) (sz : Size) (sgn : Bool) (a : GReg) (b : Base) (m : AddrOp) (s : State) : Out' :=
  settled (issue ct (.dst 0 a :: addrUses b m) none
    (needBase b (longBody ct (.ld ct sz sgn a b m) (perfLd false ct sz sgn a) (prepLoad b m (sizeBytes sz) 1))) s)

/-- ST performed (R132). -/
def perfSt (rem : Bool) (ct : Ctl) (sz : Size) (src : Src) (s : State) : Perf :=
  storePerf rem ct.hint (sizeBytes sz) (bytesOf (sizeBytes sz) (src.w.headD 0).toNat) src s

/-- ST (R132). -/
def execSt (ct : Ctl) (sz : Size) (a : GReg) (b : Base) (m : AddrOp) (s : State) : Out' :=
  settled (issue ct (.src 0 a :: addrUses b m) none
    (needBase b (longBody ct (.st ct sz a b m) (perfSt false ct sz)
      (fun s => prepStore ct.hint b m (sizeBytes sz) 1 [rdG s a] [] s))) s)

/-- LDQ performed (R132). -/
def perfLdq (rem : Bool) (ct : Ctl) (a d : GReg) (src : Src) (s : State) : Perf :=
  loadPerf rem ct.hint 16 (fun s bs => wrG (wrG s a (dwordAt bs 0)) d (dwordAt bs 1)) src s

/-- LDQ (R132). -/
def execLdq (ct : Ctl) (a d : GReg) (b : Base) (m : AddrOp) (s : State) : Out' :=
  settled (issue ct (.dst 0 a :: addrUses b m ++ [.dst 3 d]) none
    (needBase b (longBody ct (.ldq ct a d b m) (perfLdq false ct a d)
      (fun s => if a = d then .error (illopnd 3) else prepLoad b m 16 16 s))) s)

/-- STQ performed (R132). -/
def perfStq (rem : Bool) (ct : Ctl) (src : Src) (s : State) : Perf :=
  storePerf rem ct.hint 16 (bytesOf 8 (src.w.headD 0).toNat ++ bytesOf 8 (src.w.getD 1 0).toNat) src s

/-- STQ (R132). -/
def execStq (ct : Ctl) (a d : GReg) (b : Base) (m : AddrOp) (s : State) : Out' :=
  settled (issue ct (.src 0 a :: addrUses b m ++ [.src 3 d]) none
    (needBase b (longBody ct (.stq ct a d b m) (perfStq false ct)
      (fun s => if a = d then .error (illopnd 3) else prepStore ct.hint b m 16 16 [rdG s a, rdG s d] [] s))) s)

/-! ### LDV, STV -/

/-- A vector register from 64 bytes. -/
def vOfBytes (bs : List Byte) : VWord := BitVec.ofNat 512 (ofBytes (bs.take 64))

/-- The bytes that LDV and STV move (R133). -/
def vecBytes (a d : VReg) : Nat := if a = d then 64 else 128

/-- LDV performed (R133). -/
def perfLdv (rem : Bool) (ct : Ctl) (a d : VReg) (src : Src) (s : State) : Perf :=
  loadPerf rem ct.hint (vecBytes a d) (fun s bs =>
    if a = d then wrV s a (vOfBytes bs) else wrV (wrV s a (vOfBytes bs)) d (vOfBytes (bs.drop 64))) src s

/-- LDV (R133). -/
def execLdv (ct : Ctl) (a d : VReg) (b : Base) (m : AddrOp) (s : State) : Out' :=
  settled (issue ct (addrUses b m) none
    (needBase b (longBody ct (.ldv ct a d b m) (perfLdv false ct a d) (fun s =>
      match noStream s [(0, a), (3, d)] with
      | some t => .error t
      | none => prepLoad b m (vecBytes a d) 1 s))) s)

/-- STV performed (R133). -/
def perfStv (rem : Bool) (ct : Ctl) (a d : VReg) (src : Src) (s : State) : Perf :=
  storePerf rem ct.hint (vecBytes a d)
    (bytesOf 64 (src.v.headD 0).toNat ++ if a = d then [] else bytesOf 64 (src.v.getD 1 0).toNat) src s

/-- STV (R133). -/
def execStv (ct : Ctl) (a d : VReg) (b : Base) (m : AddrOp) (s : State) : Out' :=
  settled (issue ct (addrUses b m) none
    (needBase b (longBody ct (.stv ct a d b m) (perfStv false ct a d) (fun s =>
      match noStream s [(0, a), (3, d)] with
      | some t => .error t
      | none => prepStore ct.hint b m (vecBytes a d) 1 [] [rdV s a, rdV s d] s))) s)

/-! ### LDVX, STVX -/

/-- The element bytes of gather and scatter (R134). -/
def gwidth : GWidth → Nat
  | .h => 2
  | .w => 4
  | .d => 8

/-- Lane i of w bytes of a vector. -/
def laneOf (v : VWord) (w i : Nat) : Nat := v.toNat / 2 ^ (8 * w * i) % 2 ^ (8 * w)

/-- A vector with lane i of w bytes replaced. -/
def setLane (v : VWord) (w i x : Nat) : VWord :=
  let m : VWord := BitVec.ofNat 512 ((2 ^ (8 * w) - 1) * 2 ^ (8 * w * i))
  (v &&& ~~~m) ||| (BitVec.ofNat 512 (x * 2 ^ (8 * w * i)) &&& m)

/-- The offset of element i from the base (R134). -/
def elemOff (w : Nat) (c : VWord) (sh : BitVec 3) (off : BitVec 24) (i : Nat) : Word :=
  (sext (8 * w) (BitVec.ofNat 64 (laneOf c w i)) <<< sh.toNat) + off.signExtend 64

/-- The active elements, ascending. -/
def activeOf (w : Nat) (k : Word) : List Nat := (upTo (64 / w)).filter fun i => k.getLsbD i

/-- The checks of every element, lowest first (R134): the pieces, or the trap of the lowest failing element
with that element's address. -/
def checkElems (s : State) (a : Acc) (b : Base) (w : Nat) (c : VWord) (sh : BitVec 3) (off : BitVec 24) :
    List Nat → Except Trap (List Piece)
  | [] => .ok []
  | i :: is =>
    let va := addrAt s b (elemOff w c sh off i) w
    match checkMem s a va w 1 with
    | .error t => .error { t with val := BitVec.ofNat 64 va.1 }
    | .ok ps =>
      match checkElems s a b w c sh off is with
      | .error t => .error t
      | .ok qs => .ok (ps ++ qs)

/-- The elements of a loaded list of bytes placed in their lanes. -/
def placeElems (w : Nat) (v : VWord) (bs : List Byte) : List Nat → VWord
  | [] => v
  | i :: is => placeElems w (setLane v w i (ofBytes (bs.take w))) (bs.drop w) is

/-- LDVX performed (R134): inactive lanes keep their value. -/
def perfLdvx (rem : Bool) (ct : Ctl) (wd : GWidth) (a : VReg) (src : Src) (s : State) : Perf :=
  loadPerf rem ct.hint (gwidth wd)
    (fun s bs => wrV s a (placeElems (gwidth wd) (curV s a) bs (activeOf (gwidth wd) src.k))) src s

/-- LDVX (R134). -/
def execLdvx (ct : Ctl) (wd : GWidth) (a : VReg) (b : Base) (c : VReg) (k : KReg) (sh : BitVec 3) (off : BitVec 24)
    (s : State) : Out' :=
  let uses := match b with
    | .reg r => [PortUse.src 1 r]
    | .tile _ => []
  settled (issue ct uses none
    (needBase b (longBody ct (.ldvx ct wd a b c k sh off) (perfLdvx false ct wd a) (fun s =>
      match noStream s [(0, a), (2, c)] with
      | some t => .error t
      | none =>
        if a = c then .error (illopnd 2) else
        match checkElems s .rd b (gwidth wd) (rdV s c) sh off (activeOf (gwidth wd) (rdK s k)) with
        | .error t => .error t
        | .ok ps => .ok ({ k := rdK s k, ps := ps, bs := boundBytes s ps }, s)))) s)

/-- STVX performed (R134): the bytes of the active elements in ascending order. -/
def perfStvx (rem : Bool) (ct : Ctl) (wd : GWidth) (src : Src) (s : State) : Perf :=
  storePerf rem ct.hint (gwidth wd)
    ((activeOf (gwidth wd) src.k).flatMap fun i => bytesOf (gwidth wd) (laneOf (src.v.headD 0) (gwidth wd) i)) src s

/-- STVX (R134). -/
def execStvx (ct : Ctl) (wd : GWidth) (a : VReg) (b : Base) (c : VReg) (k : KReg) (sh : BitVec 3) (off : BitVec 24)
    (s : State) : Out' :=
  let uses := match b with
    | .reg r => [PortUse.src 1 r]
    | .tile _ => []
  settled (issue ct uses none
    (needBase b (longBody ct (.stvx ct wd a b c k sh off) (perfStvx false ct wd) (fun s =>
      match noStream s [(0, a), (2, c)] with
      | some t => .error t
      | none =>
        match checkElems s .wr b (gwidth wd) (rdV s c) sh off (activeOf (gwidth wd) (rdK s k)) with
        | .error t => .error t
        | .ok ps =>
          match quotaTrap s ct.hint ps with
          | some t => .error t
          | none => .ok ({ k := rdK s k, v := [rdV s a], ps := ps }, s)))) s)

/-! ### Full/empty words -/

/-- The core and the dword index of a scratchpad address. -/
def feKey (pa : Nat) : Nat × Nat := ((pa - spadBase) / 2 ^ 17, (pa - spadBase) % 2 ^ 17 / 8)

/-- The full/empty bit of a scratchpad dword (R135). -/
def State.fe (s : State) (pa : Nat) : Bool := tget false (s.core (feKey pa).1).regs.fe (feKey pa).2
/-- The state with that bit set. -/
def State.setFe (s : State) (pa : Nat) (b : Bool) : State :=
  s.modCore (feKey pa).1 fun c => { c with regs := { c.regs with fe := tset false c.regs.fe (feKey pa).2 b } }

/-- The address checks of R135. -/
def feCheck (s : State) (a : Acc) (va : Nat) : Except Trap Piece :=
  match pieceOf s s.g.toNat s.t a (va, 1) with
  | .error t => .error t
  | .ok p =>
    match placeOf s.part p.pa with
    | .spad _ =>
      if va % 8 ≠ 0 then .error (alignTrap (a == .wr) va)
      else
        match pieceProt s s.g.toNat s.t a { p with n := 8 } with
        | some t => .error t
        | none => .ok { p with n := 8 }
    | _ => .error (tileProt a va)

/-- The waiting forms: the bit that each waits for, and whether it takes the word (R136, R239). -/
def feKind : Instr → Option (Bool × Bool)
  | .ldf .. => some (true, false)
  | .ldfe .. => some (true, true)
  | .stef .. => some (false, true)
  | .waitfe _ empty _ _ _ _ => some (!empty, false)
  | _ => none

/-- Whether a registered waiter on a word was there before number r and is to be served first: any waiter for
one that empties or fills the word, such a waiter for one that only reads it (R137). -/
def feBefore (s : State) (pa : Nat) (full take : Bool) (r : Nat) : Bool :=
  (heldCtxs s).any fun e => e.2.waits.any fun w => decide (w.reg < r) && match w.kind with
    | .word q f t => q == pa && f == full && (take || t)
    | _ => false

/-- The condition of a waiting form at its evaluation: the bit has the wanted value, and a waiter that has
registered lets those before it go first (R136, R137). -/
def feReady (s : State) (pa : Nat) (full take : Bool) : Bool :=
  s.fe pa == full &&
    match s.c.iss.wait with
    | some w => !(w.kind == .word pa full take && feBefore s pa full take w.reg)
    | none => true

/-- An action on a word, as a performance: it waits for the reserved turn of a remote scratchpad; a waiting form
(`want`) evaluates its condition there until its deadline, behind the waiters that registered before it: `src.k` is its
own number there. WAITFE, which does not touch the word, is no strong access (R128, R239). -/
def fePerf (strong rem : Bool) (a : Acc) (want : Option Bool) (take : Bool) (act fail : State → Nat → State) (src : Src) (s : State) : Perf :=
  let p := src.ps.headD ⟨0, 0, 0, 0⟩
  if !rem && isRemote s p then .wait s else
  match (spadDenied s a src.ps).or (if strong then mixTrap s s.t 8 src.ps else none) with
  | some t => .trap t
  | none =>
    let ready := match want with
      | none => true
      | some w => w == s.fe p.pa && !(src.k != 0 && feBefore s p.pa w take src.k.toNat)
    if ready then .done (act (if strong then strongMark (useFresh s 8 src.ps) 8 (pieceAddrs p) else s) p.pa)
    else if src.job ≤ s.cycle then .done (fail (s.bump s.g.toNat 0x0055) p.pa)
    else .wait s

/-- The own part of a waiting form (R136): it waits in the rotation for the own word, and at the scratchpad for
a remote one. -/
def feWait (ct : Ctl) (i : Instr) (a : Acc) (full take : Bool) (va tmo : Nat) (w : List Word)
    (perf : Src → State → Perf) (fail : State → State) (s : State) : Res :=
  match feCheck s a va with
  | .error t => .trap t
  | .ok p =>
    let src : Src := { ps := [p], w := w, job := s.cycle + tmo, tmo := tmo }
    if isRemote s p || feReady s p.pa full take then startLong ct i perf src s
    else waitOr (.word p.pa full take) tmo (fun s => .ok (fail s)) s

/-- The value of a scratchpad dword as a strong access reads it. -/
def feValue (s : State) (pa : Nat) : Word :=
  wordOfBytes (mixRead s 8 ((upTo 8).map fun i => (pa + i, s.memAt (pa + i))))

/-- LDF performed (R136). -/
def perfLdf (rem : Bool) (a : GReg) (p : PReg) (src : Src) (s : State) : Perf :=
  let v := feValue s (src.ps.headD ⟨0, 0, 0, 0⟩).pa
  fePerf true rem .rd (some true) false (fun s _ => wrP (wrG s a v) p true) (fun s _ => wrP s p false) src s

/-- LDF (R136). -/
def execLdf (ct : Ctl) (a b : GReg) (m : AddrOp) (p : PReg) (e : GReg) (s : State) : Out' :=
  settled (issue ct [.dst 0 a, .src 1 b, .src 2 m.index, .src 4 e] none (fun s =>
    feWait ct (.ldf ct a b m p e) .rd true false (addrG s b m) (fld (rdG s e) 39 0) [] (perfLdf false a p)
      (fun s => wrP s p false) s) s)

/-- LDFE performed (R136). -/
def perfLdfe (rem : Bool) (a : GReg) (p : PReg) (src : Src) (s : State) : Perf :=
  let v := feValue s (src.ps.headD ⟨0, 0, 0, 0⟩).pa
  fePerf true rem .wr (some true) true (fun s pa => wrP (wrG (s.setFe pa false) a v) p true) (fun s _ => wrP s p false) src s

/-- LDFE (R136). -/
def execLdfe (ct : Ctl) (a b : GReg) (m : AddrOp) (p : PReg) (e : GReg) (s : State) : Out' :=
  settled (issue ct [.dst 0 a, .src 1 b, .src 2 m.index, .src 4 e] none (fun s =>
    feWait ct (.ldfe ct a b m p e) .wr true true (addrG s b m) (fld (rdG s e) 39 0) [] (perfLdfe false a p)
      (fun s => wrP s p false) s) s)

/-- The checks of STF and SETE at issue. -/
def prepFe (b : GReg) (m : AddrOp) (w : List Word) (s : State) : Except Trap (Src × State) :=
  match feCheck s .wr (addrG s b m) with
  | .error t => .error t
  | .ok p => .ok ({ ps := [p], w := w }, s)

/-- STF performed (R136). -/
def perfStf (rem : Bool) (src : Src) (s : State) : Perf :=
  let s0 := s
  fePerf true rem .wr none false (fun s pa =>
    (s.poke (mixWrite s0 8 (cellsOf pa 8 (src.w.headD 0).toNat))).setFe pa true) (fun s _ => s) src s

/-- STF (R136). -/
def execStf (ct : Ctl) (a b : GReg) (m : AddrOp) (s : State) : Out' :=
  issueLong ct (.stf ct a b m) [.src 0 a, .src 1 b, .src 2 m.index] none (perfStf false)
    (fun s => prepFe b m [rdG s a] s) s

/-- STEF performed (R136). -/
def perfStef (rem : Bool) (p : PReg) (src : Src) (s : State) : Perf :=
  let s0 := s
  fePerf true rem .wr (some false) true (fun s pa =>
    wrP ((s.poke (mixWrite s0 8 (cellsOf pa 8 (src.w.headD 0).toNat))).setFe pa true) p true)
    (fun s _ => wrP s p false) src s

/-- STEF (R136). -/
def execStef (ct : Ctl) (a b : GReg) (m : AddrOp) (p : PReg) (e : GReg) (s : State) : Out' :=
  settled (issue ct [.src 0 a, .src 1 b, .src 2 m.index, .src 4 e] none (fun s =>
    feWait ct (.stef ct a b m p e) .wr false true (addrG s b m) (fld (rdG s e) 39 0) [rdG s a] (perfStef false p)
      (fun s => wrP s p false) s) s)

/-- SETE performed (R136). -/
def perfSete (rem : Bool) (p : PReg) (src : Src) (s : State) : Perf :=
  fePerf true rem .wr none false (fun s pa => wrP (s.setFe pa false) p (s.fe pa)) (fun s _ => s) src s

/-- SETE (R136). -/
def execSete (ct : Ctl) (p : PReg) (b : GReg) (m : AddrOp) (s : State) : Out' :=
  issueLong ct (.sete ct p b m) [.src 1 b, .src 2 m.index] none (perfSete false p) (prepFe b m []) s

/-! ### The tile table -/

/-- The word of a tile entry (R138). -/
def tileWord (x : Tile) : Word :=
  BitVec.ofNat 64 (x.state.toNat * 2 ^ 62 + (if x.dfn then 2 ^ 61 else 0) + (if x.fault then 2 ^ 60 else 0) +
    x.base.toNat * 2 ^ 32 + x.size.toNat * 2 ^ 16 + x.pend.toNat)

/-- TDEF (R140, R142). -/
def execTdef (ct : Ctl) (t : TReg) (b c : GReg) (s : State) : Out' :=
  issue ct [.src 1 b, .src 2 c] none (fun s =>
    let o := (rdG s b).toNat
    let n := (rdG s c).toNat
    let e := s.tile s.g.toNat t
    if o % 128 ≠ 0 || 131072 < o then .trap (illopnd 1)
    else if n % 128 ≠ 0 || n < 128 || 131072 < o + n then .trap (illopnd 2)
    else if e.state ≠ 0 then .trap (illopnd 0)
    else .ok (s.setTile s.g.toNat t { e with
      state := 0, dfn := true, fault := false, pend := 0
      base := BitVec.ofNat 10 (o / 128), size := BitVec.ofNat 11 (n / 128) })) s

/-- TREL (R140, R142). -/
def execTrel (ct : Ctl) (t : TReg) (mode : Bool) (s : State) : Out' :=
  issue ct [] none (needTile t fun s =>
    .ok (s.setTile s.g.toNat t { s.tile s.g.toNat t with state := if mode then 3 else 0 })) s

/-- TSTAT (R142). -/
def execTstat (ct : Ctl) (a : GReg) (t : TReg) (s : State) : Out' :=
  issue ct [.dst 0 a] none (fun s => .ok (wrG s a (tileWord (s.tile s.g.toNat t)))) s

/-! ### Prefetch, line and region instructions -/

/-- The line of an address as an access. -/
def lineVa (va : Nat) : Nat := va / 128 * 128

/-- PREF (R143). -/
def execPref (ct : Ctl) (lv : CacheLevel) (b : GReg) (m : AddrOp) (s : State) : Out' :=
  issue ct [.src 1 b, .src 2 m.index] none (fun s =>
    match check s s.g.toNat s.t .rd (lineVa (addrG s b m)) 128 with
    | .error _ => .ok s
    | .ok ps =>
      if (lostIn s ps).isSome || ps.any (fun p => pieceCl s p == 2 || isSpadPlace s p.pa) then .ok s
      else match lv with
        | .l1 => .ok (touchRead s s.g.toNat s.t ct.hint ps)
        | .l2 => .ok (ps.foldl (fun s p => noteRead (tlbFill s s.g.toNat s.t p) s.g.toNat s.t ct.hint p) s)) s

/-- The checks of an instruction that acts on the line of its address and faults as a load (R144, R146). -/
def prepLine1 (b : GReg) (m : AddrOp) (s : State) : Except Trap (Src × State) :=
  let va := addrG s b m
  match check s s.g.toNat s.t .rd va 1 with
  | .error t => .error t
  | .ok ps => .ok ({ ps := ps }, s)

/-- The home writes a line to DRAM where its published copy differs (R144): the copy is clean, and the buddy's goes. -/
def writeBack (s : State) (line : Nat) : State :=
  match placeOf s.part (line * 128) with
  | .dram d =>
    match l2At s d line with
    | some x => if x.dirty then unmirror (l2Put s d line { x with dirty := false }) line else s
    | none => s
  | _ => s

/-- WBL performed (R144): the line's pin is released, and the home writes the line to DRAM. -/
def perfWbl (src : Src) (s : State) : Perf :=
  .done ((src.ps.flatMap pieceLines).foldl (fun s l =>
    writeBack (s.modCore (l1Core s s.g.toNat (l * 128) (fusedOf s s.g.toNat)) fun c => { c with cache := { c.cache with
      l1 := match tget none c.cache.l1 l with
        | some x => tset none c.cache.l1 l (some { x with pin := none })
        | none => c.cache.l1 } }) l) s)

/-- WBL (R144). -/
def execWbl (ct : Ctl) (b : GReg) (m : AddrOp) (s : State) : Out' :=
  issueLong ct (.wbl ct b m) [.src 1 b, .src 2 m.index] none perfWbl (prepLine1 b m) s

/-- ZLINE performed (R145). -/
def perfZline (rem : Bool) (ct : Ctl) (src : Src) (s : State) : Perf :=
  storePerf rem ct.hint 128 (bytesOf 128 0) src s

/-- ZLINE (R145). -/
def execZline (ct : Ctl) (b : GReg) (m : AddrOp) (s : State) : Out' :=
  issueLong ct (.zline ct b m) [.src 1 b, .src 2 m.index] none (perfZline false ct)
    (prepStore ct.hint (.reg b) m 128 128 [] []) s

/-- The directory state of a line's region (R146). -/
def regionWord (s : State) (pa : Nat) : Word :=
  let r := regionOf s (lineOf pa)
  let d := homeDie s pa
  BitVec.ofNat 64 ((if tget 0 (s.die d).lostRgn (pa / 65536) != 0 then 2 ^ 40 else 0) +
    ((regionDies s r).map fun e => 2 ^ (32 + e)).sum + d * 2 ^ 24 + r.deg % 8 * 2 ^ 16 + r.gran)

/-- RGNQ performed (R146). -/
def perfRgnq (a : GReg) (src : Src) (s : State) : Perf :=
  let pa := (src.ps.headD ⟨0, 0, 0, 0⟩).pa
  .done (wrG s a (match placeOf s.part pa with
    | .dram _ => regionWord s pa
    | .view _ => regionWord s pa
    | _ => 0))

/-- RGNQ (R146). -/
def execRgnq (ct : Ctl) (a b : GReg) (m : AddrOp) (s : State) : Out' :=
  issueLong ct (.rgnq ct a b m) [.dst 0 a, .src 1 b, .src 2 m.index] none (perfRgnq a) (prepLine1 b m) s

end Sys2Proof.Machine
end

