-- ==== Sys2Proof/Machine/Ordering.lean ====
section
/-! DEFINITION. The strong accesses at their homes (R169–R171, R190–R193) and the ordering instructions
(R184–R191). -/

namespace Sys2Proof.Machine

/-! ### Strong accesses -/

/-- Whether an outstanding instruction is a phase-exempt access. -/
def exemptOut (s : State) (o : Out) : Bool := exemptOp s o.i o.src

/-- The home recalls ownership and combines before a strong read (R193, R197, R199). -/
def recallLines (s : State) (ps : List Piece) : State :=
  (ps.flatMap pieceLines).foldl (fun s l => combine { s with coh := { s.coh with owned := tset none s.coh.owned l none } } l) s

/-- The home's bytes as a strong access of n bytes reads them (R128, R190). -/
def strongBytes (s : State) (n : Nat) (ps : List Piece) : List Byte :=
  ps.flatMap fun p => mixRead s n (cellsAt p.pa (homeBytes s s.t [p]))

/-- The record of a strong access of n bytes. -/
def strongDone (s : State) (n : Nat) (ps : List Piece) : State :=
  ps.foldl (fun s p => strongMark s n (pieceAddrs p)) (useFresh s n ps)

/-- A phase-exempt write of an access of n bytes at its home (R158, R171): one publication, and the core's
unpublished bytes there are dropped. -/
def strongWrite (s : State) (sc : Scope) (n : Nat) (ps : List Piece) (bs : List Byte) : State :=
  let ws := mixWrite s n (pieceCells ps bs)
  let s1 := strongDone s n ps
  let s2 := writeNow (claim s1 s.t ps) (.core s.g) sc ws
  let s3 := dropUnpub s2 s.g.toNat (ws.map (·.1))
  let s4 := ps.foldl (fun s p => tlbFill s s.g.toNat s.t p) s3
  if ws.all fun w => isSpadPlace s w.1 then s4 else s4.bump s.g.toNat 0x0040

/-- What a strong access checks where it is performed (R94, R128, R441): another core's scratchpad at its
reserved turn only; permission, lost lines where data is read, mixed sizes. -/
def strongCheck (rem : Bool) (a : Acc) (lost : Bool) (n : Nat) (ps : List Piece) (s : State) : Option (Option Trap) :=
  if !rem && ps.any (isRemote s) then none
  else some ((spadDenied s a ps).or ((if lost then lostIn s ps else none).or (mixTrap s s.t n ps)))

/-- An .ACQ or .AR access acquires after it is performed (R169). -/
def acquireIf (b : Bool) (sc : Scope) (s : State) : State := if b then acquire s s.g.toNat sc else s

/-- The scope of the release of a .REL or .AR access (R169). -/
def relScope (b : Bool) (sc : Scope) (_ : Src) : Option Scope := if b then some sc else none

/-! ### PHASE, FENCE, DFENCE -/

/-- Every access of the thread is performed, with the stores that its streams hold (R185). -/
def waitPerformed (k : State → Res) (s : State) : Res :=
  if accessesOut s then .hold s else k (flushStreams s)

/-- PHASE (R185). -/
def execPhase (ct : Ctl) (sc : Scope) (s : State) : Out' :=
  issue ct [] none (fun s =>
    if sc = .core then waitPerformed .ok s
    else release sc (fun s => .ok (acquire s s.g.toNat sc)) s) s

/-- FENCE (R186, R303). -/
def execFence (ct : Ctl) (_sc : Scope) (s : State) : Out' :=
  issue ct [] none (fun s =>
    if s.c.iss.outs.any fun o => exemptOut s o || (isSfu o.i && o.src.job != 0) then .hold s else .ok (flushStreams s)) s

/-- DFENCE (R187). -/
def execDfence (ct : Ctl) (sc : Scope) (s : State) : Out' := issue ct [] none (release sc .ok) s

/-! ### Timelines -/

/-- The context's lowest unreported failed job of a timeline up to n (R183). -/
def failureUpTo (c : Ctx) (t n : Nat) : Option Nat :=
  (c.failures.filter fun f => f.1 == t && f.2 ≤ n).foldl (fun m f => match m with
    | some x => some (min x f.2)
    | none => some f.2) none

/-- TLWAIT (R188). -/
def execTlwait (ct : Ctl) (p : PReg) (t : TlReg) (c : GReg) (tmo : BitVec 28) (s : State) : Out' :=
  issue ct [.src 2 c] none (fun s =>
    let n := rdG s c
    if n.toNat ≤ (s.tl s.g.toNat t.toNat).done then
      match failureUpTo s.c t.toNat n.toNat with
      | some f => .trap ⟨0x13, t.setWidth 8, BitVec.ofNat 64 f⟩
      | none => .ok (wrP (acquire s s.g.toNat .module) p true)
    else waitOr (.timeline t n) tmo.toNat (fun s => .ok (wrP s p false)) s) s

/-- TLREAD (R189). -/
def execTlread (ct : Ctl) (a : GReg) (t : TlReg) (issued : Bool) (s : State) : Out' :=
  issue ct [.dst 0 a] none (fun s =>
    let x := s.tl s.g.toNat t.toNat
    .ok (wrG s a (BitVec.ofNat 64 (if issued then x.issued else x.done)))) s

/-! ### LDNOW, STNOW -/

/-- Whether a piece lies in a host range in non-coherent mode (R194). -/
def nonCoherent (s : State) (p : Piece) : Bool :=
  match placeOf s.part p.pa with
  | .host i => match hostRange s i ((p.pa - hostBase) % 2 ^ 50) with
    | some r => !bit r.1 1
    | none => false
  | _ => false

/-- The bytes that an LDNOW reads next (R190, R248): all, or one dword of a 16-byte read of a non-coherent window, which the
host completer need not make single-copy atomic. -/
def ldnowNext (s : State) (src : Src) : List Piece :=
  if src.ps.any fun p => p.n == 16 && nonCoherent s p then
    src.ps.map fun p => ⟨p.va + src.got.length, p.pa + src.got.length, 8, p.leaf⟩
  else src.ps

/-- LDNOW performed (R190, R248). -/
def perfLdnow (rem acq : Bool) (sz : Size) (sc : Scope) (a d : GReg) (src : Src) (s : State) : Perf :=
  match strongCheck rem .rd true (sizeBytes sz) src.ps s with
  | none => .wait s
  | some (some t) => .trap t
  | some none =>
    let s := recallLines s src.ps
    let now := ldnowNext s src
    let bs := src.got ++ strongBytes s (sizeBytes sz) now
    let s := strongDone s (sizeBytes sz) now
    let s := now.foldl (fun s p => noteRead (tlbFill s s.g.toNat s.t p) s.g.toNat s.t 0 p) s
    if bs.length < sizeBytes sz then .part s { src with got := bs } else
    let s := wrG s a (dwordAt bs 0)
    .done (acquireIf acq sc (if sz = .q then wrG s d (dwordAt bs 1) else s))

/-- LDNOW (R190). -/
def execLdnow (ct : Ctl) (acq : Bool) (sz : Size) (sc : Scope) (a b : GReg) (m : AddrOp) (d : GReg) (s : State) : Out' :=
  issueLong ct (.ldnow ct acq sz sc a b m d)
    ([.dst 0 a, .src 1 b, .src 2 m.index] ++ if sz = .q then [.dst 3 d] else []) none (perfLdnow false acq sz sc a d)
    (fun s =>
      if sz = .q && a == d then .error (illopnd 3) else
      match checkMem s .rd (addrG s b m, false) (sizeBytes sz) (sizeBytes sz) with
      | .error t => .error t
      | .ok ps => .ok ({ ps := ps }, s)) s

/-- STNOW performed (R191). -/
def perfStnow (rem : Bool) (sz : Size) (sc : Scope) (src : Src) (s : State) : Perf :=
  match strongCheck rem .wr false (sizeBytes sz) src.ps s with
  | none => .wait s
  | some (some t) => .trap t
  | some none =>
    let bs := (bytesOf 8 (src.w.headD 0).toNat ++ bytesOf 8 (src.w.getD 1 0).toNat).take (sizeBytes sz)
    if !leesRoom s (pieceCells src.ps bs) then .wait (thirstFor s (pieceCells src.ps bs))
    else .done (strongWrite s sc (sizeBytes sz) src.ps bs)

/-- STNOW (R191). -/
def execStnow (ct : Ctl) (rel : Bool) (sz : Size) (sc : Scope) (a b : GReg) (m : AddrOp) (d : GReg) (s : State) : Out' :=
  settled (issue ct ([.src 0 a, .src 1 b, .src 2 m.index] ++ if sz = .q then [.src 3 d] else []) none
    (releaseBody (relScope rel sc) (fun s =>
      match checkMem s .wr (addrG s b m, false) (sizeBytes sz) (sizeBytes sz) with
      | .error t => .error t
      | .ok ps => .ok { ps := ps, w := [rdG s a, rdG s d] })
    (startLong ct (.stnow ct rel sz sc a b m d) (perfStnow false sz sc))) s)

end Sys2Proof.Machine
end

