-- ==== Sys2Proof/Machine/Atomic.lean ====
section
/-! DEFINITION. Atomics, reductions and accumulator lines (R192–R217). -/

namespace Sys2Proof.Machine

/-! ### Operations -/

/-- The operations of R208. -/
def amoFn (op : AmoOp) (old x : Word) : Word :=
  match op with
  | .add => old + x
  | .and => old &&& x
  | .or => old ||| x
  | .xor => old ^^^ x
  | .min => if x.slt old then x else old
  | .max => if old.slt x then x else old
  | .minn => if x < old then x else old
  | .maxn => if old < x then x else old
  | .swap => x

/-- An ILLOPND that the home detects (R196). -/
def homeIllopnd : Trap := illopnd 1

/-- Whether some line of the pieces is an accumulator line. -/
def accIn (s : State) (ps : List Piece) : Bool := ps.any fun p => (pieceLines p).any fun l => isAcc s (l * 128)

/-- The PROT of an access to a host link window, where the instruction does not reach there (R192, R194). -/
def noHost (s : State) (a : Acc) (ps : List Piece) : Option Trap :=
  ps.findSome? fun p => match placeOf s.part p.pa with
    | .host _ => some (tileProt a p.va)
    | _ => none

/-- The PROT of an access that is not to device DRAM (R192, R216). -/
def notDram (s : State) (a : Acc) (ps : List Piece) : Option Trap :=
  ps.findSome? fun p => match placeOf s.part p.pa with
    | .dram _ => none
    | _ => some (tileProt a p.va)

/-! ### Read-modify-write -/

/-- A read-modify-write: its size, scope, new value from the old (none: nothing is written), and its results. -/
structure Rmw where
  n : Nat
  sc : Scope
  new : Nat → Option Nat
  fin : State → Nat → State

/-- The line of a CORE-scope atomic is owned by the core's L1, and then has no replica (R193). -/
def ownLine (s : State) (sc : Scope) (ps : List Piece) : State :=
  ps.foldl (fun s p => match placeOf s.part p.pa with
    | .dram _ =>
      if sc = .core && leafCl p.leaf == 0 then
        let s := collapse false s (lineOf p.pa)
        { s with coh := { s.coh with owned := tset none s.coh.owned (lineOf p.pa) (some s.g) } }
      else s
    | _ => s) s

/-- What an atomic that writes nothing does where it is performed: replicas collapse, by no publication (R179, R180). -/
def rmwRead (s : State) (n : Nat) (ps : List Piece) : State :=
  ps.foldl (fun s p => noteRead (tlbFill (collapse false s (lineOf p.pa)) s.g.toNat s.t p) s.g.toNat s.t 0 p) (strongDone s n ps)

/-- The results of a read-modify-write whose old value is given: it writes, or is a read. -/
def rmwApply (r : Rmw) (src : Src) (old : Nat) (s : State) : State :=
  r.fin (match r.new old with
    | some v => ownLine (strongWrite s r.sc r.n src.ps (bytesOf r.n v)) r.sc src.ps
    | none => rmwRead (ownLine s r.sc src.ps) r.n src.ps) old

/-- A read-modify-write performed (R192, R193, R196, R208–R210). -/
def rmwPerf (rem : Bool) (r : Rmw) (src : Src) (s : State) : Perf :=
  if !rem && src.ps.any (isRemote s) then .wait s else
  match spadDenied s .wr src.ps with
  | some t => .trap t
  | none =>
    if accIn s src.ps then .trap homeIllopnd
    else if src.ps.any (nonCoherent s) then .wait s
    else
      match (lostIn s src.ps).or (mixTrap s s.t r.n src.ps) with
      | some t => .trap t
      | none =>
        let s1 := recallLines s src.ps
        let old := ofBytes (strongBytes s1 r.n src.ps)
        let ws := pieceCells src.ps (bytesOf r.n 0)
        if (r.new old).isSome && !leesRoom s1 ws then .wait (thirstFor s ws)
        else .done (rmwApply r src old s1)

/-- The read-modify-write of AMO and AMOI (R208). -/
def rmwAmo (ar : Bool) (op : AmoOp) (sc : Scope) (a : GReg) (src : Src) : Rmw where
  n := 8
  sc := sc
  new := fun old => some (amoFn op (BitVec.ofNat 64 old) (src.w.headD 0)).toNat
  fin := fun s old => acquireIf ar sc (wrG s a (BitVec.ofNat 64 old))

/-- The read-modify-write of CAS (R209). -/
def rmwCas (ar dw : Bool) (sc : Scope) (a : GReg) (p : PReg) (src : Src) : Rmw :=
  let n := if dw then 8 else 4
  let want := (src.w.headD 0).toNat % 2 ^ (8 * n)
  { n := n, sc := sc
    new := fun old => if old = want then some ((src.w.getD 1 0).toNat % 2 ^ (8 * n)) else none
    fin := fun s old => acquireIf ar sc (wrP (wrG s a (BitVec.ofNat 64 old)) p (old == want)) }

/-- The next register of a pair (R209). -/
def pairReg (a : GReg) : GReg := a + 1

/-- The read-modify-write of CASQ (R209). -/
def rmwCasq (ar : Bool) (sc : Scope) (a : GReg) (p : PReg) (src : Src) : Rmw :=
  let want := (src.w.headD 0).toNat + 2 ^ 64 * (src.w.getD 1 0).toNat
  { n := 16, sc := sc
    new := fun old => if old = want then some ((src.w.getD 2 0).toNat + 2 ^ 64 * (src.w.getD 3 0).toNat) else none
    fin := fun s old => acquireIf ar sc
      (wrP (wrG (wrG s a (BitVec.ofNat 64 old)) (pairReg a) (BitVec.ofNat 64 (old / 2 ^ 64))) p (old == want)) }

/-- The read-modify-write of an integer RED (R210). -/
def rmwRed (op : AmoOp) (sc : Scope) (src : Src) : Rmw where
  n := 8
  sc := sc
  new := fun old => some (amoFn op (BitVec.ofNat 64 old) (src.w.headD 0)).toNat
  fin := fun s _ => s

/-- The read-modify-write that an outstanding atomic stands for. -/
def rmwOf (i : Instr) (src : Src) : Option Rmw :=
  match i with
  | .amo _ ar op sc a _ _ _ => some (rmwAmo ar op sc a src)
  | .amoi _ ar op sc a _ _ _ => some (rmwAmo ar op sc a src)
  | .cas _ ar dw sc a _ _ _ p => some (rmwCas ar dw sc a p src)
  | .casq _ ar sc a _ _ _ p => some (rmwCasq ar sc a p src)
  | .red _ _ (.int op) sc _ _ _ => some (rmwRed op sc src)
  | _ => none

/-- The checks of an atomic at its address (R208, R209). -/
def atomicPieces (s : State) (va n : Nat) : Except Trap (List Piece) := checkMem s .wr (va, false) n n

/-- The own part of an AMO: checks, the release of .AR, its start. Only ADD and SWAP reach a non-coherent host
range (R194). -/
def amoBody (ct : Ctl) (i : Instr) (ar : Bool) (op : AmoOp) (sc : Scope) (a : GReg) (va : State → Nat) (x : State → Word)
    (s : State) : Res :=
  releaseBody (relScope ar sc) (fun s =>
    match atomicPieces s (va s) 8 with
    | .error t => .error t
    | .ok ps =>
      if ps.any (nonCoherent s) && op != .add && op != .swap then .error (tileProt .wr (va s))
      else .ok { ps := ps, w := [x s] })
    (startLong ct i (fun src s => rmwPerf false (rmwAmo ar op sc a src) src s)) s

/-- AMO (R208). -/
def execAmo (ct : Ctl) (ar : Bool) (op : AmoOp) (sc : Scope) (a b : GReg) (m : AddrOp) (d : GReg) (s : State) : Out' :=
  settled (issue ct [.dst 0 a, .src 1 b, .src 2 m.index, .src 3 d] none
    (amoBody ct (.amo ct ar op sc a b m d) ar op sc a (addrG · b m) (rdG · d)) s)

/-- AMOI (R208). -/
def execAmoi (ct : Ctl) (ar : Bool) (op : AmoOp) (sc : Scope) (a b : GReg) (imm : BitVec 22) (off : BitVec 20)
    (s : State) : Out' :=
  settled (issue ct [.dst 0 a, .src 1 b] none
    (amoBody ct (.amoi ct ar op sc a b imm off) ar op sc a (fun s => va56 (rdG s b + off.signExtend 64))
      (fun _ => imm.signExtend 64)) s)

/-- CAS (R209): A is read and written. -/
def execCas (ct : Ctl) (ar dw : Bool) (sc : Scope) (a b : GReg) (m : AddrOp) (d : GReg) (p : PReg) (s : State) : Out' :=
  settled (issue ct [.rw 0 a, .src 1 b, .src 2 m.index, .src 3 d] none
    (releaseBody (relScope ar sc) (fun s =>
      match atomicPieces s (addrG s b m) (if dw then 8 else 4) with
      | .error t => .error t
      | .ok ps => .ok { ps := ps, w := [rdG s a, rdG s d] })
    (startLong ct (.cas ct ar dw sc a b m d p) (fun src s => rmwPerf false (rmwCas ar dw sc a p src) src s))) s)

/-- Whether a field of CASQ does not name an even pair without queue ports (R209). -/
def badPair (s : State) (r : GReg) : Bool := r.getLsbD 0 || isPort s r || isPort s (pairReg r)

/-- CASQ (R209). -/
def execCasq (ct : Ctl) (ar : Bool) (sc : Scope) (a b : GReg) (m : AddrOp) (d : GReg) (p : PReg) (s : State) : Out' :=
  settled (issue ct [.src 1 b, .src 2 m.index] none
    (releaseBody (relScope ar sc) (fun s =>
      if badPair s a then .error (illopnd 0)
      else if badPair s d then .error (illopnd 3)
      else
        match atomicPieces s (addrG s b m) 16 with
        | .error t => .error t
        | .ok ps => .ok { ps := ps, w := [rdG s a, rdG s (pairReg a), rdG s d, rdG s (pairReg d)] })
    (startLong ct (.casq ct ar sc a b m d p) (fun src s => rmwPerf false (rmwCasq ar sc a p src) src s))) s)

/-! ### Updates of accumulator lines -/

/-- An element of a partial sum after an update by x (R197). -/
def partElem (h : Word) (p : Partial) (i : Nat) (xf : Fmt) (x : Nat) : Partial :=
  tset none p i (some (BitVec.ofNat 64 (match tget none p i with
    | none => (roundVal (hdrFmt h) .rne (xf.val x)).1
    | some e => accApply (hdrFmt h) (hdrOp h) e.toNat xf x)))

/-- A partial sum after the updates of (element, value) pairs. -/
def partApply (h : Word) (p : Partial) (xf : Fmt) (xs : List (Nat × Nat)) : Partial :=
  xs.foldl (fun p e => partElem h p e.1 xf e.2) p

/-- One update of an accumulator line (R192, R197, R198, R200): to the core's slice, its update-only copy, or the
home's elements as a phase-exempt write at the scope. -/
def updLine (s : State) (src : PubSrc) (g : GCore) (sc : Scope) (l1 : Bool) (line : Nat) (xf : Fmt) (xs : List (Nat × Nat)) : State :=
  let s := unpart s line
  let h := tget 0 s.coh.hdr line
  let key := partKey line g.toNat
  if hdrChain h then
    { s with coh := { s.coh with slices := tset [] s.coh.slices key (partApply h (tget [] s.coh.slices key) xf xs) } }
  else if sc = .core && l1 then
    { s with coh := { s.coh with copies := tset [] s.coh.copies key (partApply h (tget [] s.coh.copies key) xf xs) } }
  else
    let ws := xs.flatMap fun e => elemCells s line h e.1 xf e.2
    let s := noteAccess s (dieOf g.toNat) line true
    (dropUnpub (homeLine (pubLog s src sc ws) line) g.toNat (ws.map (·.1))).bumpBy g.toNat 0x0040 (if ws = [] then 0 else 1)

/-- The addresses of the elements that an update touches. -/
def elemAddrs (line : Nat) (h : Word) (xs : List (Nat × Nat)) : List Nat :=
  xs.flatMap fun e => (upTo (hdrElem h)).map fun i => line * 128 + e.1 * hdrElem h + i

/-- A reduction is a strong access to its elements: bytes that one of another size overlapped become free values
(R128, R170). -/
def mixUpd (s0 s : State) (sc : Scope) (n : Nat) (as : List Nat) : State :=
  let bad := as.filter (mixedAt s0 n)
  let s := if bad = [] then s else
    { pubLog s (.core s.g) sc (bad.map fun a => (a, Config.mixedByte (s.fresh * 128 + a % 128))) with fresh := s.fresh + 1 }
  strongMark s n as

/-- A floating-point update where it is performed (R196, R204, R211): the checks at the line, then the update.
`vec` is the lane count of a REDV, 0 for RED. -/
def fredPerf (rem : Bool) (op : AccOp) (sc : Scope) (xf : Fmt) (vec : Nat) (lanes : List (Nat × Nat)) (src : Src)
    (s : State) : Perf :=
  let p := src.ps.headD ⟨0, 0, 0, 0⟩
  if !rem && src.ps.any (isRemote s) then .wait s else
  match spadDenied s .wr src.ps with
  | some t => .trap t
  | none =>
    let h := tget 0 s.coh.hdr (lineOf p.pa)
    let off := p.pa % 128
    if h = 0 then .trap homeIllopnd
    else
      match lostIn s src.ps with
      | some t => .trap t
      | none =>
        if hdrOp h ≠ op || hdrScope h < scopeRank sc || (vec = 32 && hdrElem h == 8) then .trap homeIllopnd
        else if (if vec = 0 then off % hdrElem h ≠ 0 else hdrElem h = 8 && off ≠ 0) then .trap (alignTrap true p.va)
        else
          let xs := lanes.map fun l => (off / hdrElem h + l.1, l.2)
          let as := elemAddrs (lineOf p.pa) h xs
          if s.tenDbg s.t && as.any (mixedAt s (hdrElem h)) then .trap ⟨0x09, 0, BitVec.ofNat 64 p.va⟩
          else
            let t := updLine s (.core s.g) s.g sc (leafCl p.leaf == 0) (lineOf p.pa) xf xs
            .done (tlbFill (mixUpd s t sc (hdrElem h) as) s.g.toNat s.t p)

/-- RED performed (R210). -/
def perfRed (rem : Bool) (op : RedOp) (sc : Scope) (src : Src) (s : State) : Perf :=
  match op with
  | .int o => rmwPerf rem (rmwRed o sc src) src s
  | .flt dbl o =>
    fredPerf rem o sc (if dbl then .f64 else .f32) 0
      [(0, if dbl then (src.w.headD 0).toNat else (src.w.headD 0).toNat % 2 ^ 32)] src s

/-- The bytes of a RED operand in memory (R210). -/
def redBytes : RedOp → Nat
  | .flt false _ => 4
  | _ => 8

/-- RED (R210). -/
def execRed (ct : Ctl) (rel : Bool) (op : RedOp) (sc : Scope) (a b : GReg) (m : AddrOp) (s : State) : Out' :=
  settled (issue ct [.src 0 a, .src 1 b, .src 2 m.index] none
    (releaseBody (relScope rel sc) (fun s =>
      match atomicPieces s (addrG s b m) (redBytes op) with
      | .error t => .error t
      | .ok ps =>
        match noHost s .wr ps with
        | some t => .error t
        | none => .ok { ps := ps, w := [rdG s a] })
    (startLong ct (.red ct rel op sc a b m) (perfRed false op sc))) s)

/-- The active lanes of a REDV with their values (R211). -/
def redvLanes (two : Bool) (src : Src) : List (Nat × Nat) :=
  ((upTo (if two then 32 else 16)).filter fun i => src.k.getLsbD i).map fun i =>
    (i, laneOf (src.v.getD (i / 16) 0) 4 (i % 16))

/-- REDV performed (R211). -/
def perfRedv (rem : Bool) (op : AccOp) (sc : Scope) (a d : VReg) (src : Src) (s : State) : Perf :=
  fredPerf rem op sc .f32 (if a = d then 16 else 32) (redvLanes (a != d) src) src s

/-- REDV (R211). -/
def execRedv (ct : Ctl) (rel : Bool) (op : AccOp) (sc : Scope) (a d : VReg) (b : GReg) (m : AddrOp) (k : KReg)
    (s : State) : Out' :=
  settled (issue ct [.src 1 b, .src 2 m.index] none
    (releaseBody (relScope rel sc) (fun s =>
      match noStream s [(0, a), (3, d)] with
      | some t => .error t
      | none =>
        match atomicPieces s (addrG s b m) (vecBytes a d) with
        | .error t => .error t
        | .ok ps =>
          match noHost s .wr ps with
          | some t => .error t
          | none => .ok { ps := ps, v := [rdV s a, rdV s d], k := rdK s k })
    (startLong ct (.redv ct rel op sc a d b m k) (perfRedv false op sc a d))) s)

/-! ### Line ranges -/

/-- The first line of a range (R206). -/
def rangeVa (s : State) (b : GReg) (r : RangeOp) : Nat := va56 (rdG s b + r.off.signExtend 64)
/-- The lines of a range. -/
def rangeLen (r : RangeOp) : Nat := r.nm1.toNat + 1

/-- The lines of n·128 bytes as accesses. -/
def lineRuns (va n : Nat) : List (Nat × Nat) := (upTo n).map fun i => ((va + 128 * i) % 2 ^ 56, 128)

/-- The checks of a range (R206): alignment, then translation, PROT and WINWRITE of every line as a store. -/
def checkRange (s : State) (va n : Nat) : Except Trap (List Piece) :=
  if va % 128 ≠ 0 then .error (alignTrap true va) else checkRuns s s.g.toNat s.t .wr (lineRuns va n)

/-- The core's copies and slices of a line are discarded (R212). -/
def dropParts (s : State) (line : Nat) : State :=
  let keep (k : Nat) : Bool := k / 4096 != line
  { s with coh := { s.coh with
      copies := s.coh.copies.filter fun c => keep c.1
      slices := s.coh.slices.filter fun c => keep c.1
      sliceHome := s.coh.sliceHome.filter keep } }

/-- A whole line set at its home with a header, 0 for an ordinary line (R212, R216): a phase-exempt write. -/
def setLine (s : State) (sc : Scope) (h : Word) (p : Piece) (bs : List Byte) : State :=
  let line := lineOf p.pa
  let s := dropParts (claim s s.t [p]) line
  let s := writeHome { s with coh := { s.coh with hdr := tset 0 s.coh.hdr line h } } (.core s.g) sc (cellsAt (line * 128) bs)
  (dropUnpub (clearLost s line) s.g.toNat ((upTo 128).map fun i => line * 128 + i)).bump s.g.toNat 0x0040

/-- The identity bytes of a line (R195). -/
def identityBytes (h : Word) : List Byte :=
  (upTo (128 / hdrElem h)).flatMap fun _ => bytesOf (hdrElem h) (accIdentity (hdrFmt h) (hdrOp h))

/-- The bytes of the lines of a range. -/
def lineCells (ps : List Piece) : List (Nat × Byte) :=
  ps.flatMap fun p => (upTo 128).map fun i => (lineOf p.pa * 128 + i, 0)

/-- Whether the homes can take the whole lines of a range (R175). -/
def linesRoom (s : State) (ps : List Piece) : Bool := leesRoom s (lineCells ps)

/-- What an instruction over a range performs now of the lines from `sent` on, and what it leaves: all, or one line where
it is performed line by line, since the range as a whole is not atomic (R212, R216). -/
def linesNow (src : Src) (l : List α) : List α := (l.drop src.sent).take (if src.parts then 1 else l.length)

/-- An instruction over a range after the lines that it performs now. -/
def linesDone (src : Src) (s : State) : Perf :=
  if src.parts && src.sent + 1 < src.ps.length then .part s { src with sent := src.sent + 1 } else .done s

/-- An instruction over a range waits for lees space for its next line (R175, R176). -/
def linesWait (src : Src) (ps : List Piece) (s : State) : Perf := .wait (if src.parts then thirstFor s (lineCells ps) else s)

/-- The operation code of a header (R195). -/
def accId : AccOp → Nat
  | .add => 0
  | .min => 1
  | .max => 2

/-- The header that ACINIT writes, `ch` the chain operand (R212). -/
def initHeader (ch : Option Word) (op : AccOp) (fmt : AccFmt) (sc : Scope) : Word :=
  let base := scopeRank sc + (if fmt = .acc64 then 8 else 0) + accId op * 16
  BitVec.ofNat 64 (match ch with
    | none => base
    | some c => base + 64 + fld c 11 0 * 2 ^ 14 + fld c 28 16 * 2 ^ 26)

/-- A chain operand that R212 refuses. -/
def badChain (c : Word) : Bool :=
  fld c 63 29 ≠ 0 || fld c 15 12 ≠ 0 || fld c 28 16 = 0 || 4096 < fld c 28 16 || 4096 < fld c 11 0 + fld c 28 16

/-- ACINIT performed (R212): the lines one by one in ascending order, each indivisibly. -/
def perfAcinit (op : AccOp) (fmt : AccFmt) (sc : Scope) (src : Src) (s : State) : Perf :=
  let now := linesNow src src.ps
  if !linesRoom s now then linesWait src now s else
  let h := initHeader src.w.head? op fmt sc
  linesDone src (now.foldl (fun s p => setLine s sc h p (identityBytes h)) s)

/-- ACINIT (R212). -/
def execAcinit (ct : Ctl) (chain : Option GReg) (op : AccOp) (fmt : AccFmt) (sc : Scope) (b : GReg) (r : RangeOp)
    (s : State) : Out' :=
  issueLong ct (.acinit ct chain op fmt sc b r) (.src 1 b :: (chain.map (PortUse.src 2)).toList) none
    (perfAcinit op fmt sc) (fun s =>
      let ch := chain.map (rdG s)
      if (ch.map badChain).getD false then .error (illopnd 2) else
      match checkRange s (rangeVa s b r) (rangeLen r) with
      | .error t => .error t
      | .ok ps =>
        match notDram s .wr ps with
        | some t => .error t
        | none => .ok ({ ps := ps, w := ch.toList }, s)) s

/-! ### ACREAD -/

/-- The bytes that an ACREAD reads (R213). -/
def acreadBytes : AcRead → Nat
  | .w _ _ => 4
  | .d _ _ => 8
  | .v _ a b => vecBytes a b
  | .hdr _ => 1

/-- ACREAD with .CLR. -/
def acreadClr : AcRead → Bool
  | .w c _ => c
  | .d c _ => c
  | .v c _ _ => c
  | .hdr _ => false

/-- The value of an ACREAD goes to its destination. -/
def acreadFin (rd : AcRead) (s : State) (h : Word) (bs : List Byte) : State :=
  match rd with
  | .w _ a => wrG s a (wordOfBytes bs)
  | .d _ a => wrG s a (wordOfBytes bs)
  | .v _ a b => if a = b then wrV s a (vOfBytes bs) else wrV (wrV s a (vOfBytes bs)) b (vOfBytes (bs.drop 64))
  | .hdr a => wrG s a h

/-- ACREAD performed (R213): .HDR combines nothing. -/
def perfAcread (rem : Bool) (rd : AcRead) (src : Src) (s : State) : Perf :=
  let p := src.ps.headD ⟨0, 0, 0, 0⟩
  let n := acreadBytes rd
  if !rem && src.ps.any (isRemote s) then .wait s else
  match spadDenied s .rd src.ps with
  | some t => .trap t
  | none =>
    if !isAcc s p.pa then
      match rd with
      | .hdr _ => .done (acreadFin rd s 0 [])
      | _ => .trap homeIllopnd
    else
      match lostIn s src.ps with
      | some t => .trap t
      | none =>
        let s := tlbFill (if n = 1 then unpart s (lineOf p.pa) else recallLines s src.ps) s.g.toNat s.t p
        let h := tget 0 s.coh.hdr (lineOf p.pa)
        let bs := homeBytes s s.t src.ps
        if !acreadClr rd then .done (acreadFin rd s h bs)
        else if n < hdrElem h || (hdrChain h && n ≠ 128) then .trap homeIllopnd
        else
          let ws := cellsAt p.pa (((upTo (n / hdrElem h)).flatMap fun _ =>
            bytesOf (hdrElem h) (accIdentity (hdrFmt h) (hdrOp h))))
          let s := writeHome s (.core s.g) (scopeOfNat (hdrScope h)) ws
          let s := dropUnpub s s.g.toNat (ws.map (·.1))
          let s : State := if hdrChain h then
              { s with coh := { s.coh with hdr := tset 0 s.coh.hdr (lineOf p.pa) (setFld h 51 39 0) } }
            else s
          .done (acreadFin rd (s.bump s.g.toNat 0x0040) h bs)

/-- ACREAD (R213). -/
def execAcread (ct : Ctl) (rd : AcRead) (b : GReg) (m : AddrOp) (s : State) : Out' :=
  let n := acreadBytes rd
  let dst : List PortUse := match rd with
    | .w _ a => [.dst 0 a]
    | .d _ a => [.dst 0 a]
    | .v _ _ _ => []
    | .hdr a => [.dst 0 a]
  issueLong ct (.acread ct rd b m) (dst ++ [.src 1 b, .src 2 m.index]) none (perfAcread false rd) (fun s =>
    let va := addrG s b m
    match (match rd with | .v _ a d => noStream s [(0, a), (3, d)] | _ => none) with
    | some t => .error t
    | none =>
      match checkMem s .rd (va, false) n n with
      | .error t => .error t
      | .ok ps =>
        if acreadClr rd then
          match check s s.g.toNat s.t .wr va n with
          | .error t => .error t
          | .ok _ => .ok ({ ps := ps }, s)
        else .ok ({ ps := ps }, s)) s

/-! ### ACCHAIN -/

/-- The line is not one that ACCHAIN of link l may take (R214). -/
def chainBad (s : State) (l : Nat) (p : Piece) : Bool :=
  let h := tget 0 s.coh.hdr (lineOf p.pa)
  !hdrChain h || l < hdrFirst h || hdrFirst h + hdrLen h ≤ l

/-- The fold of a link's slice, and the turn passed on (R214): a phase-exempt write at the line's scope. -/
def chainFold (s : State) (line : Nat) : State :=
  let s := unpart s line
  let h := tget 0 s.coh.hdr line
  let key := partKey line s.g.toNat
  let p := tget [] s.coh.slices key
  let s := homeLine (foldPartial s s.g (scopeOfNat (hdrScope h)) line h p) line
  let s := dropUnpub s s.g.toNat (elemAddrs line h (p.map fun e => (e.1, 0)))
  { s.bump s.g.toNat 0x0040 with coh := { s.coh with
      slices := tset [] s.coh.slices key []
      sliceHome := s.coh.sliceHome.filter (· != key)
      hdr := tset 0 s.coh.hdr line (setFld h 51 39 (hdrNdone h + 1)) } }

/-- Where an ACCHAIN has come to: all its lines are chained; it waits for the turn at a line; or its turn at a line has
come and updates of its thread are not applied there yet. -/
inductive ChainEnd where
  | all
  | turn (line : Nat)
  | updates (line : Nat)
  deriving DecidableEq, Repr

/-- The lines of an ACCHAIN in order (R214); `applied` says that the thread's updates of a line have been applied. -/
def chainLines (l : Nat) (applied : State → Piece → Bool) (s : State) : List Piece → State × ChainEnd
  | [] => (s, .all)
  | p :: ps =>
    let line := lineOf p.pa
    let h := tget 0 s.coh.hdr line
    if l < hdrFirst h + hdrNdone h then chainLines l applied s ps
    else if hdrFirst h + hdrNdone h = l then
      if applied s p then chainLines l applied (chainFold s line) ps else (s, .updates line)
    else (s, .turn line)

/-- The trap that an ACCHAIN meets at the homes of its lines (R204, R214). -/
def chainTrap (s : State) (ps : List Piece) : Option Trap :=
  if ps.any (chainBad s s.b.lcore.toNat) then some homeIllopnd else lostIn s ps

/-- ACCHAIN performed from a list of withdrawn operations, with a deadline (R214, R423). -/
def perfAcchain (p : PReg) (src : Src) (s : State) : Perf :=
  match chainTrap s src.ps with
  | some t => .trap t
  | none =>
    match chainLines s.b.lcore.toNat (fun _ _ => true) s src.ps with
    | (s', .all) => .done (wrP s' p true)
    | (s', _) => if src.job ≤ s.cycle then .done (wrP (s'.bump s.g.toNat 0x0055) p false) else .wait s'

/-- An ACCHAIN that is not to time out now stays in the rotation, its time running (R170, R214). -/
def chainHold (line tmo : Nat) (s : State) : Res :=
  let w : Wait := match s.c.iss.wait with
    | some w => { w with kind := .chain line, woken := true }
    | none => ⟨.chain line, s.cycle, s.cycle + tmo, true, s.nextId⟩
  .hold (({ s with nextId := s.nextId + 1 } : State).modC fun c => { c with iss := { c.iss with wait := some w } })

/-- ACCHAIN (R214): a wait. Earlier accesses of the thread to its lines come first, updates of a line before the line's
fold (R170, R199). -/
def execAcchain (ct : Ctl) (p : PReg) (b c : GReg) (r : RangeOp) (s : State) : Out' :=
  settled (issue ct [.src 1 b, .src 2 c] none (fun s =>
    match checkRange s (rangeVa s b r) (rangeLen r) with
    | .error t => .trap t
    | .ok ps =>
      let i : Instr := .acchain ct p b c r
      let n := fld (rdG s c) 39 0
      let tmo := if n = 0 then 2 ^ 32 else n
      if s.c.iss.outs.any fun o => !isRed o.i && goesFirst s o i { ps := ps } then
        chainHold (lineOf ((ps.headD ⟨0, 0, 0, 0⟩).pa)) tmo s
      else
      match chainTrap s ps with
      | some t => lateTrap ct i { ps := ps, job := s.cycle + tmo, tmo := tmo } t s
      | none =>
        match chainLines s.b.lcore.toNat (fun s q => inOrder s i { ps := [q] }) s ps with
        | (s', .all) => .ok (wrP s' p true)
        | (s', .updates line) => chainHold line tmo s'
        | (s', .turn line) => waitOr (.chain line) tmo (fun s => .ok (wrP s p false)) s') s)

/-! ### ACFLUSH, ACCKPT, ACRSTR -/

/-- One line of an ACFLUSH (R215). -/
def flushLine (fin : Bool) (s : State) (p : Piece) : State :=
  let line := lineOf p.pa
  let h := tget 0 s.coh.hdr line
  if !isAcc s (line * 128) then s else
  let s := recallLines s [p]
  if !fin then s else
  let bs := s.memBytes (line * 128) 128
  let s := dropParts s line
  let s : State := { s with coh := { s.coh with hdr := tset 0 s.coh.hdr line 0 } }
  (dropUnpub (writeHome s (.core s.g) (scopeOfNat (hdrScope h)) (cellsAt (line * 128) bs)) s.g.toNat
    ((upTo 128).map fun i => line * 128 + i)).bump s.g.toNat 0x0040

/-- ACFLUSH performed (R215, R204). -/
def perfAcflush (rem fin : Bool) (src : Src) (s : State) : Perf :=
  if !rem && src.ps.any (isRemote s) then .wait s else
  match (spadDenied s .wr src.ps).or (lostIn s (src.ps.filter fun p => isAcc s p.pa)) with
  | some t => .trap t
  | none => .done (src.ps.foldl (flushLine fin) s)

/-- ACFLUSH (R215). -/
def execAcflush (ct : Ctl) (fin : Bool) (b : GReg) (r : RangeOp) (s : State) : Out' :=
  issueLong ct (.acflush ct fin b r) [.src 1 b] none (perfAcflush false fin) (fun s =>
    match checkRange s (rangeVa s b r) (rangeLen r) with
    | .error t => .error t
    | .ok ps => .ok ({ ps := ps }, s)) s

/-- Whether the range of n lines at a meets the 136·n bytes at c, on a circle of 2^56 addresses (R216). -/
def areaOverlaps (a c n : Nat) : Bool :=
  (c + 2 ^ 56 - a) % 2 ^ 56 < 128 * n || (a + 2 ^ 56 - c) % 2 ^ 56 < 136 * n

/-- The accesses of a checkpoint area: data lines, then headers (R216). -/
def areaRuns (c n : Nat) : List (Nat × Nat) :=
  lineRuns c n ++ (upTo n).map fun i => ((c + 128 * n + 8 * i) % 2 ^ 56, 8)

/-- The checks of ACCKPT and ACRSTR (R216). -/
def prepCkpt (rstr : Bool) (b c : GReg) (r : RangeOp) (s : State) : Except Trap (Src × State) :=
  let a := rangeVa s b r
  let n := rangeLen r
  let cp := rdG s c
  let acc : Acc := if rstr then .rd else .wr
  if areaOverlaps a (va56 cp) n then .error (illopnd 2)
  else if a % 128 ≠ 0 then .error (alignTrap true a)
  else if cp.toNat % 128 ≠ 0 then .error { alignTrap (!rstr) 0 with val := cp }
  else
    match checkRange s a n with
    | .error t => .error t
    | .ok ps =>
      match (if rstr then notDram s .wr ps else none) with
      | some t => .error t
      | none =>
        match checkRuns s s.g.toNat s.t acc (areaRuns (va56 cp) n) with
        | .error t => .error t
        | .ok qs =>
          match notDram s acc qs with
          | some t => .error t
          | none => .ok ({ ps := ps, qs := qs }, s)

/-- The saved line i: its piece of the range, and its data and header pieces in the area. -/
def ckptLines (src : Src) : List (Piece × Piece × Piece) :=
  let n := src.ps.length
  (upTo n).map fun i => (src.ps.getD i ⟨0, 0, 0, 0⟩, src.qs.getD i ⟨0, 0, 0, 0⟩, src.qs.getD (n + i) ⟨0, 0, 0, 0⟩)

/-- A phase-exempt write of an accumulator instruction at MODULE scope. -/
def moduleWrite (s : State) (p : Piece) (bs : List Byte) : State :=
  let ws := pieceCells [p] bs
  (dropUnpub (writeNow (claim s s.t [p]) (.core s.g) .module ws) s.g.toNat (ws.map (·.1))).bump s.g.toNat 0x0040

/-- ACCKPT performed (R216): the area is checked first, then the lines are saved one by one. -/
def perfAcckpt (rem : Bool) (src : Src) (s : State) : Perf :=
  if !rem && src.ps.any (isRemote s) then .wait s else
  match spadDenied s .wr src.ps with
  | some t => .trap t
  | none =>
    if src.sent = 0 && accIn s src.qs then .trap (illopnd 2)
    else
      match lostIn s (src.ps ++ src.qs) with
      | some t => .trap t
      | none =>
        let now := linesNow src (ckptLines src)
        if !linesRoom s (now.map (·.2.1) ++ now.map (·.2.2)) then linesWait src (now.map (·.2.1)) s else
        linesDone src (now.foldl (fun s e =>
          let s := recallLines s [e.1]
          let bs := homeBytes s s.t [e.1]
          let h := tget 0 s.coh.hdr (lineOf e.1.pa)
          moduleWrite (moduleWrite s e.2.1 bs) e.2.2 (bytesOf 8 h.toNat)) s)

/-- ACCKPT (R216). -/
def execAcckpt (ct : Ctl) (b c : GReg) (r : RangeOp) (s : State) : Out' :=
  issueLong ct (.acckpt ct b c r) [.src 1 b, .src 2 c] none (perfAcckpt false) (prepCkpt false b c r) s

/-- The saved lines that an ACRSTR is to restore, from the bytes of its area: piece, header, data. -/
def rstrLines (src : Src) (area : List Byte) : List (Piece × Word × List Byte) :=
  let n := src.ps.length
  (upTo n).map fun i => (src.ps.getD i ⟨0, 0, 0, 0⟩, wordOfBytes ((area.drop (128 * n + 8 * i)).take 8), (area.drop (128 * i)).take 128)

/-- ACRSTR performed (R216): the area is read and every header checked, then the lines are restored one by one. -/
def perfAcrstr (src : Src) (s : State) : Perf :=
  match (if src.got != [] then none else if accIn s src.qs then some (illopnd 2) else lostIn s src.qs) with
  | some t => .trap t
  | none =>
    let s := if src.got = [] then recallLines s src.qs else s
    let area := if src.got = [] then homeBytes s s.t src.qs else src.got
    let l := rstrLines src area
    if src.got = [] && l.any fun e => e.2.1 != 0 && !hdrValid e.2.1 then .trap (illopnd 2)
    else
      let now := linesNow src l
      if !linesRoom s (now.map (·.1)) then linesWait src (now.map (·.1)) s else
      linesDone { src with got := area }
        (now.foldl (fun s e => setLine s .module (setFld e.2.1 7 7 0) e.1 e.2.2) s)

/-- ACRSTR (R216). -/
def execAcrstr (ct : Ctl) (b c : GReg) (r : RangeOp) (s : State) : Out' :=
  issueLong ct (.acrstr ct b c r) [.src 1 b, .src 2 c] none perfAcrstr (prepCkpt true b c r) s

end Sys2Proof.Machine
end

