-- ==== Sys2Proof/Machine/Engine.lean ====
section
/-! DEFINITION. What the engines share (R181–R183, R331, R389, R390): reads and writes at the home, failure
records, pushed commands and their acceptance. -/

namespace Sys2Proof.Machine

/-! ### Failures -/

/-- A failed job enters a context's record (R183). -/
def Ctx.fails (c : Ctx) (t n : Nat) : Ctx :=
  if c.failures.contains (t, n) then c else { c with failures := c.failures ++ [(t, n)] }

/-- Job n of timeline t of core g has failed (R183): the context that pushed it keeps it, in its slot, parked or
saved; once that context has ended its launch does. -/
def recordFailure (s : State) (g : Nat) (own : Owner) (t n : Nat) : State :=
  let mine (c : Ctx) : Bool := c.tid == own.tid
  let f (c : Ctx) : Ctx := if mine c then c.fails t n else c
  match s.ctxs.find? (fun e => e.1 / 16 == g && e.2.any mine) with
  | some e => { s with ctxs := tset none s.ctxs e.1 (e.2.map f) }
  | none =>
    if (s.core g).parked.any (fun p => mine p.ctx) then
      s.modCore g fun c => { c with parked := c.parked.map fun p => { p with ctx := f p.ctx } }
    else if (s.core g).saved.any (fun e => e.2.any fun x => mine x.2) then
      s.modCore g fun c => { c with saved := c.saved.map fun e => (e.1, e.2.map fun x => (x.1, f x.2)) }
    else
      s.modLaunch own.lid fun l =>
        if l.failures.contains (t, n) then l else { l with failures := l.failures ++ [(t, n)] }

/-! ### Engine reads and writes -/

/-- A piece lies in a scratchpad or a data memory of a core on which another tenant runs than the job's (R441). -/
def otherTenant (s : State) (t : TenantNo) (p : Piece) : Bool :=
  match placeOf s.part p.pa with
  | .spad h => (s.core h).tenant != some t
  | .smem h _ => (s.core h).tenant != some t
  | _ => false

/-- An engine read for core g (R181): the home's bytes after recall and combine; or failure code 1 or 2. -/
def engRead (s : State) (g : Nat) (t : TenantNo) (va : Word) (n : Nat) : Except Nat (List Byte × State) :=
  if n = 0 then .ok ([], s) else
  match check s g t .rd (va56 va) n with
  | .error _ => .error 1
  | .ok ps =>
    if ps.any (otherTenant s t) then .error 1 else
    if (lostIn s ps).isSome then .error 2 else
    let s := recallLines s ps
    .ok (homeBytes s t ps, ps.foldl (fun s p =>
      (pieceLines p).foldl (fun s l => noteRead s g t 0 { p with pa := l * 128 }) (tlbFill s g t p)) s)

/-- n engine reads of `len` bytes, `stride` apart. -/
def engRows (s : State) (g : Nat) (t : TenantNo) (base stride : Word) (len n : Nat) : Except Nat (List (List Byte) × State) :=
  (upTo n).foldl (fun r i =>
    match r with
    | .error c => .error c
    | .ok (rows, s) =>
      match engRead s g t (base + BitVec.ofNat 64 i * stride) len with
      | .error c => .error c
      | .ok (bs, s) => .ok (rows ++ [bs], s)) (.ok ([], s))

/-- The checks of an engine write. -/
def engPieces (s : State) (g : Nat) (t : TenantNo) (va : Word) (n : Nat) : Except Trap (List Piece) :=
  if n = 0 then .ok [] else
  match check s g t .wr (va56 va) n with
  | .error e => .error e
  | .ok ps => if ps.any (otherTenant s t) then .error ⟨0x06, 9, va⟩ else .ok ps

/-- An engine write: a phase-exempt write at MODULE scope, published as it is made (R167, R390). -/
def engStore (s : State) (g : GCore) (t : TenantNo) (ps : List Piece) (bs : List Byte) : State :=
  writeNow (ps.foldl (fun s p => tlbFill s g.toNat t p) (claim s t ps)) (.engine g) .module (pieceCells ps bs)

/-- How an engine's move ends that is not made: the job fails with a code, or its write of some cells waits for room in a
lees store (R175, R391). -/
inductive EngEnd where
  | fail (code : Nat)
  | wait (cells : List (Nat × Byte))
  deriving DecidableEq, Repr

/-- Numbers of `es` bytes each. -/
def elemsOf (es : Nat) : Nat → List Byte → List Nat
  | 0, _ => []
  | n + 1, bs => ofBytes (bs.take es) :: elemsOf es n (bs.drop es)

/-! ### Pushed commands -/

/-- A pushed command meets its queue (R331, R389): accepted where there is room and no earlier one waits; a
cancelled one completes without entering. `src.k` marks the cancel. -/
def perfPush (tl : Nat) (a : GReg) (enter : Src → State → State) (src : Src) (s : State) : Perf :=
  let fin (s : State) : Perf := .done (wrG s a (BitVec.ofNat 64 src.job))
  if src.k ≠ 0 then fin s
  else if queueRoom s s.g.toNat tl && !pendingBelow s s.g.toNat tl src.job then fin (enter src s)
  else .wait s

/-- The own part of a command instruction: its checks, its job number, its push (R331, R389). -/
def pushBody (ct : Ctl) (i : Instr) (tl : Nat) (a : GReg) (enter : Src → State → State)
    (prep : State → Except Trap (List Word)) (s : State) : Res :=
  longBody ct i (perfPush tl a enter) (fun s =>
    match prep s with
    | .error t => .error t
    | .ok w =>
      let (s', n) := takeJob s s.g.toNat tl
      .ok ({ w := w, job := n }, s')) s

/-- The pushes of core g to timeline tl, numbered lo or above, that no queue has accepted are cancelled: their job
numbers. -/
def cancelPushes (s : State) (g tl lo : Nat) (p : Ctx → Out → Bool) : State × List Nat :=
  let hit (c : Ctx) (o : Out) : Bool := pushTl o.i == some tl && o.trap.isNone && lo ≤ o.src.job && o.src.k == 0 && p c o
  let js := (liveCtxs s g).flatMap fun c => (c.iss.outs.filter (hit c)).map fun o => o.src.job
  let w (c : Ctx) (o : Out) : Out := if hit c o then { o with src := { o.src with k := 1 } } else o
  let mark (c : Ctx) : Ctx := { c with iss := { c.iss with outs := c.iss.outs.map (w c) } }
  if js = [] then (s, [])
  else (({ s with ctxs := s.ctxs.map fun e => if e.1 / 16 = g then (e.1, e.2.map mark) else e } : State).modCore g fun c =>
    { c with parked := c.parked.map fun x => { x with ctx := mark x.ctx } }, js)

end Sys2Proof.Machine
end

