-- ==== Sys2Proof/Machine/Message.lean ====
section
/-! DEFINITION. Mailboxes and messages, waits, barrier and wave objects (R218–R245). -/

namespace Sys2Proof.Machine

/-! ### Launch counters -/

/-- SENT of tenant t's launch lid on core g rises by n (R241). -/
def countSent (s : State) (g : Nat) (t : TenantNo) (lid n : Nat) : State :=
  s.modBind g t fun b => if b.lid = lid then { b with sent := b.sent + BitVec.ofNat 64 n } else b

/-- RCVD of tenant t's launch lid on core g rises by n (R241). -/
def countRcvd (s : State) (g : Nat) (t : TenantNo) (lid n : Nat) : State :=
  s.modBind g t fun b => if b.lid = lid then { b with rcvd := b.rcvd + BitVec.ofNat 64 n } else b

/-- A passive point of the running context (R241). -/
def passive (s : State) : State :=
  (countRcvd s s.g.toNat s.t s.c.task.lid s.c.task.taken).modC fun c => { c with task := { c.task with taken := 0 } }

/-! ### Mailboxes -/

/-- The core that a TID names (R223). -/
def tidCore (tid : BitVec 32) : Nat := (tid.extractLsb' 4 12).toNat

/-- The head of the running context's FIFOs of one kind (R225, R230): its place in the core's mailbox. -/
def mailHead (s : State) (line : Bool) : Option (Nat × Msg) :=
  let mine (hi : Bool) (m : Msg) : Bool := m.dst == s.c.tid && m.line == line && m.hi == hi
  let l := (s.core s.g.toNat).mail
  (findIdx? (mine true) l).or (findIdx? (mine false) l)

/-- The first spilled entry of a kind comes back into the store. -/
def unspill (line : Bool) : List Msg → List Msg
  | [] => []
  | m :: ms => if m.line = line && m.spilled then { m with spilled := false } :: ms else m :: unspill line ms

/-- The header of a received message (R227). -/
def msgHeader (m : Msg) : Word := (if m.hi then 0x100000000 else 0) + m.src.setWidth 64

/-- The running context takes the message at a place of the mailbox (R224, R241). -/
def takeMail (s : State) (i : Nat) (m : Msg) : State :=
  let s := s.modCore s.g.toNat fun c =>
    { c with mail := if m.spilled then dropAt c.mail i else unspill m.line (dropAt c.mail i) }
  (s.modC fun c => { c with task := { c.task with taken := c.task.taken + if m.lid = c.task.lid then 1 else 0 } }).bump
    s.g.toNat 0x0051

/-- The delivery of a message (R230). -/
def deliver (acq : Bool) (dst : RecvDst) (b : GReg) (p : PReg) (s : State) (i : Nat) (m : Msg) : State :=
  let s1 := takeMail s i m
  let s2 := match dst with
    | .dword a => wrG s1 a (dwordAt m.data 0)
    | .line a d =>
      let x := wrV s1 a (vOfBytes m.data)
      if a = d then x else wrV x d (vOfBytes (m.data.drop 64))
  acquireIf acq (pairScope (tidCore m.src) s.g.toNat) (wrP (wrG s2 b (msgHeader m)) p true)

/-- A RECV destination takes lines. -/
def recvLine : RecvDst → Bool
  | .dword _ => false
  | .line _ _ => true

/-- The uses and the stream check of a RECV destination. -/
def recvUses : RecvDst → List PortUse
  | .dword a => [.dst 0 a]
  | .line _ _ => []
/-- ILLOPND of a destination that names a stream (R299). -/
def recvStream (s : State) : RecvDst → Option Trap
  | .dword _ => none
  | .line a d => noStream s [(0, a), (3, d)]

/-- The use of a timeout register. -/
def tmoUses : Timeout → List PortUse
  | .imm _ => []
  | .reg e => [.src 4 e]

/-- RECV (R230). -/
def execRecv (ct : Ctl) (acq : Bool) (dst : RecvDst) (b : GReg) (p : PReg) (tmo : Timeout) (s : State) : Out' :=
  issue ct (recvUses dst ++ [.dst 1 b] ++ tmoUses tmo) none (fun s =>
    match recvStream s dst with
    | some t => .trap t
    | none =>
      match mailHead s (recvLine dst) with
      | some (i, m) => .ok (deliver acq dst b p s i m)
      | none => waitOr (.mail (recvLine dst)) (tmoVal s tmo) (fun s => .ok (wrP s p false)) (passive s)) s

/-- RECVP performed (R230). -/
def perfRecvp (acq : Bool) (dst : RecvDst) (b : GReg) (p : PReg) (_ : Src) (s : State) : Perf :=
  match mailHead s (recvLine dst) with
  | some (i, m) => .done (deliver acq dst b p s i m)
  | none => .done (wrP (passive s) p false)

/-- RECVP (R230). -/
def execRecvp (ct : Ctl) (acq : Bool) (dst : RecvDst) (b : GReg) (p : PReg) (s : State) : Out' :=
  issueLong ct (.recvp ct acq dst b p) (recvUses dst ++ [.dst 1 b]) none (perfRecvp acq dst b p) (fun s =>
    match recvStream s dst with
    | some t => .error t
    | none => .ok ({}, s)) s

/-- PROT of a destination TID (R226). -/
def badTid (s : State) (a : Word) : Option Trap :=
  if fld a 63 32 ≠ 0 || s.part.dies * 512 ≤ fld a 15 4 then some ⟨0x06, 0, a⟩ else none

/-- A message leaves its sender (R229, R241): it is on its way until MESSAGE_ACCEPT. -/
def startSend (ct : Ctl) (i : Instr) (line hi : Bool) (src : Src) (s : State) : Res :=
  let dst : BitVec 32 := (src.w.headD 0).setWidth 32
  let data := if line then src.bs.getD [] else bytesOf 8 (src.w.getD 1 0).toNat
  let m : Msg := ⟨dst, s.c.tid, s.t, s.c.task.lid, hi, line, data, false, s.nextId, false⟩
  let s := countSent s s.g.toNat s.t s.c.task.lid 1
  .ok (addOut i src ct.la.toNat none { s with fl := { s.fl with mesh := s.fl.mesh ++ [m] } })

/-- The scope of the release of SEND.REL: the pair scope (R229). -/
def sendScope (rel : Bool) (g : GCore) (src : Src) : Option Scope :=
  if rel then some (pairScope g.toNat (tidCore ((src.w.headD 0).setWidth 32))) else none

/-- SEND (R229). -/
def execSend (ct : Ctl) (rel hi : Bool) (a b : GReg) (s : State) : Out' :=
  issue ct [.src 0 a, .src 1 b] none (releaseBody (sendScope rel s.g) (fun s =>
    match badTid s (rdG s a) with
    | some t => .error t
    | none => .ok { w := [rdG s a, rdG s b] }) (startSend ct (.send ct rel hi a b) false hi)) s

/-- SENDV (R229). -/
def execSendv (ct : Ctl) (rel hi : Bool) (a : GReg) (b c : VReg) (s : State) : Out' :=
  issue ct [.src 0 a] none (releaseBody (sendScope rel s.g) (fun s =>
    match noStream s [(1, b), (2, c)] with
    | some t => .error t
    | none =>
      match badTid s (rdG s a) with
      | some t => .error t
      | none => .ok { w := [rdG s a], bs := some (bytesOf 64 (rdV s b).toNat ++
          bytesOf 64 (if b = c then 0 else (rdV s c).toNat)) })
    (startSend ct (.sendv ct rel hi a b c) true hi)) s

/-! ### WAITFE, SLEEP -/

/-- WAITFE performed (R239). -/
def perfWaitfe (rem empty : Bool) (p : PReg) (src : Src) (s : State) : Perf :=
  fePerf false rem .rd (some (!empty)) false (fun s _ => wrP s p true) (fun s _ => wrP s p false) src s

/-- WAITFE (R239). -/
def execWaitfe (ct : Ctl) (empty : Bool) (p : PReg) (b : GReg) (m : AddrOp) (e : GReg) (s : State) : Out' :=
  settled (issue ct [.src 1 b, .src 2 m.index, .src 4 e] none (fun s =>
    feWait ct (.waitfe ct empty p b m e) .rd (!empty) false (addrG s b m) (fld (rdG s e) 39 0) []
      (perfWaitfe false empty p) (fun s => wrP s p false) s) s)

/-- SLEEP (R240). -/
def execSleep (ct : Ctl) (b : GReg) (imm : BitVec 40) (s : State) : Out' :=
  issue ct [.src 1 b] none (fun s =>
    waitOr .sleep (min (fld (rdG s b) 39 0 + imm.toNat) (2 ^ 40 - 1)) .ok s) s

/-! ### Barrier objects -/

/-- The checks of an object address (R131, R232). -/
def checkObj (s : State) (a : Acc) (va : Word) : Except Trap (List Piece) :=
  if va.toNat % 128 ≠ 0 then .error (alignTrap (a == .wr) va.toNat) else
  match check s s.g.toNat s.t a (va56 va) 128 with
  | .error t => .error t
  | .ok ps =>
    match noHost s a ps with
    | some t => .error t
    | none => .ok ps

/-- What an instruction meets at its object's home (R232): it waits for a remote scratchpad's turn; permission,
an accumulator line (`f` names the operand), a lost line. -/
def objTrap (a : Acc) (f : Nat) (ps : List Piece) (s : State) : Option Trap :=
  (spadDenied s a ps).or (if accIn s ps then some (illopnd f) else lostIn s ps)

/-- An object that a unit counts at does not lie where R232 lets it lie: device DRAM on a cached page, or a scratchpad. -/
def placeBad (s : State) (ps : List Piece) : Bool := ps.any fun p => match placeOf s.part p.pa with
  | .dram _ => leafCl p.leaf == 2
  | .spad _ => false
  | _ => true

/-- The bytes of an object at its home. -/
def objBytes (s : State) (ps : List Piece) : List Byte := homeBytes (recallLines s ps) s.t ps

/-- A change of an object: one phase-exempt write of bytes at offsets (R158, R232). -/
def objWrites (s : State) (sc : Scope) (ps : List Piece) (xs : List (Nat × List Byte)) : State :=
  let ws := xs.flatMap fun x => cellsAt ((ps.headD ⟨0, 0, 0, 0⟩).pa + x.1) x.2
  let s := dropUnpub (writeNow (claim s s.t ps) (.core s.g) sc ws) s.g.toNat (ws.map (·.1))
  if ws.all fun w => isSpadPlace s w.1 then s else s.bump s.g.toNat 0x0040

/-- A change of an object at one offset. -/
def objWrite (s : State) (sc : Scope) (ps : List Piece) (off : Nat) (bs : List Byte) : State :=
  objWrites s sc ps [(off, bs)]

/-- The bytes of an object. -/
def objCells (ps : List Piece) : List (Nat × Byte) := ps.flatMap fun p => (pieceAddrs p).map fun a => (a, 0)

/-- Whether an object's home can take a change (R175). -/
def objRoom (s : State) (ps : List Piece) : Bool := leesRoom s (objCells ps)

/-- A change of an object waits for lees space (R175, R176). -/
def objWait (s : State) (ps : List Piece) : State := thirstFor s (objCells ps)

/-- Fields of a barrier object (R231). -/
def objScope (bs : List Byte) : Nat := fld (dwordAt bs 0) 58 56
def objCexp (bs : List Byte) : Nat := fld (dwordAt bs 0) 55 48
def objNchunk (bs : List Byte) : Nat := fld (dwordAt bs 0) 38 32
def objDone (bs : List Byte) (j : Nat) : Bool := (dwordAt bs 2).getLsbD j
def objCnt (bs : List Byte) (j : Nat) : Nat := (bs.getD (32 + j) 0).toNat

/-- A SCOPE that a barrier object may release and acquire at (R232). -/
def scopeOk (n : Nat) : Bool := 2 ≤ n && n ≤ 5

/-- The event BCOUNT of R246 on the die of an object's home. -/
def countB (s : State) (ev : Nat) (ps : List Piece) : State :=
  let pa := (ps.headD ⟨0, 0, 0, 0⟩).pa
  let d := match placeOf s.part pa with
    | .spad g => dieOf g
    | .smem g _ => dieOf g
    | _ => homeDie s pa
  s.bumpDie d ev 1

/-- The bytes of an object that a count changes (R235, R236): ARRIVED, and with a chunk CNT and DONE, whose bits at or above
NCHUNK stay as they are. -/
def countBytes (bs : List Byte) (n : Nat) (chunk : Option Nat) : List (Nat × List Byte) :=
  (8, bytesOf 4 (min (objArrived bs + n) 0xFFFFFFFF)) ::
    match chunk with
    | none => []
    | some j =>
      let c := min (objCnt bs j + 1) 255
      (32 + j, bytesOf 1 c) ::
        if objCexp bs ≤ c && decide (j < objNchunk bs) then [(16, bytesOf 8 (dwordAt bs 2 ||| (1 : Word) <<< j).toNat)] else []

/-- ARRIVED rises by n, saturating; with a chunk, CNT and DONE (R235, R236). -/
def countArrival (s : State) (ps : List Piece) (n : Nat) (chunk : Option Nat) : State :=
  countB (objWrites s .module ps (countBytes (objBytes s ps) n chunk)) 0x0056 ps

/-- The 64 low bits of a BINIT object (R231, R234). -/
def binitWord (sc : Scope) (exp cfg : Word) : Word :=
  BitVec.ofNat 64 (scopeRank sc * 2 ^ 56 + fld cfg 15 8 * 2 ^ 48 + fld cfg 6 0 * 2 ^ 32 + fld exp 31 0)

/-- A write of a whole object performed (R234, R244). -/
def perfObjSet (rem : Bool) (sc : Scope) (bs : List Byte) (src : Src) (s : State) : Perf :=
  if !rem && src.ps.any (isRemote s) then .wait s else
  match (spadDenied s .wr src.ps).or (if accIn s src.ps then some (illopnd 1) else none) with
  | some t => .trap t
  | none => if objRoom s src.ps then .done (objWrite s sc src.ps 0 bs) else .wait (objWait s src.ps)

/-- BINIT performed (R234). -/
def perfBinit (rem : Bool) (sc : Scope) (src : Src) (s : State) : Perf :=
  perfObjSet rem sc (bytesOf 8 (binitWord sc (src.w.headD 0) (src.w.getD 1 0)).toNat ++ bytesOf 120 0) src s

/-- BINIT (R234). -/
def execBinit (ct : Ctl) (sc : Scope) (b c d : GReg) (s : State) : Out' :=
  issueLong ct (.binit ct sc b c d) [.src 1 b, .src 2 c, .src 3 d] none (perfBinit false sc) (fun s =>
    let cfg := rdG s d
    if 2 ^ 32 ≤ (rdG s c).toNat then .error (illopnd 2)
    else if fld cfg 63 16 ≠ 0 || bit cfg 7 || 64 < fld cfg 6 0 || (fld cfg 6 0 ≠ 0 && fld cfg 15 8 = 0) then
      .error (illopnd 3)
    else
      match checkObj s .wr (rdG s b) with
      | .error t => .error t
      | .ok ps => .ok ({ ps := ps, w := [rdG s c, cfg] }, s)) s

/-- The scope that a BARR.REL finds in its object, 0 where it finds none that is valid (R232, R235). -/
def barrScope (s : State) (ps : List Piece) : Nat :=
  let sc := if (objTrap .wr 1 ps s).isSome then 0 else objScope (objBytes s ps)
  if scopeOk sc then sc else 0

/-- BARR performed (R235): `src.w` holds the increment. -/
def perfBarr (rem rel : Bool) (a : GReg) (src : Src) (s : State) : Perf :=
  if !rem && src.ps.any (isRemote s) then .wait s else
  match objTrap .wr 1 src.ps s with
  | some t => .trap t
  | none =>
    let bs := objBytes s src.ps
    if rel && src.job = 0 then .trap (illopnd 1)
    else if !objRoom s src.ps then .wait (objWait s src.ps)
    else .done (wrG (countArrival s src.ps (src.w.headD 0).toNat none) a (BitVec.ofNat 64 (objArrived bs)))

/-- BARR (R235): the release is at the SCOPE that it reads from the object, and an invalid one is refused at the
home. -/
def execBarr (ct : Ctl) (rel : Bool) (a b c : GReg) (s : State) : Out' :=
  settled (issue ct ([.dst 0 a, .src 1 b] ++ if c = 0 then [] else [.src 2 c]) none
    (releaseBody (fun src => if rel && src.job ≠ 0 then some (scopeOfNat src.job) else none) (fun s =>
      match checkObj s .wr (rdG s b) with
      | .error t => .error t
      | .ok ps => .ok { ps := ps, w := [if c = 0 then 1 else zext 32 (rdG s c)], job := barrScope s ps })
    (startLong ct (.barr ct rel a b c) (perfBarr false rel a))) s)

/-- STC performed (R236): first the store, then at STC_COUNT (`count`), or at a remote scratchpad's turn, the count at the
object. -/
def perfStc (rem count : Bool) (sz : Size) (sc : Scope) (src : Src) (s : State) : Perf :=
  let chunk : Option Nat := (src.w[1]?).map fun w => fld w 5 0
  if src.job = 0 then
    if !rem && src.ps.any (isRemote s) then .wait s else
    match (objTrap .wr 3 src.qs s).or (spadDenied s .wr src.ps) with
    | some t => .trap t
    | none =>
      if (chunk.map fun j => decide (objNchunk (objBytes s src.qs) ≤ j)) == some true then .trap (illopnd 4)
      else
        match mixTrap s s.t (sizeBytes sz) src.ps with
        | some t => .trap t
        | none =>
          let bs := bytesOf (sizeBytes sz) (src.w.headD 0).toNat
          if !leesRoom s (pieceCells src.ps bs) then .wait (thirstFor s (pieceCells src.ps bs))
          else .part (strongWrite s sc (sizeBytes sz) src.ps bs) { src with job := 1 }
  else if (if src.qs.any (isRemote s) then !rem else !count) then .wait s
  else
    match objTrap .wr 3 src.qs s with
    | some t => .trap t
    | none =>
      if !objRoom s src.qs then .wait (objWait s src.qs)
      else .done (countArrival s src.qs 1 chunk)

/-- STC (R236). -/
def execStc (ct : Ctl) (sz : Size) (sc : Scope) (a b : GReg) (m : AddrOp) (d : GReg) (chunk : Option GReg) (s : State) : Out' :=
  let n := sizeBytes sz
  issueLong ct (.stc ct sz sc a b m d chunk)
    ([.src 0 a, .src 1 b, .src 2 m.index, .src 3 d] ++ (chunk.map (PortUse.src 4)).toList) none (perfStc false false sz sc)
    (fun s =>
      let va := addrG s b m
      if va % n ≠ 0 then .error (alignTrap true va)
      else if (rdG s d).toNat % 128 ≠ 0 then .error (alignTrap true (rdG s d).toNat)
      else
        match check s s.g.toNat s.t .wr va n with
        | .error t => .error t
        | .ok ps =>
          let out := ps.findSome? fun p => match placeOf s.part p.pa with
            | .dram _ => none
            | .spad _ => none
            | _ => some (tileProt .wr p.va)
          match out with
          | some t => .error t
          | none =>
            match checkObj s .wr (rdG s d) with
            | .error t => .error t
            | .ok qs => .ok ({ ps := ps, qs := qs, w := rdG s a :: (chunk.map (rdG s)).toList }, s)) s

/-- BREAD performed (R237). -/
def perfBread (rem : Bool) (a : GReg) (i : BitVec 4) (src : Src) (s : State) : Perf :=
  if !rem && src.ps.any (isRemote s) then .wait s else
  match objTrap .rd 1 src.ps s with
  | some t => .trap t
  | none => .done (wrG (recallLines s src.ps) a (dwordAt (objBytes s src.ps) i.toNat))

/-- BREAD (R237). -/
def execBread (ct : Ctl) (a b : GReg) (i : BitVec 4) (s : State) : Out' :=
  issueLong ct (.bread ct a b i) [.dst 0 a, .src 1 b] none (perfBread false a i) (fun s =>
    match checkObj s .rd (rdG s b) with
    | .error t => .error t
    | .ok ps => .ok ({ ps := ps }, s)) s

/-- What a WAITB or WAITC finds at its object (R232, R238): a trap, or whether it is satisfied. -/
def barState (acq : Bool) (chunk : Option Nat) (ps : List Piece) (s : State) : Except Trap Bool :=
  match objTrap .rd 1 ps s with
  | some t => .error t
  | none =>
    let bs := objBytes s ps
    if acq && !scopeOk (objScope bs) then .error (illopnd 1)
    else
      match chunk with
      | none => .ok (objExpect bs ≤ objArrived bs)
      | some j => if objNchunk bs ≤ j then .error (illopnd 2) else .ok (objDone bs j)

/-- The success of a wait on an object. -/
def barDone (acq : Bool) (p : PReg) (ps : List Piece) (s : State) : State :=
  acquireIf acq (scopeOfNat (objScope (objBytes s ps))) (wrP s p true)

/-- WAITB and WAITC performed from the withdrawn list, with a deadline. -/
def perfWaitbar (acq : Bool) (p : PReg) (chunk : Option Nat) (src : Src) (s : State) : Perf :=
  match barState acq chunk src.ps s with
  | .error t => .trap t
  | .ok true => .done (barDone acq p src.ps s)
  | .ok false => if src.job ≤ s.cycle then .done (wrP (s.bump s.g.toNat 0x0055) p false) else .wait s

/-- The own part of WAITB and WAITC (R238). -/
def barWait (ct : Ctl) (i : Instr) (acq : Bool) (p : PReg) (obj : Word) (chunk : Option Nat) (tmo : Nat) (s : State) : Res :=
  match checkObj s .rd obj with
  | .error t => .trap t
  | .ok ps =>
    match barState acq chunk ps s with
    | .ok false =>
      let pa := (ps.headD ⟨0, 0, 0, 0⟩).pa
      waitOr (match chunk with | none => .barrier pa | some j => .chunk pa j) tmo (fun s => .ok (wrP s p false)) s
    | _ => startLong ct i (perfWaitbar acq p chunk) { ps := ps, w := (chunk.map (BitVec.ofNat 64)).toList, job := s.cycle + tmo, tmo := tmo } s

/-- WAITB (R238). -/
def execWaitb (ct : Ctl) (acq : Bool) (p : PReg) (b : GReg) (tmo : Timeout) (s : State) : Out' :=
  settled (issue ct (.src 1 b :: tmoUses tmo) none (fun s =>
    barWait ct (.waitb ct acq p b tmo) acq p (rdG s b) none (tmoVal s tmo) s) s)

/-- The chunk number of WAITC (R238). -/
def chunkVal (s : State) : ChunkOp → Nat
  | .imm j => j.toNat
  | .reg c => fld (rdG s c) 5 0

/-- WAITC (R233, R238). -/
def execWaitc (ct : Ctl) (acq : Bool) (p : PReg) (b : GReg) (c : ChunkOp) (tmo : Timeout) (s : State) : Out' :=
  let cu : List PortUse := match c with
    | .imm _ => []
    | .reg r => [.src 2 r]
  settled (issue ct (.src 1 b :: cu ++ tmoUses tmo) none (fun s =>
    match c with
    | .imm j =>
      if 64 ≤ j.toNat then .trap (illopnd 2)
      else barWait ct (.waitc ct acq p b c tmo) acq p (rdG s b) (some j.toNat) (tmoVal s tmo) s
    | .reg _ => barWait ct (.waitc ct acq p b c tmo) acq p (rdG s b) (some (chunkVal s c)) (tmoVal s tmo) s) s)

/-! ### Quiescence -/

/-- The next core at or above i that keeps counters of the running context's launch. -/
def waveCore (s : State) (i : Nat) : Option (Nat × Bind) :=
  (s.binds.findSome? fun e => match e.2 with
    | some b => if e.1 % 16 = s.t.toNat && b.lid == s.c.task.lid && decide (i ≤ e.1 / 16) then some (e.1 / 16, b) else none
    | none => none)

/-- QWAVE performed (R243): the object turns BUSY; then, at each QWAVE_COLLECT, one core's pair is read; at last
the object takes the totals, at a remote scratchpad's turn where it lies there. `src.job` is 0 before, then one more than
the next core. -/
def perfQwave (rem collect : Bool) (a : GReg) (src : Src) (s : State) : Perf :=
  let far := src.ps.any (isRemote s)
  let next := waveCore s (src.job - 1)
  if !rem && far && (src.job = 0 || next.isNone) then .wait s else
  match objTrap .wr 1 src.ps s with
  | some t => .trap t
  | none =>
    let bs := objBytes s src.ps
    let d0 := dwordAt bs 0
    if src.job = 0 then
      if bit d0 34 then .done (wrG s a 2)
      else if !objRoom s src.ps then .wait (objWait s src.ps)
      else .part (passive (objWrite s .module src.ps 0 (bytesOf 8 (setFld d0 34 34 1).toNat))) { src with w := [0, 0], job := 1 }
    else if !collect && !(far && next.isNone) then .wait s
    else
      match next with
      | some (g, b) => .part s { src with w := [src.w.headD 0 + b.sent, src.w.getD 1 0 + b.rcvd], job := g + 2 }
      | none =>
        if !objRoom s src.ps then .wait (objWait s src.ps) else
        let x := src.w.headD 0
        let r := src.w.getD 1 0
        let q := bit d0 32 && x == r && x == dwordAt bs 1 && r == dwordAt bs 2
        let w := setFld (setFld (setFld (setFld d0 34 34 0) 32 32 1) 31 0 (fld d0 31 0 + 1)) 33 33
          (if q || bit d0 33 then 1 else 0)
        let s := objWrite s .module src.ps 0 (bytesOf 8 w.toNat ++ bytesOf 8 x.toNat ++ bytesOf 8 r.toNat)
        .done (wrG (countB s 0x0057 src.ps) a (wordOfBool q))

/-- QWAVE (R243). -/
def execQwave (ct : Ctl) (a b : GReg) (s : State) : Out' :=
  issueLong ct (.qwave ct a b) [.dst 0 a, .src 1 b] none (perfQwave false false a) (fun s =>
    match checkObj s .wr (rdG s b) with
    | .error t => .error t
    | .ok ps => .ok ({ ps := ps }, s)) s

/-- QRESET performed (R244). -/
def perfQreset (rem : Bool) (src : Src) (s : State) : Perf := perfObjSet rem .module (bytesOf 128 0) src s

/-- QRESET (R244). -/
def execQreset (ct : Ctl) (b : GReg) (s : State) : Out' :=
  issueLong ct (.qreset ct b) [.src 1 b] none (perfQreset false) (fun s =>
    match checkObj s .wr (rdG s b) with
    | .error t => .error t
    | .ok ps => .ok ({ ps := ps }, s)) s

end Sys2Proof.Machine
end

