-- ==== Sys2Proof/Machine/Collective.lean ====
section
/-! DEFINITION. The collective engine (R398–R403): COLL and COLLA, the start of a job, the messages of the fabric,
chunk counts and timeouts. -/

namespace Sys2Proof.Machine

/-! ### Groups -/

/-- CGRPt.g and CSEQt.g (R398). -/
def cgrpReg (t : TenantNo) (n : BitVec 6) : Nat := tenReg t (0x1000 + 16 * n.toNat)
def cseqReg (t : TenantNo) (n : BitVec 6) : Nat := tenReg t (0x1008 + 16 * n.toNat)

/-- Fields of CGRP. -/
def grpMem (w : Word) : Nat := fld w 63 48
def grpRank (w : Word) : Nat := fld w 47 32
def grpSwid (w : Word) : Nat := fld w 31 16

/-- Fields of a COLLA descriptor (R399). -/
def CollJob.dw (j : CollJob) (i : Nat) : Word := j.desc.getD i 0
def CollJob.len (j : CollJob) : Nat := fld (j.dw 2) 39 0
def CollJob.op (j : CollJob) : Nat := fld (j.dw 4) 49 48
def CollJob.root (j : CollJob) : Nat := fld (j.dw 4) 47 32
def CollJob.nch (j : CollJob) : Nat := fld (j.dw 4) 13 8 + 1

/-! ### Acceptance -/

/-- The descriptor that a COLL stands for (R399), and the code with which its length fails (0: none). -/
def collDesc (op : CollOp) (nchm1 group : BitVec 6) (grp b len obj root : Word) : List Word × Nat :=
  let n := grpMem grp
  let part : Word := BitVec.ofNat 64 (len.toNat / n)
  let own : Word := BitVec.ofNat 64 (grpRank grp * (len.toNat / n))
  let exact := n != 0 && len.toNat % n == 0
  let code := match op with
    | .allred => 0
    | .redscat => 1
    | .allgath => 2
    | .bcast => 3
  let w4 : Word := BitVec.ofNat 64 (code * 2 ^ 48 + root.toNat % 65536 * 2 ^ 32 + nchm1.toNat * 256 + group.toNat)
  let big := op == .bcast && decide (65536 ≤ root.toNat)
  let bad (l : Word) : Nat := if big || 2 ^ 40 ≤ l.toNat then 4 else 0
  match op with
  | .allred | .bcast => ([b, b, len, obj, w4, 0, 0, 0], bad len)
  | .redscat => ([b, b + own, part, obj, w4, 0, 0, 0], if exact then bad part else 6)
  | .allgath => ([b + own, b, part, obj, w4, 0, 0, 0], if exact then bad part else 6)

/-- A COLLA descriptor without reserved bits (R399). -/
def collaOk (d : List Word) : Bool :=
  let w (i : Nat) : Word := d.getD i 0
  fld (w 2) 63 40 == 0 && fld (w 4) 63 50 == 0 && fld (w 4) 31 14 == 0 && fld (w 4) 7 6 == 0 && w 5 == 0 && w 6 == 0 && w 7 == 0

/-- A job is accepted (R402): it takes SEQ from its group, which rises by one. -/
def collEnter (s : State) (g : GCore) (t : TenantNo) (own : Owner) (job : Nat) (d : List Word) (bad : Nat) : State :=
  let grp : BitVec 6 := (d.getD 4 0).extractLsb' 0 6
  let seq : W32 := (s.cfgAt (cseqReg t grp)).setWidth 32
  let s := s.setCfg (cseqReg t grp) ((seq + 1).setWidth 64)
  { s with fl := { s.fl with colls := s.fl.colls ++
    [{ g := g, job := job, tenant := t, own := own, desc := d, seq := seq, group := grp, bad := bad }] } }

/-- A job whose descriptor cannot be read names no group, so that it takes no SEQ; it fails when it starts (R391). -/
def collRefused (s : State) (g : GCore) (t : TenantNo) (own : Owner) (job code : Nat) : State :=
  { s with fl := { s.fl with colls := s.fl.colls ++
    [{ g := g, job := job, tenant := t, own := own, desc := [], seq := 0, group := 0, bad := code }] } }

/-- COLL enters the queue. -/
def enterColl (op : CollOp) (nchm1 group : BitVec 6) (src : Src) (s : State) : State :=
  let (d, bad) := collDesc op nchm1 group (s.cfgAt (cgrpReg s.t group)) (src.w.getD 0 0) (src.w.getD 1 0) (src.w.getD 2 0)
    (src.w.getD 3 0)
  collEnter s s.g s.t s.owner src.job d bad

/-- COLLA enters the queue: the engine reads its descriptor, which names the group. -/
def enterColla (src : Src) (s : State) : State :=
  match engRead s s.g.toNat s.t (src.w.getD 0 0) 64 with
  | .error c => collRefused s s.g s.t s.owner src.job c
  | .ok (bs, s) =>
    let d := (upTo 8).map (dwordAt bs)
    collEnter s s.g s.t s.owner src.job d (if collaOk d then 0 else 4)

/-- COLL (R399). -/
def execColl (ct : Ctl) (op : CollOp) (a b c d e : GReg) (nchm1 group : BitVec 6) (s : State) : Out' :=
  settled (issue ct ([.dst 0 a, .src 1 b, .src 2 c, .src 3 d] ++ if op = .bcast then [.src 4 e] else []) none
    (pushBody ct (.coll ct op a b c d e nchm1 group) 2 a (enterColl op nchm1 group) (fun s =>
      if (rdG s b).toNat % 128 ≠ 0 then .error (alignTrap false (rdG s b).toNat)
      else .ok [rdG s b, rdG s c, rdG s d, if op = .bcast then rdG s e else 0])) s)

/-- COLLA (R399). -/
def execColla (ct : Ctl) (a b : GReg) (s : State) : Out' :=
  settled (issue ct [.dst 0 a, .src 1 b] none
    (pushBody ct (.colla ct a b) 2 a enterColla (fun s =>
      if (rdG s b).toNat % 64 ≠ 0 then .error (alignTrap false (rdG s b).toNat) else .ok [rdG s b])) s)

/-! ### Pieces -/

/-- A stretch cut at 4 KiB: offsets and lengths. -/
def cutPieces (fuel off n : Nat) : List (Nat × Nat) :=
  match fuel with
  | 0 => []
  | f + 1 => if n = 0 then [] else (off, min n 4096) :: cutPieces f (off + min n 4096) (n - min n 4096)

/-- Pieces (chunk, offset, length) of a segment of len bytes that begins at `base` of a region of `total` bytes in nch
chunks (R400, R403): offsets within the segment. -/
def segPieces (base len total nch : Nat) : List (Nat × Nat × Nat) :=
  let cs := total / nch
  if cs = 0 then [] else
  (upTo nch).flatMap fun j =>
    let lo := max base (j * cs)
    let hi := min (base + len) ((j + 1) * cs)
    (cutPieces ((hi - lo) / 4096 + 1) (lo - base) (hi - lo)).map fun x => (j, x.1, x.2)

/-- The header of a message of a job (R403). -/
def collHdr (j : CollJob) (grp : Word) (chunk seg off len : Nat) : FabHdr :=
  { tag := BitVec.ofNat 16 (j.tenant.toNat * 64 + j.group.toNat), seq := j.seq, nmem := BitVec.ofNat 16 (grpMem grp)
    rank := BitVec.ofNat 16 (grpRank grp), swid := BitVec.ofNat 16 (grpSwid grp), chunk := BitVec.ofNat 8 chunk
    seg := BitVec.ofNat 16 seg, length := BitVec.ofNat 16 len, offset := BitVec.ofNat 40 off }

/-- What a job sends (R403): message type, segment, the offset of the segment in SEND, and the pieces. -/
def collSends (j : CollJob) (grp : Word) : List (Nat × Nat × Nat × List (Nat × Nat × Nat)) :=
  let n := grpMem grp
  let r := grpRank grp
  match j.op with
  | 0 => [(0x21, 0, 0, segPieces 0 j.len j.len j.nch)]
  | 1 => (upTo n).map fun x => (0x21, x, x * j.len, segPieces 0 j.len j.len j.nch)
  | 2 => [(0x23, r, 0, segPieces (r * j.len) j.len (n * j.len) j.nch)]
  | _ => if r = j.root then [(0x23, 0, 0, segPieces 0 j.len j.len j.nch)] else []

/-- What a job awaits (R403). -/
def collWants (j : CollJob) (grp : Word) : List CollPiece :=
  let n := grpMem grp
  let r := grpRank grp
  let at' (seg base : Nat) (l : List (Nat × Nat × Nat)) : List CollPiece :=
    l.map fun x => ⟨x.1, seg, x.2.1, x.2.2, j.dw 1 + BitVec.ofNat 64 (base + x.2.1)⟩
  match j.op with
  | 0 => at' 0 0 (segPieces 0 j.len j.len j.nch)
  | 1 => at' r 0 (segPieces 0 j.len j.len j.nch)
  | 2 => ((upTo n).filter fun x => x != r).flatMap fun x => at' x (x * j.len) (segPieces (x * j.len) j.len (n * j.len) j.nch)
  | _ => if r = j.root then [] else at' 0 0 (segPieces 0 j.len j.len j.nch)

/-- The bytes that a job copies itself when SEND ≠ RECV (R400): its own ALLGATH segment, or the root's broadcast:
the offset in RECV. -/
def collOwn (j : CollJob) (grp : Word) : Option Nat :=
  if j.dw 0 = j.dw 1 then none
  else if j.op = 2 then some (grpRank grp * j.len)
  else if j.op = 3 && grpRank grp == j.root then some 0
  else none

/-- The length rule of R400. -/
def collLenOk (j : CollJob) (grp : Word) : Bool :=
  if j.op = 2 then j.len % 128 == 0 && grpMem grp * j.len % (128 * j.nch) == 0 else j.len % (128 * j.nch) == 0

/-! ### Jobs -/

/-- The state with the job of that core and number changed. -/
def modColl (s : State) (g : GCore) (job : Nat) (f : CollJob → CollJob) : State :=
  { s with fl := { s.fl with colls := s.fl.colls.map fun j => if j.g = g && j.job == job then f j else j } }

/-- A collective job ends: done, or failed with a code (R391). -/
def collEnd (s : State) (j : CollJob) (code : Nat) : State :=
  let h := j.g.toNat
  let s := { s with fl := { s.fl with colls := s.fl.colls.filter fun x => !(x.g == j.g && x.job == j.job) } }
  let s := if code = 0 then s else recordFailure (s.modCore h fun c =>
    { c with eng := { c.eng with collFail := ⟨BitVec.ofNat 8 code, j.job⟩ } }) h j.own 2 j.job
  jobDone s h 2 j.job

/-- The pieces of a job's barrier object, where it passes R232 (R401). -/
def collObj (s : State) (j : CollJob) : Option (List Piece) :=
  if (j.dw 3).toNat % 128 ≠ 0 then none else
  match check s j.g.toNat j.tenant .wr (va56 (j.dw 3)) 128 with
  | .error _ => none
  | .ok ps => if placeBad s ps || accIn s ps || (lostIn s ps).isSome then none else some ps

/-- The bytes of the job's object at its home. -/
def collObjBytes (s : State) (j : CollJob) (ps : List Piece) : List Byte := homeBytes (recallLines s ps) j.tenant ps

/-- The code with which a job fails before it sends anything (R391); 0: none. -/
def collCode (s : State) (j : CollJob) (grp : Word) : Nat :=
  if j.bad ≠ 0 then j.bad
  else if !bit grp 0 || !collLenOk j grp then 6
  else if (j.dw 0).toNat % 128 ≠ 0 || (j.dw 1).toNat % 128 ≠ 0 || (j.op == 3 && grpMem grp ≤ j.root) then 4
  else
    match collObj s j with
    | none => 5
    | some ps => if objNchunk (collObjBytes s j ps) < j.nch then 5 else 0

/-- The messages of a job, in order, read from SEND; or the code of a failed read. -/
def collMessages (s : State) (j : CollJob) (grp : Word) : Except Nat (List (Byte × FabHdr × List Byte) × State) :=
  ((collSends j grp).flatMap fun x => x.2.2.2.map fun p => (x.1, x.2.1, x.2.2.1, p)).foldl (fun r x =>
    match r with
    | .error c => .error c
    | .ok (l, s) =>
      let (ty, seg, base, chunk, off, len) := x
      match engRead s j.g.toNat j.tenant (j.dw 0 + BitVec.ofNat 64 (base + off)) len with
      | .error c => .error c
      | .ok (bs, s) => .ok (l ++ [(BitVec.ofNat 8 ty, collHdr j grp chunk seg off len, bs)], s)) (.ok ([], s))

/-- An engine write of a job: the write, or how it ends. -/
def collWrite (s : State) (j : CollJob) (va : Word) (bs : List Byte) : Except EngEnd State :=
  match engPieces s j.g.toNat j.tenant va bs.length with
  | .error _ => .error (.fail 3)
  | .ok ps => if leesRoom s (pieceCells ps bs) then .ok (engStore s j.g j.tenant ps bs) else .error (.wait (pieceCells ps bs))

/-- The copy of a job's own segment (R400). -/
def collCopy (s : State) (j : CollJob) (grp : Word) : Except EngEnd State :=
  match collOwn j grp with
  | none => .ok s
  | some off =>
    match engRead s j.g.toNat j.tenant (j.dw 0) j.len with
    | .error c => .error (.fail c)
    | .ok (bs, s) => collWrite s j (j.dw 1 + BitVec.ofNat 64 off) bs

/-- Whether two jobs belong to one group. -/
def sameGroup (j x : CollJob) : Bool := x.desc != [] && x.tenant == j.tenant && x.group == j.group

/-- The first job of core g that may start (R390, R402): the jobs stand in order of acceptance, so that one is due which
is the first of its group; a refused job may start at once. -/
def collNext (s : State) (g : GCore) : Option CollJob :=
  s.fl.colls.find? fun j => j.g == g && !j.started &&
    (j.desc == [] || (s.fl.colls.find? (sameGroup j)).any fun x => x.g == j.g && x.job == j.job)

/-- COLLECTIVE_JOB_START (R402): the next job of core g starts and sends its requests. -/
def execCollectiveJobStart (g : GCore) (s : State) : Out' :=
  match collNext s g with
  | none => .next s
  | some j =>
    let grp := s.cfgAt (cgrpReg j.tenant j.group)
    let code := collCode s j grp
    if code ≠ 0 then .next (collEnd s j code) else
    match collMessages s j grp with
    | .error c => .next (collEnd s j c)
    | .ok (ms, s1) =>
      match collCopy s1 j grp with
      | .error (.wait ws) => .next (thirstFor s ws)
      | .error (.fail c) => .next (collEnd s1 j c)
      | .ok s2 =>
        let s3 := { s2 with fl := { s2.fl with fabOut := s2.fl.fabOut ++ ms } }
        .next (modColl s3 g j.job fun j => { j with started := true, want := collWants j grp, clock := s.cycle })

/-- The module discards a fabric message (R403). -/
def collDiscard (s : State) : State := s.bumpAll (fun _ => true) 0x0072 1

/-- A message's header names a piece that a running job awaits; its LENGTH aside. -/
def pieceMatches (h : FabHdr) (reply : Bool) (j : CollJob) (p : CollPiece) : Bool :=
  j.started && (if reply then j.op ≤ 1 else 2 ≤ j.op) && h.tag == BitVec.ofNat 16 (j.tenant.toNat * 64 + j.group.toNat) &&
    h.seq == j.seq && h.chunk.toNat == p.chunk && h.seg.toNat == p.seg && h.offset.toNat == p.off

/-- The cc at which a job that awaits a message times out; none where it does not (R402). -/
def collLimit (s : State) (j : CollJob) : Option Nat :=
  let lim := fld (s.cfgAt (modReg 0)) 31 0
  if j.started && j.want != [] && lim != 0 then some (j.clock + lim * 1024) else none

/-- A reduction reply or a multicast delivery arrives (R403); a job whose time is over has failed before (R402). -/
def collArrive (reply : Bool) (h : FabHdr) (payload : List Byte) (s : State) : State :=
  match s.fl.colls.findSome? fun j => (j.want.find? (pieceMatches h reply j)).map fun p => (j, p) with
  | none => collDiscard s
  | some (j, p) =>
    if (collLimit s j).any fun cc => decide (cc < s.cycle) then collDiscard (collEnd s j 7)
    else if h.length.toNat ≠ p.len then collEnd s j 7 else
    match collWrite s j p.dst (payload.take p.len) with
    | .error (.wait ws) => thirstFor s ws
    | .error (.fail c) => collEnd s j c
    | .ok s => modColl s j.g j.job fun j => { j with want := j.want.filter (fun x => x != p), clock := s.cycle }

/-- REDUCTION_REPLY (R403). -/
def execReductionReply (h : FabHdr) (payload : List Byte) (s : State) : Out' := .next (collArrive true h payload s)
/-- MULTICAST_DATA (R403). -/
def execMulticastData (h : FabHdr) (payload : List Byte) (s : State) : Out' := .next (collArrive false h payload s)

/-- A chunk of a job that may be counted (R401). -/
def chunkReady (j : CollJob) (n : Nat) : Bool :=
  j.started && n < j.nch && !j.counted.contains n && !j.want.any fun p => p.chunk == n

/-- COLL_CHUNK_COUNT (R401): chunk n of a job of core g is counted at the job's object; the job is done with its last. -/
def execCollChunkCount (g : GCore) (n : BitVec 6) (s : State) : Out' :=
  match s.fl.colls.find? fun j => j.g == g && chunkReady j n.toNat with
  | none => .next s
  | some j =>
    match collObj s j with
    | none => .next (collEnd s j 5)
    | some ps =>
      if !objRoom s ps then .next (objWait s ps) else
      let bs := collObjBytes s j ps
      let base := (ps.headD ⟨0, 0, 0, 0⟩).pa
      let ws := (countBytes bs 1 (some n.toNat)).flatMap fun x => cellsAt (base + x.1) x.2
      let s := countB (writeNow (recallLines s ps) (.engine g) .module ws) 0x0056 ps
      let s := s.bumpAll (fun _ => true) 0x0071 1
      let j := { j with counted := n.toNat :: j.counted }
      if j.counted.length = j.nch then .next (collEnd s j 0) else .next (modColl s g j.job fun _ => j)

/-- COLL_TIMEOUT (R402): a job of core g awaits a message and has had none for CTO.LIM·1,024 cc. -/
def execCollTimeout (g : GCore) (s : State) : Out' :=
  match s.fl.colls.find? fun j => j.g == g && (collLimit s j).any fun cc => decide (cc ≤ s.cycle) with
  | none => .next s
  | some j => .next (collEnd s j 7)

end Sys2Proof.Machine
end

