-- ==== Sys2Proof/Machine/Copy.lean ====
section
/-! DEFINITION. The copy unit (R388–R397): its instructions, and the pieces and ends of its jobs. -/

namespace Sys2Proof.Machine

/-! ### Commands -/

/-- A command enters the copy queue. -/
def enterC (c : Src → Except Trap CpyCmd) (src : Src) (s : State) : State :=
  cEnter s s.g.toNat s.t s.owner src.job (match c src with | .ok x => x | .error _ => .bad)

/-- The commands of the instructions, from their operand values. -/
def cmdCpy (len : Timeout) (src : Src) : Except Trap CpyCmd :=
  match len with
  | .imm n => cpyCmd false (src.w.getD 0 0) (src.w.getD 1 0) (n.setWidth 64)
  | .reg _ => cpyCmd true (src.w.getD 0 0) (src.w.getD 1 0) (src.w.getD 2 0)
def cmdCpy2d (src : Src) : Except Trap CpyCmd := cpy2dCmd (src.w.getD 0 0)
def cmdCpyf (a b : VType) (src : Src) : Except Trap CpyCmd := cpyfCmd a b (src.w.getD 0 0) (src.w.getD 1 0) (src.w.getD 2 0)
def cmdCpyg (rb : BitVec 13) (src : Src) : Except Trap CpyCmd :=
  cpygCmd rb (src.w.getD 0 0) (src.w.getD 1 0) (src.w.getD 2 0) (src.w.getD 3 0)

/-- A push to the copy queue with the operand values `w`. -/
def cPush (ct : Ctl) (i : Instr) (a : GReg) (c : Src → Except Trap CpyCmd) (w : State → List Word) (s : State) : Res :=
  pushBody ct i 0 a (enterC c) (fun s =>
    match c { w := w s } with
    | .error t => .error t
    | .ok _ => .ok (w s)) s

/-- The length register of CPY.R. -/
def lenUses : Timeout → List PortUse
  | .imm _ => []
  | .reg r => [.src 3 r]
/-- Its value. -/
def lenVal (s : State) : Timeout → List Word
  | .imm _ => []
  | .reg r => [rdG s r]

/-- CPY (R393). -/
def execCpy (ct : Ctl) (a b c : GReg) (len : Timeout) (s : State) : Out' :=
  settled (issue ct ([.dst 0 a, .src 1 b, .src 2 c] ++ lenUses len) none
    (cPush ct (.cpy ct a b c len) a (cmdCpy len) fun s => [rdG s b, rdG s c] ++ lenVal s len) s)

/-- CPY2D (R394). -/
def execCpy2d (ct : Ctl) (a b : GReg) (s : State) : Out' :=
  settled (issue ct [.dst 0 a, .src 1 b] none (cPush ct (.cpy2d ct a b) a cmdCpy2d fun s => [rdG s b]) s)

/-- CPYF (R395). -/
def execCpyf (ct : Ctl) (src dst : VType) (a b c d : GReg) (s : State) : Out' :=
  settled (issue ct [.dst 0 a, .src 1 b, .src 2 c, .src 3 d] none
    (cPush ct (.cpyf ct src dst a b c d) a (cmdCpyf src dst) fun s => [rdG s b, rdG s c, rdG s d]) s)

/-- CPYG (R396). -/
def execCpyg (ct : Ctl) (a b c d e : GReg) (rowb : BitVec 13) (s : State) : Out' :=
  settled (issue ct [.dst 0 a, .src 1 b, .src 2 c, .src 3 d, .src 4 e] none
    (cPush ct (.cpyg ct a b c d e rowb) a (cmdCpyg rowb) fun s => [rdG s b, rdG s c, rdG s d, rdG s e]) s)

/-! ### Pieces -/

/-- The state with the head job of core g's copy queue replaced. -/
def setCpy (s : State) (g : Nat) (j : CpyJob) : State :=
  s.modCore g fun c => { c with eng := { c.eng with cq := j :: c.eng.cq.drop 1 } }

/-- A move of bytes within a job: the write, or how it ends. -/
def cpyWrite (s : State) (g : Nat) (j : CpyJob) (va : Word) (bs : List Byte) : Except EngEnd State :=
  match engPieces s g j.tenant va bs.length with
  | .error _ => .error (.fail 3)
  | .ok ps =>
    if !leesRoom s (pieceCells ps bs) then .error (.wait (pieceCells ps bs))
    else .ok ((engStore s (BitVec.ofNat 12 g) j.tenant ps bs).bumpAll (fun h => clusterOf h == clusterOf g) 0x0070 bs.length)

/-- Whether two runs of addresses meet. -/
def runsMeet (a n b m : Nat) : Bool := a < b + m && b < a + n

/-- Whether the source and destination of a CPY overlap, by virtual or by physical address (R393). -/
def cpyOverlap (s : State) (g : Nat) (j : CpyJob) (dst src : Word) (n : Nat) : Bool :=
  runsMeet (va56 dst) n (va56 src) n ||
    match check s g j.tenant .rd (va56 src) n, check s g j.tenant .wr (va56 dst) n with
    | .ok ps, .ok qs => ps.any fun p => qs.any fun q => runsMeet p.pa p.n q.pa q.n
    | _, _ => false

/-- The addresses of the source and the destination rows of a CPY2D. -/
def rowSrc (b : List Byte) (i : Nat) : Word := dwordAt b 0 + BitVec.ofNat 64 i * dwordAt b 2
def rowDst (b : List Byte) (i : Nat) : Word := dwordAt b 1 + BitVec.ofNat 64 i * dwordAt b 3
def rowBytes (b : List Byte) : Nat := fld (dwordAt b 4) 44 32
def rowCount (b : List Byte) : Nat := fld (dwordAt b 4) 20 0

/-- A CPY2D descriptor without reserved bits and with its fields in range (R394). -/
def desc2dOk (b : List Byte) : Bool :=
  fld (dwordAt b 4) 63 45 == 0 && fld (dwordAt b 4) 31 21 == 0 && dwordAt b 5 == 0 &&
    1 ≤ rowBytes b && rowBytes b ≤ 4096 && 1 ≤ rowCount b && rowCount b ≤ 2 ^ 20

/-- The last row of a CPY2D from row i on that writes a byte, with the byte's place in the row. -/
def lastWriter (s : State) (g : Nat) (j : CpyJob) (i pa : Nat) : Option (Nat × Nat) :=
  let n := rowCount j.blk
  (upTo (n - i)).findSome? fun k =>
    match engPieces s g j.tenant (rowDst j.blk (n - 1 - k)) (rowBytes j.blk) with
    | .error _ => none
    | .ok ps => (findIdx? (fun a => a == pa) (ps.flatMap pieceAddrs)).map fun x => (n - 1 - k, x.1)

/-- Whether byte o of source row i is read as it was before the job's write: a free value of the job (R394). -/
def row2dOld (g : Nat) (j : CpyJob) (i o : Nat) : Bool :=
  Config.oldOrNew (2 ^ 120 + ((g * 2 ^ 64 + j.job) * 2 ^ 20 + i) * 4096 + o)

/-- What a CPY2D reads as byte o of source row i, which stands at `pa` and holds `cur` (R394): where the job writes the
byte too, its value before or after that write, of which one still to come gives what its own source byte reads. -/
def val2d (fuel : Nat) (s : State) (g : Nat) (j : CpyJob) (i o pa : Nat) (cur : Byte) : Byte :=
  let old := (tget none j.old pa).getD cur
  if row2dOld g j i o then old else
  match fuel, lastWriter s g j j.pos pa with
  | _, none => cur
  | 0, some _ => old
  | f + 1, some (k, x) =>
    match check s g j.tenant .rd (va56 (rowSrc j.blk k)) (rowBytes j.blk) with
    | .error _ => old
    | .ok ps => val2d f s g j k x ((ps.flatMap pieceAddrs).getD x 0) ((homeBytes s j.tenant ps).getD x 0)

/-- The bytes of source row i. -/
def read2d (s : State) (g : Nat) (j : CpyJob) (i : Nat) (cells : List (Nat × Byte)) : List Byte :=
  (cells.zipIdx).map fun c => val2d (rowCount j.blk) s g j i c.2 c.1.1 c.1.2

/-- The bytes read from va with their physical addresses. -/
def readCells (s : State) (g : Nat) (t : TenantNo) (va : Word) (bs : List Byte) : List (Nat × Byte) :=
  match check s g t .rd (va56 va) bs.length with
  | .ok ps => pieceCells ps bs
  | .error _ => []

/-- Row i of a CPY2D: the bytes written and the job with the bytes that they displace. -/
def move2d (s : State) (g : Nat) (j : CpyJob) (i : Nat) : Except EngEnd (CpyJob × State) :=
  match engRead s g j.tenant (rowSrc j.blk i) (rowBytes j.blk) with
  | .error c => .error (.fail c)
  | .ok (bs, s) =>
    let out := read2d s g j i (readCells s g j.tenant (rowSrc j.blk i) bs)
    let old := match engPieces s g j.tenant (rowDst j.blk i) (rowBytes j.blk) with
      | .error _ => j.old
      | .ok ps => (pieceCells ps (homeBytes s j.tenant ps)).foldl (fun t c =>
          if (tget none t c.1).isSome then t else tset none t c.1 (some c.2)) j.old
    match cpyWrite s g j (rowDst j.blk i) out with
    | .error c => .error c
    | .ok s => .ok ({ j with old := old, pos := i + 1 }, s)

/-- Up to n steps of a job; the first that cannot be made ends the piece, and the steps before it stand (R391). -/
def moves (n : Nat) (f : CpyJob → State → Except EngEnd (CpyJob × State)) (j : CpyJob) (s : State) :
    Except EngEnd (CpyJob × State) :=
  match n with
  | 0 => .ok (j, s)
  | n + 1 =>
    match f j s with
    | .error e => .error e
    | .ok (j, s) =>
      match moves n f j s with
      | .error _ => .ok (j, s)
      | r => r

/-- The next piece of a CPY (R390, R393). -/
def pieceCpy (s : State) (g : Nat) (j : CpyJob) (dst src : Word) (n : Nat) : Except EngEnd (CpyJob × State) :=
  let m := min 4096 (n - j.pos)
  let off : Word := BitVec.ofNat 64 j.pos
  let put (bs : List Byte) (j : CpyJob) (s : State) : Except EngEnd (CpyJob × State) :=
    match cpyWrite s g j (dst + off) bs with
    | .error c => .error c
    | .ok s => .ok ({ j with pos := j.pos + m, finished := decide (n ≤ j.pos + m) }, s)
  if !j.started && cpyOverlap s g j dst src n then
    match engRead s g j.tenant src n with
    | .error c => .error (.fail c)
    | .ok (bs, s) => put (bs.take m) { j with started := true, blk := bs } s
  else if j.blk ≠ [] then put ((j.blk.drop j.pos).take m) j s
  else
    match engRead s g j.tenant (src + off) m with
    | .error c => .error (.fail c)
    | .ok (bs, s) => put bs { j with started := true } s

/-- The next piece of a CPY2D (R394): as many whole rows as 4 KiB hold, and at least one. -/
def piece2d (s : State) (g : Nat) (j : CpyJob) (desc : Word) : Except EngEnd (CpyJob × State) :=
  match (if j.started then (.ok (j.blk, s) : Except Nat _) else engRead s g j.tenant desc 48) with
  | .error c => .error (.fail c)
  | .ok (b, s) =>
    if !desc2dOk b then .error (.fail 4) else
    let j := { j with started := true, blk := b }
    let n := min (max 1 (4096 / rowBytes b)) (rowCount b - j.pos)
    match moves n (fun j s => move2d s g j j.pos) j s with
    | .ok (j, s) => .ok ({ j with finished := decide (rowCount b ≤ j.pos) }, s)
    | r => r

/-- The next piece of a CPYF (R395). -/
def pieceF (s : State) (g : Nat) (j : CpyJob) (sty dty : VType) (d a c : Word) : Except EngEnd (CpyJob × State) :=
  let es := lanesBits sty / 8
  let ed := lanesBits dty / 8
  let n := min (4096 / max es ed) (c.toNat - j.pos)
  match engRead s g j.tenant (a + BitVec.ofNat 64 (j.pos * es)) (n * es) with
  | .error e => .error (.fail e)
  | .ok (bs, s) =>
    let out := (elemsOf es n bs).flatMap fun x => bytesOf ed (convert .rne sty dty x).1
    match cpyWrite s g j (d + BitVec.ofNat 64 (j.pos * ed)) out with
    | .error e => .error e
    | .ok s => .ok ({ j with started := true, pos := j.pos + n, finished := decide (c.toNat ≤ j.pos + n) }, s)

/-- Row i of a CPYG (R396). -/
def moveG (d a l : Word) (rb : Nat) (g : Nat) (j : CpyJob) (s : State) : Except EngEnd (CpyJob × State) :=
  match engRead s g j.tenant (l + BitVec.ofNat 64 (4 * j.pos)) 4 with
  | .error e => .error (.fail e)
  | .ok (xs, s) =>
    match engRead s g j.tenant (a + BitVec.ofNat 64 (ofBytes xs * rb)) rb with
    | .error e => .error (.fail e)
    | .ok (bs, s) =>
      match cpyWrite s g j (d + BitVec.ofNat 64 (j.pos * rb)) bs with
      | .error e => .error e
      | .ok s => .ok ({ j with pos := j.pos + 1 }, s)

/-- The next piece of a CPYG. -/
def pieceG (s : State) (g : Nat) (j : CpyJob) (d a l k : Word) (rb : Nat) : Except EngEnd (CpyJob × State) :=
  match moves (min (max 1 (4096 / rb)) (k.toNat - j.pos)) (moveG d a l rb g) j s with
  | .ok (j, s) => .ok ({ j with started := true, finished := decide (k.toNat ≤ j.pos) }, s)
  | r => r

/-- The next piece of a copy job. -/
def cpyPiece (s : State) (g : Nat) (j : CpyJob) : Except EngEnd (CpyJob × State) :=
  match j.cmd with
  | .cpy d a n => pieceCpy s g j d a n.toNat
  | .cpy2d b => piece2d s g j b
  | .cpyf a b d x c => pieceF s g j a b d x c
  | .cpyg d a l k rb => pieceG s g j d a l k rb
  | .bad => .error (.fail 4)

/-- A job that accesses nothing and is done at once (R393). -/
def cpyEmpty (j : CpyJob) : Bool :=
  match j.cmd with
  | .cpy _ _ n => n == 0
  | _ => false

/-- The core whose copy job moves next (R390): round robin over the cluster's cores. -/
def cpyNext (s : State) (c : Nat) : Option (Nat × CpyJob) :=
  (upTo 8).findSome? fun i =>
    let g := c * 8 + ((s.cluster c).rr + i) % 8
    match (s.core g).eng.cq with
    | j :: _ => if j.finished || cpyEmpty j then none else some (g, j)
    | [] => none

/-- COPY_PIECE (R390): the copy unit of a cluster moves the next piece. -/
def execCopyPiece (c : ClusterNo) (s : State) : Out' :=
  match cpyNext s c.toNat with
  | none => .next s
  | some (g, j) =>
    let turnTo (s : State) : State := s.modCluster c.toNat fun x => { x with rr := (g % 8 + 1) % 8 }
    match cpyPiece s g j with
    | .error (.wait ws) => .next (thirstFor s ws)
    | .ok (j', s') => .next (turnTo (setCpy s' g j'))
    | .error (.fail e) => .next (turnTo (setCpy s g { j with started := true, finished := true, fail := e }))

/-- COPY_JOB_DONE (R393): the head of core g's copy queue has completed or failed. -/
def execCopyJobDone (g : GCore) (s : State) : Out' :=
  let h := g.toNat
  match (s.core h).eng.cq with
  | [] => .next s
  | j :: r =>
    if !(j.finished || cpyEmpty j) then .next s else
    let s := s.modCore h fun c => { c with eng := { c.eng with cq := r } }
    let s := if j.fail = 0 then s else recordFailure (s.modCore h fun c =>
      { c with eng := { c.eng with cqFail := ⟨BitVec.ofNat 8 j.fail, j.job⟩ } }) h j.own 0 j.job
    .next (jobDone s h 0 j.job)

end Sys2Proof.Machine
end

