-- ==== Sys2Proof/Machine/Special.lean ====
section
/-! DEFINITION. The special functions (R89). A result that R89 fixes is computed; where it gives a bound only, the
result is the free value of Config, held to the bound by a fixed-point enclosure of the exact value. -/

namespace Sys2Proof.Machine

open Sys2Proof.Config (SfuFn)

/-! ### Fixed-point functions: a real y stands as the integer y · 2^256 -/

/-- The number of fraction bits. -/
def fxP : Nat := 256
/-- One. -/
def fxOne : Int := (2 ^ fxP : Nat)

/-- A sum of n·2^p/(k·2^k): ln 2 = Σ 1/(k·2^k). -/
def ln2Sum (fuel k p acc : Nat) : Nat :=
  match fuel with
  | 0 => acc
  | f + 1 => ln2Sum f (k + 1) (p / 2) (acc + p / 2 / k)
/-- ln 2. -/
def fxLn2 : Int := (ln2Sum 280 1 (2 ^ (fxP + 32)) 0 / 2 ^ 32 : Nat)

/-- The alternating sum of 2^q/((2i+1)·n^(2i+1)), the arc tangent of 1/n. -/
def atanSum (fuel i p n : Nat) (acc : Int) : Int :=
  match fuel with
  | 0 => acc
  | f + 1 => atanSum f (i + 1) (p / (n * n)) n (if i % 2 = 0 then acc + (p / (2 * i + 1) : Nat) else acc - (p / (2 * i + 1) : Nat))

/-- The fraction bits of π: enough to reduce the largest binary32 value. -/
def piQ : Nat := 416
/-- π with piQ fraction bits: 16·atan(1/5) − 4·atan(1/239). -/
def fxPi : Int := 16 * atanSum 95 0 (2 ^ piQ / 5) 5 0 - 4 * atanSum 30 0 (2 ^ piQ / 239) 239 0

/-- Terms of a power series: term(n) = term(n−1)·r/n, signs by `alt`: 1 takes every term, −1 alternates among
those of one parity. -/
def expSum (fuel n : Nat) (r term acc : Int) : Int :=
  match fuel with
  | 0 => acc
  | f + 1 => expSum f (n + 1) r (term * r / (n : Int) / fxOne) (acc + term * r / (n : Int) / fxOne)

/-- e^r for 0 ≤ r < 1. -/
def fxExpFrac (r : Int) : Int := expSum 75 1 r fxOne fxOne

/-- y · 2^k; below every bit that counts it is 0. -/
def fxShift (y k : Int) : Int :=
  if 0 ≤ k then y * (2 ^ k.toNat : Nat) else if k < -2000 then 0 else y / (2 ^ (-k).toNat : Nat)

/-- e^x. -/
def fxExp (x : Int) : Int := fxShift (fxExpFrac (x % fxLn2)) (x / fxLn2)
/-- 2^x. -/
def fxExp2 (x : Int) : Int := fxShift (fxExpFrac (x % fxOne * fxLn2 / fxOne)) (x / fxOne)

/-- A sum of z^(2i+1)/(2i+1), the area tangent of z. -/
def atanhSum (fuel i : Nat) (z2 p acc : Int) : Int :=
  match fuel with
  | 0 => acc
  | f + 1 => atanhSum f (i + 1) z2 (p * z2 / fxOne) (acc + p / ((2 * i + 1 : Nat) : Int))

/-- log2 of m · 2^e for m > 0. -/
def fxLog2 (m : Nat) (e : Int) : Int :=
  let b : Nat := bits m - 1
  let y : Int := (m * 2 ^ fxP / 2 ^ b : Nat)
  let z := (y - fxOne) * fxOne / (y + fxOne)
  (e + (b : Int)) * fxOne + 2 * atanhSum 90 0 (z * z / fxOne) z 0 * fxOne / fxLn2

/-- Terms r^n/n! with the signs of sine and cosine, from term n on. -/
def trigSum (fuel n : Nat) (r term acc : Int) : Int :=
  match fuel with
  | 0 => acc
  | f + 1 =>
    let t := term * r / fxOne * r / fxOne / ((n * (n + 1) : Nat) : Int)
    trigSum f (n + 2) r (-t) (acc - t)

/-- ±m · 2^e modulo 2π, with fxP fraction bits. -/
def fxAngle (neg : Bool) (m : Nat) (e : Int) : Int :=
  let x : Int := fxShift (if neg then -(m : Int) else m) (e + piQ)
  x % (2 * fxPi) / (2 ^ (piQ - fxP) : Nat)

/-- sin and cos of a reduced angle. -/
def fxSin (r : Int) : Int := trigSum 60 2 r r r
def fxCos (r : Int) : Int := trigSum 60 1 r fxOne fxOne

/-- ±m · 2^e with fxP fraction bits. -/
def fxOf (neg : Bool) (m : Nat) (e : Int) : Int := fxShift (if neg then -(m : Int) else m) (e + fxP)

/-- tanh x. -/
def fxTanh (x : Int) : Int :=
  let t := fxExp (2 * x)
  (t - fxOne) * fxOne / (t + fxOne)

/-! ### Bounds -/

/-- The exact value of a function at a finite nonzero input, in fixed point. -/
def fxValue (f : SfuFn) (neg : Bool) (m : Nat) (e : Int) : Int :=
  match f with
  | .exp => fxExp (fxOf neg m e)
  | .exp2 => fxExp2 (fxOf neg m e)
  | .log2 => fxLog2 m e
  | .rcp => fxOne * fxOne / fxOf neg m e
  | .rsq => (isqrt 400 ((2 : Nat) ^ (3 * fxP) / (fxOf false m e).toNat) 0 : Nat)
  | .sqrt => (isqrt 400 ((fxOf false m e).toNat * 2 ^ fxP) 0 : Nat)
  | .sin => if neg then -fxSin (fxAngle false m e) else fxSin (fxAngle false m e)
  | .cos => fxCos (fxAngle false m e)
  | .tanh => fxTanh (fxOf neg m e)

/-- The bound in ulp (R89). -/
def sfuUlps : SfuFn → Int
  | .exp | .rsq | .sin | .cos | .tanh => 2
  | .exp2 | .log2 | .rcp | .sqrt => 1

/-- ulp(y) of R89, in fixed point. -/
def fxUlp (y : Int) : Int :=
  let l : Int := (bits y.natAbs : Int) - 1 - (fxP : Int)
  fxShift fxOne ((if l < -126 then -126 else l) - 23)

/-- |x| is beyond 1024π (R89). -/
def farAngle (m : Nat) (e : Int) : Bool := decide (1024 * fxPi < fxShift m (e + piQ))

/-- The largest allowed distance from the exact value y (R89), with the fixed point's own error. -/
def sfuBound (f : SfuFn) (m : Nat) (e y : Int) : Int :=
  let b := match f with
    | .sin => if farAngle m e then fxShift fxOne (-20) else sfuUlps f * fxUlp y
    | .cos => if farAngle m e then fxShift fxOne (-20) else sfuUlps f * fxUlp y
    | _ => sfuUlps f * fxUlp y
  b + (2 ^ 32 : Nat)

/-- Whether a binary32 code lies within d of y. -/
def withinOf (r : W32) (y d : Int) : Bool :=
  match Fmt.f32.val r.toNat with
  | .fin neg m e => decide ((fxOf neg m e - y).natAbs ≤ d.toNat)
  | _ => false

/-- A result that R89 bounds: the free value where it keeps the bound, else the nearest binary32 value. -/
def sfuFree (f : SfuFn) (x : W32) (neg : Bool) (m : Nat) (e : Int) : W32 :=
  let y := fxValue f neg m e
  let r := Config.sfuValue f x
  if withinOf r y (sfuBound f m e y) then r
  else BitVec.ofNat 32 (roundFin .f32 .rne (decide (y < 0)) y.natAbs (-(fxP : Int))).1

/-! ### Special inputs and exact results -/

/-- Binary32 codes. -/
def f32Nan : W32 := 0x7FC00000
def f32One : W32 := 0x3F800000
def f32Inf : W32 := 0x7F800000
def f32Signed (neg : Bool) (x : W32) : W32 := if neg then x ||| 0x80000000 else x

/-- m · 2^e as an integer, when it is one. -/
def asInteger (neg : Bool) (m : Nat) (e : Int) : Option Int :=
  let v : Int := if neg then -(m : Int) else m
  if 0 ≤ e then (if e < 200 then some (v * (2 ^ e.toNat : Nat)) else none)
  else if m % 2 ^ (-e).toNat = 0 then some (v / (2 ^ (-e).toNat : Nat)) else none

/-- A power of two as a binary32 code. -/
def f32Pow2 (k : Int) : W32 := BitVec.ofNat 32 (roundFin .f32 .rne false 1 k).1
/-- An integer as a binary32 code. -/
def f32Int (k : Int) : W32 := BitVec.ofNat 32 (roundFin .f32 .rne (decide (k < 0)) k.natAbs 0).1

/-- The result at ±0 (R89). -/
def sfuZero (f : SfuFn) (neg : Bool) : W32 × BitVec 6 :=
  match f with
  | .exp | .exp2 | .cos => (f32One, 0)
  | .log2 => (f32Signed true f32Inf, fDZ)
  | .rcp | .rsq => (f32Signed neg f32Inf, fDZ)
  | .sqrt | .sin | .tanh => (f32Signed neg 0, 0)

/-- The result at ±∞ (R89). -/
def sfuInf (f : SfuFn) (neg : Bool) : W32 × BitVec 6 :=
  match f with
  | .exp | .exp2 => (if neg then 0 else f32Inf, 0)
  | .log2 | .sqrt => if neg then (f32Nan, fNV) else (f32Inf, 0)
  | .rcp => (f32Signed neg 0, 0)
  | .rsq => if neg then (f32Nan, fNV) else (0, 0)
  | .sin | .cos => (f32Nan, fNV)
  | .tanh => (f32Signed neg f32One, 0)

/-- Whether a positive m · 2^e exceeds 88.722839 (R89). -/
def overExp (m : Nat) (e : Int) : Bool := decide (fxShift 88722839 fxP < 1000000 * fxOf false m e)

/-- The result at a finite nonzero input (R89). -/
def sfuFinite (f : SfuFn) (x : W32) (neg : Bool) (m : Nat) (e : Int) : W32 × BitVec 6 :=
  match f with
  | .exp => if !neg && overExp m e then (f32Inf, fOF) else (sfuFree f x neg m e, 0)
  | .exp2 =>
    if !neg && decide (128 * fxOne ≤ fxOf false m e) then (f32Inf, fOF)
    else
      match asInteger neg m e with
      | some k => if -149 ≤ k then (f32Pow2 k, 0) else (sfuFree f x neg m e, 0)
      | none => (sfuFree f x neg m e, 0)
  | .log2 =>
    if neg then (f32Nan, fNV)
    else if m = 2 ^ (bits m - 1) then (f32Int (e + ((bits m - 1 : Nat) : Int)), 0)
    else (sfuFree f x neg m e, 0)
  | .rsq => if neg then (f32Nan, fNV) else (sfuFree f x neg m e, 0)
  | .sqrt => if neg then (f32Nan, fNV) else (BitVec.ofNat 32 (roundVal .f32 .rne (sqrtVal m e)).1, 0)
  | .tanh => if 10 * fxOne ≤ fxOf false m e then (f32Signed neg f32One, 0) else (sfuFree f x neg m e, 0)
  | _ => (sfuFree f x neg m e, 0)

/-- A special function of a binary32 code: result and flags (R89). A subnormal input is a zero of its sign. -/
def sfuLane (f : SfuFn) (x : W32) : W32 × BitVec 6 :=
  let x := if x.extractLsb' 23 8 = 0 then x &&& 0x80000000 else x
  match Fmt.f32.val x.toNat with
  | .nan sig => (f32Nan, if sig then fNV else 0)
  | .inf neg => sfuInf f neg
  | .fin neg m e => if m = 0 then sfuZero f neg else sfuFinite f x neg m e

end Sys2Proof.Machine
end

