-- ==== Sys2Proof/Machine/Vector.lean ====
section
/-! DEFINITION. Vector and mask instructions over register groups and streams (R293–R319), and the events of the
stream unit. -/

namespace Sys2Proof.Machine

/-! ### Lanes and groups -/

/-- Register i of a group (R296). -/
def nextVReg (r : VReg) (i : Nat) : VReg := { r with idx := r.idx + BitVec.ofNat 5 i }

/-- The registers of a group (R296). -/
def groupSize (v : VCtl) : Nat := 2 ^ v.grp.toNat

/-- A group as one number, its first register lowest. -/
def rdGroup (s : State) (r : VReg) (n : Nat) : Nat :=
  ((upTo n).map fun i => (rdV s (nextVReg r i)).toNat * 2 ^ (512 * i)).sum

/-- A group as it stands, for lanes that keep their value. -/
def curGroup (s : State) (r : VReg) (n : Nat) : Nat :=
  ((upTo n).map fun i => (curV s (nextVReg r i)).toNat * 2 ^ (512 * i)).sum

/-- A group written. -/
def wrGroup (s : State) (r : VReg) (n x : Nat) : State :=
  (upTo n).foldl (fun s i => wrV s (nextVReg r i) (BitVec.ofNat 512 (x / 2 ^ (512 * i)))) s

/-- Lane i of w bits. -/
def lane (w x i : Nat) : Nat := x / 2 ^ (w * i) % 2 ^ w

/-- A group with the given lanes replaced; absent lanes keep their value. -/
def mergeLanes (w old : Nat) : List (Option Nat) → Nat
  | [] => old
  | l :: ls => l.getD old % 2 ^ w + 2 ^ w * mergeLanes w (old / 2 ^ w) ls

/-- The lane width of a width code (R293). -/
def widthBits : VWidth → Nat
  | .b => 8
  | .h => 16
  | .w => 32
  | .d => 64

/-! ### Streams -/

/-- Stream register r of the running context. -/
def State.stream (s : State) (r : VReg) : Stream := tget {} s.c.streams r.idx.toNat
/-- The running context with a stream register replaced. -/
def setStream (s : State) (r : VReg) (x : Stream) : State :=
  s.modC fun c => { c with streams := tput c.streams r.idx.toNat x }

/-- The element size of a stream in bytes (R317). -/
def Stream.bytes (x : Stream) : Nat := 2 ^ x.size.toNat
/-- The number of elements of a stream (R300). -/
def Stream.total (x : Stream) : Nat := x.n.foldl (· * ·) 1

/-- The address of an element: index 0 varies fastest (R300). -/
def elemAddr (base : Int) (k : Nat) : List Nat → List Word → Int
  | n :: ns, d :: ds => elemAddr (base + (k % n : Nat) * d.toInt) (k / n) ns ds
  | _, _ => base

/-- The virtual address of a stream's element j places after its position. -/
def Stream.addr (x : Stream) (j : Nat) : Nat :=
  (elemAddr x.base.toNat (x.total - x.left + j) x.n x.stride % (2 ^ 56 : Nat)).toNat

/-- The special-function requests of the running thread whose results go to a write stream. -/
def sfuStores (s : State) : List SfuReq :=
  let e := (s.core s.g.toNat).eng
  (e.sfuRun.map (·.1) ++ e.sfuQ).filter fun r => r.g == s.g && r.k == s.k && r.elems.isSome

/-- The stores of a stream that are still to come from the special-function unit. -/
def sfuPushes (s : State) (r : VReg) : List SfuReq := (sfuStores s).filter fun q => q.dst == r

/-- The pushed stores of one stream are performed in element order (R303). -/
def flushStream (s : State) (r : VReg) : State :=
  let x := s.stream r
  if x.pushed = [] then s else
  setStream (x.pushed.foldl (fun s p => storeNow s s.g.toNat s.t 0 p.1 p.2) s) r { x with pushed := [] }

/-- A stream after SSTOP: read-ahead discarded, configured (R318). -/
def Stream.stopped (x : Stream) : Stream := { x with ahead := [], st := .configured }

/-! ### Operands -/

/-- A vector operand of an instruction: its field, register, whether it is the destination, its lane bits and
the size of its group. -/
structure VOp where
  f : Nat
  r : VReg
  dst : Bool
  w : Nat
  n : Nat
  deriving DecidableEq, Repr

/-- Two groups overlap, but not exactly (R296). -/
def partOverlap (a b : VOp) : Bool :=
  a.r.shared == b.r.shared && decide (a.r.idx.toNat < b.r.idx.toNat + b.n) && decide (b.r.idx.toNat < a.r.idx.toNat + a.n) &&
    !(a.r == b.r && a.n == b.n)

/-- A register of an operand's group is a stream that the group may not hold: any with GRP ≠ 0; with GRP = 0, where only
VCVT has a group, its destination may be a stream's register (R299, R310). -/
def streamInGroup (s : State) (v : VCtl) (o : VOp) : Bool :=
  !(v.grp == 0 && (streamOf s o.r).isSome) && (upTo o.n).any fun i => (streamOf s (nextVReg o.r i)).isSome

/-- The rule of R296 or R299 that an operand breaks, among the operands of its instruction. -/
def badOperand (s : State) (v : VCtl) (ops : List VOp) (o : VOp) : Bool :=
  o.r.idx.toNat % o.n != 0 || (o.dst && ops.any fun p => !p.dst && partOverlap o p) || streamInGroup s v o ||
  match streamOf s o.r with
  | none => false
  | some x => x.st == .configured || x.wr != o.dst || 8 * x.bytes != o.w || ops.any fun p => decide (p.f < o.f) && p.r == o.r

/-- An operand names an exhausted stream (R301). -/
def spent (s : State) (o : VOp) : Bool :=
  match streamOf s o.r with
  | none => false
  | some x => x.left == 0

/-- The checks of R296 to R301, in field order (R306). -/
def vChecks (s : State) (v : VCtl) (ops : List VOp) : Option Trap :=
  if v.rep && !ops.any (fun o => (streamOf s o.r).isSome) then some (illopnd 0)
  else (ops.find? fun o => badOperand s v ops o || (!v.rep && spent s o)).map fun o => illopnd o.f

/-- The operands that name streams. -/
def streamOps (s : State) (ops : List VOp) : List VOp := ops.filter fun o => (streamOf s o.r).isSome

/-- The elements that an instruction of m lanes transfers per stream (R301). -/
def tailOf (s : State) (ops : List VOp) (m : Nat) : Nat :=
  (streamOps s ops).foldl (fun t o => min t (s.stream o.r).left) m

/-- The read of one element on behalf of the thread (R302, R304). -/
def readElem (s : State) (x : Stream) (va : Nat) : State × Ahead :=
  match check s s.g.toNat s.t .rd va x.bytes with
  | .error t => (s, .bad va { t with val := BitVec.ofNat 64 va } false)
  | .ok ps =>
    match (spadDenied s .rd ps).or (lostIn s ps) with
    | some t => (s, .bad va { t with val := BitVec.ofNat 64 va } false)
    | none =>
      let s := combineAll s (ps.flatMap pieceLines)
      let bs := loadBytes s x.bytes ps
      (touchRead (markRemote (loadFresh s x.bytes ps) x.bytes ps) s.g.toNat s.t 0 ps, .ok va ps bs)

/-- A read-ahead whose read failed (R304). -/
def Ahead.failed (a : Ahead) : Bool :=
  match a with
  | .bad _ _ _ => true
  | .ok _ _ _ => false

/-- The position of the first failed element among the first t that were read ahead, its address, its trap and
whether that has been raised. -/
def aheadTrap (x : Stream) (t : Nat) : Option (Nat × Nat × Trap × Bool) :=
  (findIdx? Ahead.failed (x.ahead.take t)).bind fun r =>
    match r.2 with
    | .bad va e again => some (r.1, va, e, again)
    | .ok _ _ _ => none

/-- The first t elements of the read-ahead as lanes; other lanes are zero (R301). -/
def popLanes (x : Stream) (t : Nat) : Nat :=
  ofBytes ((x.ahead.take t).flatMap fun a => match a with
    | .ok _ _ bs => bs
    | .bad _ _ _ => [])

/-- What the sources of an instruction give in this turn: their values, a wait for read-ahead, or a trap. -/
inductive Gather where
  | vals (l : List Nat)
  | short (s : State)
  | bad (s : State) (t : Trap)
  deriving Repr

/-- A stream's element i fails with trap e, which is raised now; an element that failed before is read again
first (R304). -/
def failElem (s : State) (r : VReg) (i va : Nat) (e : Trap) (again : Bool) : Gather :=
  let put (s : State) (a : Ahead) : State :=
    setStream s r { s.stream r with ahead := (s.stream r).ahead.take i ++ [a], flt := (s.stream r).flt || a.failed }
  if !again then .bad (put s (.bad va e true)) e else
  match readElem s (s.stream r) va with
  | (s', .ok va ps bs) => .short (put s' (.ok va ps bs))
  | (s', .bad va e _) => .bad (put s' (.bad va e true)) e

/-- The source operands' values (R301, R304). -/
def gather (s : State) (ops : List VOp) (t : Nat) : Gather :=
  let src := ops.filter fun o => !o.dst
  let str := streamOps s src
  match str.findSome? (fun o => (aheadTrap (s.stream o.r) t).map fun e => (o, e)) with
  | some (o, i, va, e, again) => failElem s o.r i va e again
  | none =>
    if str.any fun o => (s.stream o.r).ahead.length < t then .short s
    else .vals (src.map fun o =>
      if (streamOf s o.r).isSome then popLanes (s.stream o.r) t else rdGroup s o.r o.n)

/-- The checks of the elements that a push stores, lowest lane first (R303, R304). -/
def checkPush (s : State) (x : Stream) : List Nat → Except Trap (List (Nat × List Piece))
  | [] => .ok []
  | i :: is =>
    match check s s.g.toNat s.t .wr (x.addr i) x.bytes with
    | .error t => .error { t with val := BitVec.ofNat 64 (x.addr i) }
    | .ok ps =>
      match checkPush s x is with
      | .error t => .error t
      | .ok l => .ok ((i, ps) :: l)

/-- The bytes of a stream that are pushed and not stored, those to come from the special-function unit included. -/
def pushedBytes (s : State) (r : VReg) : Nat :=
  ((s.stream r).pushed.map fun p => p.2.length).sum + ((sfuPushes s r).map fun q => 4 * (q.elems.getD []).length).sum

/-- The streams of an instruction advance by t elements (R301). -/
def advanceStreams (s : State) (ops : List VOp) (t : Nat) : State :=
  (streamOps s ops).foldl (fun s o =>
    let x := s.stream o.r
    setStream s o.r { x with
      left := x.left - t, ahead := x.ahead.drop t, st := if x.left ≤ t then .exhausted else x.st }) s

/-! ### One repetition -/

/-- What a repetition computes: lanes of the destination, flags, the running value, and other writes. -/
structure VOut where
  lanes : List (Option Nat) := []
  fl : BitVec 6 := 0
  x : Option W32 := none
  upd : State → State := id

/-- The repetitions that the instruction at the PC has done (R297). -/
def repDone (s : State) : Nat := if s.c.iss.rep.pc = s.c.pc then s.c.iss.rep.done else 0
/-- The running value that an earlier repetition left (R297, R314). -/
def repValue (s : State) : Option W32 := if repDone s = 0 then none else s.c.iss.rep.x

/-- The repetition after this one is the context's next issue (R297). -/
def nextRep (s : State) (x : Option W32) : State :=
  let n := repDone s + 1
  s.modC fun c => { c with iss := { c.iss with rep := ⟨c.pc, n, x⟩ } }

/-- The destination operand's lanes written: a register group, or a write stream's next elements (R301). -/
def putLanes (s : State) (o : VOp) (lanes : List (Option Nat)) (elems : List (Nat × List Piece)) : State :=
  match streamOf s o.r with
  | none => wrGroup s o.r o.n (mergeLanes o.w (curGroup s o.r o.n) lanes)
  | some x =>
    setStream s o.r { x with pushed := x.pushed ++ elems.filterMap fun e =>
      ((lanes[e.1]?).join).map fun v => (e.2, bytesOf x.bytes v) }

/-- The check of a write stream's destination for the active lanes below t: its elements' pieces, or a wait for
its store buffer of 512 bytes (R303). -/
def prepDst (s : State) (ops : List VOp) (t : Nat) (act : Nat → Bool) : Except Trap (Option (List (Nat × List Piece))) :=
  match ops.find? (fun o => o.dst && (streamOf s o.r).isSome) with
  | none => .ok (some [])
  | some o =>
    let x := s.stream o.r
    match checkPush s x ((upTo t).filter act) with
    | .error e => .error e
    | .ok l =>
      match quotaTrap s 0 (l.flatMap (·.2)) with
      | some e => .error e
      | none => if 512 < pushedBytes s o.r + t * x.bytes then .ok none else .ok (some l)

/-- A repeated instruction names a stream that is exhausted already (R298). -/
def repOver (s : State) (ops : List VOp) : Bool := ops.any (spent s)

/-- A vector instruction of m lanes under mask k (R295–R304): its checks, then one repetition; `body` gets the
active lanes, the sources' values and whether the repetition is the last. Elements pushed to a stream keep their order:
those that the special-function unit is to store come first (R303). -/
def vRun (v : VCtl) (ops : List VOp) (m : Nat) (k : Word)
    (body : (Nat → Bool) → List Nat → Bool → VOut) (s : State) : Res :=
  match vChecks s v ops with
  | some t => .trap t
  | none =>
    if repOver s ops then .ok s
    else if (streamOps s ops).any fun o => o.dst && sfuPushes s o.r != [] then .hold s
    else
      let t := tailOf s ops m
      let act (i : Nat) : Bool := decide (i < t) && k.getLsbD (i % 64)
      let last := !v.rep || (streamOps s ops).any fun o => (s.stream o.r).left ≤ t
      match gather s ops t with
      | .short s' => .hold s'
      | .bad s' e => .left (trapAt s' e)
      | .vals vs =>
        match prepDst s ops t act with
        | .error e => .trap e
        | .ok none => .hold s
        | .ok (some elems) =>
          let out := body act vs last
          let s1 := match ops.find? (fun o => o.dst) with
            | some o => putLanes s o out.lanes elems
            | none => s
          let s2 := raiseFp (out.upd (advanceStreams s1 ops t)) out.fl
          if last then .ok s2 else .hold (nextRep s2 out.x)

/-- Active lanes computed by f with their flags; inactive lanes are absent. -/
def mapLanes (act : Nat → Bool) (f : Nat → Nat × BitVec 6) : List Nat → List (Option Nat) × BitVec 6
  | [] => ([], 0)
  | i :: is =>
    let r := mapLanes act f is
    if act i then (some (f i).1 :: r.1, (f i).2 ||| r.2) else (none :: r.1, r.2)

/-- A lane-wise instruction: destination A, sources by field and register, lane width w (R307–R313). -/
def laneOp (v : VCtl) (w : Nat) (a : VReg) (srcs : List (Nat × VReg)) (k : Word)
    (f : (Nat → Nat → Nat) → Nat → Nat × BitVec 6) (s : State) : Res :=
  let n := groupSize v
  let m := 512 * n / w
  let ops := ⟨0, a, true, w, n⟩ :: srcs.map fun x => ⟨x.1, x.2, false, w, n⟩
  vRun v ops m k (fun act vs _ =>
    let r := mapLanes act (f fun j i => lane w (vs.getD j 0) i) (upTo m)
    { lanes := r.1, fl := r.2 }) s

/-! ### Floating-point arithmetic -/

/-- A lane-wise operation on two or three values, rounded in FPCTL.RM (R71, R307). -/
def fpLane (t : VType) (s : State) (op : Fmt → RMode → Val → Val → Val → Nat × BitVec 6)
    (x : Nat → Nat → Nat) (i : Nat) : Nat × BitVec 6 :=
  let f := fmtOf t
  op f (fpRm s) (f.val (x 0 i)) (f.val (x 1 i)) (f.val (x 2 i))

/-- The issue of a vector instruction. -/
def vIssue (ct : Ctl) (uses : List PortUse) (body : State → Res) (s : State) : Out' := issue ct uses none body s

/-- VADD (R307). -/
def execVadd (ct : Ctl) (t : VType) (a b c : VReg) (k : KReg) (v : VCtl) (s : State) : Out' :=
  vIssue ct [] (fun s => laneOp v (lanesBits t) a [(1, b), (2, c)] (rdK s k)
    (fpLane t s fun f rm x y _ => fadd f rm x y) s) s
/-- VSUB (R307). -/
def execVsub (ct : Ctl) (t : VType) (a b c : VReg) (k : KReg) (v : VCtl) (s : State) : Out' :=
  vIssue ct [] (fun s => laneOp v (lanesBits t) a [(1, b), (2, c)] (rdK s k)
    (fpLane t s fun f rm x y _ => fadd f rm x y.negate) s) s
/-- VMUL (R307). -/
def execVmul (ct : Ctl) (t : VType) (a b c : VReg) (k : KReg) (v : VCtl) (s : State) : Out' :=
  vIssue ct [] (fun s => laneOp v (lanesBits t) a [(1, b), (2, c)] (rdK s k)
    (fpLane t s fun f rm x y _ => fmul f rm x y) s) s
/-- VFMA (R307). -/
def execVfma (ct : Ctl) (t : VType) (a b c d : VReg) (k : KReg) (v : VCtl) (s : State) : Out' :=
  vIssue ct [] (fun s => laneOp v (lanesBits t) a [(1, b), (2, c), (3, d)] (rdK s k)
    (fpLane t s fun f rm x y z => ffma f rm x y z) s) s
/-- VFMS (R307). -/
def execVfms (ct : Ctl) (t : VType) (a b c d : VReg) (k : KReg) (v : VCtl) (s : State) : Out' :=
  vIssue ct [] (fun s => laneOp v (lanesBits t) a [(1, b), (2, c), (3, d)] (rdK s k)
    (fpLane t s fun f rm x y z => ffma f rm x y z.negate) s) s
/-- VMIN (R75, R307). -/
def execVmin (ct : Ctl) (t : VType) (a b c : VReg) (k : KReg) (v : VCtl) (s : State) : Out' :=
  vIssue ct [] (fun s => laneOp v (lanesBits t) a [(1, b), (2, c)] (rdK s k)
    (fun x i => fminmax (fmtOf t) false (x 0 i) (x 1 i)) s) s
/-- VMAX (R75, R307). -/
def execVmax (ct : Ctl) (t : VType) (a b c : VReg) (k : KReg) (v : VCtl) (s : State) : Out' :=
  vIssue ct [] (fun s => laneOp v (lanesBits t) a [(1, b), (2, c)] (rdK s k)
    (fun x i => fminmax (fmtOf t) true (x 0 i) (x 1 i)) s) s

/-- A sign operation on a code: a NaN delivers the canonical NaN (R307). -/
def signLane (f : Fmt) (g : Nat → Nat) (x : Nat) : Nat × BitVec 6 :=
  match f.val x with
  | .nan sig => (f.nan, if sig then fNV else 0)
  | _ => (g x, 0)

/-- VABS (R307). -/
def execVabs (ct : Ctl) (t : VType) (a b : VReg) (k : KReg) (v : VCtl) (s : State) : Out' :=
  vIssue ct [] (fun s => laneOp v (lanesBits t) a [(1, b)] (rdK s k)
    (fun x i => signLane (fmtOf t) (fun y => y % 2 ^ (lanesBits t - 1)) (x 0 i)) s) s
/-- VNEG (R307). -/
def execVneg (ct : Ctl) (t : VType) (a b : VReg) (k : KReg) (v : VCtl) (s : State) : Out' :=
  vIssue ct [] (fun s => laneOp v (lanesBits t) a [(1, b)] (rdK s k)
    (fun x i => signLane (fmtOf t) (fun y => (y + 2 ^ (lanesBits t - 1)) % 2 ^ lanesBits t) (x 0 i)) s) s

/-! ### Compares and selection -/

/-- A floating-point type of R306. -/
def isFp (t : VType) : Bool := t == .f32 || t == .bf16 || t == .fp16 || t == .f8
/-- A signed integer type. -/
def isSigned (t : VType) : Bool := t == .i8 || t == .i16 || t == .i32 || t == .i64

/-- The integer that a lane holds. -/
def laneInt (t : VType) (x : Nat) : Int := if isSigned t then sintOf (lanesBits t) x else x

/-- A condition on an order −1, 0 or 1. -/
def condOf (c : Cond) (o : Int) : Bool :=
  match c with
  | .eq => o == 0
  | .ne => o != 0
  | .lt => decide (o < 0)
  | .le => decide (o ≤ 0)
  | .gt => decide (0 < o)
  | .ge => decide (0 ≤ o)

/-- One compare of VCMP with NV (R308). -/
def cmpLane (c : VCond) (t : VType) (x y : Nat) : Bool × BitVec 6 :=
  if isFp t then
    let a := (fmtOf t).val x
    let b := (fmtOf t).val y
    let nv : BitVec 6 := if a.isSig || b.isSig then fNV else 0
    match c with
    | .un => (a.isNan || b.isNan, nv)
    | .ord c => (if a.isNan || b.isNan then c == .ne else condOf c (cmpVal a b), nv)
  else
    match c with
    | .un => (false, 0)
    | .ord c => (condOf c (laneInt t x - laneInt t y), 0)

/-- VCMP (R308). -/
def execVcmp (ct : Ctl) (c : VCond) (t : VType) (ka : KReg) (b c' : VReg) (k : KReg) (v : VCtl) (s : State) : Out' :=
  vIssue ct [] (fun s =>
    let w := lanesBits t
    let n := groupSize v
    let m := 512 * n / w
    if 64 < m then .trap (illopnd 1) else
    vRun v [⟨1, b, false, w, n⟩, ⟨2, c', false, w, n⟩] m (rdK s k) (fun act vs _ =>
      let r (i : Nat) : Bool × BitVec 6 := cmpLane c t (lane w (vs.getD 0 0) i) (lane w (vs.getD 1 0) i)
      let on := (upTo m).filter act
      let mask : Word := BitVec.ofNat 64 ((on.map fun i => if (r i).1 then 2 ^ i else 0).sum)
      { fl := on.foldl (fun f i => f ||| (r i).2) 0, upd := fun s => wrK s ka mask }) s) s

/-- VSEL (R309). -/
def execVsel (ct : Ctl) (wd : VWidth) (a b c : VReg) (kd : KReg) (v : VCtl) (s : State) : Out' :=
  vIssue ct [] (fun s => laneOp v (widthBits wd) a [(1, b), (2, c)] (BitVec.allOnes 64)
    (fun x i => (if (rdK s kd).getLsbD (i % 64) then x 0 i else x 1 i, 0)) s) s

/-! ### Conversion -/

/-- VCVT (R76, R77, R310). -/
def execVcvt (ct : Ctl) (src dst : VType) (a b : VReg) (k : KReg) (v : VCtl) (s : State) : Out' :=
  vIssue ct [] (fun s =>
    let ws := lanesBits src
    let wd := lanesBits dst
    let g := groupSize v
    let n := g * 512 / ws
    if 4 < n * wd / 512 then .trap (illopnd 0) else
    let dn := max 1 (n * wd / 512)
    vRun v [⟨0, a, true, wd, dn⟩, ⟨1, b, false, ws, g⟩] n (rdK s k) (fun act vs _ =>
      let r := mapLanes act (fun i => convert (fpRm s) src dst (lane ws (vs.getD 0 0) i)) (upTo n)
      { lanes := r.1 ++ (upTo (dn * 512 / wd - n)).map fun _ => some 0, fl := r.2 }) s) s

/-- An instruction that takes no register group (R296). -/
def noGroup (v : VCtl) (k : State → Res) (s : State) : Res := if v.grp ≠ 0 then .trap (illopnd 0) else k s

/-- VSP2 (R80, R311). -/
def execVsp2 (ct : Ctl) (hi : Bool) (a b : VReg) (c : GReg) (k : KReg) (v : VCtl) (s : State) : Out' :=
  vIssue ct [.src 2 c] (noGroup v fun s =>
    let sc := (rdG s c).toInt
    vRun v [⟨0, a, true, 16, 1⟩, ⟨1, b, false, 8, 1⟩] 32 (rdK s k) (fun act vs _ =>
      let r := mapLanes act (fun j =>
        let x := sp2Fold (lane 8 (vs.getD 0 0) (if hi then 32 + j else j)) sc
        (x.1, (if x.2.1 then fSAT else 0) ||| (if x.2.2 then fUF else 0))) (upTo 32)
      { lanes := r.1, fl := r.2 }) s) s

/-! ### Integer, bitwise and shift operations -/

/-- An exact integer as a lane, wrapped or saturated (R312). -/
def intLane (t : VType) (sat : Bool) (x : Int) : Nat :=
  let w := lanesBits t
  let hi : Int := if isSigned t then (2 ^ (w - 1) : Nat) - 1 else (2 ^ w : Nat) - 1
  let lo : Int := if isSigned t then -(2 ^ (w - 1) : Nat) else 0
  wrapTo w (if sat then (if hi < x then hi else if x < lo then lo else x) else x)

/-- VIADD (R312). -/
def execViadd (ct : Ctl) (sat : Bool) (t : VType) (a b c : VReg) (k : KReg) (v : VCtl) (s : State) : Out' :=
  vIssue ct [] (fun s => laneOp v (lanesBits t) a [(1, b), (2, c)] (rdK s k)
    (fun x i => (intLane t sat (laneInt t (x 0 i) + laneInt t (x 1 i)), 0)) s) s
/-- VISUB (R312). -/
def execVisub (ct : Ctl) (sat : Bool) (t : VType) (a b c : VReg) (k : KReg) (v : VCtl) (s : State) : Out' :=
  vIssue ct [] (fun s => laneOp v (lanesBits t) a [(1, b), (2, c)] (rdK s k)
    (fun x i => (intLane t sat (laneInt t (x 0 i) - laneInt t (x 1 i)), 0)) s) s
/-- VIMUL (R312). -/
def execVimul (ct : Ctl) (t : VType) (a b c : VReg) (k : KReg) (v : VCtl) (s : State) : Out' :=
  vIssue ct [] (fun s => laneOp v (lanesBits t) a [(1, b), (2, c)] (rdK s k)
    (fun x i => (intLane t false (laneInt t (x 0 i) * laneInt t (x 1 i)), 0)) s) s
/-- VAND (R312). -/
def execVand (ct : Ctl) (wd : VWidth) (a b c : VReg) (k : KReg) (v : VCtl) (s : State) : Out' :=
  vIssue ct [] (fun s => laneOp v (widthBits wd) a [(1, b), (2, c)] (rdK s k) (fun x i => (Nat.land (x 0 i) (x 1 i), 0)) s) s
/-- VOR (R312). -/
def execVor (ct : Ctl) (wd : VWidth) (a b c : VReg) (k : KReg) (v : VCtl) (s : State) : Out' :=
  vIssue ct [] (fun s => laneOp v (widthBits wd) a [(1, b), (2, c)] (rdK s k) (fun x i => (Nat.lor (x 0 i) (x 1 i), 0)) s) s
/-- VXOR (R312). -/
def execVxor (ct : Ctl) (wd : VWidth) (a b c : VReg) (k : KReg) (v : VCtl) (s : State) : Out' :=
  vIssue ct [] (fun s => laneOp v (widthBits wd) a [(1, b), (2, c)] (rdK s k) (fun x i => (Nat.xor (x 0 i) (x 1 i), 0)) s) s

/-- The sources of a shift and the amount of lane i (R312). -/
def shiftSrcs (b : VReg) : VShift → List (Nat × VReg)
  | .imm _ => [(1, b)]
  | .lanes c => [(1, b), (2, c)]
/-- A shift amount modulo the lane width. -/
def shiftOf (n : VShift) (w : Nat) (x : Nat → Nat → Nat) (i : Nat) : Nat :=
  (match n with
    | .imm k => k.toNat
    | .lanes _ => x 1 i) % w

/-- VSHL (R312). -/
def execVshl (ct : Ctl) (t : VType) (a b : VReg) (n : VShift) (k : KReg) (v : VCtl) (s : State) : Out' :=
  vIssue ct [] (fun s => laneOp v (lanesBits t) a (shiftSrcs b n) (rdK s k)
    (fun x i => (x 0 i * 2 ^ shiftOf n (lanesBits t) x i % 2 ^ lanesBits t, 0)) s) s
/-- VSHR (R312). -/
def execVshr (ct : Ctl) (t : VType) (a b : VReg) (n : VShift) (k : KReg) (v : VCtl) (s : State) : Out' :=
  vIssue ct [] (fun s => laneOp v (lanesBits t) a (shiftSrcs b n) (rdK s k)
    (fun x i => (wrapTo (lanesBits t) (laneInt t (x 0 i) / (2 ^ shiftOf n (lanesBits t) x i : Nat)), 0)) s) s

/-! ### Moving lanes -/

/-- VBCAST (R313). -/
def execVbcast (ct : Ctl) (wd : VWidth) (a : VReg) (b : GReg) (k : KReg) (v : VCtl) (s : State) : Out' :=
  vIssue ct [.src 1 b] (noGroup v fun s => laneOp v (widthBits wd) a [] (rdK s k)
    (fun _ _ => ((rdG s b).toNat % 2 ^ widthBits wd, 0)) s) s
/-- VMOV (R313). -/
def execVmov (ct : Ctl) (wd : VWidth) (a b : VReg) (k : KReg) (v : VCtl) (s : State) : Out' :=
  vIssue ct [] (fun s => laneOp v (widthBits wd) a [(1, b)] (rdK s k) (fun x i => (x 0 i, 0)) s) s
/-- VSHUF (R313). -/
def execVshuf (ct : Ctl) (wd : VWidth) (a b c d : VReg) (k : KReg) (v : VCtl) (s : State) : Out' :=
  vIssue ct [] (fun s =>
    let m := 512 * groupSize v / widthBits wd
    laneOp v (widthBits wd) a [(1, b), (2, c), (3, d)] (rdK s k) (fun x i =>
      let j := x 2 i
      (if j < m then x 0 j else if j < 2 * m then x 1 (j - m) else 0, 0)) s) s

/-! ### Reductions, scans, dot products -/

/-- A lane widened to binary32: BF16 and FP16 exactly (R314). -/
def widen32 (t : VType) (x : Nat) : Nat := if t = .f32 then x else (convert .rne t .f32 x).1

/-- One fold of VRED and VSCAN (R314). DESIGN CHOICE (log entry 50): the running value that begins as a NaN lane keeps that
lane's sign and payload until a fold makes a new NaN. -/
def foldLane (op : AccOp) (t : VType) (rm : RMode) (x : Option W32) (l : Nat) : W32 × BitVec 6 :=
  let sig : BitVec 6 := if ((fmtOf t).val l).isSig && t != .f32 then fNV else 0
  let y := widen32 t l
  let r : Nat × BitVec 6 := match x with
    | none => (y, 0)
    | some x =>
      match op with
      | .add => fadd .f32 rm (Fmt.f32.val x.toNat) (Fmt.f32.val y)
      | .min => fminmax .f32 false x.toNat y
      | .max => fminmax .f32 true x.toNat y
  (BitVec.ofNat 32 r.1, r.2 ||| sig)

/-- The running values after each active lane, in ascending order (R86, R314): the lanes, the value and the flags. -/
def scanLanes (op : AccOp) (t : VType) (rm : RMode) (act : Nat → Bool) (g : Nat) (x : Option W32) :
    List Nat → List (Option Nat) × Option W32 × BitVec 6
  | [] => ([], x, 0)
  | i :: is =>
    if act i then
      let r := foldLane op t rm x (lane (lanesBits t) g i)
      let q := scanLanes op t rm act g (some r.1) is
      (some r.1.toNat :: q.1, q.2.1, r.2 ||| q.2.2)
    else
      let q := scanLanes op t rm act g x is
      (none :: q.1, q.2)

/-- A scalar destination that is written by every repetition; a queue port takes the last value (R47, R297). -/
def wrRepeated (s : State) (a : GReg) (last : Bool) (v : Word) : State := if isPort s a && !last then s else wrG s a v

/-- VRED (R314). -/
def execVred (ct : Ctl) (op : AccOp) (t : VType) (a : GReg) (b : VReg) (k : KReg) (v : VCtl) (s : State) : Out' :=
  vIssue ct [.dst 0 a] (fun s =>
    let w := lanesBits t
    let n := groupSize v
    vRun v [⟨1, b, false, w, n⟩] (512 * n / w) (rdK s k) (fun act vs last =>
      let r := scanLanes op t (fpRm s) act (vs.getD 0 0) (repValue s) (upTo (512 * n / w))
      let keeps := repDone s != 0 && !((upTo (512 * n / w)).any act) && !isPort s a
      { fl := r.2.2, x := r.2.1, upd := fun s => if keeps then s else wrRepeated s a last ((r.2.1.getD 0).setWidth 64) }) s) s

/-- VSCAN (R314). -/
def execVscan (ct : Ctl) (op : AccOp) (a b : VReg) (k : KReg) (v : VCtl) (s : State) : Out' :=
  vIssue ct [] (fun s =>
    let n := groupSize v
    vRun v [⟨0, a, true, 32, n⟩, ⟨1, b, false, 32, n⟩] (16 * n) (rdK s k) (fun act vs _ =>
      let r := scanLanes op .f32 (fpRm s) act (vs.getD 0 0) (repValue s) (upTo (16 * n))
      { lanes := r.1, fl := r.2.2, x := r.2.1 }) s) s

/-- The sum of VDOT over the active lanes (R86, R315). -/
def dotLanes (t : VType) (rm : RMode) (act : Nat → Bool) (b c : Nat) (x : Nat) : List Nat → Nat × BitVec 6
  | [] => (x, 0)
  | i :: is =>
    if act i then
      let f := fmtOf t
      let w := lanesBits t
      let p := mulVal (f.val (lane w b i)) (f.val (lane w c i))
      let y := fadd .f32 rm (Fmt.f32.val x) p.1
      let r := dotLanes t rm act b c y.1 is
      (r.1, p.2 ||| y.2 ||| r.2)
    else dotLanes t rm act b c x is

/-- VDOT (R315). -/
def execVdot (ct : Ctl) (t : VType) (a : GReg) (b c : VReg) (k : KReg) (v : VCtl) (s : State) : Out' :=
  vIssue ct [.rw 0 a] (fun s =>
    let w := lanesBits t
    let n := groupSize v
    vRun v [⟨1, b, false, w, n⟩, ⟨2, c, false, w, n⟩] (512 * n / w) (rdK s k) (fun act vs _ =>
      let r := dotLanes t (fpRm s) act (vs.getD 0 0) (vs.getD 1 0) (fld (rdG s a) 31 0) (upTo (512 * n / w))
      { fl := r.2, upd := fun s => wrG s a (BitVec.ofNat 64 r.1) }) s) s

/-! ### Masks -/

/-- KAND (R316). -/
def execKand (ct : Ctl) (a b c : KReg) (s : State) : Out' :=
  vIssue ct [] (fun s => .ok (wrK s a (rdK s b &&& rdK s c))) s
/-- KOR (R316). -/
def execKor (ct : Ctl) (a b c : KReg) (s : State) : Out' :=
  vIssue ct [] (fun s => .ok (wrK s a (rdK s b ||| rdK s c))) s
/-- KNOT (R316). -/
def execKnot (ct : Ctl) (a b : KReg) (s : State) : Out' :=
  vIssue ct [] (fun s => .ok (wrK s a (~~~(rdK s b)))) s
/-- KMOV (R316). -/
def execKmov (ct : Ctl) (m : KMove) (s : State) : Out' :=
  match m with
  | .kk a b => vIssue ct [] (fun s => .ok (wrK s a (rdK s b))) s
  | .kg a b => vIssue ct [.src 1 b] (fun s => .ok (wrK s a (rdG s b))) s
  | .gk a b => vIssue ct [.dst 0 a] (fun s => .ok (wrG s a (rdK s b))) s

/-! ### Stream instructions -/

/-- A register that can be a stream register (R299). -/
def isStreamReg (r : VReg) : Bool := !r.shared && decide (28 ≤ r.idx.toNat)

/-- SSTOP's action on a register, then k (R318): every pushed store of the thread is performed first (R303). -/
def stopStream (r : VReg) (k : State → Res) (s : State) : Res :=
  if sfuStores s ≠ [] then .hold s
  else
    let s := flushStreams s
    k (setStream s r (s.stream r).stopped)

/-- A configured stream (R300, R317). -/
def configure (wr : Bool) (size : BitVec 2) (base : Word) (n : List Nat) (stride : List Word) : Stream :=
  { st := .configured, wr := wr, size := size, base := base.setWidth 56, n := n, stride := stride, left := n.foldl (· * ·) 1 }

/-- The stream that a descriptor describes; none where R317 refuses it. -/
def descStream (wr : Bool) (size : BitVec 2) (bs : List Byte) : Option Stream :=
  let d (i : Nat) : Word := dwordAt bs i
  let n := [fld (d 1) 31 0, fld (d 1) 63 32, fld (d 2) 31 0, fld (d 2) 63 32]
  let total := n.foldl (· * ·) 1
  if fld (d 0) 63 56 ≠ 0 || d 7 ≠ 0 || total = 0 || 2 ^ 40 ≤ total then none
  else some (configure wr size (d 0) n [d 3, d 4, d 5, d 6])

/-- SCFG.N from its descriptor (R317), which is read as a load: the read of it, then the configuration. -/
def perfScfg (rem : Bool) (wr : Bool) (size : BitVec 2) (a : VReg) (src : Src) (s : State) : Perf :=
  if sfuStores s ≠ [] then .wait s else
  loadThen rem 0 64 (fun s bs =>
    match descStream wr size bs with
    | none => .trap (illopnd 1)
    | some x => .done (setStream (flushStreams s) a x)) src s

/-- SCFG (R317): a running stream stops first, and every pushed store of the thread is performed (R303). -/
def execScfg (ct : Ctl) (wr : Bool) (size : BitVec 2) (a : VReg) (c : StreamCfg) (s : State) : Out' :=
  match c with
  | .one base count => vIssue ct [.src 1 base] (fun s =>
      if !isStreamReg a then .trap (illopnd 0)
      else if count = 0 then .trap (illopnd 1)
      else stopStream a (fun s => .ok (setStream s a
        (configure wr size (rdG s base) [count.toNat, 1, 1, 1] [BitVec.ofNat 64 (2 ^ size.toNat), 0, 0, 0]))) s) s
  | .desc addr => vIssue ct [.src 1 addr] (fun s =>
      if !isStreamReg a then .trap (illopnd 0) else
      let va := rdG s addr
      if va.toNat % 64 ≠ 0 then .trap (alignTrap false va.toNat) else
      match check s s.g.toNat s.t .rd (va56 va) 64 with
      | .error t => .trap t
      | .ok ps =>
        let i : Instr := .scfg ct wr size a c
        let src : Src := { ps := ps, bs := boundBytes s ps }
        if sfuStores s ≠ [] then .hold s
        else if !inOrder s i src then .ok (addOut i src 0 none s)
        else
          match perfScfg false wr size a src s with
          | .done s' => .ok s'
          | .trap t => if t.code = 0x02 then .trap t else lateTrap ct i src t s
          | .wait s' => .ok (addOut i src 0 none s')
          | .part s' src' => .ok (addOut i src' 0 none s')) s

/-- SSTART (R318). -/
def execSstart (ct : Ctl) (a : VReg) (s : State) : Out' :=
  vIssue ct [] (fun s =>
    match streamOf s a with
    | none => .trap (illopnd 0)
    | some _ => stopStream a (fun s =>
        let x := s.stream a
        .ok (setStream s a { x with st := .running, left := x.total, flt := false })) s) s
/-- SSTOP (R318). -/
def execSstop (ct : Ctl) (a : VReg) (s : State) : Out' :=
  vIssue ct [] (fun s =>
    match streamOf s a with
    | none => .trap (illopnd 0)
    | some _ => stopStream a .ok s) s

/-- The word of SSTAT (R319). -/
def streamWord (x : Stream) : Word :=
  if x.st = .unconfigured then 0 else
  let b (c : Bool) (i : Nat) : Nat := if c then 2 ^ i else 0
  BitVec.ofNat 64 (2 ^ 63 + b (x.st == .running || x.st == .exhausted) 62 + b x.wr 61 + b (x.st == .exhausted) 60 +
    b x.flt 59 + x.size.toNat * 2 ^ 56 + x.left)

/-- SSTAT (R319). -/
def execSstat (ct : Ctl) (a : GReg) (b : VReg) (s : State) : Out' :=
  vIssue ct [.dst 0 a] (fun s => .ok (wrG s a (if isStreamReg b then streamWord (s.stream b) else 0))) s

/-! ### The stream unit -/

/-- STREAM_READAHEAD (R302, R304): the next element of a running read stream of slot k is read, at most 512 bytes
ahead of the pops. -/
def execStreamReadahead (g : GCore) (k : Slot) (r : BitVec 2) (s : State) : Out' :=
  let reg : VReg := ⟨false, 28 + r.setWidth 5⟩
  .next (asSlot s g k fun s =>
    match s.ctx g k with
    | none => s
    | some _ =>
      let x := s.stream reg
      let n := x.ahead.length
      let bad := x.ahead.any Ahead.failed
      if x.st = .running && !x.wr && n < x.left && (n + 1) * x.bytes ≤ 512 && !bad then
        let (s', e) := readElem s x (x.addr n)
        let y := s'.stream reg
        setStream s' reg { y with
          ahead := y.ahead ++ [e], flt := y.flt || e.failed }
      else s)

/-- STREAM_STORE_PERFORM (R303): the oldest pushed element of a write stream is stored in the core. -/
def execStreamStorePerform (g : GCore) (k : Slot) (r : BitVec 2) (s : State) : Out' :=
  let reg : VReg := ⟨false, 28 + r.setWidth 5⟩
  .next (asSlot s g k fun s =>
    match s.ctx g k with
    | none => s
    | some _ =>
      match (s.stream reg).pushed with
      | [] => s
      | p :: ps =>
        let s' := storeNow s s.g.toNat s.t 0 p.1 p.2
        setStream s' reg { s'.stream reg with pushed := ps })

end Sys2Proof.Machine
end

