-- ==== Sys2Proof/Machine/Sfu.lean ====
section
/-! DEFINITION. The special-function unit (R320, R321), the repetition of vector and special-function instructions
(R297), and random numbers (R322–R326). -/

namespace Sys2Proof.Machine

open Sys2Proof.Config (SfuFn)

/-! ### Requests -/

/-- The unit of core g holds no more requests (R320). -/
def sfuFull (s : State) (g : Nat) : Bool := decide (8 ≤ (s.core g).eng.sfuQ.length)

/-- A request enters the queue at its tail (R320). -/
def sfuPush (s : State) (r : SfuReq) : State :=
  s.modCore r.g.toNat fun c => { c with eng := { c.eng with sfuQ := c.eng.sfuQ ++ [r] } }

/-- The own part of a special-function instruction (R320): its checks, then one request per repetition; it is
outstanding from its last repetition on. -/
def sfuBody (ct : Ctl) (i : Instr) (a b : VReg) (k : KReg) (v : VCtl) (s : State) : Res :=
  let ops : List VOp := [⟨0, a, true, 32, 1⟩, ⟨1, b, false, 32, 1⟩]
  match vChecks s v ops with
  | some t => .trap t
  | none =>
    if repOver s ops then .ok s
    else if sfuFull s s.g.toNat then .hold s
    else
      let t := tailOf s ops 16
      let act (i : Nat) : Bool := decide (i < t) && (rdK s k).getLsbD i
      let last := !v.rep || (streamOps s ops).any fun o => (s.stream o.r).left ≤ t
      match gather s ops t with
      | .short s' => .hold s'
      | .bad s' e => .left (trapAt s' e)
      | .vals vs =>
        match prepDst s ops t act with
        | .error e => .trap e
        | .ok none => .hold s
        | .ok (some elems) =>
          let toStream := (streamOf s a).isSome
          let mask : Word := BitVec.ofNat 64 (((upTo 16).filter act).map fun j => 2 ^ j).sum
          let r : SfuReq := ⟨s.g, s.k, if last then s.nextId else 0, last, i, a, BitVec.ofNat 512 (vs.headD 0), mask,
            if toStream then some elems else none⟩
          let s := advanceStreams (sfuPush s r) ops t
          if last then .ok (addOut i { job := if toStream then 1 else 0 } ct.la.toNat none s)
          else .hold (nextRep s none)

/-- The issue of a special-function instruction: it takes no register group (R296). -/
def sfuIssue (ct : Ctl) (i : Instr) (a b : VReg) (k : KReg) (v : VCtl) (s : State) : Out' :=
  settled (issue ct [] none (noGroup v (sfuBody ct i a b k v)) s)

/-- VEXP (R89, R320). -/
def execVexp (ct : Ctl) (a b : VReg) (k : KReg) (v : VCtl) (s : State) : Out' := sfuIssue ct (.vexp ct a b k v) a b k v s
/-- VEXP2 (R89, R320). -/
def execVexp2 (ct : Ctl) (a b : VReg) (k : KReg) (v : VCtl) (s : State) : Out' := sfuIssue ct (.vexp2 ct a b k v) a b k v s
/-- VLOG2 (R89, R320). -/
def execVlog2 (ct : Ctl) (a b : VReg) (k : KReg) (v : VCtl) (s : State) : Out' := sfuIssue ct (.vlog2 ct a b k v) a b k v s
/-- VRCP (R89, R320). -/
def execVrcp (ct : Ctl) (a b : VReg) (k : KReg) (v : VCtl) (s : State) : Out' := sfuIssue ct (.vrcp ct a b k v) a b k v s
/-- VRSQ (R89, R320). -/
def execVrsq (ct : Ctl) (a b : VReg) (k : KReg) (v : VCtl) (s : State) : Out' := sfuIssue ct (.vrsq ct a b k v) a b k v s
/-- VSQRT (R89, R320). -/
def execVsqrt (ct : Ctl) (a b : VReg) (k : KReg) (v : VCtl) (s : State) : Out' := sfuIssue ct (.vsqrt ct a b k v) a b k v s
/-- VSIN (R89, R320). -/
def execVsin (ct : Ctl) (a b : VReg) (k : KReg) (v : VCtl) (s : State) : Out' := sfuIssue ct (.vsin ct a b k v) a b k v s
/-- VCOS (R89, R320). -/
def execVcos (ct : Ctl) (a b : VReg) (k : KReg) (v : VCtl) (s : State) : Out' := sfuIssue ct (.vcos ct a b k v) a b k v s
/-- VTANH (R89, R320). -/
def execVtanh (ct : Ctl) (a b : VReg) (k : KReg) (v : VCtl) (s : State) : Out' := sfuIssue ct (.vtanh ct a b k v) a b k v s

/-- The function of a special-function instruction. -/
def sfuFnOf : Instr → SfuFn
  | .vexp2 .. => .exp2
  | .vlog2 .. => .log2
  | .vrcp .. => .rcp
  | .vrsq .. => .rsq
  | .vsqrt .. => .sqrt
  | .vsin .. => .sin
  | .vcos .. => .cos
  | .vtanh .. => .tanh
  | _ => .exp

/-! ### The unit -/

/-- SFU_START (R320): the oldest request leaves the queue and starts, at most one every 4 cc. -/
def execSfuStart (g : GCore) (s : State) : Out' :=
  let e := (s.core g.toNat).eng
  match e.sfuQ with
  | [] => .next s
  | r :: rs =>
    if s.cycle < e.sfuNext then .next s
    else .next (s.modCore g.toNat fun c => { c with eng := { c.eng with
      sfuQ := rs, sfuRun := c.eng.sfuRun ++ [(r, s.cycle)], sfuNext := s.cycle + 4 } })

/-- The results of a request's active lanes, lane by lane, with their flags (R320). -/
def sfuResults (r : SfuReq) : List (Option Nat) × BitVec 6 :=
  mapLanes (fun i => r.mask.getLsbD i) (fun i =>
    let x := sfuLane (sfuFnOf r.i) (BitVec.ofNat 32 (lane 32 r.src.toNat i))
    (x.1.toNat, x.2)) (upTo 16)

/-- The results of a request written by its thread: destination lanes or elements of a write stream, and FPSTAT. -/
def sfuWrite (s : State) (r : SfuReq) : State :=
  let (lanes, fl) := sfuResults r
  let s := match r.elems with
    | none => wrV s r.dst (BitVec.ofNat 512 (mergeLanes 32 (curV s r.dst).toNat lanes))
    | some es => es.foldl (fun s e => match (lanes[e.1]?).join with
        | some v => storeNow s s.g.toNat s.t 0 e.2 (bytesOf 4 v)
        | none => s) (flushStream s r.dst)
  raiseFp s fl

/-- f for the running thread's outstanding instruction `id`: a register that the second instruction of its pair has
written keeps that value (R41). -/
def asOut (s : State) (id : Nat) (f : State → State) : State :=
  match s.c.iss.outs.find? (fun o => o.id == id) with
  | none => f s
  | some o =>
    let keep := s.c.iss
    (f (s.modC fun c => { c with iss := { c.iss with upon := o.upon, shadow := o.shadow } })).modC fun c =>
      { c with iss := { c.iss with upon := keep.upon, shadow := keep.shadow } }

/-- SFU_RESULT_WRITE (R320): the oldest started request writes its results, 20 cc after its start. -/
def execSfuResultWrite (g : GCore) (s : State) : Out' :=
  match (s.core g.toNat).eng.sfuRun with
  | [] => .next s
  | (r, t) :: rs =>
    if s.cycle < t + 20 then .next s else
    let s := s.modCore g.toNat fun c => { c with eng := { c.eng with sfuRun := rs } }
    match s.ctx r.g r.k with
    | none => .next s
    | some _ =>
      let s := asSlot s r.g r.k fun s => asOut s r.out fun s => sfuWrite s r
      .next (if r.last then dropOut s r.g r.k r.out else s)

/-! ### Repetition -/

/-- One more repetition of an instruction (R297). -/
def repeatInstr (i : Instr) (s : State) : Out' :=
  match i with
  | .vadd ct t a b c k v => execVadd ct t a b c k v s
  | .vsub ct t a b c k v => execVsub ct t a b c k v s
  | .vmul ct t a b c k v => execVmul ct t a b c k v s
  | .vfma ct t a b c d k v => execVfma ct t a b c d k v s
  | .vfms ct t a b c d k v => execVfms ct t a b c d k v s
  | .vmin ct t a b c k v => execVmin ct t a b c k v s
  | .vmax ct t a b c k v => execVmax ct t a b c k v s
  | .vabs ct t a b k v => execVabs ct t a b k v s
  | .vneg ct t a b k v => execVneg ct t a b k v s
  | .vcmp ct c t ka b c' k v => execVcmp ct c t ka b c' k v s
  | .vsel ct wd a b c kd v => execVsel ct wd a b c kd v s
  | .vcvt ct x y a b k v => execVcvt ct x y a b k v s
  | .vshuf ct wd a b c d k v => execVshuf ct wd a b c d k v s
  | .vbcast ct wd a b k v => execVbcast ct wd a b k v s
  | .vred ct op t a b k v => execVred ct op t a b k v s
  | .vscan ct op a b k v => execVscan ct op a b k v s
  | .viadd ct sat t a b c k v => execViadd ct sat t a b c k v s
  | .visub ct sat t a b c k v => execVisub ct sat t a b c k v s
  | .vimul ct t a b c k v => execVimul ct t a b c k v s
  | .vand ct wd a b c k v => execVand ct wd a b c k v s
  | .vor ct wd a b c k v => execVor ct wd a b c k v s
  | .vxor ct wd a b c k v => execVxor ct wd a b c k v s
  | .vshl ct t a b n k v => execVshl ct t a b n k v s
  | .vshr ct t a b n k v => execVshr ct t a b n k v s
  | .vdot ct t a b c k v => execVdot ct t a b c k v s
  | .vsp2 ct hi a b c k v => execVsp2 ct hi a b c k v s
  | .vmov ct wd a b k v => execVmov ct wd a b k v s
  | .vexp ct a b k v => execVexp ct a b k v s
  | .vexp2 ct a b k v => execVexp2 ct a b k v s
  | .vlog2 ct a b k v => execVlog2 ct a b k v s
  | .vrcp ct a b k v => execVrcp ct a b k v s
  | .vrsq ct a b k v => execVrsq ct a b k v s
  | .vsqrt ct a b k v => execVsqrt ct a b k v s
  | .vsin ct a b k v => execVsin ct a b k v s
  | .vcos ct a b k v => execVcos ct a b k v s
  | .vtanh ct a b k v => execVtanh ct a b k v s
  | _ => .next s

/-- REPETITION_ISSUE (R297): at the slot's turn, the next repetition of the instruction at its PC issues. -/
def execRepetitionIssue (g : GCore) (k : Slot) (s : State) : Out' :=
  if s.who ≠ .slot g k || repDone s = 0 then .next s else
  match fetch s g.toNat s.t s.c.pc with
  | .line bs =>
    match decodeSlot bs (s.c.pc.toNat % 64) false with
    | .ok i => repeatInstr i s
    | .error t => .next (trapAt s t)
  | .trap t => .next (trapAt s t)
  | .miss => .next s

/-! ### The thread generator -/

/-- One step of the generator: the next state and the output (R322). -/
def rngStep (lo hi : Word) : (Word × Word) × Word :=
  let x := lo ^^^ (lo <<< 23)
  let h := x ^^^ hi ^^^ (x >>> 18) ^^^ (hi >>> 5)
  ((hi, h), h + hi)

/-- The bits of one dword of Jump, from bit b on (R323): the state and the accumulator. -/
def jumpBits (fuel b : Nat) (c : Word) (st acc : Word × Word) : (Word × Word) × (Word × Word) :=
  match fuel with
  | 0 => (st, acc)
  | f + 1 => jumpBits f (b + 1) c (rngStep st.1 st.2).1 (if c.getLsbD b then (acc.1 ^^^ st.1, acc.2 ^^^ st.2) else acc)

/-- Jump(S): 2^64 steps (R323). -/
def rngJump (st : Word × Word) : Word × Word :=
  let a := jumpBits 64 0 0x8A5CD789635D2DFF st (0, 0)
  (jumpBits 64 0 0x121FD2155C472F96 a.1 a.2).2

/-- The generator of a context admitted into slot k of core g, for a launch's SEED (R323). -/
def rngSeed (seed : Word) (g : GCore) (k : Slot) : Word × Word :=
  iter (g.toNat * 16 + k.toNat) rngJump (seed ^^^ 0x6A09E667F3BCC908, seed ^^^ 0xBB67AE8584CAA73B)

/-- The running context's generator set. -/
def setRng (s : State) (st : Word × Word) : State := s.modC fun c => { c with lo := st.1, hi := st.2 }

/-- n outputs of the generator, with the state after them. -/
def rngDraw (n : Nat) (st : Word × Word) : (Word × Word) × List Word :=
  match n with
  | 0 => (st, [])
  | n + 1 =>
    let r := rngStep st.1 st.2
    let q := rngDraw n r.1
    (q.1, r.2 :: q.2)

/-- RNG (R324). -/
def execRng (ct : Ctl) (a : GReg) (s : State) : Out' :=
  issue ct [.dst 0 a] none (fun s =>
    let r := rngStep s.c.lo s.c.hi
    .ok (wrG (setRng s r.1) a r.2)) s

/-- VRNG (R324). -/
def execVrng (ct : Ctl) (a : VReg) (k : KReg) (s : State) : Out' :=
  issue ct [] none (fun s =>
    match noStream s [(0, a)] with
    | some t => .trap t
    | none =>
      let r := rngDraw 8 (s.c.lo, s.c.hi)
      let lanes := mapLanes (fun i => (rdK s k).getLsbD i) (fun i => ((r.2.getD i 0).toNat, 0)) (upTo 8)
      .ok (wrV (setRng s r.1) a (BitVec.ofNat 512 (mergeLanes 64 (curV s a).toNat lanes.1)))) s

/-- RNGSAVE (R324). -/
def execRngsave (ct : Ctl) (a d : GReg) (s : State) : Out' :=
  issue ct [.dst 0 a, .dst 3 d] none (fun s =>
    if a = d then .trap (illopnd 3) else .ok (wrG (wrG s a s.c.lo) d s.c.hi)) s

/-- RNGLOAD (R324). -/
def execRngload (ct : Ctl) (b c : GReg) (s : State) : Out' :=
  issue ct [.src 1 b, .src 2 c] none (fun s =>
    if rdG s b = 0 && rdG s c = 0 then .trap (illopnd 1) else .ok (setRng s (rdG s b, rdG s c))) s

/-- RNGJUMP (R324). -/
def execRngjump (ct : Ctl) (s : State) : Out' :=
  issue ct [] none (fun s => .ok (setRng s (rngJump (s.c.lo, s.c.hi)))) s

/-! ### The counter-based function -/

/-- KC, ROTA and ROTB of R325, by round. -/
def cbRounds : List (W32 × Nat × Nat) :=
  [(0x9E3779B9, 16, 12), (0x3C6EF372, 8, 7), (0xDAA66D2B, 16, 12), (0x78DDE6E4, 8, 7), (0x1715609D, 16, 12), (0xB54CDA56, 8, 7)]

/-- Cb(k, stream, row, col) (R325). -/
def cbHash (k : Word) (stream row col : W32) : W32 :=
  let hi : W32 := k.extractLsb' 32 32
  let step (x : W32 × W32 × W32 × W32) (r : W32 × Nat × Nat) : W32 × W32 × W32 × W32 :=
    let a := x.1 + x.2.1 + (hi ^^^ r.1)
    let d := (x.2.2.2 ^^^ a).rotateLeft r.2.1
    let c := x.2.2.1 + d
    (a, (x.2.1 ^^^ c).rotateLeft r.2.2, c, d)
  let x := cbRounds.foldl step (row, col, stream ^^^ 0x6A09E667, k.setWidth 32)
  x.2.1 ^^^ x.2.2.2

/-- The uniform value in [0, 1) of a word, as binary32: (x >> 8) · 2^−24 (R326). -/
def uniform32 (x : W32) : W32 := BitVec.ofNat 32 (roundFin .f32 .rne false (x.toNat / 256) (-24)).1

/-- CBRNG (R326). -/
def execCbrng (ct : Ctl) (u : Bool) (a : VReg) (b c d e : GReg) (s : State) : Out' :=
  issue ct [.src 1 b, .src 2 c, .src 3 d, .src 4 e] none (fun s =>
    match noStream s [(0, a)] with
    | some t => .trap t
    | none =>
      let x (i : Nat) : W32 :=
        cbHash (rdG s b) ((rdG s c).setWidth 32) ((rdG s d).setWidth 32) ((rdG s e).setWidth 32 + BitVec.ofNat 32 i)
      let v := ((upTo 16).map fun i => (if u then uniform32 (x i) else x i).toNat * 2 ^ (32 * i)).sum
      .ok (wrV s a (BitVec.ofNat 512 v))) s

end Sys2Proof.Machine
end

