-- ==== Sys2Proof/Machine/Matrix.lean ====
section
/-! DEFINITION. The matrix engine (R328–R351): its instructions, the arbiter, tiles, drains and score tiles. -/

namespace Sys2Proof.Machine

/-! ### The queue of a core -/

/-- The matrix queue of core g. -/
def State.mq (s : State) (g : Nat) : MQueue := (s.core g).regs.mq
/-- The state with that queue changed. -/
def State.modMq (s : State) (g : Nat) (f : MQueue → MQueue) : State :=
  s.modCore g fun c => { c with regs := { c.regs with mq := f c.regs.mq } }

/-- Commands of core g numbered lo or above that have not started, and that p names, are removed and count as done
(R349): the state, and how many. -/
def cancelM (s : State) (g lo : Nat) (p : TenantNo → Bool) : State × Nat :=
  let hit (j : MJob) : Bool := !j.started && lo ≤ j.job && p j.tenant
  let js := ((s.mq g).cmds.filter hit).map fun j => j.job
  let (s, ks) := cancelPushes s g 1 lo fun c _ => p c.tenant
  let s := if js = [] then s else s.modMq g fun q => { q with cmds := q.cmds.filter fun j => !hit j }
  ((js ++ ks).foldl (fun s n => jobDone s g 1 n) s, js.length + ks.length)

/-- A matrix job that runs under a drain mode fails with a code (R335, R348). -/
def mFail (s : State) (g : Nat) (own : Owner) (job code : Nat) (mode : BitVec 4) : State :=
  let s := recordFailure (s.modMq g fun q => { q with fcode := BitVec.ofNat 8 code, fjob := job }) g own 1 job
  if mode.getLsbD 3 then (cancelM s g (job + 1) fun _ => true).1 else s

/-- A job leaves the array and its queue (R331, R332). -/
def mLeave (s : State) (g job : Nat) : State :=
  s.modMq g fun q => { q with cmds := q.cmds.filter (fun j => j.job != job), gone := q.gone ++ [job] }

/-- A job whose read failed stops: it leaves, and none of its rows is applied any more (R335). -/
def mStop (s : State) (g : Nat) (own : Owner) (job code : Nat) (mode : BitVec 4) : State :=
  let s := mFail s g own job code mode
  let s := if (s.mq g).cmds.any (fun j => j.job == job) then mLeave s g job else s
  s.modCluster (clusterOf g) fun c => { c with rows := c.rows.filter fun r => !(r.g.toNat == g && r.job == job) }

/-! ### Sums -/

/-- The exact product of a weight and an activation (R82). -/
def cellProduct (f : WFmt) (w : Nat) (a : Val) : Val :=
  match f with
  | .bf16 => (mulVal (Fmt.bf16.val w) a).1
  | .f8 => (mulVal (Fmt.f8.val w) a).1
  | .sp2x => (addVal .rne (mulVal (sp2xHalf (w / 256)) a).1 (mulVal (sp2xHalf (w % 256)) a).1).1

/-- One add of R82: rounded to nearest even in FP32. -/
def cellAdd (f : WFmt) (s w : Nat) (a : Val) : Nat := (fadd .f32 .rne (Fmt.f32.val s) (cellProduct f w a)).1

/-- The column sums of one activation row (R82): from +0, over the weight rows in ascending order. -/
def columnSums (f : WFmt) (n : Nat) (ws : List (List Nat)) (a : List Val) : List Nat :=
  (ws.zip a).foldl (fun ss r => ss.zipWith (fun s w => cellAdd f s w r.2) r.1) (List.replicate n 0)

/-- The format of an activation row. -/
def actFmt : AFmt → Fmt
  | .bf16 => .bf16
  | .f8 => .f8
/-- Bytes of an activation element. -/
def actBytes : AFmt → Nat
  | .bf16 => 2
  | .f8 => 1

/-- The pairings of R328. -/
def mPaired : WFmt → AFmt → Bool
  | .bf16, .bf16 => true
  | .f8, .f8 => true
  | .sp2x, _ => true
  | _, _ => false

/-! ### Control blocks -/

/-- A drain control block without reserved bits and with its fields in range (R337). -/
def drainOk (b : List Byte) : Bool :=
  fld (dwordAt b 1) 63 6 == 0 && fld (dwordAt b 0) 31 0 % 128 == 0 && fld (dwordAt b 7) 63 32 == 0 &&
    (dwordAt b 8).toNat % 8 == 0 && (upTo 7).all fun i => dwordAt b (9 + i) == 0

/-- An attention descriptor without reserved bits and with its fields in range (R341). -/
def attnOk (b : List Byte) : Bool :=
  let d4 := dwordAt b 4
  let d5 := dwordAt b 5
  let nq := fld d4 28 16
  let nk := fld d4 12 0
  (dwordAt b 3).toNat % 8 == 0 && fld d4 31 29 == 0 && fld d4 15 13 == 0 && 1 ≤ nq && nq ≤ 4096 && 1 ≤ nk && nk ≤ 4096 &&
    fld d5 63 34 == 0 && fld d5 33 32 < 2 && fld d5 31 0 % 4 == 0 && 4 * nk ≤ fld d5 31 0 &&
    (upTo 9).all fun i => dwordAt b (7 + i) == 0

/-- The next score tile from index i on that is not hidden (R340): tiles are taken with the block, then the tile,
ascending. -/
def nextScore (tags : List Byte) (b : List Byte) (i : Nat) : Option Nat :=
  let nb := (fld (dwordAt b 4) 28 16 + 63) / 64
  let nt := (fld (dwordAt b 4) 12 0 + 63) / 64
  (upTo (nb * nt)).find? fun x => i ≤ x && tags.getD (x / nt * 64 + x % nt) 0 != 0

/-- What a command reads and checks when it starts (R337, R345, R346); the failure code otherwise. -/
def mStart (s : State) (g : Nat) (j : MJob) : Except Nat (MJob × State) :=
  match j.cmd with
  | .mstream _ _ d _ f _ =>
    match (match d with
      | none => (.ok (List.replicate 128 0, s) : Except Nat (List Byte × State))
      | some a => engRead s g j.tenant a 128) with
    | .error c => .error c
    | .ok (b, s) =>
      if !drainOk b then .error 6 else
      match (if bit (dwordAt b 1) 4 then engRead s g j.tenant (dwordAt b 8) 256 else .ok ([], s)) with
      | .error c => .error c
      | .ok (tab, s) =>
        match (s.mq g).active with
        | none => .error 4
        | some w => if mPaired w.1 f then .ok ({ j with started := true, blk := b, tab := tab, weights := w }, s) else .error 5
  | .mattn a =>
    match engRead s g j.tenant a 128 with
    | .error c => .error c
    | .ok (b, s) =>
      if !attnOk b then .error 6 else
      match (if dwordAt b 6 ≠ 0 then engRead s g j.tenant (dwordAt b 6) 512 else .ok ([], s)) with
      | .error c => .error c
      | .ok (tab, s) => .ok ({ j with started := true, blk := b, tab := tab }, s)
  | .bad => .error 6
  | _ => .ok ({ j with started := true }, s)

/-! ### Tiles -/

/-- The rotation of a pair by (c, s) (R338): the first element, or the second. -/
def rotPair (second : Bool) (x y c s : Nat) : Nat :=
  let v (n : Nat) : Val := Fmt.f32.val n
  let p (a b : Val) : Val := (mulVal a b).1
  let r (a b : Val) : Nat := (roundVal .f32 .rne (addVal .rne a b).1).1
  if second then r (p (v x) (v s)) (p (v y) (v c)) else r (p (v x) (v c)) (p (v y) (v s)).negate

/-- Word i of a table of FP32 values. -/
def tabWord (t : List Byte) (i : Nat) : Nat := (w32At t (4 * i)).toNat

/-- A key row rotated by the table of pairs and rounded to the key format (R341). -/
def rotKeys (f : AFmt) (tab : List Byte) (ks : List Nat) : List Nat :=
  if tab = [] then ks else
  (upTo ks.length).map fun i =>
    let wide (j : Nat) : Nat := (roundVal .f32 .rne ((actFmt f).val (ks.getD j 0))).1
    let x := wide (i / 2 * 2)
    let y := wide (i / 2 * 2 + 1)
    (roundVal (actFmt f) .rne (Fmt.f32.val (rotPair (i % 2 == 1) x y (tabWord tab (i / 2 * 2)) (tabWord tab (i / 2 * 2 + 1))))).1

/-- The weight format that stands for a key format. -/
def keyFmt : AFmt → WFmt
  | .bf16 => .bf16
  | .f8 => .f8

/-- The FP32 bits of −∞. -/
def f32NegInf : W32 := 0xFF800000

/-- Up to 64 rows of an MSTREAM from row `pos` (R345): the rows that enter the array. -/
def streamTile (s : State) (g : Nat) (j : MJob) (a c : Word) (rows : Nat) (f : AFmt) (o64 : Bool) : Except Nat (MJob × State) :=
  let es := actBytes f
  let ast := if fld (dwordAt j.blk 0) 63 32 = 0 then 128 * es else fld (dwordAt j.blk 0) 63 32
  let ost := if fld (dwordAt j.blk 0) 31 0 = 0 then 64 * (if o64 then 8 else 4) else fld (dwordAt j.blk 0) 31 0
  let n := min 64 (rows - j.pos)
  match engRows s g j.tenant (a + BitVec.ofNat 64 (j.pos * ast)) (BitVec.ofNat 64 ast) (128 * es) n with
  | .error e => .error e
  | .ok (rs, s) =>
    let wes := wfmtBytes j.weights.1
    let ws := (upTo 128).map fun k => elemsOf wes 64 (j.weights.2.drop (k * 64 * wes))
    let row (i : Nat) (bs : List Byte) : MRow :=
      { g := BitVec.ofNat 12 g, tenant := j.tenant, own := j.own, job := j.job, mode := (s.mq g).mmode
        out := va56 (c + BitVec.ofNat 64 ((j.pos + i) * ost)), o64 := o64, row := j.pos + i
        sums := (columnSums j.weights.1 64 ws ((elemsOf es 128 bs).map (actFmt f).val)).map (BitVec.ofNat 32)
        blk := j.blk, tab := j.tab }
    let new := (rs.zip (upTo n)).map fun x => row x.2 x.1
    .ok ({ j with pos := j.pos + n, ended := decide (rows ≤ j.pos + n) },
      s.modCluster (clusterOf g) fun cl => { cl with rows := cl.rows ++ new, cells := some (g % 8) })

/-- The rows of scores of a tile (R340, R341): `mask` holds the dwords of a mixed tile. -/
def scoreRows (s : State) (g : Nat) (j : MJob) (b t : Nat) (f : AFmt) (qs ks : List (List Nat)) (mask : Option (List Byte)) :
    List MRow :=
  let d5 := dwordAt j.blk 5
  let scl := Fmt.f32.val (fld (dwordAt j.blk 4) 63 32)
  let score (q : List Nat) (k : List Nat) : W32 :=
    BitVec.ofNat 32 (fmul .f32 .rne (Fmt.f32.val
      ((columnSums (keyFmt f) 1 (k.map fun x => [x]) (q.map (actFmt f).val)).headD 0)) scl).1
  let seen (q k : Nat) : Bool := match mask with
    | none => true
    | some m => bit (dwordAt m q) k
  (qs.zip (upTo 64)).map fun q =>
    { g := BitVec.ofNat 12 g, tenant := j.tenant, own := j.own, job := j.job, mode := (s.mq g).mmode
      out := va56 (dwordAt j.blk 2 + BitVec.ofNat 64 ((64 * b + q.2) * fld d5 31 0 + 256 * t)), o64 := false, row := 64 * b + q.2
      sums := (ks.zip (upTo 64)).map fun k => if seen q.2 k.2 then score q.1 k.1 else f32NegInf
      blk := [], tab := [], score := true }

/-- One score tile of an MATTN (R340, R341, R346). -/
def scoreTile (s : State) (g : Nat) (j : MJob) : Except Nat (MJob × State) :=
  let tags := (s.mq g).tags
  match nextScore tags j.blk j.pos with
  | none => .ok ({ j with ended := true }, s)
  | some i =>
    let nt := (fld (dwordAt j.blk 4) 12 0 + 63) / 64
    let b := i / nt
    let t := i % nt
    let f : AFmt := if fld (dwordAt j.blk 5) 33 32 = 0 then .bf16 else .f8
    let row := 128 * actBytes f
    let rd (s : State) (base : Word) (first n : Nat) : Except Nat (List (List Byte) × State) :=
      engRows s g j.tenant (base + BitVec.ofNat 64 (first * row)) (BitVec.ofNat 64 row) row n
    match rd s (dwordAt j.blk 1) (64 * t) (min 64 (fld (dwordAt j.blk 4) 12 0 - 64 * t)) with
    | .error c => .error c
    | .ok (ks, s) =>
      match rd s (dwordAt j.blk 0) (64 * b) (min 64 (fld (dwordAt j.blk 4) 28 16 - 64 * b)) with
      | .error c => .error c
      | .ok (qs, s) =>
        match (if tags.getD (b * 64 + t) 0 = 2 then
            (engRead s g j.tenant (dwordAt j.blk 3 + BitVec.ofNat 64 (512 * (b * 64 + t))) 512).map fun r => (some r.1, r.2)
          else .ok (none, s)) with
        | .error c => .error c
        | .ok (mask, s) =>
          let el (r : List Byte) : List Nat := elemsOf (actBytes f) 128 r
          let new := scoreRows s g j b t f (qs.map el) (ks.map fun k => rotKeys f j.tab (el k)) mask
          .ok ({ j with pos := i + 1, ended := (nextScore tags j.blk (i + 1)).isNone },
            s.modCluster (clusterOf g) fun cl => { cl with rows := cl.rows ++ new, cells := none })

/-- The next tile of a started command (R329, R343–R348). -/
def mTile (s : State) (g : Nat) (j : MJob) : Except Nat (MJob × State) :=
  match j.cmd with
  | .mldw base rs f =>
    match engRows s g j.tenant base rs (64 * wfmtBytes f) 128 with
    | .error c => .error c
    | .ok (rows, s) => .ok ({ j with ended := true }, s.modMq g fun q => { q with shadow := some (f, rows.flatten) })
  | .mswap =>
    .ok ({ j with ended := true }, (s.modMq g fun q => { q with active := q.shadow, shadow := q.active }).modCluster (clusterOf g)
      fun cl => { cl with cells := if cl.cells = some (g % 8) then none else cl.cells })
  | .mcfg m => .ok ({ j with ended := true }, s.modMq g fun q => { q with mmode := m })
  | .mstream a c _ rows f o64 => streamTile s g j a c rows f o64
  | .mattn _ => scoreTile s g j
  | .bad => .error 6

/-! ### The arbiter -/

/-- The tile in the array leaves it; a job whose last tile it was leaves its queue (R331). -/
def tileLeaves (s : State) (c : Nat) : State :=
  let g := c * 8 + (s.cluster c).pos.toNat
  let q := s.mq g
  if !q.run then s else
  let s := s.modMq g fun q => { q with run := false }
  match q.cmds with
  | j :: _ => if j.ended then mLeave s g j.job else s
  | [] => s

/-- MARBc (R330). -/
def marbReg (c : Nat) : Nat := dieReg (c / 64) (0x3000 + 8 * (c % 64))

/-- ARBITER_VISIT (R329): the visit ends when its tiles are used or its queue is empty, and the next queue is
visited with its weight as MARB now gives it (R330). -/
def execArbiterVisit (c : ClusterNo) (s : State) : Out' :=
  let n := c.toNat
  let t := tileLeaves s n
  let cl := t.cluster n
  if cl.used < cl.budget && (t.mq (n * 8 + cl.pos.toNat)).cmds != [] then .next s else
  let k := (cl.pos + 1).toNat
  .next (t.modCluster n fun cl => { cl with
    pos := cl.pos + 1, used := 0, budget := fld (t.cfgAt (marbReg n)) (4 * k + 3) (4 * k) + 1 })

/-- The head command of the visited queue takes its next tile: `j` has started. -/
def takeTile (s : State) (g : Nat) (j : MJob) : State :=
  match mTile s g j with
  | .error c =>
    let s := match j.cmd with
      | .mldw .. => s.modMq g fun q => { q with shadow := none }
      | _ => s
    mStop s g j.own j.job c (s.mq g).mmode
  | .ok (j', s) =>
    (s.modMq g fun q => { q with run := true, cmds := q.cmds.map fun x => if x.job = j.job then j' else x }).modCluster
      (clusterOf g) fun cl => { cl with used := cl.used + 1 }

/-- MATRIX_TILE_START (R329): the visited queue's next tile enters the array. -/
def execMatrixTileStart (c : ClusterNo) (s : State) : Out' :=
  let n := c.toNat
  let t := tileLeaves s n
  let cl := t.cluster n
  let g := n * 8 + cl.pos.toNat
  if cl.budget ≤ cl.used then .next s else
  match (t.mq g).cmds with
  | [] => .next s
  | j :: _ =>
    if j.started then .next (takeTile t g j) else
    match mStart t g j with
    | .error e => .next (mStop t g j.own j.job e (t.mq g).mmode)
    | .ok (j', t) =>
      match j'.cmd with
      | .mattn _ =>
        if (nextScore (t.mq g).tags j'.blk 0).isNone then .next (mLeave t g j.job) else .next (takeTile t g j')
      | _ => .next (takeTile t g j')

/-! ### Drains -/

/-- The update that a column sum becomes (R338): `res` is the residual row, widened. -/
def drainVal (r : MRow) (res : Option (List Nat)) (n : Nat) : Nat :=
  let b := r.blk
  let opt := dwordAt b 1
  let sum (i : Nat) : Nat := (r.sums.getD i 0).toNat
  let mul (x y : Nat) : Nat := (fmul .f32 .rne (Fmt.f32.val x) (Fmt.f32.val y)).1
  let v := if bit opt 4 then
      rotPair (n % 2 == 1) (sum (n / 2 * 2)) (sum (n / 2 * 2 + 1)) (tabWord r.tab (n / 2 * 2)) (tabWord r.tab (n / 2 * 2 + 1))
    else sum n
  let v := if bit opt 0 then mul v (fld (dwordAt b 2) 31 0) else v
  let coord (base i : Nat) : W32 := BitVec.ofNat 32 (base + i)
  let v := if bit opt 1 then
      if (cbHash (dwordAt b 3) (BitVec.ofNat 32 (fld (dwordAt b 4) 31 0)) (coord (fld (dwordAt b 5) 31 0) r.row)
          (coord (fld (dwordAt b 5) 63 32) n)).toNat < fld (dwordAt b 4) 63 32 then 0
      else mul v (fld (dwordAt b 2) 63 32)
    else v
  match res with
  | some l => (fadd .f32 .rne (Fmt.f32.val v) (Fmt.f32.val (l.getD n 0))).1
  | none => v

/-- The residual row of a drain (R338), BF16 widened exactly; none where the job adds none. -/
def residual (s : State) (r : MRow) : Except Nat (Option (List Nat) × State) :=
  let opt := dwordAt r.blk 1
  if !(bit opt 2 && bit opt 3) then .ok (none, s) else
  let es := if bit opt 5 then 2 else 4
  match engRead s r.g.toNat r.tenant (dwordAt r.blk 6 + BitVec.ofNat 64 (r.row * fld (dwordAt r.blk 7) 31 0)) (64 * es) with
  | .error c => .error c
  | .ok (bs, s) => .ok (some ((elemsOf es 64 bs).map fun x => if es = 2 then x * 65536 else x), s)

/-- The failure of a drain at a line (R335, code 3): its piece where it holds the accumulator that the drain needs. -/
def drainPiece (s : State) (r : MRow) (va : Nat) : Option Piece :=
  match check s r.g.toNat r.tenant .wr va 128 with
  | .error _ => none
  | .ok ps =>
    let p := ps.headD ⟨0, 0, 0, 0⟩
    let h := tget 0 s.coh.hdr (lineOf p.pa)
    if (lostIn s ps).isSome || h = 0 || hdrOp h ≠ .add || (hdrElem h == 8) != r.o64 ||
        hdrScope h < fld (r.mode.setWidth 64) 2 0 then none
    else some p

/-- The updates of a row to one line (R338, R339). -/
def drainLine (s : State) (r : MRow) (va : Nat) (xs : List (Nat × Nat)) : State :=
  match drainPiece s r va with
  | none => mFail s r.g.toNat r.own r.job 3 r.mode
  | some p =>
    tlbFill (updLine s (.engine r.g) r.g (scopeOfNat (fld (r.mode.setWidth 64) 2 0)) (leafCl p.leaf == 0) (lineOf p.pa)
      .f32 xs) r.g.toNat r.tenant p

/-- The updates of a row (R338): columns ascending, line by line. -/
def drainRow (s : State) (r : MRow) (res : Option (List Nat)) : State :=
  let per := if r.o64 then 16 else 32
  (upTo (64 / per)).foldl (fun s l =>
    drainLine s r ((r.out + 128 * l) % 2 ^ 56) ((upTo per).map fun i => (i, drainVal r res (l * per + i)))) s

/-- The score writes of a row (R341): one 4-byte engine write each; code 7 where one fails. -/
def scoreWrites (s : State) (r : MRow) : State :=
  (r.sums.zip (upTo r.sums.length)).foldl (fun s x =>
    match engPieces s r.g.toNat r.tenant (BitVec.ofNat 64 (r.out + 4 * x.2)) 4 with
    | .error _ => mFail s r.g.toNat r.own r.job 7 r.mode
    | .ok ps => engStore s r.g r.tenant ps (bytesOf 4 x.1.toNat)) s

/-- Whether the lees stores have room for the score writes of a row (R175). -/
def scoreRoom (s : State) (r : MRow) : Bool :=
  match engPieces s r.g.toNat r.tenant (BitVec.ofNat 64 r.out) (4 * r.sums.length) with
  | .error _ => true
  | .ok ps => (upTo 8).all fun d =>
      !(ps.any fun p => placeOf s.part p.pa == .dram d) || leesLines s d + r.sums.length ≤ 65536

/-- MATRIX_ROW_DRAIN (R338): row n in flight of a cluster, which is the earliest of its core's (R339). -/
def execMatrixRowDrain (c : ClusterNo) (n : Nat) (s : State) : Out' :=
  let rows := (s.cluster c.toNat).rows
  match rows[n]? with
  | none => .next s
  | some r =>
    if (rows.take n).any (fun x => x.g == r.g) || (r.score && !scoreRoom s r) then .next s else
    let s := s.modCluster c.toNat fun cl => { cl with rows := dropAt cl.rows n }
    if r.score then .next (scoreWrites s r) else
    match residual s r with
    | .error e => .next (mStop s r.g.toNat r.own r.job e r.mode)
    | .ok (res, s) => .next (drainRow s r res)

/-- MATRIX_JOB_DONE (R332): job n of core g has left the array and its updates and writes are applied. -/
def execMatrixJobDone (g : GCore) (n : Nat) (s : State) : Out' :=
  let h := g.toNat
  if (s.mq h).gone.contains n && !(s.cluster (clusterOf h)).rows.any (fun r => r.g == g && r.job == n) then
    .next (jobDone (s.modMq h fun q => { q with gone := q.gone.filter fun j => j != n }) h 1 n)
  else .next s

/-! ### Instructions -/

/-- A command enters the matrix queue; one that could not be built would fail as a job. -/
def enterM (c : Src → Except Trap MCmd) (src : Src) (s : State) : State :=
  mEnter s s.g.toNat s.t s.owner src.job (match c src with | .ok x => x | .error _ => .bad)

/-- The commands of the instructions, from their operand values. -/
def cmdMldw (f : WFmt) (src : Src) : Except Trap MCmd := mldwCmd f (src.w.getD 0 0) (src.w.getD 1 0)
def cmdMswap (_ : Src) : Except Trap MCmd := .ok .mswap
def cmdMstream (f : AFmt) (o64 : Bool) (rows : BitVec 9) (d : GReg) (src : Src) : Except Trap MCmd :=
  mstreamCmd f o64 rows (src.w.getD 0 0) (src.w.getD 1 0) (if d = 0 then none else some (src.w.getD 2 0))
def cmdMattn (src : Src) : Except Trap MCmd := mattnCmd (src.w.getD 0 0)
def cmdMcfg (src : Src) : Except Trap MCmd := mcfgCmd (src.w.getD 0 0)

/-- A push to the matrix queue with the operand values `w`. -/
def mPush (ct : Ctl) (i : Instr) (a : GReg) (c : Src → Except Trap MCmd) (w : State → List Word) (s : State) : Res :=
  pushBody ct i 1 a (enterM c) (fun s =>
    match c { w := w s } with
    | .error t => .error t
    | .ok _ => .ok (w s)) s

/-- MLDW (R343). -/
def execMldw (ct : Ctl) (f : WFmt) (a b c : GReg) (s : State) : Out' :=
  settled (issue ct [.dst 0 a, .src 1 b, .src 2 c] none
    (mPush ct (.mldw ct f a b c) a (cmdMldw f) fun s => [rdG s b, rdG s c]) s)

/-- MSWAP (R344). -/
def execMswap (ct : Ctl) (a : GReg) (s : State) : Out' :=
  settled (issue ct [.dst 0 a] none (mPush ct (.mswap ct a) a cmdMswap fun _ => []) s)

/-- MSTREAM (R345). -/
def execMstream (ct : Ctl) (f : AFmt) (o64 : Bool) (rows : BitVec 9) (a b c d : GReg) (s : State) : Out' :=
  settled (issue ct [.dst 0 a, .src 1 b, .src 2 c, .src 3 d] none
    (mPush ct (.mstream ct f o64 rows a b c d) a (cmdMstream f o64 rows d) fun s => [rdG s b, rdG s c, rdG s d]) s)

/-- MATTN (R346). -/
def execMattn (ct : Ctl) (a b : GReg) (s : State) : Out' :=
  settled (issue ct [.dst 0 a, .src 1 b] none (mPush ct (.mattn ct a b) a cmdMattn fun s => [rdG s b]) s)

/-- MCFG (R348). -/
def execMcfg (ct : Ctl) (a b : GReg) (s : State) : Out' :=
  settled (issue ct [.dst 0 a, .src 1 b] none (mPush ct (.mcfg ct a b) a cmdMcfg fun s => [rdG s b]) s)

/-- Whether an MATTN numbered n or below is still to leave the array (R347). -/
def mattnBefore (s : State) (g n : Nat) : Bool :=
  (s.mq g).cmds.any (fun j => j.job ≤ n && (match j.cmd with | .mattn _ => true | _ => false)) ||
    (allOuts s).any fun e => let o := e.2.2; e.1.toNat == g && o.src.job ≤ n && o.src.k == 0 && o.trap.isNone &&
      (match o.i with | .mattn .. => true | _ => false)

/-- The tags of a map of 1,024 bytes (R347). -/
def mapTags (bs : List Byte) : List Byte :=
  bs.flatMap fun b => (upTo 4).map fun i => b.extractLsb' (2 * i) 2 |>.setWidth 8

/-- MTAGS performed (R347): once every earlier MATTN has left the array, its map is read as loads of a dword read it. -/
def perfMtags (rem : Bool) (a : GReg) (src : Src) (s : State) : Perf :=
  let g := s.g.toNat
  if mattnBefore s g src.job then .wait s else
  loadThen rem 0 8 (fun s bs =>
    let tags := mapTags bs
    match findIdx? (fun x => x == 3) tags with
    | some (i, _) => .trap ⟨0x12, 0, BitVec.ofNat 64 i⟩
    | none => .done (wrG (s.modMq g fun q => { q with tags := tags }) a (BitVec.ofNat 64 (tags.filter fun x => x != 0).length)))
    src s

/-- MTAGS (R347). -/
def execMtags (ct : Ctl) (a b : GReg) (s : State) : Out' :=
  issueLong ct (.mtags ct a b) [.dst 0 a, .src 1 b] none (perfMtags false a) (fun s =>
    if (rdG s b).toNat % 128 ≠ 0 then .error (alignTrap false (rdG s b).toNat) else
    match check s s.g.toNat s.t .rd (va56 (rdG s b)) 1024 with
    | .error t => .error t
    | .ok ps => .ok ({ ps := ps, job := (s.tl s.g.toNat 1).issued }, s)) s

/-- MCANCEL performed (R349). -/
def perfMcancel (a : GReg) (src : Src) (s : State) : Perf :=
  let (s, n) := cancelM s s.g.toNat (src.w.headD 0).toNat fun _ => true
  .done (wrG s a (BitVec.ofNat 64 n))

/-- MCANCEL (R349). -/
def execMcancel (ct : Ctl) (a b : GReg) (s : State) : Out' :=
  issueLong ct (.mcancel ct a b) [.dst 0 a, .src 1 b] none (perfMcancel a) (fun s => .ok ({ w := [rdG s b] }, s)) s

/-- The code of a weight slot in MQSTAT (R350). -/
def slotCode : Option (WFmt × List Byte) → Nat
  | none => 0
  | some (.bf16, _) => 1
  | some (.f8, _) => 2
  | some (.sp2x, _) => 3

/-- MQSTAT's value (R350). -/
def mqstat (q : MQueue) : Word :=
  BitVec.ofNat 64 (q.fcode.toNat * 2 ^ 48 + q.fjob % 65536 * 2 ^ 32 + slotCode q.shadow * 2 ^ 20 + slotCode q.active * 2 ^ 16 +
    q.mmode.toNat * 2 ^ 8 + (if q.run then 16 else 0) + q.cmds.length)

/-- MQSTAT performed (R350). -/
def perfMqstat (a : GReg) (s : State) : Perf := .done (wrG s a (mqstat (s.mq s.g.toNat)))

/-- MQSTAT (R350). -/
def execMqstat (ct : Ctl) (a : GReg) (s : State) : Out' :=
  issueLong ct (.mqstat ct a) [.dst 0 a] none (fun _ => perfMqstat a) (fun s => .ok ({}, s)) s

end Sys2Proof.Machine
end

