-- ==== Sys2Proof/Machine/Press.lean ====
section
/-! DEFINITION. The press (R404–R414): stage chains, sampling, draft trees and verdicts, cancels, and its
instructions. -/

namespace Sys2Proof.Machine

/-! ### Sequence blocks and stage chains -/

/-- A sequence state block without reserved bits and with its fields in range (R404). -/
def seqOk (b : List Byte) : Bool :=
  fld (dwordAt b 2) 63 32 == 0 && fld (dwordAt b 3) 63 56 == 0 && (dwordAt b 3).toNat % 4 == 0 && fld (dwordAt b 4) 63 21 == 0 &&
    1 ≤ fld (dwordAt b 4) 20 0 && fld (dwordAt b 4) 20 0 ≤ 2 ^ 20 && (upTo 3).all fun i => dwordAt b (5 + i) == 0

/-- Fields of a sequence state block. -/
def seqSeed (b : List Byte) : Word := dwordAt b 0
def seqStep (b : List Byte) : Word := dwordAt b 1
def seqStream (b : List Byte) : W32 := (dwordAt b 2).setWidth 32
def seqCounts (b : List Byte) : Word := zext 56 (dwordAt b 3)
def seqV (b : List Byte) : Nat := fld (dwordAt b 4) 20 0

/-- KIND of a stage block. -/
def stageKind (b : List Byte) : Nat := fld (dwordAt b 1) 7 0

/-- A stage control block without reserved bits and with its fields in range (R405, R406). -/
def stageOk (b : List Byte) : Bool :=
  let k := stageKind b
  let sparse := bit (dwordAt b 1) 8
  fld (dwordAt b 0) 63 56 == 0 && fld (dwordAt b 1) 63 9 == 0 && 1 ≤ k && k ≤ 7 && (!sparse || k == 2) &&
    (!sparse || fld (dwordAt b 3) 20 0 ≤ 2 ^ 20) && (k != 5 || fld (dwordAt b 2) 10 0 ≤ 1024) &&
    (upTo 4).all fun i => dwordAt b (4 + i) == 0

/-- A chain of at most `fuel` blocks from an address (R405), ending in its only DRAW or ARGMAX; or code 8, 1 or 2. -/
def readChain (fuel : Nat) (s : State) (g : Nat) (t : TenantNo) (a : Word) : Except Nat (List (List Byte) × State) :=
  match fuel with
  | 0 => .error 8
  | f + 1 =>
    if a = 0 || a.toNat % 64 ≠ 0 then .error 8 else
    match engRead s g t a 64 with
    | .error c => .error c
    | .ok (b, s) =>
      if !stageOk b then .error 8 else
      let next := zext 56 (dwordAt b 0)
      let last := 6 ≤ stageKind b
      if last then (if next = 0 then .ok ([b], s) else .error 8)
      else
        match readChain f s g t next with
        | .error c => .error c
        | .ok (l, s) => .ok (b :: l, s)

/-- Whether a chain ends in ARGMAX. -/
def isGreedy (chain : List (List Byte)) : Bool := (chain.getLast?.map stageKind) == some 7

/-! ### Numbers -/

/-- FP32 operations of the press: each result rounded to nearest even (R71). -/
def prAdd (a b : Nat) : Nat := (fadd .f32 .rne (Fmt.f32.val a) (Fmt.f32.val b)).1
def prSub (a b : Nat) : Nat := (fadd .f32 .rne (Fmt.f32.val a) (Fmt.f32.val b).negate).1
def prMul (a b : Nat) : Nat := (fmul .f32 .rne (Fmt.f32.val a) (Fmt.f32.val b)).1
def prDiv (a b : Nat) : Nat := (roundVal .f32 .rne (divVal (Fmt.f32.val a) (Fmt.f32.val b))).1

/-- The FP32 bits of −∞. -/
def prNegInf : Nat := 0xFF800000
/-- A NaN. -/
def prIsNan (a : Nat) : Bool := (Fmt.f32.val a).isNan
/-- a < b of FP32 numbers; false where one is a NaN. -/
def prLt (a b : Nat) : Bool := !prIsNan a && !prIsNan b && cmpVal (Fmt.f32.val a) (Fmt.f32.val b) < 0
/-- Above +0. -/
def prPos (a : Nat) : Bool := prLt 0 a
/-- A NaN becomes −∞ (R406). -/
def prClean (a : Nat) : Nat := if prIsNan a then prNegInf else a

/-- The index of the largest element, the lowest on ties (R407). -/
def prArgMax (l : List Nat) : Nat :=
  (l.foldl (fun (acc : Nat × Nat × Nat) x =>
    if acc.1 = 0 || prLt acc.2.2 x then (acc.1 + 1, acc.1, x) else (acc.1 + 1, acc.2)) (0, 0, 0)).2.1

/-- The sum of a list in ascending order, rounded after each add (R407). -/
def prSum : List Nat → Nat
  | [] => 0
  | x :: r => r.foldl prAdd x

/-- Probs (R407); none where every logit is −∞. -/
def prProbs (l : List Nat) : Option (List Nat) :=
  let m := l.getD (prArgMax l) prNegInf
  if m = prNegInf then none else
  let w := l.map fun x => if x = prNegInf then 0 else (sfuLane .exp (BitVec.ofNat 32 (prSub x m))).1.toNat
  let t := prSum w
  some (w.map fun x => prDiv x t)

/-- U(row, col) of R407: 24 bits of Cb, as an exact value. -/
def prDraw (blk : List Byte) (row : Word) (col : Nat) : Val :=
  .fin false ((cbHash (seqSeed blk) (seqStream blk) (row.setWidth 32) (BitVec.ofNat 32 col)).toNat / 256) (-24)

/-- Sample(p, u) (R407). -/
def prSample (p : List Nat) (u : Val) : Nat :=
  let t := (fmul .f32 .rne u (Fmt.f32.val (prSum p))).1
  let run := (p.foldl (fun (acc : Nat × Nat × Option Nat × Nat) x =>
    let (i, c, hit, last) := acc
    let c := if i = 0 then x else prAdd c x
    (i + 1, c, if hit.isSome then hit else if prLt t c then some i else none, if prPos x then i else last)) (0, 0, none, 0))
  run.2.2.1.getD run.2.2.2

/-! ### Stages -/

/-- FP32 words of memory. -/
def readWords (s : State) (g : Nat) (t : TenantNo) (a : Word) (n : Nat) : Except Nat (List Nat × State) :=
  match engRead s g t a (4 * n) with
  | .error c => .error c
  | .ok (bs, s) => .ok (elemsOf 4 n bs, s)

/-- A list with f applied to every element that is not −∞, a NaN becoming −∞ (R406). -/
def stageMap (l : List Nat) (f : Nat → Nat → Nat) : List Nat :=
  (l.zip (upTo l.length)).map fun x => if x.1 = prNegInf then prNegInf else prClean (f x.2 x.1)

/-- The sparse list of a BIAS (R406): entries in order; code 9 for a token out of range. -/
def sparseBias : List (List Byte) → List Nat → Except Nat (List Nat)
  | [], l => .ok l
  | e :: es, l =>
    let t := (w32At e 0).toNat
    if l.length ≤ t then .error 9
    else sparseBias es (modAt l t fun x => if x = prNegInf then x else prClean (prAdd x (w32At e 4).toNat))

/-- The penalty on a logit whose token has been counted c times (R406). -/
def penalty (a0 a1 : Word) (c x : Nat) : Nat :=
  let r := fld a0 31 0
  let x := if 0 < c then (if prPos x then prDiv x r else prMul x r) else x
  let f := (fmul .f32 .rne (Fmt.f32.val (fld a0 63 32)) (intVal c)).1
  let x := prSub x f
  if 0 < c then prSub x (fld a1 31 0) else x

/-- Indices in descending order of value, the lower index first on ties. -/
def sortDown (l : List (Nat × Nat)) : List (Nat × Nat) :=
  l.mergeSort fun a b => prLt b.2 a.2 || (!prLt a.2 b.2 && a.1 ≤ b.1)

/-- Elements that are not kept become −∞. -/
def keepOnly (l : List Nat) (keep : List Nat) : List Nat :=
  (l.zip (upTo l.length)).map fun x => if keep.contains x.2 then x.1 else prNegInf

/-- The shortest prefix of a sorted list whose sum reaches a bound (R406). -/
def prefixTo (bound : Nat) : List (Nat × Nat) → Option Nat → List Nat
  | [], _ => []
  | (i, p) :: r, acc =>
    let c := match acc with
      | none => p
      | some a => prAdd a p
    if prLt c bound then i :: prefixTo bound r (some c) else [i]

/-- FILTER (R406): top-k, then min-p, then top-p; none where every logit is −∞ as a probability is needed. -/
def prFilter (a0 a1 : Word) (l : List Nat) : Option (List Nat) :=
  let k := fld a0 10 0
  let index (l : List Nat) : List (Nat × Nat) := ((upTo l.length).zip l).filter fun x => x.2 != prNegInf
  let l := if k = 0 then l else keepOnly l (((sortDown (index l)).take k).map (·.1))
  let topp := fld a1 31 0
  let minp := fld a1 63 32
  let l? := if Val.isZero (Fmt.f32.val minp) then some l else (prProbs l).map fun p =>
    let m := prMul minp (p.getD (prArgMax p) 0)
    keepOnly l (((index l).filter fun x => !prLt (p.getD x.1 0) m && !prIsNan m).map (·.1))
  l?.bind fun l =>
    if Val.isZero (Fmt.f32.val topp) || !prLt topp 0x3F800000 then some l else (prProbs l).map fun p =>
      keepOnly l (prefixTo topp (sortDown ((index l).map fun x => (x.1, p.getD x.1 0))) none)

/-- One stage of a chain (R406): `deltas` counts the speculative tokens. -/
def runStage (s : State) (g : Nat) (t : TenantNo) (blk : List Byte) (deltas : Nat → Nat) (st : List Byte) (l : List Nat) :
    Except Nat (List Nat × State) :=
  let a0 := dwordAt st 2
  let a1 := dwordAt st 3
  match stageKind st with
  | 1 => .ok (stageMap l fun _ x => prMul x (fld a0 31 0), s)
  | 2 =>
    if bit (dwordAt st 1) 8 then
      match engRead s g t a0 (8 * fld a1 20 0) with
      | .error c => .error c
      | .ok (bs, s) =>
        match sparseBias ((upTo (fld a1 20 0)).map fun i => (bs.drop (8 * i)).take 8) l with
        | .error c => .error c
        | .ok l => .ok (l, s)
    else
      match readWords s g t a0 l.length with
      | .error c => .error c
      | .ok (bias, s) => .ok (stageMap l fun i x => prAdd x (bias.getD i 0), s)
  | 3 =>
    match engRead s g t a0 (8 * ceilDiv l.length 64) with
    | .error c => .error c
    | .ok (bs, s) => .ok ((l.zip (upTo l.length)).map fun x => if bit (dwordAt bs (x.2 / 64)) (x.2 % 64) then x.1 else prNegInf, s)
  | 4 =>
    match readWords s g t (seqCounts blk) l.length with
    | .error c => .error c
    | .ok (cs, s) => .ok (stageMap l fun i x => penalty a0 a1 (cs.getD i 0 + deltas i) x, s)
  | 5 => match prFilter a0 a1 l with
    | some l => .ok (l, s)
    | none => .error 9
  | _ => .ok (l, s)

/-- The stages of a chain but its last, from a row of logits (R406). -/
def runChain (s : State) (g : Nat) (t : TenantNo) (blk : List Byte) (deltas : Nat → Nat) (chain : List (List Byte))
    (l : List Nat) : Except Nat (List Nat × State) :=
  chain.dropLast.foldl (fun r st =>
    match r with
    | .error c => .error c
    | .ok (l, s) => runStage s g t blk deltas st l) (.ok (l, s))

/-- A row of V logits (R406): BF16 widened exactly, a NaN read as −∞. -/
def readLogits (s : State) (g : Nat) (t : TenantNo) (a : Word) (bf : Bool) (v : Nat) : Except Nat (List Nat × State) :=
  let es := if bf then 2 else 4
  match engRead s g t a (es * v) with
  | .error c => .error c
  | .ok (bs, s) => .ok ((elemsOf es v bs).map fun x => prClean (if bf then x * 65536 else x), s)

/-! ### The queue -/

/-- The state with the press of a die changed. -/
def modPress (s : State) (d : Nat) (f : Die → Die) : State := s.modDie d f

/-- A request enters the press's queue. -/
def prEnter (s : State) (g : GCore) (t : TenantNo) (own : Owner) (job : Nat) (c : PrCmd) : State :=
  s.modDie (dieOf g.toNat) fun d => { d with press := d.press ++ [{ g := g, job := job, tenant := t, own := own, cmd := c }] }

/-- A request ends: done, or failed with a code (R391). -/
def prEnd (s : State) (d : Nat) (j : PrJob) (code : Nat) : State :=
  let h := j.g.toNat
  let s := if code = 0 then s else recordFailure (s.modCore h fun c =>
    { c with eng := { c.eng with pressFail := ⟨BitVec.ofNat 8 code, j.job⟩ } }) h j.own 3 j.job
  (jobDone s h 3 j.job).bumpDie d 0x0073 1

/-- A request block (R408, R411), read and checked: its bytes and its sequence block. -/
def readReq (s : State) (j : PrJob) (a : Word) (tree : Bool) : Except Nat (List Byte × List Byte × State) :=
  match engRead s j.g.toNat j.tenant a (if tree then 128 else 64) with
  | .error c => .error c
  | .ok (r, s) =>
    let zero (lo n : Nat) : Bool := (upTo n).all fun i => dwordAt r (lo + i) == 0
    let ok := if tree then
        fld (dwordAt r 2) 31 1 == 0 && fld (dwordAt r 4) 63 32 == 0 && fld (dwordAt r 8) 63 5 == 0 &&
          (dwordAt r 9).toNat % 128 == 0 && zero 10 6
      else fld (dwordAt r 2) 63 1 == 0 && (dwordAt r 4).toNat % 16 == 0 && zero 5 3
    if !ok || (dwordAt r 0).toNat % 64 ≠ 0 then .error 4 else
    match engRead s j.g.toNat j.tenant (dwordAt r 0) 64 with
    | .error c => .error c
    | .ok (b, s) => if seqOk b then .ok (r, b, s) else .error 4

/-- The pending verdict of a sequence (R411). -/
def verdictOf (s : State) (d : Nat) (t : TenantNo) (seq : Word) : Option Verdict :=
  (s.die d).verdicts.find? fun v => v.tenant == t && va56 v.seq == va56 seq

/-- Writes of a request, all checked before any is made: the state, or how they end. -/
def prWrites (s : State) (g : GCore) (t : TenantNo) (ws : List (Word × List Byte)) : Except EngEnd State :=
  let ps := ws.map fun w => (engPieces s g.toNat t w.1 w.2.length, w.2)
  if ps.any fun p => match p.1 with | .error _ => true | .ok _ => false then .error (.fail 3) else
  let ok := ps.map fun p => (match p.1 with | .ok x => x | .error _ => [], p.2)
  let cells := ok.flatMap fun p => pieceCells p.1 p.2
  if !leesRoom s cells then .error (.wait cells)
  else .ok (ok.foldl (fun s p => engStore s g t p.1 p.2) s)

/-- The counts of tokens, each raised by one for every occurrence (R408, R412): the writes. -/
def countWrites (s : State) (g : Nat) (t : TenantNo) (blk : List Byte) (toks : List W32) :
    Except Nat (List (Word × List Byte) × State) :=
  toks.eraseDups.foldl (fun r x =>
    match r with
    | .error c => .error c
    | .ok (ws, s) =>
      let a := seqCounts blk + BitVec.ofNat 64 (4 * x.toNat)
      match engRead s g t a 4 with
      | .error c => .error c
      | .ok (bs, s) =>
        let n := (toks.filter fun y => y == x).length
        .ok (ws ++ [(a, bytesOf 4 (min (ofBytes bs + n) (2 ^ 32 - 1)))], s)) (.ok ([], s))

/-! ### SMPL and SMCOMMIT -/

/-- The result record of SMPL (R408). -/
def smplRecord (cancelled : Bool) (tok : Nat) (step : Word) : List Byte :=
  bytesOf 8 (if cancelled then 2 ^ 32 else tok) ++ bytesOf 8 step.toNat

/-- The token that a chain chooses (R407). -/
def chooseToken (blk : List Byte) (chain : List (List Byte)) (l : List Nat) : Option Nat :=
  if isGreedy chain then
    let i := prArgMax l
    if l.getD i prNegInf = prNegInf then none else some i
  else (prProbs l).map fun p => prSample p (prDraw blk (seqStep blk) 1)

/-- The run of an SMPL (R408): the state with its record, count and STEP, or how it ends. -/
def runSmpl (s : State) (d : Nat) (j : PrJob) (req : Word) : Except EngEnd State :=
  match readReq s j req false with
  | .error c => .error (.fail c)
  | .ok (r, b, s) =>
    if (verdictOf s d j.tenant (dwordAt r 0)).isSome then .error (.fail 10) else
    match readChain 16 s j.g.toNat j.tenant (dwordAt r 3) with
    | .error c => .error (.fail c)
    | .ok (chain, s) =>
      match readLogits s j.g.toNat j.tenant (dwordAt r 1) (bit (dwordAt r 2) 0) (seqV b) with
      | .error c => .error (.fail c)
      | .ok (l, s) =>
        match runChain s j.g.toNat j.tenant b (fun _ => 0) chain l with
        | .error c => .error (.fail c)
        | .ok (l, s) =>
          match chooseToken b chain l with
          | none => .error (.fail 9)
          | some tok =>
            match countWrites s j.g.toNat j.tenant b [BitVec.ofNat 32 tok] with
            | .error c => .error (.fail c)
            | .ok (ws, s) =>
              prWrites s j.g j.tenant ((dwordAt r 4, smplRecord false tok (seqStep b)) :: ws ++
                [(dwordAt r 0 + 8, bytesOf 8 (seqStep b + 1).toNat)])

/-- The run of an SMCOMMIT (R412). -/
def runCommit (s : State) (d : Nat) (j : PrJob) (seq : Word) (vjob : Nat) : Except EngEnd State :=
  match verdictOf s d j.tenant seq with
  | none => .error (.fail 10)
  | some v =>
    if v.job ≠ vjob then .error (.fail 10) else
    if seq.toNat % 64 ≠ 0 then .error (.fail 4) else
    match engRead s j.g.toNat j.tenant seq 64 with
    | .error c => .error (.fail c)
    | .ok (b, s) =>
      if !seqOk b then .error (.fail 4) else
      match countWrites s j.g.toNat j.tenant b (v.toks ++ [v.next]) with
      | .error c => .error (.fail c)
      | .ok (ws, s) =>
        match prWrites s j.g j.tenant (ws ++ [(seq + 8, bytesOf 8 (seqStep b + BitVec.ofNat 64 (v.toks.length + 1)).toNat)]) with
        | .ok s => .ok (s.modDie d fun x => { x with verdicts := x.verdicts.filter fun y => y != v })
        | r => r

/-! ### SMPLV -/

/-- A node is live unless it or an ancestor is pruned (R410). -/
def liveNode (fuel : Nat) (parents : List Byte) (prune : Word) (n : Nat) : Bool :=
  match fuel with
  | 0 => true
  | f + 1 => n == 0 || (!bit prune n && liveNode f parents prune (parents.getD n 0).toNat)

/-- The live children of a node, ascending. -/
def liveKids (w : PrWalk) (n : Nat) : List Nat :=
  (upTo w.parents.length).filter fun c => c != 0 && (w.parents.getD c 0).toNat == n && liveNode 64 w.parents (dwordAt w.req 7) c

/-- Target(n, path) of R410: the chain but its last stage on row n, then Probs. -/
def prTarget (s : State) (w : PrWalk) (n : Nat) (path : List Nat) : Except Nat (List Nat × State) :=
  let j := w.job
  let toks := path.map fun c => (w.drafts.getD c 0).toNat
  let stride : Word := BitVec.ofNat 64 (n * fld (dwordAt w.req 2) 63 32)
  match readLogits s j.g.toNat j.tenant (dwordAt w.req 1 + stride) (bit (dwordAt w.req 2) 0) (seqV w.blk) with
  | .error c => .error c
  | .ok (l, s) =>
    match runChain s j.g.toNat j.tenant w.blk (fun t => (toks.filter fun x => x == t).length) w.chain l with
    | .error c => .error c
    | .ok (l, s) =>
      match prProbs l with
      | none => .error 9
      | some p => .ok (p, s)

/-- Q(n) of R410: a negative or NaN entry reads as 0. -/
def prQ (s : State) (w : PrWalk) (n : Nat) : Except Nat (List Nat × State) :=
  match readWords s w.job.g.toNat w.job.tenant (dwordAt w.req 3 + BitVec.ofNat 64 (n * fld (dwordAt w.req 4) 31 0)) (seqV w.blk) with
  | .error c => .error c
  | .ok (q, s) => .ok (q.map fun x => if prIsNan x || prLt x 0 then 0 else x, s)

/-- p and q of a node taken by the walk. -/
def prAt (s : State) (w : PrWalk) (n : Nat) (path : List Nat) : Except Nat (PrWalk × State) :=
  match prTarget s w n path with
  | .error c => .error c
  | .ok (p, s) =>
    match prQ s w n with
    | .error c => .error c
    | .ok (q, s) => .ok ({ w with node := n, path := path, p := p.map (BitVec.ofNat 32), q := q.map (BitVec.ofNat 32) }, s)

/-- Norm (R411). -/
def prNorm (v : List Nat) : List Nat := let t := prSum v; v.map fun x => prDiv x t

/-- What the check of the children of a node yields (R411): the child taken, or p and q as the refusals left them. -/
def tryKids (w : PrWalk) : List Nat → List Nat → List Nat → Option Nat × List Nat × List Nat
  | [], p, q => (none, p, q)
  | c :: cs, p, q =>
    let x := (w.drafts.getD c 0).toNat
    let greedy := isGreedy w.chain
    let u := prDraw w.blk (seqStep w.blk + BitVec.ofNat 64 w.depth) (2 * c)
    let ok := if greedy then x == prArgMax p
      else
        let a := (mulVal u (Fmt.f32.val (q.getD x 0))).1
        let b := Fmt.f32.val (p.getD x 0)
        !a.isNan && !b.isNan && cmpVal a b < 0
    if ok then (some c, p, q)
    else if greedy then tryKids w cs p q
    else
      let r := (p.zip q).map fun y => let z := prSub y.1 y.2; if prPos z then z else 0
      let p := if prPos (prSum r) then prNorm r else p
      let q := modAt q x fun _ => 0
      if !prPos (prSum q) then (none, p, q) else tryKids w cs p (prNorm q)

/-- The verdict record (R411). -/
def verdictRecord (cancelled : Bool) (next : Nat) (step : Word) (path : List Nat) (toks : List W32) : List Byte :=
  let pad (n : Nat) (l : List Byte) : List Byte := l ++ List.replicate (n - l.length) 0
  if cancelled then pad 128 (bytesOf 4 0 ++ [1] ++ bytesOf 3 0 ++ bytesOf 8 step.toNat)
  else
    bytesOf 4 next ++ [0, BitVec.ofNat 8 path.length] ++ bytesOf 2 0 ++ bytesOf 8 step.toNat ++ pad 16 (path.map (BitVec.ofNat 8)) ++
      bytesOf 32 0 ++ pad 64 (toks.flatMap fun t => bytesOf 4 t.toNat)

/-- The start of an SMPLV (R411): request, sequence, template, chain, draft tokens, and p and q of node 0. -/
def startTree (s : State) (d : Nat) (j : PrJob) (req : Word) : Except Nat (PrWalk × State) :=
  match readReq s j req true with
  | .error c => .error c
  | .ok (r, b, s) =>
    match tget none s.trees (j.tenant.toNat * 32 + fld (dwordAt r 8) 4 0) with
    | none => .error 11
    | some parents =>
      if (verdictOf s d j.tenant (dwordAt r 0)).isSome || 64 ≤ (s.die d).verdicts.length then .error 10 else
      match readChain 16 s j.g.toNat j.tenant (dwordAt r 6) with
      | .error c => .error c
      | .ok (chain, s) =>
        match readWords s j.g.toNat j.tenant (dwordAt r 5 + 4) (parents.length - 1) with
        | .error c => .error c
        | .ok (toks, s) =>
          if toks.any fun x => decide (seqV b ≤ x) then .error 9 else
          prAt s { job := j, req := r, blk := b, chain := chain, parents := parents, drafts := 0 :: toks.map (BitVec.ofNat 32) } 0 []

/-- The state with a running SMPLV replaced. -/
def setWalk (s : State) (d : Nat) (w : Option PrWalk) : State := s.modDie d fun x => { x with walk := w }

/-- A running SMPLV ends with a verdict record, or fails. -/
def endWalk (s0 : State) (d : Nat) (w : PrWalk) (r : Except EngEnd State) (f : State → State) : State :=
  match r with
  | .error (.wait ws) => thirstFor s0 ws
  | .error (.fail c) => prEnd (setWalk s0 d none) d w.job c
  | .ok s => prEnd (f (setWalk s d none)) d w.job 0

/-- The end of a walk that has reached its last boundary (R411): NEXT, the record, the pending verdict. -/
def walkEnds (s : State) (d : Nat) (w : PrWalk) : State :=
  let p := w.p.map fun x => x.toNat
  let step := seqStep w.blk
  let next := if isGreedy w.chain then prArgMax p else prSample p (prDraw w.blk (step + BitVec.ofNat 64 w.depth) 1)
  let toks := w.path.map fun c => w.drafts.getD c 0
  let v : Verdict := ⟨w.job.tenant, w.job.g, dwordAt w.req 0, w.job.job, toks, BitVec.ofNat 32 next⟩
  endWalk s d w (prWrites s w.job.g w.job.tenant [(dwordAt w.req 9, verdictRecord false next step w.path toks)]) fun s =>
    (s.modDie d fun x => { x with verdicts := x.verdicts ++ [v] }).bumpDie d 0x0074 w.path.length

/-- PRESS_NODE_BOUNDARY (R411, R413): a running SMPLV reaches a node boundary: it ends where it is cancelled, else it
checks the children of its node, or, where no child was taken, forms NEXT. -/
def execPressNodeBoundary (d : DieNo) (s : State) : Out' :=
  let n := d.toNat
  match (s.die n).walk with
  | none => .next s
  | some w =>
    if w.job.cancel then
      .next (endWalk s n w (prWrites s w.job.g w.job.tenant [(dwordAt w.req 9, verdictRecord true 0 (seqStep w.blk) [] [])]) id)
    else if w.leaf then .next (walkEnds s n w)
    else
      let (hit, p, q) := tryKids w (liveKids w w.node) (w.p.map fun x => x.toNat) (w.q.map fun x => x.toNat)
      match hit with
      | none => .next (setWalk s n (some { w with leaf := true, p := p.map (BitVec.ofNat 32), q := q.map (BitVec.ofNat 32) }))
      | some c =>
        match prAt s { w with depth := w.depth + 1 } c (w.path ++ [c]) with
        | .error e => .next (prEnd (setWalk s n none) n w.job e)
        | .ok (w, s) => .next (setWalk s n (some w))

/-! ### Requests -/

/-- A cancelled request that had not started (R413): its record; it counts as done and not as failed. -/
def endCancelled (s0 s : State) (d : Nat) (j : PrJob) : State :=
  let fin (s : State) : State := prEnd s d j 0
  let put (a : Word) (bs : List Byte) (s : State) : State :=
    match prWrites s j.g j.tenant [(a, bs)] with
    | .error (.wait ws) => thirstFor s0 ws
    | .ok s => fin s
    | .error (.fail _) => fin s
  match j.cmd with
  | .smpl a => match engRead s j.g.toNat j.tenant a 64 with
    | .error _ => fin s
    | .ok (r, s) => put (dwordAt r 4) (smplRecord true 0 j.step) s
  | .smplv a => match engRead s j.g.toNat j.tenant a 128 with
    | .error _ => fin s
    | .ok (r, s) => put (dwordAt r 9) (verdictRecord true 0 j.step [] []) s
  | .smcommit .. => fin s

/-- A request that runs to its end in one step, or fails. -/
def endRun (s0 s1 : State) (d : Nat) (j : PrJob) : Except EngEnd State → State
  | .error (.wait ws) => thirstFor s0 ws
  | .error (.fail c) => prEnd s1 d j c
  | .ok s => prEnd s d j 0

/-- PRESS_REQUEST_START (R390): the press of a die starts the next request in order of arrival; an SMPL or SMCOMMIT
runs to its end. A cancel in the cc of the start has come before it, since it wins (R415): what follows comes in a later
cc. -/
def execPressRequestStart (d : DieNo) (s : State) : Out' :=
  let n := d.toNat
  if (s.die n).walk.isSome then .next s else
  match (s.die n).press with
  | [] => .next s
  | j :: r =>
    let s1 := s.modDie n fun x => { x with press := r }
    .next (advance (if j.cancel then endCancelled s s1 n j else
      match j.cmd with
      | .smpl a => endRun s s1 n j (runSmpl s1 n j a)
      | .smcommit seq v => endRun s s1 n j (runCommit s1 n j seq v)
      | .smplv a =>
        match startTree s1 n j a with
        | .error c => prEnd s1 n j c
        | .ok (w, s2) => setWalk s2 n (some w)) 1)

/-- The sequence block address of a queued request, read from its block (R408, R411). -/
def seqOfJob (s : State) (j : PrJob) : Option Word :=
  match j.cmd with
  | .smpl a | .smplv a => match engRead s j.g.toNat j.tenant a 8 with
    | .error _ => none
    | .ok (bs, _) => some (dwordAt bs 0)
  | .smcommit seq _ => some seq

/-- STEP that a sequence block holds now. -/
def stepNow (s : State) (j : PrJob) (seq : Word) : Word :=
  match engRead s j.g.toNat j.tenant seq 64 with
  | .error _ => 0
  | .ok (b, _) => seqStep b

/-- A cancel of a tenant's sequence at the press of a die (R413): the state, and how many requests and verdicts it
cancelled. -/
def prCancel (s : State) (d : Nat) (t : TenantNo) (seq : Word) : State × Nat :=
  let hit (j : PrJob) : Bool := j.tenant == t && !j.cancel && ((seqOfJob s j).map va56 == some (va56 seq))
  let die := s.die d
  let q := (die.press.filter hit).length
  let running := match die.walk with
    | some w => w.job.tenant == t && !w.job.cancel && va56 (dwordAt w.req 0) == va56 seq
    | none => false
  let vs := (die.verdicts.filter fun v => v.tenant == t && va56 v.seq == va56 seq).length
  let mark (j : PrJob) : PrJob := if hit j then { j with cancel := true, step := stepNow s j seq } else j
  let s := s.modDie d fun x => { x with
    press := x.press.map mark
    walk := if running then x.walk.map fun w => { w with job := { w.job with cancel := true } } else x.walk
    verdicts := x.verdicts.filter fun v => !(v.tenant == t && va56 v.seq == va56 seq) }
  let n := q + (if running then 1 else 0) + vs
  (if n = 0 then s else s.bumpDie d 0x0075 n, n)

/-- PRCANC_WRITE (R413): the host writes PRCANCt.d. -/
def execPrcancWrite (t : TenantNo) (d : DieNo) (seq : Word) (s : State) : Out' :=
  .next (prCancel s d.toNat t (zext 56 seq)).1

/-! ### Instructions -/

/-- UNIMPL where the part has no press (R5). -/
def needPress (s : State) (major : BitVec 8) : Option Trap :=
  if s.part.press then none else some ⟨0x0F, 0, major.setWidth 64⟩

/-- A request enters the queue of its die's press. -/
def enterPr (f : Src → PrCmd) (src : Src) (s : State) : State := prEnter s s.g s.t s.owner src.job (f src)

/-- The requests of the instructions. -/
def reqSmpl (src : Src) : PrCmd := .smpl (src.w.headD 0)
def reqSmplv (src : Src) : PrCmd := .smplv (src.w.headD 0)
def reqCommit (src : Src) : PrCmd := .smcommit (src.w.headD 0) (src.w.getD 1 0).toNat

/-- A request block's ALIGN check (R408, R411). -/
def reqAddr (n : Nat) (b : GReg) (s : State) : Except Trap (List Word) :=
  if (rdG s b).toNat % n ≠ 0 then .error (alignTrap false (rdG s b).toNat) else .ok [rdG s b]

/-- SMPL (R408). -/
def execSmpl (ct : Ctl) (a b : GReg) (s : State) : Out' :=
  settled (issue ct [.dst 0 a, .src 1 b] (needPress s 0xE2) (pushBody ct (.smpl ct a b) 3 a (enterPr reqSmpl) (reqAddr 64 b)) s)

/-- SMPLV (R411). -/
def execSmplv (ct : Ctl) (a b : GReg) (s : State) : Out' :=
  settled (issue ct [.dst 0 a, .src 1 b] (needPress s 0xE3) (pushBody ct (.smplv ct a b) 3 a (enterPr reqSmplv) (reqAddr 128 b)) s)

/-- SMCOMMIT (R412). -/
def execSmcommit (ct : Ctl) (a b c : GReg) (s : State) : Out' :=
  settled (issue ct [.dst 0 a, .src 1 b, .src 2 c] (needPress s 0xE4)
    (pushBody ct (.smcommit ct a b c) 3 a (enterPr reqCommit) (fun s => .ok [rdG s b, rdG s c])) s)

/-- SMCANCEL performed (R413). -/
def perfSmcancel (a : GReg) (src : Src) (s : State) : Perf :=
  let (s, n) := prCancel s (dieOf s.g.toNat) s.t (src.w.headD 0)
  .done (wrG s a (BitVec.ofNat 64 n))

/-- SMCANCEL (R413). -/
def execSmcancel (ct : Ctl) (a b : GReg) (s : State) : Out' :=
  issueLong ct (.smcancel ct a b) [.dst 0 a, .src 1 b] (needPress s 0xE5) (perfSmcancel a) (fun s => .ok ({ w := [rdG s b] }, s)) s

/-- The depth of a node of a template. -/
def nodeDepth (fuel : Nat) (parents : List Byte) (n : Nat) : Nat :=
  match fuel with
  | 0 => 0
  | f + 1 => if n = 0 then 0 else nodeDepth f parents (parents.getD n 0).toNat + 1

/-- A template descriptor that R409 accepts: the parents of its nodes. -/
def treeOf (bs : List Byte) : Option (List Byte) :=
  let nn := fld (dwordAt bs 0) 5 0 + 1
  let ps := (bs.drop 8).take nn
  let ok := fld (dwordAt bs 0) 63 6 == 0 && ps.getD 0 0 == 0xFF && ((bs.drop (8 + nn)).take (64 - nn)).all (· == 0) &&
    (upTo nn).all fun n => n == 0 || decide ((ps.getD n 0).toNat < n)
  if ok && (upTo nn).all fun n => decide (nodeDepth 64 ps n ≤ 16) then some ps else none

/-- TREEDEF performed (R409): its descriptor is read as loads of a dword read it. -/
def perfTreedef (rem : Bool) (id : BitVec 5) (src : Src) (s : State) : Perf :=
  loadThen rem 0 8 (fun s bs =>
    match treeOf bs with
    | none => .trap (illopnd 1)
    | some ps => .done { s with trees := tset none s.trees (s.t.toNat * 32 + id.toNat) (some ps) }) src s

/-- TREEDEF (R409). -/
def execTreedef (ct : Ctl) (b : GReg) (id : BitVec 5) (s : State) : Out' :=
  issueLong ct (.treedef ct b id) [.src 1 b] (needPress s 0xE6) (perfTreedef false id) (fun s =>
    if (rdG s b).toNat % 8 ≠ 0 then .error (alignTrap false (rdG s b).toNat) else
    match check s s.g.toNat s.t .rd (va56 (rdG s b)) 72 with
    | .error t => .error t
    | .ok ps => .ok ({ ps := ps, bs := boundBytes s ps }, s)) s

/-- ENGQ's value (R414). -/
def engqWord (f : Fail) (other qlen : Nat) : Word :=
  BitVec.ofNat 64 (f.code.toNat * 2 ^ 48 + f.job % 65536 * 2 ^ 32 + other % 256 * 2 ^ 8 + qlen)

/-- ENGQ performed (R414). -/
def perfEngq (e : EngSel) (a : GReg) (s : State) : Perf :=
  let g := s.g.toNat
  let d := s.die (dieOf g)
  .done (wrG s a (match e with
    | .copy => engqWord (s.core g).eng.cqFail 0 (s.core g).eng.cq.length
    | .coll => engqWord (s.core g).eng.collFail (s.fl.colls.filter fun j => j.started).length (collQueued s g)
    | .press => engqWord (s.core g).eng.pressFail d.verdicts.length (d.press.filter fun j => j.g == s.g).length))

/-- ENGQ (R414). -/
def execEngq (ct : Ctl) (e : EngSel) (a : GReg) (s : State) : Out' :=
  issueLong ct (.engq ct e a) [.dst 0 a] (if e = .press then needPress s 0xE7 else none) (fun _ => perfEngq e a)
    (fun s => .ok ({}, s)) s

end Sys2Proof.Machine
end

