-- ==== Sys2Proof/Machine/RopeTree.lean ====
section
/-! DEFINITION. Rope data (R356–R371): descriptors and their checks, summary slots, node lines, and the trees that
the trellis units read and build. -/

namespace Sys2Proof.Machine

/-! ### Traps -/

/-- ROPEFLT with its code and node address (R359). -/
def ropeFlt (code addr : Nat) : Trap := ⟨0x11, 0, BitVec.ofNat 64 (code * 2 ^ 56 + addr % 2 ^ 56)⟩
/-- ILLDESC with its reason, slot and id (R363). -/
def illDesc (reason slot id : Nat) : Trap := ⟨0x10, 0, BitVec.ofNat 64 (reason + slot * 256 + id * 4096)⟩

/-! ### Descriptors -/

/-- A defined summary slot (R360). -/
structure RSlot where
  comb : Nat
  cls : Nat
  ftype : Nat
  foff : Nat
  pair : Nat
  deriving DecidableEq, Repr

/-- Dword i of a descriptor. -/
def RopeDesc.dw (d : RopeDesc) (i : Nat) : Word := d.words.getD i 0
/-- Element size and elements per piece (R360). -/
def RopeDesc.es (d : RopeDesc) : Nat := fld (d.dw 0) 7 0
def RopeDesc.pmax (d : RopeDesc) : Nat := fld (d.dw 0) 15 8
/-- Slot k, where it is defined. -/
def RopeDesc.slot (d : RopeDesc) (k : Nat) : Option RSlot :=
  if bit (d.dw 0) (16 + k) then
    let w := d.dw (1 + k)
    some ⟨fld w 15 12, fld w 19 16, fld w 11 8, fld w 7 0, fld w 22 20⟩
  else none

/-- Bytes of a field type (R360, R58). -/
def ftypeBytes (t : Nat) : Nat :=
  match t with
  | 0 | 4 => 1
  | 1 | 5 => 2
  | 2 | 6 => 4
  | 3 | 7 => 8
  | 8 => 4
  | _ => 2
/-- A floating-point field type. -/
def ftypeFloat (t : Nat) : Bool := 8 ≤ t && t ≤ 10
/-- A signed integer field type. -/
def ftypeSigned (t : Nat) : Bool := t < 4

/-- A combiner of R361. -/
def combKnown (c : Nat) : Bool := c ≤ 4 || c == 8 || c == 9
/-- The class of a combiner: 0 INV, 1 REL (R361). -/
def combClass (c : Nat) : Nat := if c = 8 || c = 9 then 1 else 0

/-- Whether R361 allows a field type and offset for a combiner. -/
def combAllows (s : RSlot) : Bool :=
  match s.comb with
  | 3 => s.ftype == 0 && s.foff == 0
  | 4 => ftypeFloat s.ftype
  | 8 | 9 => !ftypeFloat s.ftype
  | _ => true

/-- Whether a slot's partner is the slot that its combiner needs (R363, reason 5). -/
def pairOk (d : RopeDesc) (s : RSlot) : Bool :=
  match d.slot s.pair with
  | none => false
  | some q => q.comb == (if s.comb = 8 then 0 else 1) && q.foff == s.foff && q.ftype == s.ftype

/-- Whether slot k fails a reason of R363. -/
def slotFails (d : RopeDesc) (reason k : Nat) : Bool :=
  let w := d.dw (1 + k)
  match d.slot k with
  | none => reason == 1 && w != 0
  | some s =>
    let known := combKnown s.comb && s.ftype ≤ 10
    match reason with
    | 1 => fld w 63 23 != 0
    | 2 => s.ftype ≤ 10 && decide (d.es < s.foff + ftypeBytes s.ftype)
    | 3 => 2 ≤ s.cls || !known
    | 4 => s.cls < 2 && combKnown s.comb && s.cls != combClass s.comb
    | 5 => (s.comb == 8 || s.comb == 9) && !pairOk d s
    | 6 => known && !combAllows s
    | _ => false

/-- Whether a descriptor fails a reason of R363 as a whole. -/
def descFails (d : RopeDesc) (reason : Nat) : Bool :=
  match reason with
  | 1 => fld (d.dw 0) 63 24 != 0 || (upTo 7).any fun i => d.dw (9 + i) != 0
  | 2 => d.es == 0 || 128 < d.es || d.pmax == 0 || 128 < d.pmax || 128 < d.pmax * d.es
  | _ => false

/-- The refusal of a descriptor for reasons 1 to 6 (R363): the lowest reason, and its lowest slot. -/
def descBad (d : RopeDesc) : Option (Nat × Nat) :=
  (upTo 7).findSome? fun r =>
    match (upTo 8).find? fun k => slotFails d r k with
    | some k => some (r, k)
    | none => if descFails d r then some (r, 0) else none

/-! ### Slot values -/

/-- The FP32 sum, product and difference of rope summaries (R71). -/
def rAdd (a b : Nat) : Nat := (fadd .f32 .rne (Fmt.f32.val a) (Fmt.f32.val b)).1
def rMul (a b : Nat) : Nat := (fmul .f32 .rne (Fmt.f32.val a) (Fmt.f32.val b)).1
def rSub (a b : Nat) : Nat := (fadd .f32 .rne (Fmt.f32.val a) (Fmt.f32.val b).negate).1
/-- Exp of R89. -/
def rExp (a : Nat) : Nat := (sfuLane .exp (BitVec.ofNat 32 a)).1.toNat
/-- Exp(x − m), each rounded. -/
def rExpDiff (x m : Nat) : Nat := rExp (rSub x m)
/-- The FP32 bits of −∞ and +∞. -/
def rNegInf : Nat := 0xFF800000
def rPosInf : Nat := 0x7F800000

/-- The field of an element (R361): floats widened to FP32, integers as 64-bit values. -/
def rField (s : RSlot) (e : List Byte) : Word :=
  let n := ftypeBytes s.ftype
  let x := ofBytes ((e.drop s.foff).take n)
  if ftypeFloat s.ftype then
    let f : Fmt := if s.ftype = 8 then .f32 else if s.ftype = 9 then .bf16 else .f16
    BitVec.ofNat 64 (roundVal .f32 .rne (f.val x)).1
  else if ftypeSigned s.ftype then sext (8 * n) (BitVec.ofNat 64 x)
  else BitVec.ofNat 64 x

/-- Whether a is above b as the slot's type orders values. -/
def rAbove (s : RSlot) (a b : Word) : Bool := if ftypeSigned s.ftype then b.slt a else b.ult a

/-- The maximum (or minimum) of two slot values (R361, R75). -/
def rMax (s : RSlot) (mx : Bool) (a b : Word) : Word :=
  if ftypeFloat s.ftype then BitVec.ofNat 64 (fminmax .f32 mx a.toNat b.toNat).1
  else if mx then (if rAbove s b a then b else a) else (if rAbove s a b then b else a)

/-- The value of an empty range (R361). -/
def rEmpty (s : RSlot) : Word :=
  match s.comb with
  | 1 => if ftypeFloat s.ftype then BitVec.ofNat 64 rNegInf else if ftypeSigned s.ftype then 0x8000000000000000 else 0
  | 2 => if ftypeFloat s.ftype then BitVec.ofNat 64 rPosInf
    else if ftypeSigned s.ftype then 0x7FFFFFFFFFFFFFFF else BitVec.allOnes 64
  | 4 => BitVec.ofNat 64 rNegInf
  | 9 => BitVec.allOnes 64
  | _ => 0

/-- A pair (m, s) of LSE as a slot value (R361). -/
def rLse (m s : Nat) : Word := BitVec.ofNat 64 (m + s * 2 ^ 32)

/-- The leaf value of a slot over elements (R361). -/
def rLeaf (s : RSlot) (els : List (List Byte)) : Word :=
  let xs := els.map (rField s)
  let fold (f : Word → Word → Word) : Word := match xs with
    | [] => 0
    | x :: r => r.foldl f x
  if els = [] then rEmpty s else
  match s.comb with
  | 0 => if ftypeFloat s.ftype then fold fun a b => BitVec.ofNat 64 (rAdd a.toNat b.toNat) else fold (· + ·)
  | 1 => fold (rMax s true)
  | 2 => fold (rMax s false)
  | 3 => BitVec.ofNat 64 els.length
  | 4 =>
    let m := (fold (rMax s true)).toNat
    if m = rNegInf then rLse m 0 else
    match xs.map fun x => rExpDiff x.toNat m with
    | [] => rLse m 0
    | y :: r => rLse m (r.foldl rAdd y)
  | 8 => (xs.zip (upTo xs.length)).foldl (fun a x => a + BitVec.ofNat 64 x.2 * x.1) 0
  | _ =>
    let m := fold (rMax s true)
    match findIdx? (fun x => x == m) xs with
    | some (i, _) => BitVec.ofNat 64 i
    | none => 0

/-- The combine l ⊕ r of a slot (R361, R362): `n` is the length of the left part, pl and pr the partner slots. -/
def rComb (s : RSlot) (l r : Word) (n : Nat) (pl pr : Word) : Word :=
  match s.comb with
  | 0 => if ftypeFloat s.ftype then BitVec.ofNat 64 (rAdd l.toNat r.toNat) else l + r
  | 1 => rMax s true l r
  | 2 => rMax s false l r
  | 3 => l + r
  | 4 =>
    let lo (x : Word) : Nat := fld x 31 0
    let hi (x : Word) : Nat := fld x 63 32
    let m := (fminmax .f32 true (lo l) (lo r)).1
    if m = rNegInf then rLse m 0
    else rLse m (rAdd (rMul (hi l) (rExpDiff (lo l) m)) (rMul (hi r) (rExpDiff (lo r) m)))
  | 8 => l + r + BitVec.ofNat 64 n * pr
  | _ => if rAbove s pr pl then BitVec.ofNat 64 n + r else l

/-- The slots of a leaf over elements. -/
def leafSums (d : RopeDesc) (els : List (List Byte)) : List Word :=
  (upTo 8).map fun k => match d.slot k with
    | some s => rLeaf s els
    | none => 0

/-- The slots of an empty range (R361). -/
def emptySums (d : RopeDesc) : List Word :=
  (upTo 8).map fun k => match d.slot k with
    | some s => rEmpty s
    | none => 0

/-- The slots of two parts, the left one of length n. -/
def combSums (d : RopeDesc) (n : Nat) (l r : List Word) : List Word :=
  (upTo 8).map fun k => match d.slot k with
    | some s => rComb s (l.getD k 0) (r.getD k 0) n (l.getD s.pair 0) (r.getD s.pair 0)
    | none => 0

/-- The fold of parts from the left (R364): a part of length 0 combines as the other part (R361). -/
def foldSums (d : RopeDesc) (parts : List (List Word × Nat)) : List Word :=
  match parts.filter fun p => p.2 != 0 with
  | [] => emptySums d
  | p :: r => (r.foldl (fun a q => (combSums d a.2 a.1 q.1, a.2 + q.2)) p).1

/-! ### Node lines -/

/-- The fields of a node line (R357). -/
structure RNode where
  kind : Nat
  height : Nat
  fan : Nat
  desc : Nat
  tlen : Nat
  kids : List (Nat × Nat)
  sums : List Word
  clean : Bool
  deriving DecidableEq, Repr

/-- A node line read; `clean` says that its reserved bytes and unused child entries are zero. -/
def nodeOfLine (bs : List Byte) : RNode :=
  let h := dwordAt bs 0
  let fan := fld h 11 9
  let num (o n : Nat) : Nat := ofBytes ((bs.drop o).take n)
  { kind := fld h 1 0, height := fld h 8 5, fan := fan, desc := fld h 15 12, tlen := fld h 55 16
    kids := (upTo (min fan 4)).map fun c => (num (16 + 10 * c) 6, num (22 + 10 * c) 4)
    sums := (upTo 8).map fun k => dwordAt bs (8 + k)
    clean := fld h 63 56 == 0 && fld h 4 2 == 0 && dwordAt bs 1 == 0 && dwordAt bs 7 == 0 &&
      (upTo 4).all fun c => c < fan || num (16 + 10 * c) 10 == 0 }

/-- The line of a node (R357). -/
def lineOfNode (n : RNode) : List Byte :=
  bytesOf 8 (n.tlen * 2 ^ 16 + n.desc * 2 ^ 12 + n.fan * 2 ^ 9 + n.height * 2 ^ 5 + n.kind) ++ bytesOf 8 0 ++
    ((upTo 4).flatMap fun c => bytesOf 6 (n.kids.getD c (0, 0)).1 ++ bytesOf 4 (n.kids.getD c (0, 0)).2) ++ bytesOf 8 0 ++
    n.sums.flatMap fun x => bytesOf 8 x.toNat

/-- Code 1 of R359, but for what needs the descriptor. -/
def nodeShapeBad (n : RNode) : Bool :=
  !n.clean || !((n.kind == 1 && n.height == 0 && n.fan == 1) || (n.kind == 2 && n.height != 0 && 2 ≤ n.fan && n.fan ≤ 4))

/-- Code 2 of R359, but for what needs the descriptor or the children. -/
def nodeLenBad (n : RNode) : Bool := (n.kids.map (·.2)).sum != n.tlen || n.kids.any fun k => k.2 == 0

/-- A slot that the descriptor does not name is not zero (R358). -/
def nodeSlotBad (d : RopeDesc) (n : RNode) : Bool := (upTo 8).any fun k => (d.slot k).isNone && n.sums.getD k 0 != 0

/-- A leaf's range lies outside its line, or it has too many elements (R358). -/
def leafRangeBad (d : RopeDesc) (n : RNode) : Bool :=
  n.kind == 1 && n.kids.any fun k => 128 < k.1 % 128 + k.2 * d.es || d.pmax < k.2

/-! ### Trees -/

/-- A rope node as a unit handles it: one that stands in memory, a new leaf over a part of a piece line or over new
elements, or a new interior node. -/
inductive RT where
  | old (addr h tlen : Nat) (sums : List Word) (kids : List (Nat × Nat))
  | leaf (ptr : Option Nat) (data : List Byte) (len : Nat) (sums : List Word)
  | node (h tlen : Nat) (sums : List Word) (kids : List RT)

/-- Height, length and slots of a node. -/
def RT.h : RT → Nat
  | .old _ h _ _ _ => h
  | .leaf .. => 0
  | .node h _ _ _ => h
def RT.tlen : RT → Nat
  | .old _ _ n _ _ => n
  | .leaf _ _ n _ => n
  | .node _ n _ _ => n
def RT.sums : RT → List Word
  | .old _ _ _ s _ => s
  | .leaf _ _ _ s => s
  | .node _ _ s _ => s

/-- What a unit needs for an instruction: the state, the issuing core and tenant, the pool and the count array. -/
structure REnv where
  s : State
  g : GCore
  t : TenantNo
  base : Nat
  top : Nat
  ref : Nat

/-- What a unit notes while it reads: the pieces read, and the descriptor id of its ropes. -/
structure RNote where
  reads : List Piece := []
  did : Option Nat := none

/-- A reading of a unit, which may end in a trap. -/
abbrev RM (α : Type) := StateT RNote (Except Trap) α

/-- The environment of an instruction of core g for tenant t (R354, R356). -/
def ropeEnv (s : State) (g : GCore) (t : TenantNo) : REnv :=
  let p := s.cfgAt (tenReg t 0x300)
  let b := fld p 47 30 * 2 ^ 30
  ⟨s, g, t, b, b + fld p 7 0 * 2 ^ 30, fld (s.cfgAt (tenReg t 0x308)) 47 12 * 2 ^ 12⟩

/-- Whether an address lies in the pool (R359, code 4). -/
def REnv.inPool (e : REnv) (a : Nat) : Bool := e.base ≤ a && a < e.top
/-- Whether an address is a line of the pool. -/
def REnv.poolLine (e : REnv) (a : Nat) : Bool := e.inPool a && a % 128 == 0

/-- The descriptor entry id of a tenant (R360). -/
def descOf (s : State) (t : TenantNo) (id : Nat) : Option RopeDesc := tget none s.descs (t.toNat * 16 + id)

/-- A read of a unit (R353). -/
def rRead (e : REnv) (va n : Nat) : RM (List Byte) :=
  if n = 0 then pure [] else
  match check e.s e.g.toNat e.t .rd (va % 2 ^ 56) n with
  | .error t => throw t
  | .ok ps =>
    match lostIn e.s ps with
    | some t => throw t
    | none => do
      modify fun x => { x with reads := x.reads ++ ps }
      pure (homeBytes (recallLines e.s ps) e.t ps)

/-- The virtual address of a pool line's count (R356). -/
def REnv.countVa (e : REnv) (line : Nat) : Nat := e.ref + 4 * ((line - e.base) / 128)
/-- The count of a pool line. -/
def rCount (e : REnv) (line : Nat) : RM Nat := do
  let bs ← rRead e (e.countVa line) 4
  pure (ofBytes bs)

/-- The descriptor of the instruction's ropes. -/
def rDesc (e : REnv) : RM RopeDesc := do
  let x ← get
  match x.did.bind (descOf e.s e.t) with
  | some d => pure d
  | none => throw (illDesc 8 0 (x.did.getD 0))

/-- The instruction uses descriptor id (R374). -/
def rUse (e : REnv) (id : Nat) : RM RopeDesc := do
  match descOf e.s e.t id with
  | none => throw (illDesc 8 0 id)
  | some d =>
    modify fun x => { x with did := some id }
    pure d

/-- The lowest code of R359 that holds of a node read at address a, for the descriptor it names; for a child, the
length and the height that its parent gives it. -/
def nodeCode (e : REnv) (d : Option RopeDesc) (did : Option Nat) (kid : Option (Nat × Nat)) (n : RNode) (cnt : Nat) : Option Nat :=
  let withD (f : RopeDesc → RNode → Bool) : Bool := match d with
    | some d => f d n
    | none => false
  if nodeShapeBad n || withD nodeSlotBad then some 1
  else if nodeLenBad n || withD leafRangeBad || kid.any (fun k => k.1 != n.tlen) then some 2
  else if did.any (fun i => i != n.desc) || kid.any (fun k => k.2 != n.height) then some 3
  else if n.kids.any fun k => if n.kind = 2 then !e.poolLine k.1 else !e.inPool k.1 then some 4
  else if cnt = 0 then some 6
  else none

/-- The node at address a, checked (R359), also against its parent where it is a child. -/
def rLoad (e : REnv) (a : Nat) (kid : Option (Nat × Nat) := none) : RM RT := do
  if !e.poolLine a then throw (ropeFlt 4 a)
  let n := nodeOfLine (← rRead e a 128)
  let cnt ← rCount e a
  let d := descOf e.s e.t n.desc
  match nodeCode e d (← get).did kid n cnt with
  | some c =>
    if 3 ≤ c && d.isNone && (← get).did.isNone then throw (illDesc 8 0 n.desc) else throw (ropeFlt c a)
  | none =>
    let _ ← rUse e n.desc
    pure (.old a n.height n.tlen n.sums n.kids)

/-- A root operand (R374): 0 is the empty rope. -/
def rRoot (e : REnv) (a : Word) : RM (Option RT) :=
  if a = 0 then pure none else if 2 ^ 56 ≤ a.toNat then throw (ropeFlt 4 a.toNat) else do
    let n ← rLoad e a.toNat
    pure (some n)

/-- A child of a node of height h, checked against its entry (R358). -/
def rChild (e : REnv) (h : Nat) (k : Nat × Nat) : RM RT := rLoad e k.1 (some (k.2, h - 1))

/-- The children of a node. -/
def rKids (e : REnv) : RT → RM (List RT)
  | .old _ h _ _ kids => if h = 0 then pure [] else kids.mapM (rChild e h)
  | .leaf .. => pure []
  | .node _ _ _ kids => pure kids

/-- Chunks of es bytes. -/
def chunksOf (es : Nat) : Nat → List Byte → List (List Byte)
  | 0, _ => []
  | n + 1, bs => bs.take es :: chunksOf es n (bs.drop es)

/-- The elements of a leaf. -/
def rElems (e : REnv) (d : RopeDesc) : RT → RM (List (List Byte))
  | .old _ _ n _ kids => do
    let bs ← rRead e (kids.headD (0, 0)).1 (n * d.es)
    pure (chunksOf d.es n bs)
  | .leaf (some p) _ n _ => do
    let bs ← rRead e p (n * d.es)
    pure (chunksOf d.es n bs)
  | .leaf none data n _ => pure (chunksOf d.es n data)
  | .node .. => pure []

/-- A new leaf over a new piece line. -/
def newLeaf (d : RopeDesc) (els : List (List Byte)) : RT := .leaf none els.flatten els.length (leafSums d els)

/-- The leaf Sub(n, a, b) of R366 and R377, over the same piece line. -/
def subLeaf (e : REnv) (d : RopeDesc) (n : RT) (a b : Nat) : RM RT := do
  let els := ((← rElems e d n).drop a).take (b - a)
  match n with
  | .old _ _ _ _ kids => pure (.leaf (some ((kids.headD (0, 0)).1 + a * d.es)) [] els.length (leafSums d els))
  | .leaf (some p) .. => pure (.leaf (some (p + a * d.es)) [] els.length (leafSums d els))
  | _ => pure (newLeaf d els)

/-- Node(list) of R366, with code 8 of R359. -/
def mkNode (d : RopeDesc) (ks : List RT) : RM RT :=
  let h := ((ks.map RT.h).headD 0) + 1
  let n := (ks.map RT.tlen).sum
  if 15 < h || 2 ^ 40 ≤ n || ks.any (fun k => decide (2 ^ 32 ≤ k.tlen)) then throw (ropeFlt 8 0)
  else pure (.node h n (foldSums d (ks.map fun k => (k.sums, k.tlen))) ks)

/-- Pack (R366). -/
def rPack (d : RopeDesc) (ks : List RT) : RM (List RT) := do
  if ks.length ≤ 4 then pure [← mkNode d ks]
  else pure [← mkNode d (ks.take 2), ← mkNode d (ks.drop 2)]

/-- Build (R366). -/
def rBuild (d : RopeDesc) : List RT → RM (Option RT)
  | [] => pure none
  | [x] => pure (some x)
  | ks => do pure (some (← mkNode d ks))

/-- JoinR (R366): b joins the right spine of a. -/
def joinR (e : REnv) (d : RopeDesc) (fuel : Nat) (a b : RT) : RM (List RT) :=
  match fuel with
  | 0 => pure [a, b]
  | f + 1 => do
    let ks ← rKids e a
    if a.h = b.h + 1 then rPack d (ks ++ [b])
    else
      match ks.getLast? with
      | none => pure [a, b]
      | some x => rPack d (ks.dropLast ++ (← joinR e d f x b))

/-- JoinL (R366), its mirror image. -/
def joinL (e : REnv) (d : RopeDesc) (fuel : Nat) (a b : RT) : RM (List RT) :=
  match fuel with
  | 0 => pure [a, b]
  | f + 1 => do
    let ks ← rKids e b
    if b.h = a.h + 1 then rPack d (a :: ks)
    else
      match ks with
      | [] => pure [a, b]
      | x :: r => rPack d ((← joinL e d f a x) ++ r)

/-- Join (R366). -/
def rJoin (e : REnv) (d : RopeDesc) : Option RT → Option RT → RM (Option RT)
  | none, b => pure b
  | a, none => pure a
  | some a, some b => do
    if a.h = b.h then pure (some (← mkNode d [a, b]))
    else
      let x ← if b.h < a.h then joinR e d 16 a b else joinL e d 16 a b
      match x with
      | [y] => pure (some y)
      | l => pure (some (← mkNode d l))

/-- The child that holds position p, with its index and start: the last one when p is at the end. -/
def childAt (ks : List RT) (p : Nat) : Option (Nat × Nat × RT) :=
  let walkKids := ks.foldl (fun (acc : Nat × Nat × Option (Nat × Nat × RT)) k =>
    let (i, start, found) := acc
    match found with
    | some f => (i + 1, start + k.tlen, if f.2.1 + f.2.2.tlen ≤ p then some (i, start, k) else some f)
    | none => (i + 1, start + k.tlen, some (i, start, k))) (0, 0, none)
  walkKids.2.2

/-- Split (R366). -/
def rSplit (e : REnv) (d : RopeDesc) (fuel : Nat) (n : RT) (p : Nat) : RM (Option RT × Option RT) :=
  match fuel with
  | 0 => pure (none, none)
  | f + 1 => do
    if n.h = 0 then
      pure (some (← subLeaf e d n 0 p), some (← subLeaf e d n p n.tlen))
    else
      let ks ← rKids e n
      match childAt ks p with
      | none => pure (none, none)
      | some (i, start, k) =>
        if p = start then pure (← rBuild d (ks.take i), ← rBuild d (ks.drop i))
        else
          let (x, y) ← rSplit e d f k (p - start)
          let l ← rJoin e d (← rBuild d (ks.take i)) x
          let r ← rJoin e d y (← rBuild d (ks.drop (i + 1)))
          pure (l, r)

/-- The leaf that holds a position, its start, and the path of nodes and child indices from the leaf's parent up. -/
def rFind (e : REnv) (fuel : Nat) (n : RT) (p start : Nat) (path : List (RT × Nat)) : RM (RT × Nat × List (RT × Nat)) :=
  match fuel with
  | 0 => pure (n, start, path)
  | f + 1 => do
    if n.h = 0 then pure (n, start, path)
    else
      match childAt (← rKids e n) (p - start) with
      | none => pure (n, start, path)
      | some (i, o, k) => rFind e f k p (start + o) ((n, i) :: path)

/-- The loop of Splice (R367): X stands in the place of children i0 to i1 − 1 of the node. -/
def spliceUp (e : REnv) (d : RopeDesc) (fuel : Nat) (x : List RT) (i0 i1 : Nat) (n : RT) (path : List (RT × Nat)) :
    RM (Option RT) :=
  match fuel with
  | 0 => pure none
  | f + 1 => do
    let old ← rKids e n
    let kids := old.take i0 ++ x ++ old.drop i1
    match path with
    | [] => if kids.length = 5 then pure (some (← mkNode d (← rPack d kids))) else rBuild d kids
    | (up, j) :: rest =>
      if 2 ≤ kids.length then spliceUp e d f (← rPack d kids) j (j + 1) up rest
      else
        let j' := if 0 < j then j - 1 else j + 1
        match (← rKids e up)[j']? with
        | none => pure none
        | some sib =>
          let sk ← rKids e sib
          let y ← if 3 ≤ sk.length then
              (if j' < j then do
                let l ← mkNode d sk.dropLast
                let r ← mkNode d (sk.drop (sk.length - 1) ++ kids)
                pure [l, r]
              else do
                let l ← mkNode d (kids ++ sk.take 1)
                let r ← mkNode d (sk.drop 1)
                pure [l, r])
            else do
              let m ← mkNode d (if j' < j then sk ++ kids else kids ++ sk)
              pure [m]
          spliceUp e d f y (min j' j) (max j' j + 1) up rest

/-- Splice (R367). -/
def rSplice (e : REnv) (d : RopeDesc) (root : RT) (p del : Nat) (new : List (List Byte)) : RM (Option RT) := do
  let (lam, b, path) ← rFind e 16 root p 0 []
  if b + lam.tlen < p + del || d.pmax < new.length then throw (ropeFlt 9 0)
  let els ← rElems e d lam
  let c := els.take (p - b) ++ new ++ els.drop (p - b + del)
  let k := ceilDiv c.length d.pmax
  let m := ceilDiv c.length k
  let x := if k = 0 then [] else if k = 1 then [newLeaf d c] else [newLeaf d (c.take m), newLeaf d (c.drop m)]
  match path with
  | [] => rBuild d x
  | (n, i) :: rest => spliceUp e d 17 x i (i + 1) n rest

/-- Sizes as equal as possible of k groups of n, the earlier larger (R368). -/
def evenSizes (n k : Nat) : List Nat := (upTo k).map fun i => n / k + if i < n % k then 1 else 0

/-- A list cut into groups of the given sizes. -/
def cutBy (l : List α) : List Nat → List (List α)
  | [] => []
  | n :: r => l.take n :: cutBy (l.drop n) r

/-- One level of RNEW after another (R368). -/
def rLevels (d : RopeDesc) (fuel : Nat) (l : List RT) : RM (Option RT) :=
  match fuel with
  | 0 => pure l.head?
  | f + 1 => do
    if l.length ≤ 1 then pure l.head?
    else
      let up ← (cutBy l (evenSizes l.length (ceilDiv l.length 4))).mapM (mkNode d)
      rLevels d f up

/-- The rope of RNEW (R368). -/
def rNew (d : RopeDesc) (els : List (List Byte)) : RM (Option RT) :=
  rLevels d 17 ((cutBy els (evenSizes els.length (ceilDiv els.length d.pmax))).map (newLeaf d))

/-- Range (R380), for every slot. -/
def rRange (e : REnv) (d : RopeDesc) (fuel : Nat) (n : RT) (lo hi : Nat) : RM (List Word) :=
  match fuel with
  | 0 => pure []
  | f + 1 => do
    if lo = hi then pure (emptySums d)
    else if lo = 0 && hi = n.tlen then pure n.sums
    else if n.h = 0 then
      let els ← rElems e d n
      pure (leafSums d ((els.drop lo).take (hi - lo)))
    else
      let ks ← rKids e n
      let starts := (ks.foldl (fun (acc : List (RT × Nat) × Nat) k => (acc.1 ++ [(k, acc.2)], acc.2 + k.tlen)) ([], 0)).1
      let parts ← (starts.filter fun x => max lo x.2 < min hi (x.2 + x.1.tlen)).mapM fun x => do
        let a := max lo x.2
        let b := min hi (x.2 + x.1.tlen)
        let r ← rRange e d f x.1 (a - x.2) (b - x.2)
        pure (r, b - a)
      pure (foldSums d parts)

/-! ### What is written -/

/-- New lines of a tree, by kind: key 0 leaves, key h the interior nodes of that height, key 99 piece lines (R387). -/
def newCounts (fuel : Nat) (t : RT) (c : Table Nat) : Table Nat :=
  match fuel with
  | 0 => c
  | f + 1 =>
    match t with
    | .old .. => c
    | .leaf p _ _ _ =>
      let c := if p.isNone then tput c 99 (tget 0 c 99 + 1) else c
      tput c 0 (tget 0 c 0 + 1)
    | .node h _ _ kids =>
      let c := kids.foldl (fun c k => newCounts f k c) c
      tput c h (tget 0 c h + 1)

/-- The first index that each kind of line takes: piece lines, then leaves, then level by level (R387). -/
def firstIndex (c : Table Nat) : Table Nat :=
  let p := tget 0 c 99
  (upTo 16).foldl (fun (acc : Table Nat × Nat) h => (tput acc.1 h acc.2, acc.2 + tget 0 c h)) ([(99, 0)], p) |>.1

/-- Lines that trees write in all. -/
def newTotal (c : Table Nat) : Nat := (c.map (·.2)).sum

/-- What placing a tree yields: lines to write, addresses pointed to, and the next index of each kind. -/
structure Placed where
  writes : List (Nat × List Byte) := []
  ptrs : List Nat := []
  next : Table Nat

/-- The next line of a kind. -/
def Placed.take (x : Placed) (lines : List Nat) (kind : Nat) : Nat × Placed :=
  let i := tget 0 x.next kind
  (lines.getD i 0, { x with next := tput x.next kind (i + 1) })

/-- A tree placed on the reserved lines (R387): its root's address. -/
def placeTree (did : Nat) (lines : List Nat) (fuel : Nat) (t : RT) (x : Placed) : Nat × Placed :=
  match fuel with
  | 0 => (0, x)
  | f + 1 =>
    match t with
    | .old a .. => (a, x)
    | .leaf p data n sums =>
      let (ptr, x) := match p with
        | some p => (p, x)
        | none =>
          let (a, x) := x.take lines 99
          (a, { x with writes := x.writes ++ [(a, data ++ List.replicate (128 - data.length) 0)] })
      let (a, x) := x.take lines 0
      (a, { x with
        writes := x.writes ++ [(a, lineOfNode ⟨1, 0, 1, did, n, [(ptr, n)], sums, true⟩)]
        ptrs := x.ptrs ++ [ptr] })
    | .node h n sums kids =>
      let (as, x) := kids.foldl (fun (acc : List (Nat × Nat) × Placed) k =>
        let (a, y) := placeTree did lines f k acc.2
        (acc.1 ++ [(a, k.tlen)], y)) ([], x)
      let (a, x) := x.take lines h
      (a, { x with
        writes := x.writes ++ [(a, lineOfNode ⟨2, h, kids.length, did, n, as, sums, true⟩)]
        ptrs := x.ptrs ++ as.map (·.1) })

/-! ### Pomace lists -/

/-- POMHEAD, POMCNT and ROPESTAT of a tenant at a die (R355). -/
def pomHead (t : TenantNo) (d : Nat) : Nat := dieReg d (0x2000 + 32 * t.toNat)
def pomCnt (t : TenantNo) (d : Nat) : Nat := dieReg d (0x2008 + 32 * t.toNat)
def ropeStat (t : TenantNo) (d : Nat) : Nat := dieReg d (0x2010 + 32 * t.toNat)

/-- The top n lines of a pomace list, and the line below them (R356). -/
def pomTop (e : REnv) (n : Nat) (head : Nat) : RM (List Nat × Nat) :=
  match n with
  | 0 => pure ([], head)
  | n + 1 => do
    if head = 0 then throw (ropeFlt 7 0)
    if !e.poolLine head then throw (ropeFlt 4 head)
    let bs ← rRead e head 8
    let (l, h) ← pomTop e n (ofBytes bs % 2 ^ 56)
    pure (head :: l, h)

/-- The new counts of the lines that gained references (R369): codes 6 and 5 of R359. -/
def newRefs (e : REnv) (fresh ptrs : List Nat) : RM (List (Nat × List Byte)) :=
  (ptrs.map fun p => p / 128 * 128).eraseDups.mapM fun line => do
    let n := (ptrs.filter fun p => p / 128 * 128 == line).length
    let c ← rCount e line
    if c = 0 && !fresh.contains line then throw (ropeFlt 6 line)
    if 2 ^ 32 ≤ c + n then throw (ropeFlt 5 line)
    pure (e.countVa line, bytesOf 4 (c + n))

end Sys2Proof.Machine
end

