-- ==== Sys2Proof/Machine/Rope.lean ====
section
/-! DEFINITION. Rope instructions (R352–R384): issue and the trellis units, results and their lines, counts,
reclamation and handles. -/

namespace Sys2Proof.Machine

/-! ### Writes of a unit -/

/-- A phase-exempt write of a unit, counted as a publication of the issuing core (R353). -/
def unitWrite (s : State) (g : GCore) (t : TenantNo) (ps : List Piece) (bs : List Byte) : State :=
  let ws := pieceCells ps bs
  let s := writeNow (ps.foldl (fun s p => tlbFill s g.toNat t p) (claim s t ps)) (.core g) .module ws
  (dropUnpub s g.toNat (ws.map (·.1))).bump g.toNat 0x0040

/-- The pieces of writes at virtual addresses, or the trap of one. -/
def writePieces (s : State) (g : Nat) (t : TenantNo) : List (Nat × List Byte) → Except Trap (List (List Piece × List Byte))
  | [] => .ok []
  | (va, bs) :: r =>
    match check s g t .wr (va % 2 ^ 56) bs.length with
    | .error e => .error e
    | .ok ps =>
      match writePieces s g t r with
      | .error e => .error e
      | .ok l => .ok ((ps, bs) :: l)

/-- What the reads of a unit leave: recalled lines, the directory with the status of lines that are decoded, TLBs. -/
def noteReads (s : State) (g : GCore) (t : TenantNo) (ps : List Piece) : State :=
  ps.foldl (fun s p => (pieceLines p).foldl (fun s l => noteRead s g.toNat t 0 { p with pa := l * 128 })
    (tlbFill s g.toNat t p)) (recallLines s ps)

/-- The list's head and count change at the register's home: a publication of the issuing core (R353, R355, R356). -/
def setPomace (s : State) (g : GCore) (t : TenantNo) (head cnt : Nat) : State :=
  let d := dieOf g.toNat
  ((s.setCfg (pomHead t d) (BitVec.ofNat 64 (head / 128 % 2 ^ 41 * 128))).setCfg (pomCnt t d) (BitVec.ofNat 64 cnt)).bump
    g.toNat 0x0040

/-- The outcome of a rope instruction: the roots that it returns, its reservation (none: exact), its results. -/
structure RPlan where
  roots : List (Option RT) := []
  reserve : Option Nat := some 0
  fin : List Nat → State → State

/-- The lines that a result writes, in the order of the reserved lines, and where its roots stand (R366, R369, R370, R387). -/
def ropeLines (e : REnv) (p : RPlan) : RM (List Nat × List (Nat × List Byte) × Nat × Nat) := do
  let c := p.roots.foldl (fun c r => match r with | some t => newCounts 17 t c | none => c) []
  let n := newTotal c
  let d := dieOf e.g.toNat
  let cnt := fld (e.s.cfgAt (pomCnt e.t d)) 39 0
  let m := if n = 0 then 0 else p.reserve.getD n
  if cnt < m then throw (ropeFlt 7 0)
  let (lines, next) ← pomTop e m (fld (e.s.cfgAt (pomHead e.t d)) 47 7 * 128)
  let head := lines.getD n next
  let did := (← get).did.getD 0
  let (roots, x) := p.roots.foldl (fun (acc : List Nat × Placed) r => match r with
    | some t =>
      let (a, y) := placeTree did lines 17 t acc.2
      (acc.1 ++ [a], y)
    | none => (acc.1 ++ [0], acc.2)) ([], ⟨[], [], firstIndex c⟩)
  let refs ← newRefs e lines (x.ptrs ++ roots.filter fun a => a != 0)
  pure (roots, (lines.filterMap fun l => x.writes.find? fun w => w.1 == l) ++ refs, n, head)

/-- A rope instruction performed: `m` reads and checks; then its lines, counts and list are written and its results
delivered (R353). -/
def ropePerf (m : REnv → RM RPlan) (s : State) : Perf :=
  let e := ropeEnv s s.g s.t
  match (do let p ← m e
            let l ← ropeLines e p
            pure (p, l) : RM _) {} with
  | .error t => .trap t
  | .ok ((p, roots, writes, n, head), note) =>
    match writePieces s s.g.toNat s.t writes with
    | .error t => .trap t
    | .ok ws =>
      let cells := ws.flatMap fun w => pieceCells w.1 w.2
      if !leesRoom s cells then .wait (thirstFor s cells) else
      let d := dieOf s.g.toNat
      let s1 := ws.foldl (fun x w => unitWrite x s.g s.t w.1 w.2) (noteReads s s.g s.t note.reads)
      let s2 := if n = 0 then s1 else
        (setPomace s1 s.g s.t head (fld (s1.cfgAt (pomCnt s.t d)) 39 0 - n)).bumpDie d 0x0061 n
      .done ((p.fin roots s2).bump s.g.toNat 0x0060)

/-- A root's address as a register value. -/
def rootWord (l : List Nat) (i : Nat) : Word := BitVec.ofNat 64 (l.getD i 0)

/-! ### The trellis units -/

/-- A rope instruction. -/
def isRope : Instr → Bool
  | .rdesc .. | .rnew .. | .rcat .. | .rsplit .. | .rsplice .. | .rwalk .. | .rsum .. | .rget .. | .riter .. | .rlen ..
  | .rref .. | .rdrop .. | .rpub .. | .rload .. => true
  | _ => false

/-- The trellis unit of a core (R352). -/
def unitOf (g : Nat) : Nat := clusterOf g % 64 % 16

/-- Whether a unit has room for one more instruction (R352). -/
def unitRoom (s : State) (d u : Nat) : Bool := ((s.die d).ropes.filter fun r => r.unit == u).length < 8

/-- The start of a rope instruction: with LA = 0 it is performed where its unit has room and no rope instruction of
the thread is outstanding; `job` notes the cc at which it met a full unit. -/
def startRope (ct : Ctl) (i : Instr) (perf : Src → State → Perf) (src : Src) (s : State) : Res :=
  let room := unitRoom s (dieOf s.g.toNat) (unitOf s.g.toNat)
  startLong ct i (fun src s => if !room || s.c.iss.outs.any (fun o => isRope o.i) then .wait s else perf src s)
    (if room then src else { src with job := s.cycle + 1 }) s

/-- The destination fields' check of R374. -/
def destsBad (s : State) (seen : List GReg) : List (Nat × GReg) → Option Trap
  | [] => none
  | (f, r) :: l => if isPort s r || seen.contains r then some (illopnd f) else destsBad s (r :: seen) l

/-- The issue of a rope instruction: its destination fields, its own checks, and its start. -/
def issueRope (ct : Ctl) (i : Instr) (uses : List PortUse) (dsts : List (Nat × GReg)) (perf : Src → State → Perf)
    (prep : State → Except Trap Src) (s : State) : Out' :=
  settled (issue ct uses none (fun s =>
    match destsBad s [] dsts with
    | some t => .trap t
    | none =>
      match prep s with
      | .error t => .trap t
      | .ok src => startRope ct i perf src s) s)

/-- Operand values without further checks. -/
def operands (w : State → List Word) (s : State) : Except Trap Src := .ok { w := w s }

/-! ### RDESC -/

/-- RDESC performed (R363, R375). -/
def perfRdesc (clr : Bool) (id : BitVec 4) (src : Src) (s : State) : Perf :=
  let key := s.t.toNat * 16 + id.toNat
  if clr then .done (({ s with descs := tset none s.descs key none } : State).bump s.g.toNat 0x0060) else
  match rRead (ropeEnv s s.g s.t) (src.w.headD 0).toNat 128 {} with
  | .error t => .trap t
  | .ok (bs, note) =>
    let d : RopeDesc := ⟨(upTo 16).map (dwordAt bs)⟩
    match descBad d with
    | some (r, k) => .trap (illDesc r k id.toNat)
    | none =>
      match tget none s.descs key with
      | some x => if x = d then .done ((noteReads s s.g s.t note.reads).bump s.g.toNat 0x0060) else .trap (illDesc 7 0 id.toNat)
      | none =>
        let s := noteReads s s.g s.t note.reads
        .done (({ s with descs := tset none s.descs key (some d) } : State).bump s.g.toNat 0x0060)

/-- RDESC (R375). -/
def execRdesc (ct : Ctl) (src : Option GReg) (id : BitVec 4) (s : State) : Out' :=
  issueRope ct (.rdesc ct src id) (match src with | some b => [.src 1 b] | none => []) [] (perfRdesc src.isNone id)
    (fun s => match src with
      | none => .ok {}
      | some b => if (rdG s b).toNat % 128 ≠ 0 then .error (alignTrap false (rdG s b).toNat) else .ok { w := [rdG s b] }) s

/-! ### Building and cutting -/

/-- RNEW performed (R376). -/
def perfRnew (a : GReg) (id : BitVec 4) (src : Src) (s : State) : Perf :=
  ropePerf (fun e => do
    let n := (src.w.getD 1 0).toNat
    if 2 ^ 32 ≤ n then throw (ropeFlt 9 0)
    let d ← rUse e id.toNat
    let bs ← rRead e (src.w.getD 0 0).toNat (n * d.es)
    let r ← rNew d (chunksOf d.es n bs)
    pure { roots := [r], reserve := none, fin := fun l s => wrG s a (rootWord l 0) }) s

/-- RNEW (R376). -/
def execRnew (ct : Ctl) (a b c : GReg) (id : BitVec 4) (s : State) : Out' :=
  issueRope ct (.rnew ct a b c id) [.src 1 b, .src 2 c] [(0, a)] (perfRnew a id) (operands fun s => [rdG s b, rdG s c]) s

/-- RCAT performed (R377). -/
def perfRcat (a : GReg) (src : Src) (s : State) : Perf :=
  ropePerf (fun e => do
    let x ← rRoot e (src.w.getD 0 0)
    let y ← rRoot e (src.w.getD 1 0)
    match x, y with
    | some p, some q =>
      let d ← rDesc e
      let r ← rJoin e d x y
      pure { roots := [r], reserve := some (2 * (max p.h q.h - min p.h q.h) + 1), fin := fun l s => wrG s a (rootWord l 0) }
    | _, _ => pure { roots := [x.or y], fin := fun l s => wrG s a (rootWord l 0) }) s

/-- RCAT (R377). -/
def execRcat (ct : Ctl) (a b c : GReg) (s : State) : Out' :=
  issueRope ct (.rcat ct a b c) [.src 1 b, .src 2 c] [(0, a)] (perfRcat a) (operands fun s => [rdG s b, rdG s c]) s

/-- RSPLIT performed (R377). -/
def perfRsplit (a d : GReg) (src : Src) (s : State) : Perf :=
  ropePerf (fun e => do
    let p := (src.w.getD 1 0).toNat
    let fin (l : List Nat) (s : State) : State := wrG (wrG s a (rootWord l 0)) d (rootWord l 1)
    match ← rRoot e (src.w.getD 0 0) with
    | none => if p = 0 then pure { roots := [none, none], fin := fin } else throw (ropeFlt 9 0)
    | some n =>
      if n.tlen < p then throw (ropeFlt 9 0)
      else if p = 0 then pure { roots := [none, some n], fin := fin }
      else if p = n.tlen then pure { roots := [some n, none], fin := fin }
      else
        let (x, y) ← rSplit e (← rDesc e) 17 n p
        pure { roots := [x, y], reserve := some (12 * n.h + 4), fin := fin }) s

/-- RSPLIT (R377). -/
def execRsplit (ct : Ctl) (a b c d : GReg) (s : State) : Out' :=
  issueRope ct (.rsplit ct a b c d) [.src 1 b, .src 2 c] [(0, a), (3, d)] (perfRsplit a d)
    (operands fun s => [rdG s b, rdG s c]) s

/-- RSPLICE performed (R378). -/
def perfRsplice (a : GReg) (del n : BitVec 8) (src : Src) (s : State) : Perf :=
  ropePerf (fun e => do
    let p := (src.w.getD 1 0).toNat
    match ← rRoot e (src.w.getD 0 0) with
    | none => throw (ropeFlt 9 0)
    | some r =>
      if r.tlen < p then throw (ropeFlt 9 0)
      else
        let d ← rDesc e
        let bs ← rRead e (src.w.getD 2 0).toNat (n.toNat * d.es)
        let z ← rSplice e d r p del.toNat (chunksOf d.es n.toNat bs)
        pure { roots := [z], reserve := some (2 * r.h + 5), fin := fun l s => wrG s a (rootWord l 0) }) s

/-- RSPLICE (R378). -/
def execRsplice (ct : Ctl) (a b c d : GReg) (del n : BitVec 8) (s : State) : Out' :=
  issueRope ct (.rsplice ct a b c d del n) [.src 1 b, .src 2 c, .src 3 d] [(0, a)] (perfRsplice a del n)
    (operands fun s => [rdG s b, rdG s c, rdG s d]) s

/-! ### Reading -/

/-- The leaf that holds position p of a root, with its start; code 9 where p is not below the length. -/
def leafAt (e : REnv) (root : Word) (p : Nat) : RM (RT × Nat) := do
  match ← rRoot e root with
  | none => throw (ropeFlt 9 0)
  | some r =>
    if r.tlen ≤ p then throw (ropeFlt 9 0)
    else
      let (l, b, _) ← rFind e 16 r p 0 []
      pure (l, b)

/-- The address of a node that stands in memory. -/
def RT.addr : RT → Nat
  | .old a .. => a
  | _ => 0

/-- The address of a leaf's first element. -/
def RT.ptr : RT → Nat
  | .old _ _ _ _ kids => (kids.headD (0, 0)).1
  | _ => 0

/-- RWALK performed (R379). -/
def perfRwalk (a d x : GReg) (src : Src) (s : State) : Perf :=
  ropePerf (fun e => do
    let p := (src.w.getD 1 0).toNat
    let (l, b) ← leafAt e (src.w.getD 0 0) p
    pure { fin := fun _ s => wrG (wrG (wrG s a (BitVec.ofNat 64 l.addr)) d (BitVec.ofNat 64 (p - b))) x (BitVec.ofNat 64 b) }) s

/-- RWALK (R379). -/
def execRwalk (ct : Ctl) (a b c d e : GReg) (s : State) : Out' :=
  issueRope ct (.rwalk ct a b c d e) [.src 1 b, .src 2 c] [(0, a), (3, d), (4, e)] (perfRwalk a d e)
    (operands fun s => [rdG s b, rdG s c]) s

/-- RITER performed (R379). -/
def perfRiter (a c d x : GReg) (src : Src) (s : State) : Perf :=
  ropePerf (fun e => do
    let p := (src.w.getD 1 0).toNat
    let r ← rRoot e (src.w.getD 0 0)
    let n := (r.map RT.tlen).getD 0
    if n < p then throw (ropeFlt 9 0)
    else if p = n then pure { fin := fun _ s => wrG (wrG (wrG s a 0) d 0) x 0 }
    else
      let (l, b) ← leafAt e (src.w.getD 0 0) p
      let dsc ← rDesc e
      let run := b + l.tlen - p
      let out (s : State) : State := wrG (wrG (wrG s a (BitVec.ofNat 64 (l.ptr + (p - b) * dsc.es))) d (BitVec.ofNat 64 run)) x
        (BitVec.ofInt 64 ((b : Int) - (l.ptr % 128 / dsc.es : Nat)))
      pure { fin := fun _ s => wrG (out s) c (BitVec.ofNat 64 (p + run)) }) s

/-- RITER (R379). -/
def execRiter (ct : Ctl) (a b c d e : GReg) (s : State) : Out' :=
  issueRope ct (.riter ct a b c d e) [.src 1 b] [(0, a), (2, c), (3, d), (4, e)] (perfRiter a c d e)
    (operands fun s => [rdG s b, rdG s c]) s

/-- RSUM performed (R380). -/
def perfRsum (a : GReg) (k : BitVec 3) (src : Src) (s : State) : Perf :=
  ropePerf (fun e => do
    let lo := (src.w.getD 1 0).toNat
    let hi := (src.w.getD 2 0).toNat
    match ← rRoot e (src.w.getD 0 0) with
    | none => if lo = 0 && hi = 0 then pure { fin := fun _ s => wrG s a 0 } else throw (ropeFlt 9 0)
    | some r =>
      if hi < lo || r.tlen < hi then throw (ropeFlt 9 0)
      let d ← rDesc e
      if (d.slot k.toNat).isNone then throw (illDesc 8 k.toNat ((← get).did.getD 0))
      let l ← rRange e d 17 r lo hi
      pure { fin := fun _ s => wrG s a (l.getD k.toNat 0) }) s

/-- RSUM (R380). -/
def execRsum (ct : Ctl) (a b c d : GReg) (k : BitVec 3) (s : State) : Out' :=
  issueRope ct (.rsum ct a b c d k) [.src 1 b, .src 2 c, .src 3 d] [(0, a)] (perfRsum a k)
    (operands fun s => [rdG s b, rdG s c, rdG s d]) s

/-- RGET performed (R381). -/
def perfRget (sgn : Bool) (a : GReg) (src : Src) (s : State) : Perf :=
  ropePerf (fun e => do
    let p := (src.w.getD 1 0).toNat
    let (l, b) ← leafAt e (src.w.getD 0 0) p
    let d ← rDesc e
    let n := min d.es 8
    let els ← rElems e d l
    let x := BitVec.ofNat 64 (ofBytes ((els.getD (p - b) []).take n))
    pure { fin := fun _ s => wrG s a (if sgn then sext (8 * n) x else x) }) s

/-- RGET (R381). -/
def execRget (ct : Ctl) (sgn : Bool) (a b c : GReg) (s : State) : Out' :=
  issueRope ct (.rget ct sgn a b c) [.src 1 b, .src 2 c] [(0, a)] (perfRget sgn a) (operands fun s => [rdG s b, rdG s c]) s

/-- RLEN performed (R381). -/
def perfRlen (a : GReg) (src : Src) (s : State) : Perf :=
  ropePerf (fun e => do
    let r ← rRoot e (src.w.headD 0)
    pure { fin := fun _ s => wrG s a (BitVec.ofNat 64 ((r.map RT.tlen).getD 0)) }) s

/-- RLEN (R381). -/
def execRlen (ct : Ctl) (a b : GReg) (s : State) : Out' :=
  issueRope ct (.rlen ct a b) [.src 1 b] [(0, a)] (perfRlen a) (operands fun s => [rdG s b]) s

/-! ### References -/

/-- RREF and RDROP performed (R369, R371, R382). -/
def perfRef (up : Bool) (src : Src) (s : State) : Perf :=
  let a := (src.w.headD 0).toNat
  let e := ropeEnv s s.g s.t
  if a = 0 then .done (s.bump s.g.toNat 0x0060)
  else if !e.poolLine a then .trap (ropeFlt 4 a)
  else
    match rCount e a {} with
    | .error t => .trap t
    | .ok (c, note) =>
      if up && c = 2 ^ 32 - 1 then .trap (ropeFlt 5 a)
      else if c = 0 then .trap (ropeFlt 6 a)
      else
        let bs := bytesOf 4 (if up then c + 1 else c - 1)
        match check s s.g.toNat s.t .wr (e.countVa a % 2 ^ 56) 4 with
        | .error t => .trap t
        | .ok ps =>
          if !leesRoom s (pieceCells ps bs) then .wait (thirstFor s (pieceCells ps bs)) else
          let s1 := unitWrite (noteReads s s.g s.t note.reads) s.g s.t ps bs
          let s2 := if up || c ≠ 1 then s1 else s1.modDie (dieOf s.g.toNat) fun d => { d with reclaim := d.reclaim ++ [⟨s.g, s.t, a, true⟩] }
          .done (s2.bump s.g.toNat 0x0060)

/-- RREF (R382). -/
def execRref (ct : Ctl) (b : GReg) (s : State) : Out' :=
  issueRope ct (.rref ct b) [.src 1 b] [] (perfRef true) (operands fun s => [rdG s b]) s

/-- RDROP (R382). -/
def execRdrop (ct : Ctl) (b : GReg) (s : State) : Out' :=
  issueRope ct (.rdrop ct b) [.src 1 b] [] (perfRef false) (operands fun s => [rdG s b]) s

/-- Reclamation stops at a line (R371): ROPESTAT. -/
def ropeLeak (s : State) (t : TenantNo) (d line : Nat) : State :=
  let v := s.cfgAt (ropeStat t d)
  if bit v 63 then s else s.setCfg (ropeStat t d) (BitVec.ofNat 64 (2 ^ 63 + line % 2 ^ 48))

/-- A count that reclamation lowers by one (R371): the line joins those to be reclaimed at 0; a bad count leaks. -/
def reclaimRef (d : Nat) (r : Reclaim) (s : State) (k : Nat × Bool) : State :=
  let e := ropeEnv s r.g r.tenant
  let line := k.1 / 128 * 128
  match rCount e line {}, check s r.g.toNat r.tenant .wr (e.countVa line % 2 ^ 56) 4 with
  | .ok (c, note), .ok ps =>
    if c = 0 then ropeLeak s r.tenant d line else
    let s := unitWrite (noteReads s r.g r.tenant note.reads) r.g r.tenant ps (bytesOf 4 (c - 1))
    if c = 1 then s.modDie d fun x => { x with reclaim := x.reclaim ++ [⟨r.g, r.tenant, line, k.2⟩] } else s
  | _, _ => ropeLeak s r.tenant d line

/-- The lines that a line to be reclaimed points into (R371); none where it fails codes 1, 2 or 4, or cannot be
read. -/
def reclaimKids (e : REnv) (r : Reclaim) : Option (List (Nat × Bool)) :=
  if !e.poolLine r.line then none
  else if !r.node then some []
  else
    match rRead e r.line 128 {} with
    | .error _ => none
    | .ok (bs, _) =>
      let n := nodeOfLine bs
      if nodeShapeBad n || nodeLenBad n || n.kids.any (fun k => if n.kind = 2 then !e.poolLine k.1 else !e.inPool k.1) then none
      else some (n.kids.map fun k => (k.1, n.kind == 2))

/-- A reclaimed line is pushed onto the issuing die's pomace list (R356, R371). -/
def pomPush (s : State) (d : Nat) (r : Reclaim) (ps : List Piece) : State :=
  let head := s.cfgAt (pomHead r.tenant d)
  let s := unitWrite s r.g r.tenant ps (bytesOf 8 (fld head 47 7 * 128))
  (setPomace s r.g r.tenant r.line ((fld (s.cfgAt (pomCnt r.tenant d)) 39 0 + 1) % 2 ^ 40)).bumpDie d 0x0062 1

/-- The bytes of the counts that the reclaim of a line changes (R371). -/
def kidCells (s : State) (r : Reclaim) (kids : List (Nat × Bool)) : List (Nat × Byte) :=
  let e := ropeEnv s r.g r.tenant
  kids.flatMap fun k =>
    match check s r.g.toNat r.tenant .wr (e.countVa (k.1 / 128 * 128) % 2 ^ 56) 4 with
    | .ok ps => pieceCells ps (bytesOf 4 0)
    | .error _ => []

/-- ROPE_RECLAIM (R371): line n of those that the units of a die are to reclaim. -/
def execRopeReclaim (d : DieNo) (n : Nat) (s : State) : Out' :=
  let h := d.toNat
  match (s.die h).reclaim[n]? with
  | none => .next s
  | some r =>
    let s1 := s.modDie h fun x => { x with reclaim := dropAt x.reclaim n }
    let e := ropeEnv s r.g r.tenant
    match reclaimKids e r, check s r.g.toNat r.tenant .wr r.line 8 with
    | some kids, .ok ps =>
      let cells := pieceCells ps (bytesOf 8 0) ++ kidCells s r kids
      if !leesRoom s cells then .next (thirstFor s cells)
      else .next (pomPush (kids.foldl (reclaimRef h r) s1) h r ps)
    | _, _ => .next (ropeLeak s1 r.tenant h r.line)

/-! ### Handles -/

/-- The read-modify-write of RPUB (R383). -/
def rmwRpub (sc : Scope) (p : PReg) (e : GReg) (src : Src) : Rmw :=
  let want := (src.w.getD 0 0)
  let next := (want + 1).toNat
  { n := 16, sc := sc
    new := fun old => if old / 2 ^ 64 = want.toNat then some (next * 2 ^ 64 + (src.w.getD 1 0).toNat) else none
    fin := fun s old =>
      let ok := old / 2 ^ 64 == want.toNat
      (acquire (wrG (wrP s p ok) e (if ok then want + 1 else BitVec.ofNat 64 (old / 2 ^ 64))) s.g.toNat sc).bump s.g.toNat 0x0060 }

/-- Whether RPUB's new root passes R374. -/
def handleRootOk (s : State) (r : Word) : Bool := r == 0 || (decide (r.toNat < 2 ^ 56) && (ropeEnv s s.g s.t).poolLine r.toNat)

/-- RPUB performed (R383): the unit's check of the new root, then the handle. -/
def perfRpub (rem : Bool) (sc : Scope) (p : PReg) (e : GReg) (src : Src) (s : State) : Perf :=
  let r := src.w.getD 1 0
  if handleRootOk s r then rmwPerf rem (rmwRpub sc p e src) src s else .trap (ropeFlt 4 r.toNat)

/-- RPUB (R383). -/
def execRpub (ct : Ctl) (sc : Scope) (p : PReg) (b c d e : GReg) (s : State) : Out' :=
  settled (issue ct [.src 1 b, .src 2 c, .src 3 d] none (fun s =>
    match destsBad s [] [(4, e)] with
    | some t => .trap t
    | none =>
      releaseBody (fun src => if handleRootOk s (src.w.getD 1 0) then some sc else none) (fun s =>
        match atomicPieces s (va56 (rdG s b)) 16 with
        | .error t => .error (if (rdG s b).toNat % 16 ≠ 0 then alignTrap true (rdG s b).toNat else t)
        | .ok ps =>
          match noHost s .wr ps with
          | some t => .error t
          | none => .ok { ps := ps, w := [rdG s c, rdG s d] })
        (startRope ct (.rpub ct sc p b c d e) (perfRpub true sc p e)) s) s)

/-- RLOAD performed (R384). -/
def perfRload (acq : Bool) (sc : Scope) (a d : GReg) (src : Src) (s : State) : Perf :=
  match perfLdnow true acq .q sc a d src s with
  | .done s' => .done (s'.bump s.g.toNat 0x0060)
  | r => r

/-- RLOAD (R384). -/
def execRload (ct : Ctl) (acq : Bool) (sc : Scope) (a b d : GReg) (s : State) : Out' :=
  issueRope ct (.rload ct acq sc a b d) [.src 1 b] [(0, a), (3, d)] (perfRload acq sc a d) (fun s =>
    match checkMem s .rd (va56 (rdG s b), false) 16 16 with
    | .error t => .error t
    | .ok ps => .ok { ps := ps }) s

/-! ### Accepting and finishing -/

/-- The performance of a rope instruction that a unit holds. -/
def perfRope (i : Instr) (src : Src) (s : State) : Perf :=
  match i with
  | .rdesc _ r id => perfRdesc r.isNone id src s
  | .rnew _ a _ _ id => perfRnew a id src s
  | .rcat _ a _ _ => perfRcat a src s
  | .rsplit _ a _ _ d => perfRsplit a d src s
  | .rsplice _ a _ _ _ del n => perfRsplice a del n src s
  | .rwalk _ a _ _ d e => perfRwalk a d e src s
  | .riter _ a _ c d e => perfRiter a c d e src s
  | .rsum _ a _ _ _ k => perfRsum a k src s
  | .rget _ sgn a _ _ => perfRget sgn a src s
  | .rlen _ a _ => perfRlen a src s
  | .rref _ _ => perfRef true src s
  | .rdrop _ _ => perfRef false src s
  | .rpub _ sc p _ _ _ e => perfRpub true sc p e src s
  | .rload _ acq sc a _ d => perfRload acq sc a d src s
  | _ => .wait s

/-- An outstanding rope instruction has met a full unit in this cc (R386). -/
def metFull (s : State) (g : GCore) (k : Slot) (j : Nat) : State :=
  let cc := s.cycle + 1
  let note (o : Out) : Out := if o.id = j then { o with src := { o.src with job := cc } } else o
  seated s g k j fun s => s.modCtx g k fun c => { c with iss := { c.iss with outs := c.iss.outs.map note } }

/-- ROPE_UNIT_ACCEPT (R352): outstanding instruction j of a slot, the thread's earliest rope instruction, is taken by
its unit once that has room. -/
def execRopeUnitAccept (g : GCore) (k : Slot) (j : Nat) (s : State) : Out' :=
  let d := dieOf g.toNat
  let u := unitOf g.toNat
  match s.outOf g k j, s.outsBy g k j with
  | some o, os =>
    if (os.find? fun x => isRope x.i && x.trap.isNone) ≠ some o || (s.die d).ropes.any (fun r => r.out == j) then .next s
    else if !unitRoom s d u then .next (if o.src.job = 0 then metFull s g k j else s)
    else
      let s := if o.src.job = 0 then s else s.bumpBy g.toNat 0x0063 (s.cycle + 1 - o.src.job)
      .next (s.modDie d fun x => { x with ropes := x.ropes ++ [⟨g, k, j, u⟩] })
  | none, _ => .next s

/-- ROPE_COMPLETE (R353): instruction n of those that unit u of a die holds finishes. -/
def execRopeComplete (d : DieNo) (u : BitVec 4) (n : Nat) (s : State) : Out' :=
  match ((s.die d.toNat).ropes.filter fun r => r.unit == u.toNat)[n]? with
  | none => .next s
  | some r =>
    let drop (s : State) : State := s.modDie d.toNat fun x => { x with ropes := x.ropes.filter fun y => y.out != r.out }
    match s.outOf r.g r.k r.out with
    | none => .next (drop s)
    | some o =>
      let s := runOut s r.g r.k o (perfRope o.i o.src)
      .next (if (s.outOf r.g r.k r.out).isSome then s else drop s)

end Sys2Proof.Machine
end

