-- ==== Sys2Proof/Machine/Control.lean ====
section
/-! DEFINITION. Control transfers and their target checks (R39, R105), the return-address store with its spill
ring (R106–R108), and task coordinates (R109). -/

namespace Sys2Proof.Machine

/-! ### Target checks -/

/-- BADTARGET with the faulty code address (R419). -/
def badTarget (t : Word) : Trap := ⟨0x03, 0, t⟩

/-- The line word's line of a target: the instruction cache's copy, or the line at its home. -/
def targetLine (s : State) (g : Nat) (t : TenantNo) (pc : CodeAddr) : Option (List Byte) :=
  match fetchPiece s g t pc with
  | .error _ => none
  | .ok p =>
    match cachedFetch s g t p.pa with
    | none => if (lostIn s [p]).isSome then none else some (homeBytes s t [p])
    | some bs => some bs

/-- The BR row of R39 on a 64-bit target: an error where the check fails. A target whose line cannot be fetched
or fails its integrity passes: its trap belongs to the target instruction. -/
def checkTarget (s : State) (t : Word) : Except Trap CodeAddr :=
  let pc : CodeAddr := t.setWidth 56
  if t.extractLsb' 56 8 ≠ 0 || !retOk pc then .error (badTarget t)
  else
    match targetLine s s.g.toNat s.t pc with
    | none => .ok pc
    | some bs => if (lineBad bs).isSome || tgtBit bs (pc.toNat % 64) then .ok pc else .error (badTarget t)

/-- The RET row of R39 on a 64-bit value. -/
def checkReturn (t : Word) : Except Trap CodeAddr :=
  let pc : CodeAddr := t.setWidth 56
  if t.extractLsb' 56 8 ≠ 0 || !retOk pc then .error (badTarget t) else .ok pc

/-- A transfer to a checked target. -/
def transfer (s : State) (t : Word) : Res :=
  match checkTarget s t with
  | .ok pc => .goto s pc
  | .error e => .trap e

/-! ### The return-address store -/

/-- The entry at position i. -/
def Ras.entry (r : Ras) (i : Nat) : CodeAddr := tget 0 r.entries i

/-- The store with its oldest entry dropped (R107). -/
def Ras.shift (r : Ras) : Ras :=
  { r with entries := (upTo 7).foldl (fun t i => tset 0 t i (r.entry (i + 1))) (tset 0 r.entries 7 0), stored := 7 }

/-- A return address pushed on the store (R107). -/
def Ras.push (r : Ras) (a : CodeAddr) : Ras :=
  { r with entries := tset 0 r.entries r.stored a, stored := r.stored + 1, depth := r.depth + 1 }

/-- The virtual address of spill-ring index i (R107). -/
def Ras.ringVa (r : Ras) (i : Nat) : Nat := r.base.toNat * 4096 + 8 * i

/-- The ring index n places on from HEAD modulo 2^SZ; `back` for one place back. -/
def Ras.ringHead (r : Ras) : Nat := r.head.toNat % 2 ^ r.sz.toNat
/-- The ring index before HEAD. -/
def Ras.ringLast (r : Ras) : Nat := (r.head.toNat + 2 ^ r.sz.toNat - 1) % 2 ^ r.sz.toNat

/-- The spill of a CALL performed: a store of the thread to its ring (R107); `src.w` holds the entry. -/
def perfCall (rem : Bool) (src : Src) (s : State) : Perf := storePerf rem 0 8 (bytesOf 8 (src.w.headD 0).toNat) src s

/-- A CALL's spill starts (R107): no later instruction of the thread waits for it. -/
def startSpill (i : Instr) (src : Src) (s : State) : State :=
  if inOrder s i src then
    match perfCall false src s with
    | .done s' => s'
    | .trap t => cancelSfu (addOut i src (2 ^ 32) (some t) s) s.g s.k
    | .wait s' => addOut i src (2 ^ 32) none s'
    | .part s' src' => addOut i src' (2 ^ 32) none s'
  else addOut i src (2 ^ 32) none s

/-- Call of R107, of instruction i. -/
def callTo (i : Instr) (s : State) (t : Word) : Res :=
  match checkTarget s t with
  | .error e => .trap e
  | .ok pc =>
    let r := s.c.ras
    if r.depth = 0xFFFF then .trap ⟨0x0D, 0, 0⟩
    else if r.stored < 8 then .goto (s.modC fun c => { c with ras := r.push (nextPc c.pc) }) pc
    else if r.sz = 0 then .goto (s.modC fun c => { c with ras := r.shift.push (nextPc c.pc) }) pc
    else
      match check s s.g.toNat s.t .wr (r.ringVa r.ringHead) 8 with
      | .error e => .trap e
      | .ok ps =>
        if overQuota s s.g.toNat s.t 0 ps then .trap ⟨0x0B, 0, BitVec.ofNat 64 (r.ringVa r.ringHead)⟩ else
        let r1 : Ras := { r.shift with
          head := BitVec.ofNat 16 ((r.ringHead + 1) % 2 ^ r.sz.toNat)
          spilled := BitVec.ofNat 16 (min (r.spilled.toNat + 1) (2 ^ r.sz.toNat)) }
        .goto ((startSpill i { ps := ps, w := [(r.entry 0).setWidth 64] } s).modC fun c =>
          { c with ras := r1.push (nextPc c.pc) }) pc

/-- One call fewer is outstanding (R107). -/
def Ras.pop (r : Ras) : Ras := { r with depth := if r.depth = 0 then 0 else r.depth - 1 }

/-- The store after a RET from the ring (R107). -/
def Ras.popRing (r : Ras) : Ras := { r with head := BitVec.ofNat 16 r.ringLast, spilled := r.spilled - 1 }.pop

/-- A RET from the ring has its data: the context stands at the return target, or meets BADTARGET at the RET, whose
address `src.job` holds (R107). -/
def retLand (src : Src) (s : State) (bs : List Byte) : State :=
  match checkReturn (wordOfBytes bs) with
  | .ok pc => s.modC fun c => { c with ras := c.ras.popRing, pc := pc, iss := { c.iss with seq := false } }
  | .error e =>
    let pc : CodeAddr := BitVec.ofNat 56 src.job
    s.modC fun c => { c with pc := pc, iss := { c.iss with entry := some ⟨e, pc, pc⟩ } }

/-- The ring read of a RET performed, as a load (R107). -/
def perfRet (rem : Bool) (src : Src) (s : State) : Perf := loadPerf rem 0 8 (retLand src) src s

/-- The ring read of a RET starts, as a load with LA = 0 (R107): the return target issues once the data has arrived. -/
def startRet (i : Instr) (src : Src) (s : State) : Res :=
  if inOrder s i src then
    match perfRet false src s with
    | .done s' =>
      match s'.c.iss.entry with
      | some e => .trap e.trap
      | none => .goto (s'.modC fun c => { c with pc := s.c.pc }) s'.c.pc
    | .trap t => .ok (cancelSfu (addOut i src 0 (some t) s) s.g s.k)
    | .wait s' => .ok (addOut i src 0 none s')
    | .part s' src' => .ok (addOut i src' 0 none s')
  else .ok (addOut i src 0 none s)

/-- Ret of R107, of instruction i. -/
def retFrom (i : Instr) (s : State) : Res :=
  let r := s.c.ras
  if 0 < r.stored then
    match checkReturn ((r.entry (r.stored - 1)).setWidth 64) with
    | .error e => .trap e
    | .ok pc => .goto (s.modC fun c => { c with ras := { r with stored := r.stored - 1 }.pop }) pc
  else if r.spilled = 0 then .trap ⟨0x0C, 0, 0⟩
  else
    match check s s.g.toNat s.t .rd (r.ringVa r.ringLast) 8 with
    | .error e => .trap e
    | .ok ps => startRet i { ps := ps, bs := boundBytes s ps, job := s.c.pc.toNat } s

/-! ### Meanings -/

/-- BR (R105). -/
def execBr (ct : Ctl) (target : CodeAddr) (s : State) : Out' :=
  issue ct [] none (fun s => transfer s (target.setWidth 64)) s
/-- JMP (R105). -/
def execJmp (ct : Ctl) (b : GReg) (s : State) : Out' :=
  issue ct [.src 1 b] none (fun s => transfer s (rdG s b)) s
/-- CALL (R107). -/
def execCall (ct : Ctl) (target : CodeAddr) (s : State) : Out' :=
  settled (issue ct [] none (fun s => callTo (.call ct target) s (target.setWidth 64)) s)
/-- CALLR (R107). -/
def execCallr (ct : Ctl) (b : GReg) (s : State) : Out' :=
  settled (issue ct [.src 1 b] none (fun s => callTo (.callr ct b) s (rdG s b)) s)
/-- RET (R107). -/
def execRet (ct : Ctl) (s : State) : Out' := settled (issue ct [] none (retFrom (.ret ct)) s)
/-- LOOP (R105). -/
def execLoop (ct : Ctl) (a : GReg) (target : CodeAddr) (s : State) : Out' :=
  issue ct [.rw 0 a] none (fun s =>
    let c := rdG s a - 1
    if c = 0 then .ok (wrG s a c)
    else
      match checkTarget s (target.setWidth 64) with
      | .ok pc => .goto (wrG s a c) pc
      | .error e => .trap e) s

/-- A task's tile coordinate (R109). -/
def coordVal (s : State) (sel : CoordSel) : Word :=
  let t := s.c.task
  let d := match s.launch? t.lid with
    | some l => l.dw 1
    | none => 0
  match sel with
  | .x => t.x.setWidth 64
  | .y => t.y.setWidth 64
  | .z => t.z.setWidth 64
  | .lin => BitVec.ofNat 64 (t.x.toNat + fld d 15 0 * (t.y.toNat + fld d 31 16 * t.z.toNat))
/-- COORD (R109). -/
def execCoord (ct : Ctl) (a : GReg) (c : CoordSel) (s : State) : Out' :=
  issue ct [.dst 0 a] none (fun s => .ok (wrG s a (coordVal s c))) s

end Sys2Proof.Machine
end

