-- ==== Sys2Proof/Machine/Saved.lean ====
section
/-! DEFINITION. Saved contexts (R430): the 4 KiB layout that CTXSAVE, parking and pre-emption write, and the context
that CTXLOAD reads back from it. -/

namespace Sys2Proof.Machine

/-! ### Registers of the record -/

/-- RASPTR (R106). -/
def rasPtr (r : Ras) : Word := BitVec.ofNat 64 (r.base.toNat * 4096 + r.sz.toNat)
/-- RASDEPTH (R106). -/
def rasDepth (r : Ras) : Word :=
  BitVec.ofNat 64 (r.stored * 2 ^ 48 + r.spilled.toNat * 2 ^ 32 + r.head.toNat * 2 ^ 16 + r.depth.toNat)

/-- The store with RASPTR written (R106, R108). -/
def Ras.setPtr (r : Ras) (v : Word) : Ras := { r with base := v.extractLsb' 12 44, sz := v.extractLsb' 0 4 }

/-- The store with RASDEPTH written (R106, R108): a changed STORED leaves the entries below it as they are, those above
become free values, numbered by n. DESIGN CHOICE (log entry 5): SPILLED is kept as written, also above 2^SZ. -/
def Ras.setDepth (r : Ras) (v : Word) (n : Nat) : Ras :=
  let st := min (fld v 51 48) 8
  let fill := if st = r.stored then [] else (upTo 8).filter fun i => st ≤ i
  { r with stored := st, spilled := v.extractLsb' 32 16, head := v.extractLsb' 16 16, depth := v.extractLsb' 0 16
           entries := fill.foldl (fun t i => tset 0 t i (Config.rasEntry (8 * n + i))) r.entries }

/-- TCAUSE of a context (R420). -/
def tcause (c : Ctx) : Word :=
  BitVec.ofNat 64 ((if c.withdrawn = [] then 0 else 2 ^ 16) + c.trap.detail.toNat * 256 + c.trap.code.toNat)

/-- A stream as a saved context keeps it (R305). -/
def Stream.saved (x : Stream) : Stream := { x with ahead := [], pushed := [] }

/-! ### The layout -/

/-- Dword 0 of the record of R430. -/
def recordHead (c : Ctx) : Word :=
  BitVec.ofNat 64 (2 ^ 56 + c.tenant.toNat * 2 ^ 48 + c.task.lid % 2 ^ 16 * 2 ^ 32 + c.task.pri.toNat * 4 +
    (if c.halted then 2 else 0) + if c.trap.mode then 1 else 0)

/-- The deadline of a context's pending wait, 0 for none (R430). -/
def waitDeadline (c : Ctx) : Nat := (c.waits.head?.map (·.deadline)).getD 0

/-- The dwords at 0x000 to 0x090 of the record of R430. -/
def recordDwords (c : Ctx) : List Word :=
  let t := c.trap
  [recordHead c, c.pc.setWidth 64, t.tepc.setWidth 64, t.tres.setWidth 64, tcause c, t.tval, t.tvec.setWidth 64, t.ctxptr,
   t.tscr0, t.tscr1, BitVec.ofNat 64 (c.fpstat.toNat * 256 + c.fpctl.toNat), BitVec.ofNat 64 (c.regs.p.toNat / 2 * 2),
   rasPtr c.ras, rasDepth c.ras, c.task.jctr.setWidth 64, c.lo, c.hi,
   BitVec.ofNat 64 (c.task.z.toNat * 2 ^ 32 + c.task.y.toNat * 2 ^ 16 + c.task.x.toNat), BitVec.ofNat 64 (waitDeadline c)]

/-- The free bytes of saved record n from index i (R430): the streams are its bytes 0 to 255, the opaque area is
the rest. -/
def freeBytes (n i len : Nat) : List Byte := (upTo len).map fun j => Config.opaqueByte (2048 * n + i + j)

/-- A list of dwords as bytes. -/
def wordBytes (l : List Word) : List Byte := l.flatMap fun w => bytesOf 8 w.toNat

/-- The 4 KiB of a saved context, numbered n (R430). -/
def recordImage (n : Nat) (c : Ctx) : List Byte :=
  wordBytes (recordDwords c) ++ bytesOf 104 0 ++
  wordBytes ((upTo 64).map fun i => if i = 0 then 0 else tget 0 c.regs.g i) ++
  wordBytes ((upTo 8).map fun i => if i = 0 then BitVec.allOnes 64 else tget 0 c.regs.k i) ++
  wordBytes ((upTo 8).map fun i => (c.ras.entry i).setWidth 64) ++
  freeBytes n 0 256 ++
  ((upTo 32).flatMap fun i => bytesOf 64 (tget 0 c.regs.v i).toNat) ++
  freeBytes n 256 896

/-- The free bytes in the 4 KiB of a record. -/
def recordFree (bs : List Byte) : List Byte := (bs.drop 0x380).take 256 ++ (bs.drop 0xC80).take 896

/-- The device writes a record of a context over pieces (R430): its bytes, and what its opaque area holds. -/
def saveRecord (s : State) (src : PubSrc) (ps : List Piece) (c : Ctx) : State :=
  let ws := pieceCells ps (recordImage s.fresh c)
  let s1 := writeNow (claim s c.tenant ps) src .module ws
  { s1 with opaques := (s.fresh, c) :: s1.opaques, fresh := s.fresh + 1 }

/-- What the device finds in the opaque area of a record: the newest saved context with those bytes. -/
def findOpaque (free : List Byte) (l : List (Nat × Ctx)) : Option Ctx :=
  (l.find? fun e => freeBytes e.1 0 1152 == free).map (·.2)

/-- Whether a record of R430 may be loaded by a context of tenant t (R432). -/
def recordOk (t : TenantNo) (bs : List Byte) : Bool :=
  fld (dwordAt bs 0) 63 56 == 1 && fld (dwordAt bs 0) 51 48 == t.toNat

/-- The streams that a saved record restores. -/
def loadStreams (o : Option Ctx) : Table Stream :=
  match o with
  | some x => x.streams.map fun e => (e.1, e.2.saved)
  | none => []

/-- A list of register values as a table that lists no zero. -/
def tableOf [DecidableEq α] (d : α) (l : List (Nat × α)) : Table α := l.foldl (fun t e => tset d t e.1 e.2) []

/-- The registers of a record (R430). -/
def loadRegs (bs : List Byte) : Regs where
  g := tableOf 0 ((upTo 63).map fun i => (i + 1, dwordAt bs (0x20 + i + 1)))
  v := tableOf 0 ((upTo 32).map fun i => (i, BitVec.ofNat 512 (ofBytes ((bs.drop (0x480 + 64 * i)).take 64))))
  p := BitVec.ofNat 8 (fld (dwordAt bs 11) 7 1 * 2)
  k := tableOf 0 ((upTo 7).map fun i => (i + 1, dwordAt bs (0x60 + i + 1)))

/-- The trap registers of a record (R430). -/
def loadTrap (bs : List Byte) : TrapRegs where
  mode := bit (dwordAt bs 0) 0
  code := (dwordAt bs 4).extractLsb' 0 8
  detail := (dwordAt bs 4).extractLsb' 8 8
  tvec := (dwordAt bs 6).setWidth 56
  tepc := (dwordAt bs 2).setWidth 56
  tres := (dwordAt bs 3).setWidth 56
  tval := dwordAt bs 5
  ctxptr := dwordAt bs 7
  tscr0 := dwordAt bs 8
  tscr1 := dwordAt bs 9

/-- The return-address store of a record (R430). -/
def loadRas (bs : List Byte) : Ras :=
  let r := (({} : Ras).setPtr (dwordAt bs 12)).setDepth (dwordAt bs 13) 0
  { r with entries := tableOf 0 ((upTo 8).map fun i => (i, (dwordAt bs (0x68 + i)).setWidth 56)) }

/-- The BADTARGET that a context meets before it issues at a saved PC (R39). -/
def resumeEntry (pc : Word) : Option Entry :=
  match checkReturn pc with
  | .ok _ => none
  | .error t => some ⟨t, pc.setWidth 56, pc.setWidth 56⟩

/-- A context with the fields that the layout of R430 places in a record. -/
def takeFields (bs : List Byte) (c : Ctx) : Ctx :=
  let d (i : Nat) : Word := dwordAt bs i
  { c with
    regs := loadRegs bs
    pc := (d 1).setWidth 56
    fpctl := (d 10).setWidth 2
    fpstat := (d 10).extractLsb' 8 6
    ras := loadRas bs
    task := { c.task with
      pri := (d 0).extractLsb' 2 2, jctr := (d 14).setWidth 56
      x := (d 17).extractLsb' 0 16, y := (d 17).extractLsb' 16 16, z := (d 17).extractLsb' 32 16 }
    trap := loadTrap bs
    lo := d 15
    hi := d 16 }

/-- A pending wait as a record gives it: its deadline from the record, to be evaluated again (R221, R430). -/
def loadWait (bs : List Byte) (reg : Nat) (w : Wait) : Wait :=
  { w with deadline := (dwordAt bs 18).toNat, woken := true, reg := reg }

/-- The reductions and accumulator instructions, which CTXSAVE and pre-emption withdraw (R202). -/
def isUpdate : Instr → Bool
  | .red .. | .redv .. | .acinit .. | .acread .. | .acchain .. | .acflush .. | .acckpt .. | .acrstr .. => true
  | _ => false

/-- An outstanding wait of a saved context as an operation that is performed again, with the time that is left. -/
def leftOver (now : Nat) (o : Out) : Out := { o with src := { o.src with tmo := o.src.job - now, k := 0 }, wait := none }

/-- The context c after it has taken every field of a record and its opaque area (R432): it keeps its TID, launch
and slot. `now` is CYCLE and `reg` the number of its wait. -/
def loadContext (bs : List Byte) (o : Option Ctx) (now reg : Nat) (c : Ctx) : Ctx :=
  let x := o.getD {}
  let old := x.iss
  let ops := (if bit (dwordAt bs 4) 16 then x.withdrawn else []) ++
    (old.outs.filter fun o => isUpdate o.i || o.wait.isSome).map (leftOver now)
  takeFields bs { c with
    streams := loadStreams o
    iss := { old with
      outs := old.outs.filter fun o => isSfu o.i
      wait := old.wait.map (loadWait bs reg), hold := none, entry := resumeEntry (dwordAt bs 1) }
    withdrawn := ops
    cancelled := x.cancelled
    cancelOuts := x.cancelOuts
    failures := x.failures
    savedRep := x.savedRep
    replay := ops != [] || x.cancelled != []
    again := x.again }

/-- A saved context c as its save area gives it back (R430, R433): the fields that the layout places, and the deadline of
its wait; the rest is its opaque area. An area that is no memory gives the context as it was saved. -/
def restoreFields (bs : List Byte) (c : Ctx) : Ctx :=
  if bs = [] then c else
  let x := takeFields bs c
  { x with
    halted := bit (dwordAt bs 0) 1
    withdrawn := if bit (dwordAt bs 4) 16 then c.withdrawn else []
    iss := { c.iss with wait := c.iss.wait.map (loadWait bs 0), entry := c.iss.entry.or (resumeEntry (dwordAt bs 1)) } }

end Sys2Proof.Machine
end

