-- ==== Sys2Proof/Machine/System.lean ====
section
/-! DEFINITION. System instructions (R417–R437, R443, R444, R453): traps, special registers, halting, saving a
context, translation maintenance, interrupts, counters, and the reclaim of a line. -/

namespace Sys2Proof.Machine

/-- PROT of a privileged instruction in user mode (R417). -/
def privTrap : Trap := ⟨0x06, 4, 0⟩

/-! ### TRAP, SYSC, BKPT, HALT -/

/-- TRAP (R426). -/
def execTrap (ct : Ctl) (imm : BitVec 42) (s : State) : Out' :=
  issue ct [] none (fun _ => .trapNext ⟨0x16, 0, imm.setWidth 64⟩) s
/-- SYSC (R426). -/
def execSysc (ct : Ctl) (imm : BitVec 42) (s : State) : Out' :=
  issue ct [] none (fun _ => .trapNext ⟨0x14, 0, imm.setWidth 64⟩) s
/-- BKPT (R426). -/
def execBkpt (ct : Ctl) (imm : BitVec 16) (s : State) : Out' :=
  issue ct [] none (fun _ => .trapNext ⟨0x15, 0, imm.setWidth 64⟩) s

/-- HALT (R429): it waits for the thread's outstanding instructions. -/
def execHalt (ct : Ctl) (s : State) : Out' :=
  issue ct [] none (fun s =>
    if s.c.iss.outs ≠ [] then .hold s else .left ((haltCtx s s.g s.k 0).bump s.g.toNat 0x0002)) s

/-! ### Special registers -/

/-- Whether user mode may not read, or write, a special register (R424). -/
def srReadH (n : Nat) : Bool := n == 0x036 || n == 0x037
def srWriteH (n : Nat) : Bool := 0x030 ≤ n && n ≤ 0x037

/-- PHSTAT of core g (R157). -/
def phstat (s : State) (g : Nat) : Word :=
  BitVec.ofNat 64 (min (s.core g).ph.l2.length 16384 * 2 ^ 32 + phaseAge s g)

/-- The value of special register n for the running thread (R424). -/
def srVal (s : State) (n : Nat) : Word :=
  let c := s.c
  let g := s.g.toNat
  let r := (s.core g).regs
  match n with
  | 0x000 => s.part.caps
  | 0x001 => c.tid.setWidth 64
  | 0x002 => s.g.setWidth 64
  | 0x003 => s.b.lcore.setWidth 64
  | 0x004 => BitVec.ofNat 64 (dieOf g)
  | 0x005 => s.t.setWidth 64
  | 0x006 => BitVec.ofNat 64 s.cycle
  | 0x007 => wordOfBool c.trap.mode
  | 0x008 => c.task.x.setWidth 64
  | 0x009 => c.task.y.setWidth 64
  | 0x00A => c.task.z.setWidth 64
  | 0x010 => c.fpctl.setWidth 64
  | 0x011 => c.fpstat.setWidth 64
  | 0x012 => rasPtr c.ras
  | 0x013 => rasDepth c.ras
  | 0x014 => c.task.jctr.setWidth 64
  | 0x020 => BitVec.ofNat 64 ((if s.b.fuse then 2 else 0) + if s.b.qp then 1 else 0)
  | 0x021 => s.b.qpto.setWidth 64
  | 0x022 => s.b.parkt.setWidth 64
  | 0x023 => r.phlim.setWidth 64
  | 0x024 => phstat s g
  | 0x025 => r.twto.setWidth 64
  | 0x026 => r.mq.mmode.setWidth 64
  | 0x027 => s.b.qpbind
  | 0x030 => c.trap.tvec.setWidth 64
  | 0x031 => tcause c
  | 0x032 => c.trap.tepc.setWidth 64
  | 0x033 => c.trap.tres.setWidth 64
  | 0x034 => c.trap.tval
  | 0x035 => c.trap.ctxptr
  | 0x036 => c.trap.tscr0
  | 0x037 => c.trap.tscr1
  | 0x040 => (tget {} r.pmc 0).count
  | 0x041 => (tget {} r.pmc 1).count
  | 0x042 => (tget {} r.pmc 2).count
  | 0x043 => (tget {} r.pmc 3).count
  | _ => 0

/-- The trap registers with one of them written (R420, R424). -/
def trapSet (r : TrapRegs) (n : Nat) (v : Word) : TrapRegs :=
  match n with
  | 0x030 => { r with tvec := v.setWidth 56 }
  | 0x031 => { r with code := v.extractLsb' 0 8, detail := v.extractLsb' 8 8 }
  | 0x032 => { r with tepc := v.setWidth 56 }
  | 0x033 => { r with tres := v.setWidth 56 }
  | 0x034 => { r with tval := v }
  | 0x035 => { r with ctxptr := v }
  | 0x036 => { r with tscr0 := v }
  | 0x037 => { r with tscr1 := v }
  | _ => r

/-- A counter's event and value changed (R444). -/
def setPmc (s : State) (i : Nat) (f : Pmc → Pmc) : State :=
  s.modCore s.g.toNat fun c => { c with regs := { c.regs with pmc := tput c.regs.pmc i (f (tget {} c.regs.pmc i)) } }

/-- Special register n written by the running thread (R428): reserved fields and RO registers keep their value. -/
def srSet (s : State) (n : Nat) (v : Word) : State :=
  match n with
  | 0x010 => s.modC fun c => { c with fpctl := v.setWidth 2 }
  | 0x011 => writeFp s (v.setWidth 6)
  | 0x012 => s.modC fun c => { c with ras := c.ras.setPtr v }
  | 0x013 => ({ s with fresh := s.fresh + 1 } : State).modC fun c => { c with ras := c.ras.setDepth v s.fresh }
  | 0x021 => s.modB fun b => { b with qpto := v.setWidth 32 }
  | 0x022 => s.modB fun b => { b with parkt := v.setWidth 32 }
  | 0x023 => s.modCore s.g.toNat fun c => { c with regs := { c.regs with phlim := v.setWidth 32 } }
  | 0x025 => s.modCore s.g.toNat fun c => { c with regs := { c.regs with twto := v.setWidth 32 } }
  | 0x027 => s.modB fun b => { b with qpbind := v }
  | 0x031 => s.modC fun c => { c with
      trap := trapSet c.trap 0x031 v, withdrawn := if bit v 16 then c.withdrawn else [] }
  | 0x030 | 0x032 | 0x033 | 0x034 | 0x035 | 0x036 | 0x037 => s.modC fun c => { c with trap := trapSet c.trap n v }
  | 0x040 => setPmc s 0 fun x => { x with count := v }
  | 0x041 => setPmc s 1 fun x => { x with count := v }
  | 0x042 => setPmc s 2 fun x => { x with count := v }
  | 0x043 => setPmc s 3 fun x => { x with count := v }
  | _ => s

/-- The trap of a privileged instruction in user mode, which comes before its other conditions (R417). -/
def privIn (s : State) (priv : Bool) : Option Trap := if priv && !s.c.trap.mode then some privTrap else none

/-- RDSR (R428). -/
def execRdsr (ct : Ctl) (a : GReg) (num : BitVec 12) (s : State) : Out' :=
  issue ct [.dst 0 a] (privIn s (srReadH num.toNat)) (fun s => .ok (wrG s a (srVal s num.toNat))) s

/-- WRSR (R428). -/
def execWrsr (ct : Ctl) (b : GReg) (num : BitVec 12) (s : State) : Out' :=
  issue ct [.src 1 b] (privIn s (srWriteH num.toNat)) (fun s => .ok (srSet s num.toNat (rdG s b))) s

/-! ### Counters and interrupts -/

/-- The events of R180, R246, R386, R416 and R444, and event 0. -/
def perfEvent (n : Nat) : Bool :=
  n ≤ 0x0009 || (0x0040 ≤ n && n ≤ 0x0049) || (0x0050 ≤ n && n ≤ 0x0057) || (0x0060 ≤ n && n ≤ 0x0063) ||
    (0x0070 ≤ n && n ≤ 0x0075)

/-- PERF (R444). -/
def execPerf (ct : Ctl) (b : GReg) (n : BitVec 2) (s : State) : Out' :=
  issue ct [.src 1 b] none (fun s =>
    let v := rdG s b
    if fld v 63 16 ≠ 0 || !perfEvent (fld v 15 0) then .trap (illopnd 1)
    else .ok (setPmc s n.toNat fun x => { x with event := v.extractLsb' 0 16 })) s

/-- The interrupt of HIRQ n with its data (R443). -/
def sendHirq (s : State) (n : BitVec 3) (v : Word) : State :=
  let pend := tenReg s.t 0x30
  ((s.setCfg (tenReg s.t (0x40 + 8 * n.toNat)) v).setCfg pend (s.cfgAt pend ||| (1 : Word) <<< n.toNat)).raise
    s.t.toNat (2 + n.toNat)

/-- HIRQ (R443). -/
def execHirq (ct : Ctl) (b : GReg) (n : BitVec 3) (s : State) : Out' :=
  issue ct [.src 1 b] none
    (releaseBody (fun _ => some .system) (fun s => .ok { w := [rdG s b] })
      (fun src s => .ok (sendHirq s n (src.w.headD 0)))) s

/-! ### Translation maintenance -/

/-- TLBINV (R436): a length of 0 names every address. -/
def execTlbinv (ct : Ctl) (sc : Scope) (b c : GReg) (s : State) : Out' :=
  issue ct [.src 1 b, .src 2 c] none
    (releaseBody (fun _ => some .module) (fun s =>
      if 2 ^ 56 < (rdG s b).toNat + (rdG s c).toNat then .error (illopnd 2)
      else .ok { w := [rdG s b, rdG s c] })
    (fun src s =>
      let lo := (src.w.headD 0).toNat
      let n := (src.w.getD 1 0).toNat
      let i : TlbInv := { g := s.g, tid := s.c.tid, tenant := s.t, lo := if n = 0 then 0 else lo
                          len := if n = 0 then 2 ^ 56 else n, scope := sc }
      .ok { s with fl := { s.fl with invs := s.fl.invs ++ [i] } })) s

/-- Pieces that were translated through a page of a range. -/
def piecesIn (ps : List Piece) (lo n : Nat) : Bool := ps.any fun p => vaMeets p.va p.n lo n

/-- Whether a write stream of the tenant still holds a pushed store that was translated through a page of the
range (R303). -/
def pushedIn (s : State) (i : TlbInv) : Bool :=
  s.ctxs.any fun e => inScope i.scope (e.1 / 16) i.g.toNat && match e.2 with
    | some c => c.tenant == i.tenant && c.streams.any fun x => x.2.pushed.any fun p => piecesIn p.1 i.lo i.len
    | none => false

/-- What TLBSYNC waits for has come about for one invalidation (R437). -/
def invDone (s : State) (i : TlbInv) : Bool :=
  i.delivered && !((allOuts s).any fun o => i.waits.contains o.2.2.id) && !pushedIn s i

/-- TLBSYNC (R437). -/
def execTlbsync (ct : Ctl) (s : State) : Out' :=
  issue ct [] none (fun s =>
    let mine (i : TlbInv) : Bool := i.tid == s.c.tid && i.tenant == s.t
    if (s.fl.invs.filter mine).all (invDone s) then
      .ok { s with fl := { s.fl with invs := s.fl.invs.filter fun i => !mine i } }
    else .hold s) s

/-- An invalidation drops the entries of its tenant that map a page of its range (R436). -/
def tlbDrop (i : TlbInv) (l : List Tlb) : List Tlb :=
  l.filter fun e => !(e.tenant == i.tenant && vaMeets (e.page * 2 ^ e.bits) (2 ^ e.bits) i.lo i.len)

/-- TLB_INVALIDATE_DELIVER (R436, R437): invalidation n reaches the TLBs of its scope's instance. -/
def execTlbInvalidateDeliver (n : Nat) (s : State) : Out' :=
  match s.fl.invs[n]? with
  | none => .next s
  | some i =>
    let g := i.g.toNat
    let inst (h : Nat) : Bool := inScope i.scope h g
    let waits := ((allOuts s).filter fun o => inst o.1.toNat && piecesIn (o.2.2.src.ps ++ o.2.2.src.qs) i.lo i.len).map
      fun o => o.2.2.id
    let cores := s.cores.map fun e =>
      (e.1, if inst e.1 then { e.2 with cache := { e.2.cache with tlb := tlbDrop i e.2.cache.tlb } } else e.2)
    let cl := s.clusters.map fun e =>
      (e.1, if inScope (scopeMax i.scope .cluster) (e.1 * 8) g then { e.2 with tlb := tlbDrop i e.2.tlb } else e.2)
    .next { s with
      cores := cores, clusters := cl
      fl := { s.fl with invs := modAt s.fl.invs n fun i => { i with delivered := true, waits := waits } } }

/-! ### CTXSAVE -/

/-- The context that CTXSAVE writes (R202, R321, R431): at the next instruction, with p false, the updates that are
not applied yet and the requests that the save cancelled. -/
def savedImage (c : Ctx) (p : PReg) : Ctx :=
  { c with
    pc := nextPc c.pc
    regs := { c.regs with p := c.regs.p &&& ~~~((1 : BitVec 8) <<< p.toNat) }
    withdrawn := c.withdrawn ++ c.iss.outs.filter fun o => isUpdate o.i
    cancelled := c.cancelled ++ c.again
    cancelOuts := c.cancelOuts ++ c.iss.outs.filter fun o => isSfu o.i
    streams := c.streams.map fun e => (e.1, e.2.saved)
    iss := {}
    again := [] }

/-- The running context without the updates that CTXSAVE has withdrawn into the saved state (R202). -/
def withdrawUpdates (s : State) : State :=
  s.modC fun c => { c with iss := { c.iss with outs := c.iss.outs.filter fun o => !isUpdate o.i } }

/-- CTXSAVE (R431). -/
def execCtxsave (ct : Ctl) (p : PReg) (b : GReg) (s : State) : Out' :=
  issue ct [.src 1 b] (privIn s true) (fun s =>
    let va := rdG s b
    if va.toNat % 4096 ≠ 0 then .trap (alignTrap true va.toNat)
    else
      match check s s.g.toNat s.t .wr (va56 va) 4096 with
      | .error t => .trap t
      | .ok ps =>
        match spadDenied s .wr ps with
        | some t => .trap t
        | none =>
          let ws : List (Nat × Byte) := ps.flatMap fun q => (pieceLines q).map fun l => (l * 128, 0)
          if s.c.iss.outs.any (fun o => !isSfu o.i && !isUpdate o.i) then .hold s
          else if !leesRoom s ws then .hold (thirstFor s ws)
          else
            let s := recallSfu (flushStreams s) s.g s.k
            let s1 := withdrawUpdates (saveRecord s (.core s.g) ps (savedImage s.c p))
            .ok (wrP (dropUnpub s1 s.g.toNat (ps.flatMap pieceAddrs)) p true)) s

/-! ### LLRCL -/

/-- LLRCL performed (R453). -/
def perfLlrcl (rem : Bool) (src : Src) (s : State) : Perf :=
  if !rem && src.ps.any (isRemote s) then .wait s else
  match spadDenied s .wr src.ps with
  | some t => .trap t
  | none =>
    let p := src.ps.headD ⟨0, 0, 0, 0⟩
    if isSpadPlace s p.pa then .done (s.poke (cellsAt p.pa (bytesOf 128 0)))
    else if !linesRoom s src.ps then .wait (thirstFor s (lineCells src.ps))
    else .done (tlbFill (setLine s .module 0 p (bytesOf 128 0)) s.g.toNat s.t p)

/-- LLRCL (R453). -/
def execLlrcl (ct : Ctl) (b : GReg) (m : AddrOp) (s : State) : Out' :=
  issueLong ct (.llrcl ct b m) [.src 1 b, .src 2 m.index] none (perfLlrcl false) (fun s =>
    let va := addrG s b m
    match checkMem s .wr (va, false) 128 128 with
    | .error t => .error t
    | .ok ps =>
      match noHost s .wr ps with
      | some t => .error t
      | none => .ok ({ ps := ps }, s)) s

end Sys2Proof.Machine
end

