-- ==== Sys2Proof/Machine/Task.lean ====
section
/-! DEFINITION. Task instructions (R277–R290): launch queues, forks, join counters, continuations, migration,
the end of a task, priorities, yielding and lending, and the queue lengths. -/

namespace Sys2Proof.Machine

/-! ### Join counters -/

/-- The checks of a join counter (R280, R232). -/
def checkCounter (s : State) (a : Acc) (va : Word) : Except Trap (List Piece) :=
  if va.toNat % 16 ≠ 0 then .error (alignTrap (a == .wr) va.toNat) else
  match check s s.g.toNat s.t a (va56 va) 16 with
  | .error t => .error t
  | .ok ps =>
    match noHost s a ps with
    | some t => .error t
    | none => .ok ps

/-- The join counter of the running context, checked as a store; no pieces where it has none (R279, R287). -/
def ownCounter (s : State) : Except Trap (List Piece) :=
  if s.c.task.jctr = 0 then .ok [] else checkCounter s .wr (s.c.task.jctr.setWidth 64)

/-- PENDING and FORKED change at the counter's home by one indivisible action at the domain scope (R279, R287). -/
def countJoin (s : State) (sc : Scope) (ps : List Piece) (dp df : Word) : State :=
  if ps = [] then s else
  let bs := objBytes s ps
  objWrites s sc ps ((0, bytesOf 8 (dwordAt bs 0 + dp).toNat) ::
    if df = 0 then [] else [(8, bytesOf 8 (dwordAt bs 1 + df).toNat)])

/-- JINIT performed (R280): `src.w` holds the counter's address and PENDING. -/
def perfJinit (src : Src) (s : State) : Perf :=
  match (spadDenied s .wr src.ps).or (if accIn s src.ps then some (illopnd 1) else none) with
  | some t => .trap t
  | none =>
    if !objRoom s src.ps then .wait (objWait s src.ps) else
    let j : BitVec 56 := (src.w.headD 0).setWidth 56
    let s := objWrite s s.domain src.ps 0 (bytesOf 8 (src.w.getD 1 0).toNat ++ bytesOf 8 0)
    .done (s.modC fun x => { x with task := { x.task with jctr := j } })

/-- JINIT (R280). -/
def execJinit (ct : Ctl) (b c : GReg) (s : State) : Out' :=
  issue ct [.src 1 b, .src 2 c] none (fun s =>
    if rdG s b = 0 then .ok (s.modC fun x => { x with task := { x.task with jctr := 0 } }) else
    match checkCounter s .wr (rdG s b) with
    | .error t => .trap t
    | .ok ps => homeNow ct (.jinit ct b c) perfJinit { ps := ps, w := [rdG s b, rdG s c] } s) s

/-- JOIN performed from the withdrawn list, with a deadline (R281, R423). -/
def perfJoin (p : PReg) (src : Src) (s : State) : Perf :=
  match objTrap .rd 1 src.ps s with
  | some t => .trap t
  | none =>
    if joinDone (objBytes s src.ps) then .done (wrP (acquire s s.g.toNat s.domain) p true)
    else if src.job ≤ s.cycle then .done (wrP (s.bump s.g.toNat 0x0055) p false)
    else .wait s

/-- JOIN (R281). -/
def execJoin (ct : Ctl) (p : PReg) (b : GReg) (tmo : Timeout) (s : State) : Out' :=
  issue ct (.src 1 b :: tmoUses tmo) none (fun s =>
    match checkCounter s .rd (rdG s b) with
    | .error t => .trap t
    | .ok ps =>
      match objTrap .rd 1 ps s with
      | some t => lateTrap ct (.join ct p b tmo) { ps := ps, tmo := tmoVal s tmo } t s
      | none =>
        if joinDone (objBytes s ps) then .ok (wrP (acquire s s.g.toNat s.domain) p true)
        else waitOr (.join (ps.headD ⟨0, 0, 0, 0⟩).pa) (tmoVal s tmo) (fun s => .ok (wrP s p false)) s) s

/-! ### Launch queues -/

/-- The registers of tenant t's launch queue (R250, R438). -/
def lqBase (t : TenantNo) : Nat := tenReg t 0x200
def lqCtl (t : TenantNo) : Nat := tenReg t 0x208
def lqProd (t : TenantNo) : Nat := tenReg t 0x210
def lqCons (t : TenantNo) : Nat := tenReg t 0x218

/-- Pending records of a tenant's launch queue: (PROD − CONS) mod 2^32 (R251). -/
def lqPending (s : State) (t : TenantNo) : Nat := fld (s.cfgAt (lqProd t) - s.cfgAt (lqCons t)) 31 0
/-- Records that the ring holds (R250). -/
def lqSize (s : State) (t : TenantNo) : Nat := 2 ^ fld (s.cfgAt (lqCtl t)) 4 0
/-- The physical address of the record at an index of the ring (R250). -/
def lqSlot (s : State) (t : TenantNo) (i : Nat) : Nat :=
  fld (s.cfgAt (lqBase t)) 51 8 * 256 + i % lqSize s t * 256

/-- LAUNCH performed (R278). -/
def perfLaunch (rem : Bool) (a : GReg) (src : Src) (s : State) : Perf :=
  if !rem && src.ps.any (isRemote s) then .wait s else
  match (spadDenied s .rd src.ps).or (lostIn s src.ps) with
  | some t => .trap t
  | none =>
    if !bit (s.cfgAt (lqCtl s.t)) 32 || lqSize s s.t ≤ lqPending s s.t then
      .done (wrG s a 1)
    else
      let bs := objBytes s src.ps
      let prod := fld (s.cfgAt (lqProd s.t)) 31 0
      let ws := cellsAt (lqSlot s s.t prod) bs
      if !leesRoom s ws then .wait (thirstFor s ws) else
      let ws := ws.filter fun w => inWindow s s.t w.1
      let s := writeNow (recallLines s src.ps) (.core s.g) .module ws
      .done (wrG (s.setCfg (lqProd s.t) (BitVec.ofNat 64 ((prod + 1) % 2 ^ 32))) a 0)

/-- LAUNCH (R278). -/
def execLaunch (ct : Ctl) (a b : GReg) (s : State) : Out' :=
  settled (issue ct [.dst 0 a, .src 1 b] none
    (releaseBody (fun _ => some .module) (fun s =>
      if (rdG s b).toNat % 128 ≠ 0 then .error (alignTrap false (rdG s b).toNat) else
      match check s s.g.toNat s.t .rd (va56 (rdG s b)) 256 with
      | .error t => .error t
      | .ok ps => .ok { ps := ps })
    (startLong ct (.launch ct a b) (perfLaunch false a))) s)

/-! ### Work areas -/

/-- A launch is stopped by a failed work-area access at an address (R264). -/
def stopLaunch (s : State) (lid : Nat) (va : Word) : State :=
  s.modLaunch lid fun l => if l.stopped.isSome then l else { l with stopped := some va }

/-- The base of a launch's work area of core g (R264). -/
def workArea (s : State) (lid g : Nat) : Nat :=
  match s.launch? lid with
  | some l => va56 (l.dw 5 + BitVec.ofNat 64 (g * 0x20000))
  | none => 0

/-- Pieces of a work area or save area, which lie under key slot 0 (R442). -/
def keyZero (ps : List Piece) : List Piece := ps.map fun p => { p with leaf := setFld p.leaf 63 60 0 }

/-- The bytes of work-area entries from an offset on, written by the hardware for core g under tenant t's translation (R264):
where the area cannot be written, the launch is stopped. -/
def areaWrite (s : State) (g : Nat) (t : TenantNo) (lid off : Nat) (bs : List Byte) : State :=
  let va := (workArea s lid g + off) % 2 ^ 56
  if bs = [] then s else
  match check s g t .wr va bs.length with
  | .error _ => stopLaunch s lid (BitVec.ofNat 64 va)
  | .ok ps => writeNow (claim s t (keyZero ps)) (.engine (BitVec.ofNat 12 g)) .module (pieceCells ps bs)

/-- Bits of a dword of an entry that belong to the scheduler: free values, numbered by n. -/
def schedBits (mask : Word) (n : Nat) (v : Word) : Word :=
  v ||| (wordOfBytes ((upTo 8).map fun i => Config.opaqueByte (8 * n + i)) &&& ~~~mask)

/-- KIND of a task entry (R265). -/
def kindCode : TaskKind → Nat
  | .tile => 0
  | .forked => 1
  | .migration => 2
  | .resumed => 3

/-- The 128 bytes of a task entry (R265); what belongs to the scheduler is numbered from 16·n on. -/
def entryImage (n : Nat) (e : TaskEntry) : List Byte :=
  let t := e.task
  let ones (hi lo : Nat) : Word := BitVec.ofNat 64 ((2 ^ (hi + 1 - lo) - 1) * 2 ^ lo)
  let kind1 := e.kind = .forked
  let d (i : Nat) (mask : Word) (v : Nat) : Word := schedBits mask (16 * n + i) (BitVec.ofNat 64 v)
  wordBytes ([e.badPc.getD (e.pc.setWidth 64),
    d 1 (ones 31 16 ||| ones 3 0) (t.lid % 2 ^ 16 * 2 ^ 16 + kindCode e.kind * 4 + t.pri.toNat),
    d 2 (ones 47 0) (t.z.toNat * 2 ^ 32 + t.y.toNat * 2 ^ 16 + t.x.toNat),
    t.jctr.setWidth 64,
    d 4 (ones 23 17 ||| ones 13 8 ||| ones 1 0)
      (if kind1 then 0 else e.p.toNat / 2 * 2 ^ 17 + e.fs.toNat * 2 ^ 8 + e.rm.toNat),
    if e.kind = .resumed then e.crec else d 5 0 0, d 6 0 0, d 7 0 0] ++
    (upTo 8).map fun i => e.args.getD i 0)

/-- The images of entries that start at a place of a work area (R264, R265). -/
def entriesWrite (s : State) (g : Nat) (t : TenantNo) (lid off : Nat) (es : List TaskEntry) : State :=
  if es = [] then s else
  areaWrite { s with fresh := s.fresh + es.length } g t lid off
    ((es.zipIdx).flatMap fun e => entryImage (s.fresh + e.2) e.1)

/-- The deque of core g's binding is in its work area, the top record first (R264). -/
def dequeWrite (s : State) (g : Nat) (t : TenantNo) : State :=
  match s.bind g t with
  | some b => entriesWrite s g t b.lid (0x11000 + 128 * (b.deque.length - 1)) (b.deque.drop (b.deque.length - 1))
  | none => s

/-- The newest entry of the spill ring is in the work area (R264, R274). -/
def ringWrite (s : State) (g : Nat) (t : TenantNo) (n : Nat) : State :=
  match s.bind g t with
  | some b => entriesWrite s g t b.lid (0x17000 + 128 * (b.ring.length - n)) (b.ring.drop (b.ring.length - n))
  | none => s

/-! ### Forks -/

/-- The task of a child or continuation: the context's, with nothing taken yet. -/
def heirTask (c : Ctx) : Task := { c.task with taken := 0 }

/-- The deque limit of the running context's launch (R252). -/
def spawnLimit (s : State) : Nat :=
  match s.launch? s.c.task.lid with
  | some l => fld (l.dw 3) 24 17
  | none => 192

/-- FORK performed (R279): `src.w` holds the arguments. -/
def perfFork (pc : CodeAddr) (src : Src) (s : State) : Perf :=
  if spawnLimit s ≤ s.b.deque.length then .done (wrP s 7 false) else
  match objTrap .wr 1 src.ps s with
  | some t => .trap t
  | none =>
    if src.ps != [] && !objRoom s src.ps then .wait (objWait s src.ps) else
    let e : TaskEntry := { kind := .forked, pc := pc, task := heirTask s.c, ready := s.cycle, args := src.w }
    let s := countJoin s s.domain src.ps 1 1
    let s := dequeWrite (s.modB fun b => { b with deque := b.deque ++ [e] }) s.g.toNat s.t
    .done (wrP (countSent s s.g.toNat s.t s.c.task.lid 1) 7 true)

/-- FORK (R279). -/
def execFork (ct : Ctl) (a : GReg) (target : CodeAddr) (s : State) : Out' :=
  issue ct [] none (fun s =>
    if 56 < a.toNat then .trap (illopnd 0) else
    match checkTarget s (target.setWidth 64) with
    | .error t => .trap t
    | .ok pc =>
      match ownCounter s with
      | .error t => .trap t
      | .ok ps =>
        homeNow ct (.fork ct a target) (perfFork pc)
          { ps := ps, w := (upTo 8).map fun i => rdG s (a + BitVec.ofNat 7 i) } s) s

/-! ### The end of a context -/

/-- Unreported engine failures go to the launch (R183). -/
def passFailures (s : State) : State :=
  if s.c.failures = [] then s else
  s.modLaunch s.c.task.lid fun l => { l with failures := l.failures ++ s.c.failures }

/-- Core g holds a context, a task entry or a tile task of a launch. -/
def coreHas (s : State) (g : Nat) (t : TenantNo) (lid : Nat) : Bool :=
  (coreCtxs s g).any (fun c => c.task.lid == lid) || (s.core g).parked.any (fun p => p.ctx.task.lid == lid) ||
    ((s.core g).saved.any fun x => x.2.any fun y => y.2.task.lid == lid) ||
    match s.bind g t with
    | some b => b.lid == lid && (b.deque != [] || b.arrivals != [] || b.ring != [] || b.stolen != [] || decide (b.tileLo < b.tileHi))
    | none => false

/-- The last task of a launch on core g has retired: its pins are released (R119). -/
def lastTask (s : State) (g : Nat) (t : TenantNo) (lid : Nat) : State := if coreHas s g t lid then s else unpin s lid g

/-- The running context leaves for good and its slot is free: a passive point, its failures, and the mailbox entries
that nobody can take any more. -/
def dropContext (s : State) : State :=
  let s := passFailures (passive s)
  let tid := s.c.tid
  let now := s.cycle
  let k := s.k.toNat
  let lid := s.c.task.lid
  let t := s.t
  (fun s' : State => lastTask s' s.g.toNat t lid) <| (s.modCore s.g.toNat fun c => { c with mail := c.mail.filter fun m => m.dst != tid, ended := now + 1, freed := tset 0 c.freed k (now + 1) }).setCtx s.g s.k none

/-- The issue of an instruction that waits for every earlier outstanding instruction (R94): only then does it pop a queue
port. -/
def issueAlone (ct : Ctl) (uses : List PortUse) (body : State → Res) (s : State) : Out' :=
  if s.c.iss.outs = [] || (portTwice (uses.filter fun u => isPort s u.reg)).isSome then issue ct uses none body s
  else issue ct [] none .hold s

/-- The context ends by its own instruction. -/
def endContext (s : State) : State := (dropContext s).bump s.g.toNat 0x0002

/-- An instruction that ends its context or sends it away (R94): it waits for every earlier outstanding
instruction, makes its checks, releases, and goes on. -/
def ending (rel : Src → Option Scope) (prep : State → Except Trap Src) (k : Src → State → Res) (s : State) : Res :=
  if s.c.iss.outs ≠ [] then .hold s else releaseBody rel prep k s

/-- What a core's die does with ST and RC of a continuation record (R282): the low byte of dword 1. -/
def setRecord (s : State) (pa : Nat) (sc : Scope) (st rc : Nat) : State :=
  let old := (s.memAt (pa + 8)).toNat
  writeNow s (.core s.g) sc [(pa + 8, BitVec.ofNat 8 (old / 32 * 32 + rc * 16 + old / 4 % 4 * 4 + st))]

/-- The launch of the running context is marked as exiting: its continuation records in state 1 become state 3
(R287); a second EXIT finds the mark. -/
def markExit (s : State) : State :=
  match s.launch? s.c.task.lid with
  | none => s
  | some l =>
    if l.exiting then s else
    let mine (r : Registered) : Bool := r.lid == l.lid
    let s := (s.fl.conds.filter mine).foldl (fun s r => setRecord s r.pa r.scope 3 ((s.memAt (r.pa + 8)).toNat / 16 % 2)) s
    ({ s with fl := { s.fl with conds := s.fl.conds.filter fun r => !mine r } } : State).modLaunch l.lid fun l =>
      { l with exiting := true }

/-- ENDT and EXIT performed (R287): the context is gone. -/
def perfEnd (exit : Bool) (src : Src) (s : State) : Perf :=
  match objTrap .wr 1 src.ps s with
  | some t => .trap t
  | none =>
    if src.ps != [] && !objRoom s src.ps then .wait (objWait s src.ps) else
    let s := countJoin s s.domain src.ps (-1) 0
    .wait (dropContext (if exit then markExit s else s))

/-- The own part of ENDT and EXIT (R287). -/
def endTask (ct : Ctl) (exit : Bool) (s : State) : Res :=
  let sc := s.domain
  ending (fun _ => some sc) (fun s =>
    match ownCounter s with
    | .error t => .error t
    | .ok ps => .ok { ps := ps }) (fun src s =>
    match objTrap .wr 1 src.ps s with
    | some t => lateTrap ct (if exit then .exit ct else .endt ct) src t s
    | none =>
      if src.ps != [] && !objRoom s src.ps then .hold (objWait s src.ps) else
      let s := countJoin s sc src.ps (-1) 0
      .left (endContext (if exit then markExit s else s))) s

/-- ENDT (R287). -/
def execEndt (ct : Ctl) (s : State) : Out' := issue ct [] none (endTask ct false) s
/-- EXIT (R287). -/
def execExit (ct : Ctl) (s : State) : Out' := issue ct [] none (endTask ct true) s

/-! ### Continuations -/

/-- The registers that MASK names, in ascending index (R282). -/
def maskRegs (m : Word) : List Nat := (upTo 64).filter fun i => m.getLsbD i

/-- The bytes of a continuation record (R282). -/
def recordBytes (s : State) (pc : CodeAddr) (m : Word) (tln wait : Nat) (warg : Word) : List Byte :=
  let c := s.c
  let t := c.task
  let d1 := s.g.toNat * 2 ^ 28 + t.lid % 2 ^ 16 * 2 ^ 12 + t.pri.toNat * 4 + 1
  let d2 := t.z.toNat * 2 ^ 32 + t.y.toNat * 2 ^ 16 + t.x.toNat
  let d4 := c.regs.p.toNat / 2 * 2 ^ 17 + c.fpstat.toNat * 2 ^ 8 + c.fpctl.toNat
  let regs := (maskRegs m).flatMap fun i => bytesOf 8 (tget 0 c.regs.g i).toNat
  bytesOf 8 pc.toNat ++ bytesOf 8 d1 ++ bytesOf 8 d2 ++ bytesOf 8 t.jctr.toNat ++ bytesOf 8 d4 ++
    bytesOf 8 m.toNat ++ bytesOf 8 (tln * 4 + wait) ++ bytesOf 8 warg.toNat ++ regs ++
    bytesOf (8 * (24 - (maskRegs m).length)) 0

/-- The checks of a continuation record (R232, R283, R284). -/
def checkRecord (s : State) (va : Word) : Except Trap (List Piece) :=
  if va.toNat % 256 ≠ 0 then .error (alignTrap true va.toNat) else
  match check s s.g.toNat s.t .wr (va56 va) 256 with
  | .error t => .error t
  | .ok ps =>
    match noHost s .wr ps with
    | some t => .error t
    | none => .ok ps

/-- The task entry of a record's bytes (R265, R283). -/
def recordEntry (bs : List Byte) (va : Word) (lid : Nat) (sc : Scope) (now : Nat) : TaskEntry :=
  let d (i : Nat) : Word := dwordAt bs i
  let f (x : Word) (hi lo w : Nat) : BitVec w := BitVec.ofNat w (fld x hi lo)
  let task : Task := { lid := lid, x := f (d 2) 15 0 16, y := f (d 2) 31 16 16, z := f (d 2) 47 32 16
                       pri := f (d 1) 3 2 2, jctr := (d 3).setWidth 56, taken := 0 }
  { kind := .resumed, pc := (d 0).setWidth 56, task := task, p := BitVec.ofNat 8 (fld (d 4) 23 17 * 2)
    fs := f (d 4) 13 8 6, rm := f (d 4) 1 0 2, crec := va, args := [], ready := now, scope := sc
    badPc := if fld (d 0) 63 56 = 0 && retOk ((d 0).setWidth 56) then none else some (d 0) }

/-- A registered continuation is queued on its HOME's arrival queue: ST := 2 and RC (R283, R284). -/
def queueRecord (s : State) (r : Registered) (rc : Nat) : State :=
  let s := setRecord s r.pa r.scope 2 rc
  let e : TaskEntry := { recordEntry (s.memBytes r.pa 256) r.va r.lid r.scope s.cycle with pa := r.pa }
  { s with fl := { s.fl with
      arrivals := s.fl.arrivals ++ [⟨r.home, r.tenant, e⟩], conds := s.fl.conds.filter fun x => x.pa != r.pa } }

/-- A continuation whose condition holds is queued; the core that queues it counts it (R241, R283). -/
def queueIfMet (s : State) (r : Registered) : State :=
  if contHolds s r.kind then countSent (queueRecord s r 1) r.home.toNat r.tenant r.lid 1 else s

/-- The checks of a SUSPEND's condition at issue (R283): the pieces of the object that it waits on. -/
def checkCond (s : State) (c : SuspendCond) : Except Trap (List Piece) :=
  match c with
  | .plain => .ok []
  | .tl _ _ => .ok []
  | .bar o => checkObj s .rd (rdG s o)
  | .join o => checkCounter s .rd (rdG s o)

/-- WARG of a SUSPEND (R282): a job number, an object address, or 0. -/
def condArg (s : State) (c : SuspendCond) : Word :=
  match c with
  | .plain => 0
  | .tl j _ => rdG s j
  | .bar o => rdG s o
  | .join o => rdG s o

/-- The condition of a SUSPEND (R282, R283) with WARG and the object's pieces: its kind, TLN and WAIT. -/
def suspendKind (g : GCore) (c : SuspendCond) (warg : Word) (qs : List Piece) : CondKind × Nat × Nat :=
  let pa := (qs.headD ⟨0, 0, 0, 0⟩).pa
  match c with
  | .plain => (.plain, 0, 0)
  | .tl _ t => (.timeline g t warg, t.toNat, 1)
  | .bar _ => (.barrier pa, 0, 2)
  | .join _ => (.join pa, 0, 3)

/-- The use of a SUSPEND's D operand. -/
def suspendUses : SuspendCond → List PortUse
  | .plain => []
  | .tl j _ => [.src 3 j]
  | .bar o => [.src 3 o]
  | .join o => [.src 3 o]

/-- The number of registers that a MASK names. -/
def maskCount (x : Word) : Nat := (maskRegs x).length

/-- What a SUSPEND meets at the homes of its record and of its condition's object (R232). -/
def suspendTrap (src : Src) (s : State) : Option Trap :=
  ((spadDenied s .wr src.ps).or (if accIn s src.ps then some (illopnd 1) else none)).or (objTrap .rd 3 src.qs s)

/-- The record is written and its condition registered (R283), `src.w` holding the record's address, the mask, WARG
and the code address after the SUSPEND. -/
def suspendWrite (sc : Scope) (cond : SuspendCond) (tmo : BitVec 28) (src : Src) (s : State) : State × Registered :=
  let (kind, tln, wait) := suspendKind s.g cond (src.w.getD 2 0) src.qs
  let pa := (src.ps.headD ⟨0, 0, 0, 0⟩).pa
  let n := if tmo = 0 then 2 ^ 28 else tmo.toNat
  let r : Registered := ⟨pa, src.w.headD 0, s.t, s.c.task.lid, s.g, kind, src.job + n, sc, false⟩
  let s := objWrite s sc src.ps 0
    (recordBytes s ((src.w.getD 3 0).setWidth 56) (src.w.getD 1 0) tln wait (src.w.getD 2 0))
  ({ s with fl := { s.fl with conds := s.fl.conds.filter (fun x => x.pa != pa) ++ [r] } }, r)

/-- SUSPEND performed (R283): the context is gone. -/
def perfSuspend (cond : SuspendCond) (tmo : BitVec 28) (src : Src) (s : State) : Perf :=
  match suspendTrap src s with
  | some t => .trap t
  | none =>
    if !objRoom s src.ps then .wait (objWait s src.ps) else
    let (s, r) := suspendWrite s.domain cond tmo src s
    .wait (queueIfMet (dropContext s) r)

/-- The own part of SUSPEND (R283). -/
def suspendBody (ct : Ctl) (b c : GReg) (cond : SuspendCond) (tmo : BitVec 28) (s : State) : Res :=
  let mask := rdG s c &&& ~~~(1 : Word)
  let sc := s.domain
  ending (fun _ => some sc) (fun s =>
    if 16 < maskCount mask then .error (illopnd 2) else
    match checkRecord s (rdG s b) with
    | .error t => .error t
    | .ok ps =>
      match checkCond s cond with
      | .error t => .error t
      | .ok qs =>
        .ok { ps := ps, qs := qs, w := [rdG s b, mask, condArg s cond, (nextPc s.c.pc).setWidth 64], job := s.cycle }) (fun src s =>
    match suspendTrap src s with
    | some t => lateTrap ct (.suspend ct b c cond tmo) src t s
    | none =>
      if !objRoom s src.ps then .hold (objWait s src.ps) else
      let (s, r) := suspendWrite sc cond tmo src s
      .left (queueIfMet (endContext s) r)) s

/-- SUSPEND (R283). -/
def execSuspend (ct : Ctl) (b c : GReg) (cond : SuspendCond) (tmo : BitVec 28) (s : State) : Out' :=
  issueAlone ct ([.src 1 b, .src 2 c] ++ suspendUses cond) (suspendBody ct b c cond tmo) s

/-- RESUME performed (R284): `src.w` holds the record's address. -/
def perfResume (p : PReg) (src : Src) (s : State) : Perf :=
  match objTrap .wr 1 src.ps s with
  | some t => .trap t
  | none =>
    let s := recallLines s src.ps
    let d := dwordAt (objBytes s src.ps) 1
    if fld d 1 0 = 1 && fld d 27 12 == s.c.task.lid % 2 ^ 16 then
      if !objRoom s src.ps then .wait (objWait s src.ps) else
      let r : Registered := ⟨(src.ps.headD ⟨0, 0, 0, 0⟩).pa, src.w.headD 0, s.t, s.c.task.lid, d.extractLsb' 28 12, .plain, 0,
        s.domain, false⟩
      .done (wrP (countSent (queueRecord s r 1) s.g.toNat s.t s.c.task.lid 1) p true)
    else .done (wrP s p false)

/-- RESUME (R284). -/
def execResume (ct : Ctl) (p : PReg) (b : GReg) (s : State) : Out' :=
  issue ct [.src 1 b] none (fun s =>
    match checkRecord s (rdG s b) with
    | .error t => .trap t
    | .ok ps => homeNow ct (.resume ct p b) (perfResume p) { ps := ps, w := [rdG s b] } s) s

/-! ### Migration -/

/-- The owner of a physical address (R285). -/
def ownerOf (s : State) (pa : Nat) : Option Nat :=
  let core (d : Nat) : Option Nat := some (d * 512 + sliceOf pa / 4 * 8 + Nat.xor (pa / 128 % 8) (pa / 1024 % 8))
  match placeOf s.part pa with
  | .spad g => some g
  | .smem g _ => some g
  | .dram d => core d
  | .view d => core d
  | _ => none

/-- Whether core o belongs to the running context's launch (R254). -/
def ownsLaunch (s : State) (o : Nat) : Bool :=
  match s.bind o s.t with
  | some b => b.lid == s.c.task.lid
  | none => false

/-- The own part of MIGRATE (R286): `src.job` is the owner. -/
def migrateBody (b : GReg) (m : AddrOp) (s : State) : Res :=
  let g := s.g.toNat
  ending (fun src => some (pairScope g src.job)) (fun s =>
    let va := addrG s b m
    match pieceOf s g s.t .none (va, 1) with
    | .error t => .error t
    | .ok q =>
      match ownerOf s q.pa with
      | none => .error (tileProt .none va)
      | some o => if ownsLaunch s o then .ok { job := o } else .error (tileProt .none va)) (fun src s =>
    let c := s.c
    let e : TaskEntry := { kind := .migration, pc := nextPc c.pc, task := heirTask c, p := c.regs.p, fs := c.fpstat
                           rm := c.fpctl, args := (upTo 8).map fun i => tget 0 c.regs.g (i + 1), ready := s.cycle
                           scope := pairScope g src.job }
    let s : State := { s with fl := { s.fl with arrivals := s.fl.arrivals ++ [⟨BitVec.ofNat 12 src.job, s.t, e⟩] } }
    .left (endContext (countSent s g s.t c.task.lid 1))) s

/-- MIGRATE (R286). -/
def execMigrate (ct : Ctl) (b : GReg) (m : AddrOp) (s : State) : Out' :=
  issueAlone ct [.src 1 b, .src 2 m.index] (migrateBody b m) s

/-! ### Priorities, yielding, lending -/

/-- A priority after aging (R271). -/
def agedPri (s : State) (pri : BitVec 2) (ready : Nat) : Nat := min 3 (pri.toNat + (s.cycle - ready) / 2 ^ 20)

/-- A parked context is a candidate: a wake has re-queued it or its deadline has passed (R221, R275). -/
def parkedReady (s : State) (p : Parked) : Bool :=
  p.yielded || p.queued || p.ctx.waits = [] || p.ctx.waits.any fun w => decide (w.deadline ≤ s.cycle)

/-- The cc from which a parked context is ready (R271). -/
def readySince (p : Parked) : Nat :=
  if p.yielded || p.queued then p.ready else
  match p.ctx.waits with
  | w :: ws => ws.foldl (fun m x => min m x.deadline) w.deadline
  | [] => p.ready

/-- The priority of tile tasks of a binding's launch. -/
def tilePri (s : State) (b : Bind) : BitVec 2 :=
  match s.launch? b.lid with
  | some l => (l.dw 3).extractLsb' 0 2
  | none => 0

/-- The priorities of the candidates of sources 1 to 4, and of a stolen one, on core g for tenant t (R268). -/
def readyPris (s : State) (g : Nat) (t : TenantNo) : List Nat :=
  let es (l : List TaskEntry) : List Nat := l.map fun e => agedPri s e.task.pri e.ready
  (((s.core g).parked.filter fun p => p.ctx.tenant == t && parkedReady s p).map fun p =>
    agedPri s p.ctx.task.pri (readySince p)) ++
  match s.bind g t with
  | none => []
  | some b => es b.ring ++ es b.arrivals ++ es b.deque ++ es b.stolen ++
      if b.tileLo < b.tileHi then [agedPri s (tilePri s b) b.since] else []

/-- The lowest free park slot in a launch's work area of core g (R264, R275). -/
def freePark (s : State) (g lid : Nat) : Option Nat :=
  (upTo 16).find? fun i => !(s.core g).parked.any fun p => p.slot == i && p.ctx.task.lid == lid

/-- The running context as parking and saving take it: pushed stores performed, read-ahead discarded, its
special-function requests out of the unit (R305, R321). -/
def toSaved (s : State) : State :=
  (recallSfu (flushStreams s) s.g s.k).modC fun c =>
    { c with streams := c.streams.map fun e => (e.1, e.2.saved) }

/-- The running context moves to a park slot of its launch's work area and frees its own (R264, R275, R288); where
the slot cannot be written, the launch is stopped. -/
def parkIn (s : State) (slot : Nat) (yielded : Bool) : State :=
  let va := (workArea s s.c.task.lid s.g.toNat + 0x1000 * slot) % 2 ^ 56
  match check s s.g.toNat s.t .wr va 4096 with
  | .error _ => stopLaunch s s.c.task.lid (BitVec.ofNat 64 va)
  | .ok ps =>
    let s := saveRecord s (.engine s.g) (keyZero ps) s.c
    let p : Parked := ⟨slot, s.c, yielded, false, s.cycle⟩
    let f := s.cycle + 1
    (s.modCore s.g.toNat fun c => { c with parked := c.parked ++ [p], freed := tset 0 c.freed s.k.toNat f }).setCtx s.g s.k none

/-- SETPRI (R288). -/
def execSetpri (ct : Ctl) (b : GReg) (s : State) : Out' :=
  issue ct [.src 1 b] none (fun s =>
    if 3 < (rdG s b).toNat then .trap (illopnd 1)
    else
      let v : BitVec 2 := (rdG s b).setWidth 2
      .ok (s.modC fun c => { c with task := { c.task with pri := v } })) s

/-- YIELD (R288). -/
def execYield (ct : Ctl) (p : PReg) (s : State) : Out' :=
  issue ct [] none (fun s =>
    match freePark s s.g.toNat s.c.task.lid with
    | some i =>
      if (readyPris s s.g.toNat s.t).any (fun r => decide (s.c.task.pri.toNat ≤ r)) then
        .left (parkIn (retire ct none (wrP (toSaved s) p true)) i true)
      else .ok (wrP s p false)
    | none => .ok (wrP s p false)) s

/-- LEND (R288). -/
def execLend (ct : Ctl) (n : BitVec 8) (s : State) : Out' :=
  issue ct [] none (fun s =>
    .ok (s.modC fun c => { c with iss := { c.iss with lend := if n = 0 then 256 else n.toNat } })) s

/-! ### Queue lengths -/

/-- DQLEN (R289, R291). -/
def execDqlen (ct : Ctl) (a : GReg) (s : State) : Out' :=
  issue ct [.dst 0 a] none (fun s =>
    .ok (wrG s a (BitVec.ofNat 64 (s.c.task.pri.toNat * 2 ^ 40 + s.b.ring.length * 2 ^ 24 +
      s.b.arrivals.length * 2 ^ 16 + s.b.deque.length)))) s

/-- AQSPILL (R289). -/
def execAqspill (ct : Ctl) (clr : Bool) (a : GReg) (s : State) : Out' :=
  issue ct [.dst 0 a] none (fun s =>
    .ok ((if clr then s.modB fun b => { b with spill := 0 } else s) |> fun s' => wrG s' a s.b.spill)) s

end Sys2Proof.Machine
end

