-- ==== Sys2Proof/Machine/Long.lean ====
section
/-! DEFINITION. Outstanding instructions after issue (R92–R94): what each performs, in which order, the events that
perform them, and the replay of withdrawn operations (R423) with RETT (R427) and CTXLOAD (R432). -/

namespace Sys2Proof.Machine

/-! ### What an outstanding instruction performs -/

/-- The event that performs an instruction: a reserved turn of a remote scratchpad, the count of an STC at its
object, the collection of a QWAVE, or none of these. -/
structure How where
  rem : Bool := false
  count : Bool := false
  collect : Bool := false
  deriving DecidableEq, Repr

/-- The performance of an outstanding instruction from the sources that it read at issue. Messages, pushed commands,
special functions and rope instructions are performed by events of their own. -/
def performLong (h : How) (i : Instr) (src : Src) (s : State) : Perf :=
  match i with
  | .ld ct sz sgn a _ _ => perfLd h.rem ct sz sgn a src s
  | .st ct sz _ _ _ => perfSt h.rem ct sz src s
  | .ldq ct a d _ _ => perfLdq h.rem ct a d src s
  | .stq ct _ _ _ _ => perfStq h.rem ct src s
  | .ldv ct a d _ _ => perfLdv h.rem ct a d src s
  | .stv ct a d _ _ => perfStv h.rem ct a d src s
  | .ldvx ct wd a _ _ _ _ _ => perfLdvx h.rem ct wd a src s
  | .stvx ct wd _ _ _ _ _ _ => perfStvx h.rem ct wd src s
  | .ldf _ a _ _ p _ => perfLdf h.rem a p src s
  | .ldfe _ a _ _ p _ => perfLdfe h.rem a p src s
  | .stf .. => perfStf h.rem src s
  | .stef _ _ _ _ p _ => perfStef h.rem p src s
  | .sete _ p _ _ => perfSete h.rem p src s
  | .wbl .. => perfWbl src s
  | .zline ct _ _ => perfZline h.rem ct src s
  | .rgnq _ a _ _ => perfRgnq a src s
  | .ldnow _ acq sz sc a _ _ d => perfLdnow h.rem acq sz sc a d src s
  | .stnow _ _ sz sc _ _ _ _ => perfStnow h.rem sz sc src s
  | .amo _ ar op sc a _ _ _ => rmwPerf h.rem (rmwAmo ar op sc a src) src s
  | .amoi _ ar op sc a _ _ _ => rmwPerf h.rem (rmwAmo ar op sc a src) src s
  | .cas _ ar dw sc a _ _ _ p => rmwPerf h.rem (rmwCas ar dw sc a p src) src s
  | .casq _ ar sc a _ _ _ p => rmwPerf h.rem (rmwCasq ar sc a p src) src s
  | .red _ _ op sc _ _ _ => perfRed h.rem op sc src s
  | .redv _ _ op sc a d _ _ _ => perfRedv h.rem op sc a d src s
  | .acinit _ _ op fmt sc _ _ => perfAcinit op fmt sc src s
  | .acread _ rd _ _ => perfAcread h.rem rd src s
  | .acchain _ p _ _ _ => perfAcchain p src s
  | .acflush _ fin _ _ => perfAcflush h.rem fin src s
  | .acckpt .. => perfAcckpt h.rem src s
  | .acrstr .. => perfAcrstr src s
  | .recvp _ acq dst b p => perfRecvp acq dst b p src s
  | .waitfe _ empty p _ _ _ => perfWaitfe h.rem empty p src s
  | .waitb _ acq p _ _ => perfWaitbar acq p none src s
  | .waitc _ acq p _ _ _ => perfWaitbar acq p (src.w.head?.map BitVec.toNat) src s
  | .binit _ sc _ _ _ => perfBinit h.rem sc src s
  | .barr _ rel a _ _ => perfBarr h.rem rel a src s
  | .stc _ sz sc _ _ _ _ _ => perfStc h.rem h.count sz sc src s
  | .bread _ a _ i => perfBread h.rem a i src s
  | .qwave _ a _ => perfQwave h.rem h.collect a src s
  | .qreset .. => perfQreset h.rem src s
  | .launch _ a _ => perfLaunch h.rem a src s
  | .jinit .. => perfJinit src s
  | .join _ p _ _ => perfJoin p src s
  | .fork _ _ target => perfFork target src s
  | .endt .. => perfEnd false src s
  | .exit .. => perfEnd true src s
  | .suspend _ _ _ cond tmo => perfSuspend cond tmo src s
  | .resume _ p _ => perfResume p src s
  | .scfg _ wr size a _ => perfScfg h.rem wr size a src s
  | .mtags _ a _ => perfMtags h.rem a src s
  | .mcancel _ a _ => perfMcancel a src s
  | .mqstat _ a => perfMqstat a s
  | .smcancel _ a _ => perfSmcancel a src s
  | .treedef _ _ id => perfTreedef h.rem id src s
  | .engq _ e a => perfEngq e a s
  | .llrcl .. => perfLlrcl h.rem src s
  | .call .. => perfCall h.rem src s
  | .callr .. => perfCall h.rem src s
  | .ret .. => perfRet h.rem src s
  | _ => .wait s

/-- A message on its way. -/
def isSend : Instr → Bool
  | .send .. | .sendv .. => true
  | _ => false

/-- The performance of a withdrawn operation: as performLong does it, and a rope instruction at its unit. -/
def performAgain (i : Instr) (src : Src) (s : State) : Perf :=
  if isRope i then perfRope i src s else performLong {} i src s

/-! ### Order -/

/-- Outstanding instruction o of a thread, in slot k or parked, may be performed now (R115, R168, R170). -/
def mayPerform (s : State) (g : GCore) (k : Slot) (o : Out) : Bool :=
  !((s.outsBy g k o.id).takeWhile fun x => x.id != o.id).any fun x => goesFirst (s.asWho g k) x o.i o.src

/-- Outstanding instruction o has begun a wait, and its context is parked: it is evaluated again once the context is back in
a slot (R221, R222). -/
def waitsParked (s : State) (g : GCore) (k : Slot) (o : Out) : Bool :=
  o.wait.isSome && !((s.ctx g k).any fun c => c.iss.outs.any fun x => x.id == o.id)

/-- Outstanding instruction o of a slot, or of a parked context, is performed, as far as it can be (R92). -/
def performOut (h : How) (s : State) (g : GCore) (k : Slot) (o : Out) : State :=
  if waitsParked s g k o then s else
  if o.port.pushing || mayPerform s g k o then runOut s g k o (performLong h o.i o.src) else s

/-- LONG_LATENCY_COMPLETE (R92): outstanding instruction j of a slot is performed and completes, or meets its trap. -/
def execLongLatencyComplete (g : GCore) (k : Slot) (j : Nat) (s : State) : Out' :=
  match s.outOf g k j with
  | none => .next s
  | some o => .next (performOut {} s g k o)

/-- DEFERRED_TRAP_DETECT (R94): the same event for an instruction whose performance meets a trap. -/
def execDeferredTrapDetect (g : GCore) (k : Slot) (j : Nat) (s : State) : Out' :=
  match s.outOf g k j with
  | none => .next s
  | some o =>
    let t := performOut {} s g k o
    .next (if (t.outsBy g k j).any fun x => x.id == j && x.trap.isSome then t else s)

/-- The outstanding instructions of the module of one sort, without a trap. -/
def outsOf (s : State) (p : Instr → Bool) : List (GCore × Slot × Out) :=
  (allOuts s).filter fun e => p e.2.2.i && e.2.2.trap.isNone

/-- Outstanding instruction n of the module of one sort is performed. -/
def performNth (h : How) (p : Instr → Bool) (n : Nat) (s : State) : State :=
  match (outsOf s p)[n]? with
  | none => s
  | some (g, k, o) => performOut h s g k o

/-- REDUCTION_APPLY (R83, R168, R198): reduction n of those outstanding is applied where it is performed. -/
def execReductionApply (n : Nat) (s : State) : Out' := .next (performNth {} isRed n s)

/-- STC_COUNT (R236): STC n of those outstanding makes its count at the object. -/
def execStcCount (n : Nat) (s : State) : Out' :=
  .next (performNth { count := true } (fun i => match i with | .stc .. => true | _ => false) n s)

/-- QWAVE_COLLECT (R243): QWAVE n of those outstanding reads one more core's counters, or ends. -/
def execQwaveCollect (n : Nat) (s : State) : Out' :=
  .next (performNth { collect := true } (fun i => match i with | .qwave .. => true | _ => false) n s)

/-! ### The reserved turn of a scratchpad -/

/-- A piece lies in the scratchpad or the data memories of core g. -/
def atCore (s : State) (g : GCore) (p : Piece) : Bool :=
  match placeOf s.part p.pa with
  | .spad h => h == g.toNat
  | .smem h _ => h == g.toNat
  | _ => false

/-- The size of the accesses that an instruction's performance makes part by part (R126, R127); 0 of the others. -/
def partSize : Instr → Nat
  | .ld _ sz .. => sizeBytes sz
  | .st _ sz .. => sizeBytes sz
  | .ldq .. | .stq .. => 16
  | .ldv _ a d _ _ => vecBytes a d
  | .stv _ a d _ _ => vecBytes a d
  | .ldvx _ wd .. => gwidth wd
  | .stvx _ wd .. => gwidth wd
  | .call .. | .callr .. | .ret .. | .mtags .. | .treedef .. => 8
  | .scfg .. => 64
  | _ => 0

/-- The pieces that an outstanding instruction accesses next: a part, the data or then the object of an STC, or all; none
while it waits for another event. -/
def nextPieces (s : State) (o : Out) : List Piece :=
  match o.i with
  | .stc .. => if o.src.job = 0 then o.src.ps else o.src.qs
  | .qwave .. => if o.src.job = 0 || (waveCore s (o.src.job - 1)).isNone then o.src.ps else []
  | i => if partSize i = 0 then o.src.ps ++ o.src.qs
      else if o.src.bs.isSome then [] else (splitNow (partSize i) o.src).1

/-- The banks of core g's memories that pieces lie in (R115). -/
def banksOf (s : State) (g : GCore) (ps : List Piece) : List Nat :=
  ((ps.filter (atCore s g)).flatMap fun p => (upTo ((p.pa + p.n - 1) / 8 + 1 - p.pa / 8)).map fun i => (p.pa / 8 + i) % 16).eraseDups

/-- A waiting form that has registered at its word is to evaluate its condition again: an arrival has re-inserted its
context, or its deadline has come (R219, R221). -/
def feDue (s : State) (o : Out) : Bool :=
  match o.wait with
  | some w => w.woken || decide (w.deadline ≤ s.cycle)
  | none => true

/-- The outstanding instructions of other cores whose next access waits for core g's reserved turn: each with its
thread. -/
def remoteOuts (s : State) (g : GCore) : List (GCore × Slot × Out) :=
  (allOuts s).filter fun e => e.1 != g && e.2.2.trap.isNone && !e.2.2.port.pushing && feDue s e.2.2 &&
    !waitsParked s e.1 e.2.1 e.2.2 &&
    (nextPieces s e.2.2).any (atCore s g)

/-- A waiting form that has evaluated its condition at the scratchpad in vain waits: it registers there, with the deadline
of R221, and its context leaves the rotation (R137, R219). -/
def registerFe (s : State) (g : GCore) (k : Slot) (id : Nat) : State :=
  match s.outOf g k id with
  | none => s
  | some o =>
    match feKind o.i with
    | none => s
    | some (full, take) =>
      let kind : WaitKind := .word (o.src.ps.headD ⟨0, 0, 0, 0⟩).pa full take
      let wait : Wait := match o.wait with
        | some w => { w with kind := kind, woken := false }
        | none => ⟨kind, o.src.job - o.src.tmo, o.src.job, false, s.nextId⟩
      let w (x : Out) : Out := if x.id = id then { x with wait := some wait, src := { x.src with k := BitVec.ofNat 64 wait.reg } } else x
      seated ({ s with nextId := s.nextId + 1 } : State) g k id fun s =>
        s.modCtx g k fun c => { c with iss := { c.iss with outs := c.iss.outs.map w } }

/-- One thread's remote access is served, part after part, while the banks of its next part are free: the banks that are
used then (R115, R126). -/
def serveParts (fuel : Nat) (g : GCore) (h : GCore) (k : Slot) (id : Nat) (used : List Nat) (s : State) : List Nat × State :=
  match fuel with
  | 0 => (used, s)
  | f + 1 =>
    match s.outOf h k id with
    | none => (used, s)
    | some o =>
      let bs := banksOf s g (nextPieces s o)
      if bs = [] || bs.any used.contains || !mayPerform s h k o then (used, s)
      else
        let t := performOut { rem := true } s h k o
        match t.outOf h k id with
        | none => (bs ++ used, t)
        | some o' => if o'.src = o.src then (bs ++ used, registerFe t h k id) else serveParts f g h k id (bs ++ used) t

/-- The waiting accesses of a list, in its order, one per bank: an access of a thread comes after the thread's earlier ones
(R115). -/
def serveRemote (g : GCore) (used : List Nat) (held : List (GCore × Slot)) (s : State) : List (GCore × Slot × Out) → State
  | [] => s
  | (h, k, o) :: r =>
    if held.contains (h, k) then serveRemote g used held s r
    else
      let (used', s') := serveParts 128 g h k o.id used s
      let stays := match s'.outOf h k o.id with
        | some x => (nextPieces s' x).any (atCore s' g) && x.wait.isNone
        | none => false
      serveRemote g used' (if stays then (h, k) :: held else held) s' r

/-- The threads of a list of accesses, in the order in which they first stand there. -/
def threadsOf (l : List (GCore × Slot × Out)) : List (GCore × Slot) := (l.map fun e => (e.1, e.2.1)).eraseDups

/-- A list that starts at its element i, going round. -/
def rotateAt (l : List α) (i : Nat) : List α := l.drop i ++ l.take i

/-- Numbers in ascending order, each once. -/
def sortedOnce : List Nat → List Nat
  | [] => []
  | n :: l => let r := sortedOnce l; (r.filter fun m => decide (m < n)) ++ n :: r.filter fun m => decide (n < m)

/-- REMOTE_SPAD_TURN (R115, R137): the next reserved turn of core g's scratchpad, after slot 0's turn of its cc: one
waiting access per bank, the registered waiters first in their order; which of the others arrived first is free. -/
def execRemoteSpadTurn (g : GCore) (s : State) : Out' :=
  let at0 := max s.cycle (s.core g.toNat).reserved
  let cc := (at0 + 63) / 64 * 64
  let s := (advance s (cc - s.cycle)).modCore g.toNat fun c => { c with reserved := cc + 1 }
  let l := remoteOuts s g
  let waiting := l.filter fun e => e.2.2.wait.isSome
  let sorted := (sortedOnce (waiting.map fun e => e.2.2.src.k.toNat)).flatMap fun r => waiting.filter fun e => e.2.2.src.k.toNat == r
  let new := l.filter fun e => e.2.2.wait.isNone
  let ts := threadsOf new
  let first := Config.arrival s.fresh ts.length % (max ts.length 1)
  .next (serveRemote g [] [] ({ s with fresh := s.fresh + 1 } : State)
    (sorted ++ (rotateAt ts first).flatMap fun t => new.filter fun e => (e.1, e.2.1) == t))

/-! ### Replay -/

/-- The access kinds of the pieces of a long-latency instruction. -/
def accOf : Instr → Acc × Acc
  | .st .. | .stq .. | .stv .. | .stvx .. | .ldfe .. | .stf .. | .stef .. | .sete .. | .zline .. | .stnow .. | .amo ..
  | .amoi .. | .cas .. | .casq .. | .red .. | .redv .. | .acinit .. | .acchain .. | .acflush .. | .binit .. | .barr ..
  | .stc .. | .qwave .. | .qreset .. | .acckpt .. | .llrcl .. | .rpub .. | .call .. | .callr .. => (.wr, .wr)
  | .jinit .. | .fork .. | .endt .. | .exit .. | .resume .. => (.wr, .wr)
  | .acrstr .. | .suspend .. => (.wr, .rd)
  | .acread _ rd _ _ => if acreadClr rd then (.wr, .wr) else (.rd, .rd)
  | _ => (.rd, .rd)

/-- Operations with a timeout, which starts anew when they are issued again. -/
def isTimed : Instr → Bool
  | .ldf .. | .ldfe .. | .stef .. | .waitfe .. | .waitb .. | .waitc .. | .acchain .. | .join .. | .suspend .. => true
  | _ => false

/-- The release of an operation before its access (R169). -/
def relAgain (s : State) (i : Instr) (src : Src) : Option Scope :=
  match i with
  | .stnow _ rel _ sc .. => relScope rel sc src
  | .amo _ ar _ sc .. => relScope ar sc src
  | .amoi _ ar _ sc .. => relScope ar sc src
  | .cas _ ar _ sc .. => relScope ar sc src
  | .casq _ ar sc .. => relScope ar sc src
  | .red _ rel _ sc .. => relScope rel sc src
  | .redv _ rel _ sc .. => relScope rel sc src
  | .barr _ rel .. => if rel && src.job ≠ 0 then some (scopeOfNat src.job) else none
  | .rpub _ sc .. => if handleRootOk s (src.w.getD 1 0) then some sc else none
  | .launch .. => some .module
  | .endt .. | .exit .. | .suspend .. => some s.domain
  | _ => none

/-- The running thread's release, as its withdrawn operation is issued again; none where the lees stores have no
room for it yet (R169, R175). -/
def releaseAgain (s : State) (sc : Option Scope) : Option State :=
  match sc with
  | none => some s
  | some sc =>
    let s := flushStreams s
    let ws := pubCells s s.g.toNat sc
    if leesRoom s ws && !s.coh.waiting.any (fun p => p.g == s.g) then some (publish s s.g sc ws) else none

/-- The pieces of an operation that is issued again, translated and checked anew (R123, R423). -/
def checkAgain (s : State) (i : Instr) (src : Src) : Except Trap Src :=
  let runs (l : List Piece) : List (Nat × Nat) := l.map fun p => (p.va, p.n)
  match checkRuns s s.g.toNat s.t (accOf i).1 (runs src.ps) with
  | .error t => .error t
  | .ok ps =>
    match checkRuns s s.g.toNat s.t (accOf i).2 (runs src.qs) with
    | .error t => .error t
    | .ok qs =>
      let job := match i with
        | .barr .. => barrScope s ps
        | _ => if isTimed i then s.cycle + src.tmo else src.job
      let redo := match i with
        | .ldnow .. => true
        | _ => partSize i != 0
      .ok { src with
        ps := ps, qs := qs, job := job, k := if (feKind i).isSome then 0 else src.k
        got := if redo then [] else src.got, sent := if redo then 0 else src.sent }

/-- A withdrawn operation as it is issued again: outstanding, with no instruction allowed past it (R423). -/
def Out.fresh (o : Out) : Out := { o with left := 0, trap := none, wait := none }

/-- CTXLOAD at the home of its record (R432): the running context takes the record, once its pushed stores are performed
(R303). -/
def loadNow (ps : List Piece) (s : State) : Except Trap State :=
  match (spadDenied s .rd ps).or (lostIn s ps) with
  | some t => .error t
  | none =>
    let s := recallLines (flushStreams s) ps
    let bs := homeBytes s s.t ps
    if !recordOk s.t bs then .error (illopnd 1)
    else
      let s := ({ s with nextId := s.nextId + 1 } : State).modC fun c =>
        loadContext bs (findOpaque (recordFree bs) s.opaques) s.cycle s.nextId c
      .ok (if bit (dwordAt bs 0) 1 then haltCtx s s.g s.k s.c.trap.code else s)

/-- CTXLOAD, whose operation replaces the context. -/
def isCtxload : Instr → Bool
  | .ctxload .. => true
  | _ => false

/-- A withdrawn operation that traps again is delivered precisely, and it and those after it stay withdrawn (R423). -/
def withdrawAgain (g : GCore) (k : Slot) (o : Out) (ws : List Out) (t : Trap) (s : State) : State :=
  let bad : Out := { o.fresh with trap := some t }
  settle (s.modCtx g k fun c => { c with withdrawn := ws, iss := { c.iss with outs := [bad] } }) g k

/-- The next withdrawn operation of a slot is issued again, which releases before it, and is performed as far as it
can be (R423); one whose own part is done goes on with its pushes. -/
def replayOp (s : State) (g : GCore) (k : Slot) (o : Out) (ws : List Out) : State :=
  asSlot s g k fun s =>
    match if o.port.pushing then .ok o.src else checkAgain s o.i o.src with
    | .error t => withdrawAgain g k o ws t s
    | .ok src =>
      if isCtxload o.i then
        match loadNow src.ps s with
        | .error t => withdrawAgain g k { o with src := src } ws t s
        | .ok s => s
      else
      match releaseAgain s (if o.port.pushing then none else relAgain s o.i src) with
      | none => s
      | some s =>
        let o' : Out := { o.fresh with src := src }
        let s := s.modCtx g k fun c => { c with withdrawn := ws, iss := { c.iss with outs := [o'] } }
        settle (runOut s g k o' (performAgain o'.i src)) g k

/-- A cancelled request re-enters the queue for a slot (R321). -/
def reenter (s : State) (g : GCore) (k : Slot) (r : SfuReq) : State := sfuPush s { r with g := g, k := k }

/-- Requests that CTXSAVE, parking or pre-emption took from the unit re-enter its queue while there is room (R321). -/
def reenterAgain (g : GCore) (k : Slot) : List SfuReq → State → State
  | [], s => s
  | r :: rs, s => if sfuFull s g.toNat then s else
      reenterAgain g k rs (reenter (s.modCtx g k fun c => { c with again := rs }) g k r)

/-- The requests that trap entry cancelled re-enter the queue, with their instructions outstanding again. -/
def reenterCancelled (g : GCore) (k : Slot) : List SfuReq → State → State
  | [], s => s.modCtx g k fun c => { c with replay := false }
  | r :: rs, s => if sfuFull s g.toNat then s else
      let back (o : Out) : Bool := r.last && o.id == r.out
      reenterCancelled g k rs (reenter (s.modCtx g k fun c => { c with
        cancelled := rs, cancelOuts := c.cancelOuts.filter fun o => !back o
        iss := { c.iss with outs := c.iss.outs ++ c.cancelOuts.filter back } }) g k r)

/-- What is to be done before a context's next instruction (R321, R423): the withdrawn operations in order, each
performed before the next, then the cancelled requests; what has to wait goes on at a later idle turn. -/
def continueReplay (fuel : Nat) (g : GCore) (k : Slot) (s : State) : State :=
  match fuel with
  | 0 => s
  | f + 1 =>
    match s.ctx g k with
    | none => s
    | some c =>
      if c.halted then s
      else if c.again != [] then
        let s' := reenterAgain g k c.again s
        if ((s'.ctx g k).map (·.again)) == some [] && c.replay then continueReplay f g k s' else s'
      else if !c.replay || c.iss.entry.isSome || c.iss.outs != [] then s
      else
        if c.kept ≠ 0 && c.withdrawn.length ≤ c.kept then
          s.modCtx g k fun c => { c with replay := false, kept := 0 }
        else
        match c.withdrawn with
        | o :: ws => continueReplay f g k (replayOp s g k o ws)
        | [] => reenterCancelled g k c.cancelled s

/-- The fuel that continueReplay needs for a context. -/
def replayFuel (c : Ctx) : Nat := c.withdrawn.length + 3

/-! ### RETT and CTXLOAD -/

/-- RETT (R427): user mode, TRES, and the withdrawn operations and requests to be performed. -/
def execRett (ct : Ctl) (s : State) : Out' :=
  issue ct [] (privIn s true) (fun s =>
    match checkReturn (s.c.trap.tres.setWidth 64) with
    | .error t => .trap t
    | .ok pc =>
      let s := retire ct (some pc) s
      let s := s.modC fun c => { c with
        trap := { c.trap with mode := false }
        iss := { c.iss with rep := c.savedRep }
        savedRep := {}
        replay := c.withdrawn != [] || c.cancelled != [] }
      .left (continueReplay (replayFuel s.c) s.g s.k s)) s

/-- CTXLOAD (R432): the record is read at its home; the context takes it and performs what it had withdrawn. -/
def execCtxload (ct : Ctl) (b : GReg) (s : State) : Out' :=
  issue ct [.src 1 b] (privIn s true) (fun s =>
    let va := rdG s b
    if va.toNat % 4096 ≠ 0 then .trap (alignTrap false va.toNat)
    else
      match check s s.g.toNat s.t .rd (va56 va) 4096 with
      | .error t => .trap t
      | .ok ps =>
        if s.c.iss.outs ≠ [] then .hold s else
        match loadNow ps s with
        | .error t => if t.code = 0x08 then lateTrap ct (.ctxload ct b) { ps := ps } t s else .trap t
        | .ok s =>
          let s := s.bump s.g.toNat 0x0002
          .left (if s.c.iss.entry.isSome then settle s s.g s.k else continueReplay (replayFuel s.c) s.g s.k s)) s

end Sys2Proof.Machine
end

