-- ==== Sys2Proof/Machine/Slots.lean ====
section
/-! DEFINITION. The events of a core's slots and of its admission unit: idle turns, fetch lines, trap entry, wakes and
deadlines (R219–R222), parking (R275), admission (R268), steals (R269), aging (R271), and arrivals (R274). -/

namespace Sys2Proof.Machine

/-! ### Waits -/

/-- The condition of a wait of context c of core g may hold (R218, R219): an arrival has matched its tag. -/
def waitReady (s : State) (g : GCore) (c : Ctx) (w : Wait) : Bool :=
  match w.kind with
  | .mail line => (s.core g.toNat).mail.any fun m => m.dst == c.tid && m.line == line
  | .word pa full _ => s.fe pa == full
  | .barrier pa => contHolds s (.barrier pa)
  | .chunk pa j => objDone (s.memBytes pa 128) j
  | .timeline t n => contHolds s (.timeline g t n)
  | .chain line =>
    let h := tget 0 s.coh.hdr line
    !hdrChain h || (((s.bind g.toNat c.tenant).map fun b => decide (b.lcore.toNat ≤ hdrFirst h + hdrNdone h)).getD false)
  | .join pa => contHolds s (.join pa)
  | .pop q =>
    if 16 ≤ q then s.igq g.toNat (q - 16) != []
    else ((s.core g.toNat).eng.portJobs.find? fun j => j.1 == q).any fun j => isDone s g.toNat (if q = 3 then 0 else 1) j.2
  | .push q => if 16 ≤ q then decide ((s.igq g.toNat (q - 16)).length < 32) else queueRoom s g.toNat (if q = 3 then 0 else 1)
  | .tile t => tileReady s g.toNat t
  | .sleep => false

/-- A context with those of its waits re-inserted that an arrival matches. -/
def Ctx.wakeBy (c : Ctx) (hit : Wait → Bool) : Ctx :=
  let up (w : Wait) : Wait := { w with woken := w.woken || hit w }
  { c with iss := { c.iss with wait := c.iss.wait.map up, outs := c.iss.outs.map fun o => { o with wait := o.wait.map up } } }

/-- A context with its waits re-inserted. -/
def Ctx.wake (c : Ctx) : Ctx := c.wakeBy fun _ => true

/-- A blocked context may be re-inserted. -/
def wakeDue (s : State) (g : GCore) (c : Ctx) : Bool := c.waits.any fun w => !w.woken && waitReady s g c w

/-- WAKE_REINSERT (R219, R222): an arrival that matches re-inserts the context in slot k, or re-queues the parked
context in park slot k. -/
def execWakeReinsert (g : GCore) (k : Slot) (s : State) : Out' :=
  if (s.ctx g k).any (wakeDue s g) then .next ((s.modCtx g k fun c => c.wakeBy (waitReady s g c)).bump g.toNat 0x0054)
  else
    let due (p : Parked) : Bool := p.slot == k.toNat && !p.yielded && !p.queued && wakeDue s g p.ctx
    if (s.core g.toNat).parked.any due then
      let now := s.cycle
      let wake (p : Parked) : Parked := if due p then { p with queued := true, ready := now } else p
      .next ((s.modCore g.toNat fun c => { c with parked := c.parked.map wake }).bump g.toNat 0x0054)
    else .next s

/-- The earliest deadline of a list of waits that is still to come. -/
def nextDeadline (s : State) (ws : List Wait) : Nat :=
  ws.foldl (fun m w => if s.cycle < w.deadline && (m = 0 || w.deadline < m) then w.deadline else m) 0

/-- WAIT_DEADLINE (R221): the next deadline of the waits in slot k comes. -/
def execWaitDeadline (g : GCore) (k : Slot) (s : State) : Out' :=
  match s.ctx g k with
  | some c => .next (advanceTo s (nextDeadline s c.waits))
  | none => .next s

/-! ### Tile tasks -/

/-- How many of bits 0 to n−1 of x are set. -/
def bitsBelow (x n : Nat) : Nat := ((upTo n).filter fun i => x.testBit i).length

/-- Fields of a launch record (R252). -/
def Launch.dieMask (l : Launch) : Nat := fld (l.dw 2) 7 0
def Launch.cFirst (l : Launch) : Nat := fld (l.dw 2) 13 8
def Launch.cCount (l : Launch) : Nat := fld (l.dw 2) 22 16
def Launch.coreMask (l : Launch) : Nat := fld (l.dw 2) 31 24
def Launch.chunk (l : Launch) : Nat := fld (l.dw 2) 47 32
def Launch.gx (l : Launch) : Nat := fld (l.dw 1) 15 0
def Launch.gy (l : Launch) : Nat := fld (l.dw 1) 31 16
def Launch.gz (l : Launch) : Nat := fld (l.dw 1) 47 32

/-- Core g is in the chosen set S (R254). -/
def Launch.chosen (l : Launch) (g : Nat) : Bool :=
  l.dieMask.testBit (dieOf g) && l.cFirst ≤ clusterOf g % 64 && clusterOf g % 64 < l.cFirst + l.cCount &&
    l.coreMask.testBit (g % 8)

/-- The number of cores in S, and the place of core g in it (R254). -/
def Launch.setSize (l : Launch) : Nat := bitsBelow l.dieMask 8 * l.cCount * bitsBelow l.coreMask 8
def Launch.setPos (l : Launch) (g : Nat) : Nat :=
  (bitsBelow l.dieMask (dieOf g) * l.cCount + (clusterOf g % 64 - l.cFirst)) * bitsBelow l.coreMask 8 + bitsBelow l.coreMask (g % 8)

/-- The number of tile tasks that R255 assigns to core g of S. -/
def Launch.tiles (l : Launch) (g : Nat) : Nat :=
  let n := l.gx * l.gy * l.gz
  let round := l.chunk * l.setSize
  n / round * l.chunk + min l.chunk (n % round - l.setPos g * l.chunk)

/-- The p-th tile task of core g of S as a task entry (R255). -/
def Launch.tile (l : Launch) (g p now : Nat) : TaskEntry :=
  let i := (p / l.chunk * l.setSize + l.setPos g) * l.chunk + p % l.chunk
  let b (n : Nat) : BitVec 16 := BitVec.ofNat 16 n
  { kind := .tile, pc := (l.dw 0).setWidth 56, ready := now, args := (upTo 8).map fun j => l.dw (16 + j)
    task := { lid := l.lid, x := b (i % l.gx), y := b (i / l.gx % l.gy), z := b (i / (l.gx * l.gy)), pri := (l.dw 3).setWidth 2 } }

/-! ### Candidates -/

/-- A candidate of a core for a free slot, by its place (R268). -/
inductive Cand where
  | parked (i : Nat)
  | ring (i : Nat)
  | arrival (i : Nat)
  | deque (i : Nat)
  | tile
  | stolen
  deriving DecidableEq, Repr

/-- A candidate with its priority, its source and its place among the candidates of that source. -/
structure Ranked where
  pri : Nat
  src : Nat
  age : Nat
  cand : Cand
  deriving DecidableEq, Repr

/-- Ranked candidates of a list. -/
def rankList (l : List α) (f : Nat → α → Ranked) : List Ranked := (l.zipIdx).map fun e => f e.2 e.1

/-- The launch of a binding is stopped (R264). -/
def isStopped (s : State) (lid : Nat) : Bool := (s.launch? lid).any fun l => l.stopped.isSome

/-- The candidates of core g for tenant t from sources 1 to 4, and a stolen one last (R268). A stopped launch has
its parked contexts only. -/
def candidates (s : State) (g : Nat) (t : TenantNo) (b : Bind) : List Ranked :=
  let pri (e : TaskEntry) : Nat := agedPri s e.task.pri e.ready
  let parks := (rankList (s.core g).parked fun i p =>
    ⟨agedPri s p.ctx.task.pri (readySince p), if p.yielded then 4 else 1, readySince p, .parked i⟩).filter fun r =>
      match r.cand with
      | .parked i => ((s.core g).parked[i]?).any fun p => p.ctx.tenant == t && parkedReady s p
      | _ => false
  if isStopped s b.lid then parks else
  parks ++
  (rankList b.ring fun i e => ⟨pri e, 2, i, .ring i⟩) ++
  (rankList b.arrivals fun i e => ⟨pri e, 2, 256 + i, .arrival i⟩) ++
  (rankList b.deque fun i e => ⟨pri e, 3, b.deque.length - i, .deque i⟩) ++
  (if b.tileLo < b.tileHi then [⟨agedPri s (tilePri s b) b.since, 3, 1000, .tile⟩] else []) ++
  ((b.stolen.take 1).map fun e => ⟨pri e, 5, 0, .stolen⟩)

/-- The better of two candidates: the higher priority, then the earlier source, then the earlier place; a stolen
task only where there is no other (R268). -/
def Ranked.before (a b : Ranked) : Bool :=
  if a.src = 5 || b.src = 5 then a.src < b.src
  else b.pri < a.pri || (a.pri == b.pri && (a.src < b.src || (a.src == b.src && a.age < b.age)))

/-- The candidate that the admission unit takes. -/
def bestOf (l : List Ranked) : Option Ranked :=
  l.foldl (fun m r => match m with
    | none => some r
    | some x => if r.before x then some r else some x) none

/-! ### Steals -/

/-- The cores bound to tenant t's launch lid, with their launch state. -/
def launchCores (s : State) (t : TenantNo) (lid : Nat) : List (Nat × Bind) :=
  s.binds.filterMap fun e => match e.2 with
    | some b => if e.1 % 16 = t.toNat && b.lid == lid then some (e.1 / 16, b) else none
    | none => none

/-- The difference of two numbers. -/
def gap (a b : Nat) : Nat := max a b - min a b

/-- The group of a victim by class and distance (R19, R269). -/
def victimGroup (g h : Nat) : Nat :=
  let a := clusterOf g % 64
  let b := clusterOf h % 64
  if clusterOf g = clusterOf h then 0
  else if dieOf g = dieOf h then gap (a % 8) (b % 8) + gap (a / 8) (b / 8)
  else 100 + (dieOf h + 8 - dieOf g) % 8

/-- The victims of core g in the order of a steal (R269). -/
def victimsOf (s : State) (g : Nat) (t : TenantNo) (b : Bind) : List Nat :=
  let dom := ((s.launch? b.lid).map Launch.domain).getD .core
  let hs := ((launchCores s t b.lid).map (·.1)).filter fun h => h != g && inScope dom g h
  (upTo 108).flatMap fun n =>
    let grp := hs.filter fun h => victimGroup g h == n
    let last := tget 0 b.victims n
    (grp.filter fun h => last ≤ h) ++ grp.filter fun h => h < last

/-- A probe of a binding finds work (R269). -/
def hasWork (b : Bind) : Bool :=
  decide (b.tileLo < b.tileHi) || b.deque != [] || (b.ring ++ b.arrivals).any fun e => e.kind == .resumed

/-- What a probe takes from a binding of core v (R269): its highest tile task, else the oldest record, else the
oldest resumed continuation. A record pushed in this cc is not there yet (R290). -/
def stealFrom (s : State) (v : Nat) (b : Bind) : Option (TaskEntry × Bind) :=
  if b.tileLo < b.tileHi then
    (s.launch? b.lid).map fun l => (l.tile v (b.tileHi - 1) s.cycle, { b with tileHi := b.tileHi - 1 })
  else
    match b.deque with
    | e :: r => if e.ready < s.cycle then some (e, { b with deque := r }) else none
    | [] =>
      match findIdx? (fun e => e.kind == .resumed) b.ring with
      | some (i, e) => some (e, { b with ring := dropAt b.ring i })
      | none => (findIdx? (fun e => e.kind == .resumed) b.arrivals).map fun r => (r.2, { b with arrivals := dropAt b.arrivals r.1 })

/-- A core has a free slot. -/
def freeSlot (s : State) (g : GCore) : Bool := (upTo 16).any fun k => (s.ctx g (BitVec.ofNat 4 k)).isNone

/-- A probe of core v for core g (R269, R270). -/
def probe (s : State) (g : Nat) (t : TenantNo) (b : Bind) (v : Nat) : State :=
  match (s.bind v t).bind (stealFrom s v) with
  | none => s.modBind g t fun b => { b with probe := b.probe + 1 }
  | some (e, vb) =>
    (s.setBind v t (some vb)).setBind g t (some { b with
      stolen := [e], probe := 0, victims := tput b.victims (victimGroup g v) (v + 1) })

/-- STEAL_PROBE (R269): one probe of the next victim, where a slot is free and the core has no candidate. -/
def execStealProbe (g : GCore) (s : State) : Out' :=
  match (s.core g.toNat).tenant with
  | none => .next s
  | some t =>
    match s.bind g.toNat t with
    | none => .next s
    | some b =>
      if (s.core g.toNat).leaving || !freeSlot s g || isStopped s b.lid || candidates s g.toNat t b != [] then .next s
      else
        match (victimsOf s g.toNat t b)[b.probe]? with
        | some v => .next (probe s g.toNat t b v)
        | none => .next (s.setBind g.toNat t (some { b with probe := 0 }))

/-! ### Discarded work -/

/-- A join counter's PENDING falls by one for an entry that core g discards (R287); where the counter cannot be
written, nothing is. -/
def discardCount (s : State) (g : GCore) (t : TenantNo) (e : TaskEntry) : State :=
  let va := e.task.jctr.toNat
  if va = 0 then s else
  match check s g.toNat t .wr va 16 with
  | .error _ => s
  | .ok ps =>
    if (noHost s .wr ps).isSome || accIn s ps || (lostIn s ps).isSome then s else
    let sc := ((s.launch? e.task.lid).map Launch.domain).getD .core
    let s := recallLines s ps
    writeNow (claim s t ps) (.core g) sc (cellsAt (ps.headD ⟨0, 0, 0, 0⟩).pa (bytesOf 8 (dwordAt (homeBytes s t ps) 0 - 1).toNat))

/-- Core g discards a task entry of its launch under EXIT (R241, R287). -/
def discardEntry (s : State) (g : GCore) (t : TenantNo) (e : TaskEntry) : State :=
  let s := s.modLaunch e.task.lid fun l => { l with discarded := l.discarded + 1 }
  discardCount (countRcvd s g.toNat t e.task.lid 1) g t e

/-! ### Admission -/

/-- The bytes of an entry's continuation record; none for other entries. -/
def entryRecord (s : State) (e : TaskEntry) : List Byte := if e.kind = .resumed then s.memBytes e.pa 256 else []

/-- Values put into registers from register i on. -/
def regsFrom (i : Nat) (l : List Word) : Table Word := (l.zipIdx).foldl (fun t e => tset 0 t (i + e.2) e.1) []

/-- The registers of a new context (R255, R265, R283). -/
def entryRegs (e : TaskEntry) (bs : List Byte) : Table Word :=
  match e.kind with
  | .tile => regsFrom 16 e.args
  | .forked => regsFrom 1 e.args
  | .migration => regsFrom 1 e.args
  | .resumed =>
    (((maskRegs (dwordAt bs 5)).filter fun i => i != 0).zipIdx).foldl (fun t x => tset 0 t x.1 (dwordAt bs (8 + x.2))) []

/-- The predicates of a new context: p7 is RC for a resumed continuation (R283). -/
def entryPreds (e : TaskEntry) (bs : List Byte) : BitVec 8 :=
  if e.kind = .resumed then (e.p &&& 0x7F) ||| (if bit (dwordAt bs 1) 4 then 0x80 else 0) else e.p

/-- The TID of generation n of slot k of core g (R223). -/
def tidOf (n : BitVec 16) (g : GCore) (k : Slot) : BitVec 32 := n ++ g ++ k

/-- A task entry as a new context (R96, R223, R241, R271, R323, R420). DESIGN CHOICE (log entry 5): RASPTR.BASE begins at
zero, also of a resumed or migrated continuation, for which R108 names SZ and RASDEPTH only. -/
def newContext (s : State) (g : GCore) (k : Slot) (t : TenantNo) (e : TaskEntry) (pri : Nat) (n : BitVec 16) : Ctx :=
  let bs := entryRecord s e
  let st := rngSeed (((s.launch? e.task.lid).map fun l => l.dw 9).getD 0) g k
  { regs := { g := entryRegs e bs, p := entryPreds e bs }
    pc := e.pc, tid := tidOf n g k, tenant := t, fpctl := e.rm, fpstat := e.fs
    task := { e.task with pri := BitVec.ofNat 2 pri, taken := 1 }
    trap := { tvec := (s.cfgAt (tenReg t 0x10)).setWidth 56 }
    lo := st.1, hi := st.2
    iss := { entry := e.badPc.bind resumeEntry } }

/-- What the first task of a launch does on a core (R37, R138, R172): Acquire(SYSTEM), undefined tiles, for which commands that
are still under way are void (R154); the first tile task invalidates the instruction cache. -/
def firstTask (s : State) (g : Nat) (t : TenantNo) (b : Bind) (e : TaskEntry) : State :=
  let s := if b.admitted then s else
    (acquire s g .system).modCore g fun c => { c with
      regs := { c.regs with tiles := [] }
      eng := { c.eng with fills := c.eng.fills.map fun j => { j with stale := true } } }
  let tile := e.kind == .tile
  let s := if tile && !b.tileSeen then s.modCore g fun c => { c with cache := { c.cache with icache := [] } } else s
  s.modBind g t fun b => { b with admitted := true, tileSeen := b.tileSeen || tile }

/-- ST of a resumed continuation's record becomes 3 (R283). -/
def takeRecord (s : State) (g : GCore) (e : TaskEntry) : State :=
  if e.kind = .resumed then
    writeNow s (.core g) e.scope [(e.pa + 8, BitVec.ofNat 8 ((s.memAt (e.pa + 8)).toNat / 4 * 4 + 3))]
  else s

/-- The acquire of an admitted continuation (R172). -/
def acquireEntry (s : State) (g : Nat) (e : TaskEntry) : State :=
  if e.kind = .resumed || e.kind = .migration then acquire s g e.scope else s

/-- A task entry becomes a context in slot k (R268). -/
def admitEntry (s : State) (g : GCore) (k : Slot) (t : TenantNo) (b : Bind) (e : TaskEntry) (pri : Nat) : State :=
  let n := tget 0 (s.core g.toNat).gens k.toNat + 1
  let s := acquireEntry (firstTask s g.toNat t b e) g.toNat e
  let c := newContext s g k t e pri n
  let s := (takeRecord s g e).modCore g.toNat fun c => { c with gens := tset 0 c.gens k.toNat n }
  s.setCtx g k (some c)

/-- A parked context comes back into slot k (R275, R288); where its park slot cannot be read, its launch is stopped
(R264). -/
def unpark (s : State) (g : GCore) (k : Slot) (i pri : Nat) : State :=
  match (s.core g.toNat).parked[i]? with
  | none => s
  | some p =>
    let v : BitVec 2 := BitVec.ofNat 2 pri
    let c := { p.ctx.wake with task := { p.ctx.task with pri := v } }
    let va := (workArea s c.task.lid g.toNat + 0x1000 * p.slot) % 2 ^ 56
    let s' := (s.modCore g.toNat fun x => { x with parked := dropAt x.parked i }).setCtx g k (some c)
    match check s g.toNat c.tenant .rd va 4096 with
    | .ok _ => s'
    | .error _ => stopLaunch s' c.task.lid (BitVec.ofNat 64 va)

/-- The entry that a candidate names, with the binding without it. -/
def takeCand (s : State) (g : Nat) (b : Bind) : Cand → Option (TaskEntry × Bind)
  | .parked _ => none
  | .ring i => (b.ring[i]?).map fun e => (e, { b with ring := dropAt b.ring i, probe := 0 })
  | .arrival i => (b.arrivals[i]?).map fun e => (e, { b with arrivals := dropAt b.arrivals i, probe := 0 })
  | .deque i => (b.deque[i]?).map fun e => (e, { b with deque := dropAt b.deque i, probe := 0 })
  | .tile => (s.launch? b.lid).map fun l => (l.tile g b.tileLo b.since, { b with tileLo := b.tileLo + 1, since := s.cycle, probe := 0 })
  | .stolen => (b.stolen.head?).map fun e => (e, { b with stolen := [] })

/-- A context that fills a slot from on-chip sources before the first turn after the slot fell free issues at the
second one (R272). -/
def secondTurn (s : State) (g : GCore) (k : Slot) : State :=
  let c := s.core g.toNat
  let f := tget 0 c.freed k.toNat
  if f ≠ 0 ∧ nextTurn (max s.cycle c.turnAt) k.toNat < f + 16 then
    s.modCtx g k fun c => { c with iss := { c.iss with skip := true } }
  else s

/-- A candidate comes from the sources on chip, not by the spill ring or a steal (R272). -/
def Cand.onChip : Cand → Bool
  | .arrival _ | .deque _ | .tile => true
  | .parked _ | .ring _ | .stolen => false

/-- A candidate is taken for slot k of core g: it becomes a context, or is discarded (R268, R287). -/
def admitCandidate (s : State) (g : GCore) (k : Slot) (t : TenantNo) (b : Bind) (r : Ranked) : State :=
  match r.cand with
  | .parked i => unpark s g k i r.pri
  | c =>
    match takeCand s g.toNat b c with
    | none => s
    | some (e, b') =>
      let s := s.setBind g.toNat t (some b')
      if b.seenExit then discardEntry s g t e else
      let s := admitEntry s g k t b' e r.pri
      if c.onChip then secondTurn s g k else s

/-- ADMIT_CONTEXT (R268): the admission unit fills free slot k of core g. -/
def execAdmitContext (g : GCore) (k : Slot) (s : State) : Out' :=
  match (s.core g.toNat).tenant with
  | none => .next s
  | some t =>
    match s.bind g.toNat t with
    | none => .next s
    | some b =>
      if (s.ctx g k).isSome || (s.core g.toNat).leaving || !b.loaded || !s.alive (dieOf g.toNat) then .next s
      else
        match bestOf (candidates s g.toNat t b) with
        | some r => .next (admitCandidate s g k t b r)
        | none => .next s

/-! ### Aging and arrivals -/

/-- A task entry after aging (R271): the priority it has reached, with the ready time moved on. -/
def ageEntry (s : State) (e : TaskEntry) : TaskEntry :=
  { e with task := { e.task with pri := BitVec.ofNat 2 (agedPri s e.task.pri e.ready) }
           ready := e.ready + (s.cycle - e.ready) / 2 ^ 20 * 2 ^ 20 }

/-- A parked candidate after aging. -/
def ageParked (s : State) (p : Parked) : Parked :=
  if !parkedReady s p then p else
  let r := readySince p
  { p with queued := true, ready := r + (s.cycle - r) / 2 ^ 20 * 2 ^ 20
           ctx := { p.ctx with task := { p.ctx.task with pri := BitVec.ofNat 2 (agedPri s p.ctx.task.pri r) } } }

/-- PRIORITY_AGING (R271): candidates of core g that have been ready for 2^20 cc rise. -/
def execPriorityAging (g : GCore) (s : State) : Out' :=
  let age (l : List TaskEntry) : List TaskEntry := l.map (ageEntry s)
  let f (b : Bind) : Bind := { b with
    deque := age b.deque, arrivals := age b.arrivals, ring := age b.ring, stolen := age b.stolen }
  let s' := s.modCore g.toNat fun c => { c with parked := c.parked.map (ageParked s) }
  .next { s' with binds := s'.binds.map fun e => if e.1 / 16 = g.toNat then (e.1, e.2.map f) else e }

/-- The spill counter after a move to the spill ring (R274, R289). -/
def spillUp (w : Word) : Word := if w = BitVec.allOnes 64 then w else w + 1

/-- An entry reaches core g's arrival queue (R274, R276): on chip, after a spill where the on-chip part is full, or in
the spill ring where another tenant runs; none where it is held. -/
def appendArrival (s : State) (g : Nat) (t : TenantNo) (b : Bind) (e : TaskEntry) : Option Bind :=
  let depth := ((s.launch? b.lid).map fun l => fld (l.dw 3) 16 10).getD 4
  let runs := (s.core g).tenant == some t && !(s.core g).leaving
  if !runs then
    if b.ring.length < 256 then some { b with ring := b.ring ++ [e], spill := spillUp b.spill } else none
  else if b.arrivals.length < depth then some { b with arrivals := b.arrivals ++ [e] }
  else if b.ring.length < 256 then
    some { b with ring := b.ring ++ b.arrivals.take 1, arrivals := b.arrivals.drop 1 ++ [e], spill := spillUp b.spill }
  else none

/-- ARRIVAL_APPEND (R274): arrival n in flight reaches its core; after the exit mark it is discarded (R287). -/
def execArrivalAppend (n : Nat) (s : State) : Out' :=
  match s.fl.arrivals[n]? with
  | none => .next s
  | some a =>
    let gone : State := { s with fl := { s.fl with arrivals := dropAt s.fl.arrivals n } }
    match s.bind a.g.toNat a.tenant with
    | none => .next gone
    | some b =>
      if b.lid ≠ a.entry.task.lid || isStopped s b.lid then .next gone
      else if b.seenExit then .next (discardEntry gone a.g a.tenant a.entry)
      else
        match appendArrival s a.g.toNat a.tenant b { a.entry with ready := s.cycle } with
        | some b' =>
          let s' := gone.setBind a.g.toNat a.tenant (some b')
          .next (if b.ring.length < b'.ring.length then ringWrite s' a.g.toNat a.tenant 1 else s')
        | none => .next s

/-! ### Turns in which nothing issues -/

/-- A candidate of sources 1 to 5 is ready for core g (R275). -/
def anyCandidate (s : State) (g : Nat) (t : TenantNo) : Bool :=
  match s.bind g t with
  | none => false
  | some b => candidates s g t b != [] || (victimsOf s g t b).any fun v => (s.bind v t).any hasWork

/-- The blocked context of a slot is parked at this turn (R220, R275): it has been blocked since its first wait began. -/
def parkDue (s : State) (g : GCore) (k : Slot) : Bool :=
  match s.ctx g k with
  | none => false
  | some c =>
    let lim := ((s.bind g.toNat c.tenant).map fun b => b.parkt.toNat).getD 0
    blocked s c && !c.halted && c.iss.entry.isNone && !(c.iss.outs.any fun o => o.trap.isSome) && lim != 0 &&
      c.waits.any (fun w => decide (lim < s.cycle - w.since)) && (freePark s g.toNat c.task.lid).isSome &&
      !(c.waits.any (waitReady s g c)) && anyCandidate s g.toNat c.tenant

/-- The context of a slot is written to a free park slot (R275). -/
def parkNow (s : State) (g : GCore) (k : Slot) : State :=
  match (s.ctx g k).bind fun c => freePark s g.toNat c.task.lid with
  | none => s
  | some i => asSlot s g k fun s => parkIn (toSaved s) i false

/-- What a turn does in which the slot's context issues nothing: the context of a stopped launch ends (R264), a
blocked one may be parked (R275), turns given up are used (R52, R288), a replay goes on (R321, R423). -/
def idleTurn (s : State) (g : GCore) (k : Slot) : State :=
  match s.ctx g k with
  | none => s
  | some c =>
    if stoppedLaunch s c then asSlot (cancelSfu s g k) g k dropContext
    else if parkDue s g k then parkNow s g k
    else continueReplay (replayFuel c) g k (useIdle s g k)

/-- IDLE_TURN (R90): the next turn of slot k, where its context issues nothing. -/
def execIdleTurn (g : GCore) (k : Slot) (s : State) : Out' :=
  let t := toTurn s g k k
  if plan t g k false = .idle then .next { idleTurn (t.bump g.toNat 0x0003) g k with who := s.who } else .next s

/-- PARK_CONTEXT (R275): the next turn of slot k, at which its blocked context is parked. -/
def execParkContext (g : GCore) (k : Slot) (s : State) : Out' :=
  let t := toTurn s g k k
  if parkDue t g k then .next { parkNow (t.bump g.toNat 0x0003) g k with who := s.who } else .next s

/-- An instruction cache of 64 KiB with a fetch line that has arrived: it holds 1,024, and which one a full cache gives up is
free (R21). -/
def icachePut (c : CoreCache) (pa : Nat) (l : FetchLine) : CoreCache :=
  let rest := c.icache.filter fun e => e.1 != pa
  let rest := if 1024 ≤ rest.length then dropAt rest (Config.fetchVictim pa % rest.length) else rest
  { c with icache := tset none rest pa (some l) }

/-- FETCH_LINE_ARRIVAL (R35–R37, R91): the fetch line of slot k's context arrives in the instruction cache; a line that
is lost arrives as no line. -/
def execFetchLineArrival (g : GCore) (k : Slot) (s : State) : Out' :=
  match s.ctx g k with
  | none => .next s
  | some c =>
    match fetchPiece s g.toNat c.tenant c.pc with
    | .error _ => .next s
    | .ok p =>
      let s := recallLines s [p]
      let bs := if (lostIn s [p]).isSome then [0] else homeBytes s c.tenant [p]
      let s := noteRead (tlbFill s g.toNat c.tenant p) g.toNat c.tenant 0 { p with pa := lineOf p.pa * 128 }
      .next (s.modCore g.toNat fun x => { x with cache := icachePut x.cache p.pa ⟨c.tenant, bs⟩ })

/-- TRAP_ENTRY (R94, R421): once every outstanding instruction has finished, the context enters its handler or
halts. -/
def execTrapEntry (g : GCore) (k : Slot) (s : State) : Out' := .next (settle s g k)

/-- The trap of an event at slot k's turn. -/
def trapSlot (s : State) (g : GCore) (k : Slot) (t : Trap) : State := asSlot s g k fun s => trapAt s t

/-- PHLIMIT (R176): the thread of slot k takes the trap before it issues. -/
def execPhlimit (g : GCore) (k : Slot) (s : State) : Out' :=
  if plan s g k false = .event (.phlimit g k) then
    .next ((trapSlot s g k ⟨0x0A, 0, BitVec.ofNat 64 (phaseAge s g.toNat)⟩).bump g.toNat 0x0043)
  else .next s

/-- The tile that a context waits for. -/
def waitTile (c : Ctx) : Nat :=
  match c.iss.wait with
  | some w => match w.kind with
    | .tile t => t.toNat
    | _ => 0
  | none => 0

/-- TILEWAIT (R141): the tile wait of slot k's thread is over. -/
def execTilewait (g : GCore) (k : Slot) (s : State) : Out' :=
  match s.ctx g k with
  | none => .next s
  | some c =>
    if tileExpired s g.toNat c && plan s g k false = .event (.tilewait g k) then
      .next (trapSlot (s.bump g.toNat 0x0055) g k ⟨0x0E, 0, BitVec.ofNat 64 (waitTile c)⟩)
    else .next s

end Sys2Proof.Machine
end

