-- ==== Sys2Proof/Machine/Launch.lean ====
section
/-! DEFINITION. Launches: the doorbell and the taking of records (R250–R253), starting and completing a launch
(R254–R257, R266, R267), the exit mark and work-area faults (R264, R287), continuations that are queued (R283), and
messages that a core accepts (R224–R226). -/

namespace Sys2Proof.Machine

/-- A list of pieces has room for its old versions in the lees stores (R175). -/
def roomFor (s : State) (ps : List Piece) : Bool := leesRoom s (ps.flatMap fun q => (pieceLines q).map fun l => (l * 128, 0))

/-! ### The queue -/

/-- LQPROD_WRITE (R251): the doorbell, or OVF where too many records would be pending. -/
def execLqprodWrite (t : TenantNo) (v : Word) (s : State) : Out' :=
  let n := fld (v - s.cfgAt (lqCons t)) 31 0
  .next (if n ≤ lqSize s t then s.setCfg (lqProd t) (zext 32 v)
    else s.setCfg (lqCtl t) (setFld (s.cfgAt (lqCtl t)) 33 33 1))

/-- CONS rises by one: the record has been started or rejected (R251). -/
def consume (s : State) (t : TenantNo) : State :=
  s.setCfg (lqCons t) (BitVec.ofNat 64 ((fld (s.cfgAt (lqCons t)) 31 0 + 1) % 2 ^ 32))

/-- The bytes of the record at CONS, none where they cannot be read (R250, R253). -/
def readRecord (s : State) (t : TenantNo) : Option (List Byte) :=
  let pa := lqSlot s t (fld (s.cfgAt (lqCons t)) 31 0)
  let ok (a : Nat) : Bool := inWindow s t a && match placeOf s.part a with
    | .dram _ => !lineLost s a && !homeGone s a 0
    | _ => false
  if ok pa && ok (pa + 128) then some (s.memBytes pa 256) else none

/-! ### The checks of a record -/

/-- The reserved bits of a launch record's dwords (R252). -/
def recordReserved : List (Nat × Word) :=
  [(0, 0xFF00000000000000), (1, 0xFFFF000000000000), (2, 0xFFFF00000080C000), (3, 0xFFFFFFFE0E000080)] ++
    ([12, 13, 14, 15] ++ (upTo 8).map (24 + ·)).map fun i => (i, BitVec.allOnes 64)

/-- The lowest chosen core, whose translations the scheduler uses. -/
def Launch.first (l : Launch) (s : State) : Nat := ((upTo (s.part.dies * 512)).find? l.chosen).getD 0

/-- SDOM as a number (R252). -/
def Launch.sdom (l : Launch) : Nat := fld (l.dw 3) 4 2

/-- Core g belongs to the launch: it lies in the SDOM instance of a core of S (R254). -/
def Launch.holds (l : Launch) (g : Nat) : Bool :=
  match l.domain with
  | .cluster => l.dieMask.testBit (dieOf g) && l.cFirst ≤ clusterOf g % 64 && clusterOf g % 64 < l.cFirst + l.cCount
  | .die => l.dieMask.testBit (dieOf g)
  | .module => true
  | _ => l.chosen g

/-- The cores of the launch (R254). -/
def Launch.cores (l : Launch) (s : State) : List Nat := (upTo (s.part.dies * 512)).filter l.holds

/-- ENTRY passes the launch-record row of R39, and its fetch does not trap (R36). DESIGN CHOICE (log entry 77): TGT is read
from the line as it stands, also where the line breaks the integrity rule of R35; the context then traps at its first
fetch. -/
def entryOk (s : State) (l : Launch) : Bool :=
  let pc : CodeAddr := (l.dw 0).setWidth 56
  retOk pc && match fetchPiece s (l.first s) l.tenant pc with
    | .error _ => false
    | .ok p => tgtBit (homeBytes (recallLines s [p]) l.tenant [p]) (pc.toNat % 64)

/-- The chosen set is empty, names an absent die, or leaves the clusters of a die (R253). -/
def setBad (s : State) (l : Launch) : Bool :=
  l.dieMask = 0 || l.coreMask = 0 || l.cCount = 0 || decide (2 ^ s.part.dies ≤ l.dieMask) || decide (64 < l.cFirst + l.cCount)

/-- A range field is out of range (R253). -/
def rangeBad (l : Launch) : Bool :=
  let aqd := fld (l.dw 3) 16 10
  let spawn := fld (l.dw 3) 24 17
  l.sdom < 1 || decide (4 < l.sdom) || decide (aqd < 4) || decide (64 < aqd) || decide (spawn < 1) || decide (192 < spawn) ||
    fld (l.dw 3) 9 8 == 3 || l.chunk == 0

/-- The table of LPMODE 2, none where it cannot be read or is no permutation (R257). -/
def readPerm (s : State) (l : Launch) : Option (List Nat) :=
  if fld (l.dw 3) 9 8 ≠ 2 then some []
  else if (l.dw 6).toNat % 128 ≠ 0 then none
  else
    match engRead s (l.first s) l.tenant (l.dw 6) 8192 with
    | .error _ => none
    | .ok (bs, _) =>
      let p := elemsOf 2 4096 bs
      if (upTo 4096).all p.contains then some p else none

/-- The base of a launch's work area of core g. -/
def Launch.area (l : Launch) (g : Nat) : Nat := va56 (l.dw 5 + BitVec.ofNat 64 (g * 0x20000))

/-- WAREA is misaligned, or a work area cannot be written (R253). -/
def areaBad (s : State) (l : Launch) : Bool :=
  (l.dw 5).toNat % 0x20000 != 0 || (l.cores s).any fun g =>
    match check s g l.tenant .wr (l.area g) 0x20000 with
    | .ok _ => false
    | .error _ => true

/-- A loader or storer image: empty for 0, none where it cannot be read (R256). -/
def readImage (s : State) (l : Launch) (a : Word) : Option (List Byte) :=
  if a = 0 then some []
  else if a.toNat % 128 ≠ 0 then none
  else
    match engRead s (l.first s) l.tenant a 24576 with
    | .error _ => none
    | .ok (bs, _) => some bs

/-- The reason for which a record is rejected, the lowest that applies; 0 for none (R253). -/
def rejectReason (s : State) (l : Launch) : Nat :=
  if recordReserved.any (fun e => l.dw e.1 &&& e.2 != 0) then 0x01
  else if !entryOk s l then 0x02
  else if l.gx = 0 || l.gy = 0 || l.gz = 0 then 0x03
  else if setBad s l then 0x04
  else if rangeBad l then 0x05
  else if (readPerm s l).isNone then 0x06
  else if areaBad s l then 0x07
  else if fld (l.dw 3) 31 28 ≠ l.tenant.toNat then 0x08
  else if (l.dw 7).toNat % 16 ≠ 0 || (l.dw 8).toNat % 128 ≠ 0 then 0x0A
  else if (readImage s l (l.dw 10)).isNone || (readImage s l (l.dw 11)).isNone then 0x0B
  else 0

/-! ### Completion records -/

/-- The pieces of the completion record; none where it is not written (R266). -/
def caddrPieces (s : State) (l : Launch) : List Piece :=
  if l.dw 7 = 0 || (l.dw 7).toNat % 16 ≠ 0 then [] else
  match check s (l.first s) l.tenant .wr (va56 (l.dw 7)) 16 with
  | .ok ps => ps
  | .error _ => []

/-- The pieces of the barrier object; none where no arrival is counted (R232, R266). -/
def cbarPieces (s : State) (l : Launch) : List Piece :=
  if l.dw 8 = 0 || (l.dw 8).toNat % 128 ≠ 0 then [] else
  match check s (l.first s) l.tenant .wr (va56 (l.dw 8)) 128 with
  | .ok ps => if placeBad s ps || (noHost s .wr ps).isSome || accIn s ps || (lostIn s ps).isSome then [] else ps
  | .error _ => []

/-- Steps 2 to 4 of R266 with the completion record of R267. -/
def report (s : State) (l : Launch) (d0 info : Word) : State :=
  let g : GCore := BitVec.ofNat 12 (l.first s)
  let ps := caddrPieces s l
  let s := writeNow (claim s l.tenant ps) (.engine g) .system (pieceCells ps (bytesOf 8 d0.toNat ++ bytesOf 8 info.toNat))
  let qs := cbarPieces s l
  let s := if qs = [] then s else
    let s := recallLines s qs
    let pa := (qs.headD ⟨0, 0, 0, 0⟩).pa
    let ws := (countBytes (homeBytes s l.tenant qs) 1 none).flatMap fun x => cellsAt (pa + x.1) x.2
    countB (writeNow (claim s l.tenant qs) (.engine g) .module ws) 0x0056 qs
  if bit (l.dw 3) 32 then s.raise l.tenant.toNat 0 else s

/-- The lees stores have room for what a report writes. -/
def reportRoom (s : State) (l : Launch) : Bool := roomFor s (caddrPieces s l) && roomFor s (cbarPieces s l)

/-! ### Taking and starting -/

/-- A launch is bound to its cores. -/
def isBound (s : State) (lid : Nat) : Bool := s.binds.any fun e => e.2.any fun b => b.lid == lid

/-- The launch of tenant t that has been taken and waits to start (R254). -/
def waitingLaunch (s : State) (t : TenantNo) : Option Launch := s.launches.find? fun l => l.tenant == t && !isBound s l.lid

/-- LAUNCH_RECORD_TAKE (R251, R253): the next pending record is read and checked; a rejected one is reported and
consumed, another waits to start. -/
def execLaunchRecordTake (t : TenantNo) (s : State) : Out' :=
  if !bit (s.cfgAt (lqCtl t)) 32 || !s.tenEn t || lqPending s t = 0 || (waitingLaunch s t).isSome then .next s
  else
    let s1 : State := { s with nextLid := s.nextLid + 1 }
    match readRecord s t with
    | none => .next (consume s1 t)
    | some bs =>
      let l : Launch := { lid := s.nextLid, tenant := t, words := (upTo 32).map (dwordAt bs) }
      match rejectReason s l with
      | 0 =>
        let l : Launch := { l with
          perm := (readPerm s l).getD [], limg := (readImage s l (l.dw 10)).getD [], simg := (readImage s l (l.dw 11)).getD [] }
        .next { s1 with launches := s.launches ++ [l] }
      | r => if reportRoom s l then .next (consume (report s1 l (BitVec.ofNat 64 (r * 256 + 2)) 0) t) else .next s

/-- A launch must wait: a core is bound to an earlier launch of the tenant, or another tenant's binding has another QP
or FUSE (R254). -/
def mustWait (s : State) (l : Launch) : Bool :=
  let qp := bit (l.dw 3) 6
  let fuse := bit (l.dw 3) 5
  let clusters := ((l.cores s).map clusterOf).eraseDups
  s.binds.any fun e => e.2.any fun b =>
    if e.1 % 16 = l.tenant.toNat then l.holds (e.1 / 16)
    else (l.holds (e.1 / 16) && b.qp != qp) || (clusters.contains (clusterOf (e.1 / 16)) && b.fuse != fuse)

/-- The number of cores of S below core g. -/
def Launch.below (l : Launch) (g : Nat) : Nat :=
  let n := bitsBelow l.coreMask 8
  let c := clusterOf g % 64
  bitsBelow l.dieMask (dieOf g) * l.cCount * n +
    if !l.dieMask.testBit (dieOf g) then 0
    else if c < l.cFirst then 0
    else if l.cFirst + l.cCount ≤ c then l.cCount * n
    else (c - l.cFirst) * n + bitsBelow l.coreMask (g % 8)

/-- LCORE of core g (R257). -/
def Launch.lcore (l : Launch) (g : Nat) : Nat :=
  match fld (l.dw 3) 9 8 with
  | 0 => g
  | 1 => if l.chosen g then l.setPos g else l.setSize + (g - l.below g)
  | _ => l.perm.getD g 0

/-- The launch state of core g when the launch starts (R241, R255). -/
def newBind (s : State) (l : Launch) (g : Nat) : Bind :=
  let n := if l.chosen g then l.tiles g else 0
  { lid := l.lid, lcore := BitVec.ofNat 12 (l.lcore g), qp := bit (l.dw 3) 6, fuse := bit (l.dw 3) 5
    parkt := (l.dw 4).setWidth 32, qpto := (l.dw 4).extractLsb' 32 32, sent := BitVec.ofNat 64 n
    tileHi := n, since := s.cycle, boundAt := s.nextId }

/-- The bytes of a list that are not 0, by index. -/
def imageTable (bs : List Byte) : Table Byte := (bs.zipIdx.filter fun e => e.1 != 0).map fun e => (e.2, e.1)

/-- A scalar core as a launch image starts it (R256). -/
def startScalar (x : Scalar) (img : List Byte) (g : Nat) (lcore arg0 : Word) : Scalar :=
  if img = [] then { x with running := false } else
  { x with
    x := tset 0 (tset 0 (tset 0 [] 10 (BitVec.ofNat 64 g)) 11 lcore) 12 arg0
    pc := 0, running := true, csr := tset 0 x.csr 0x305 0, imem := imageTable (img.take 16384)
    deadline := none }

/-- The data memory of a scalar core filled from an image (R256). -/
def fillData (s : State) (g : Nat) (r : Role) (img : List Byte) : State :=
  if img = [] then s else s.poke (cellsAt (smemBase + g * 2 ^ 14 + (if r = .storer then 2 ^ 13 else 0)) (img.drop 16384))

/-- IMAGE_LOAD (R256): core g's loader and storer take the launch's images and start. -/
def loadImages (s : State) (g : Nat) (t : TenantNo) : State :=
  match s.bind g t with
  | none => s
  | some b =>
    match s.launch? b.lid with
    | none => s
    | some l =>
      let lc : Word := b.lcore.setWidth 64
      let s := s.modScalar g .loader fun x => startScalar x l.limg g lc (l.dw 16)
      let s := s.modScalar g .storer fun x => startScalar x l.simg g lc (l.dw 16)
      (fillData (fillData s g .loader l.limg) g .storer l.simg).modBind g t fun b => { b with loaded := true }

/-- The inter-group queues of the launch's tenant are emptied on its dies, but where another launch of the tenant uses
them (R261). -/
def clearQueues (s : State) (l : Launch) : State :=
  if !bit (l.dw 3) 6 then s else
  let busy (d : Nat) : Bool := s.binds.any fun e =>
    e.1 % 16 == l.tenant.toNat && dieOf (e.1 / 16) == d && e.2.any fun b => b.qp
  (((l.cores s).map dieOf).eraseDups.filter fun d => !busy d).foldl (fun s d =>
    s.modDie d fun x => { x with igq := x.igq.filter fun e => e.1 / 64 != l.tenant.toNat }) s

/-- One core is bound (R255); where it runs the tenant already, the images are loaded at once. -/
def bindCore (l : Launch) (s : State) (g : Nat) : State :=
  let s := s.setBind g l.tenant (some (newBind s l g))
  let ran := tget 0 (s.core g).lastRan l.tenant.toNat
  let now := s.cycle
  let s := if ran = 0 then s.modCore g fun c => { c with lastRan := tset 0 c.lastRan l.tenant.toNat (now + 1) } else s
  if (s.core g).tenant == some l.tenant && !(s.core g).leaving then loadImages s g l.tenant else s

/-- LAUNCH_START (R254, R255): the waiting launch of tenant t binds its cores once they are free. -/
def execLaunchStart (t : TenantNo) (s : State) : Out' :=
  match waitingLaunch s t with
  | none => .next s
  | some l =>
    if mustWait s l then .next s
    else
      let s1 := (l.cores s).foldl (bindCore l) (clearQueues s l)
      .next (consume { s1 with nextId := s1.nextId + 1 } t)

/-! ### Completing -/

/-- A context of the launch is left, in a slot, parked or saved (R266). -/
def hasContext (s : State) (lid : Nat) : Bool :=
  s.ctxs.any (fun e => e.2.any fun c => c.task.lid == lid) || s.cores.any fun e =>
    e.2.parked.any (fun p => p.ctx.task.lid == lid) || e.2.saved.any fun x => x.2.any fun y => y.2.task.lid == lid

/-- Queued work of the launch is left: task entries, tile tasks, continuation records in state 1 or 2 (R266). -/
def hasQueued (s : State) (l : Launch) : Bool :=
  ((launchCores s l.tenant l.lid).any fun e =>
    let b := e.2
    b.deque != [] || b.arrivals != [] || b.ring != [] || b.stolen != [] || decide (b.tileLo < b.tileHi)) ||
  s.fl.arrivals.any (fun a => a.entry.task.lid == l.lid) || s.fl.conds.any fun r => r.lid == l.lid

/-- The stores that core g's release at the completion publishes (R172, R266): its own, or those of the tenant's saved
core block. -/
def lastCells (s : State) (g : Nat) (t : TenantNo) : List (Nat × Byte) :=
  if (s.core g).tenant = some t then pubCells s g .system
  else match tget none (s.core g).blocks t.toNat with
    | some b => b.unpub.filterMap fun e => e.2.map fun v => (e.1, v)
    | none => []

/-- Core g's Release(SYSTEM) at the completion. -/
def lastRelease (t : TenantNo) (s : State) (g : Nat) : State :=
  let ws := lastCells s g t
  if (s.core g).tenant = some t then publish s (BitVec.ofNat 12 g) .system ws
  else
    (writeHome s (.core (BitVec.ofNat 12 g)) .system ws).modCore g fun c => { c with
      blocks := c.blocks.map fun e => if e.1 = t.toNat then (e.1, e.2.map fun b => { b with unpub := [] }) else e }

/-- Core registers with both scalar cores stopped. -/
def CoreRegs.stopScalars (r : CoreRegs) : CoreRegs :=
  { r with loader := { r.loader with running := false }, storer := { r.storer with running := false } }

/-- One core is unbound: its scalar cores stop, and the launch's pins are released (R119, R256, R266). -/
def unbind (t : TenantNo) (s : State) (g : Nat) : State :=
  let s := match s.bind g t with
    | some b => unpin s b.lid g
    | none => s
  let s := s.setBind g t none
  if (s.core g).tenant = some t then s.modCore g fun c => { c with regs := c.regs.stopScalars }
  else s.modCore g fun c => { c with
    blocks := c.blocks.map fun e => if e.1 = t.toNat then (e.1, e.2.map fun b => { b with regs := b.regs.stopScalars }) else e }

/-- The failure that a completion record names (R267): the lowest timeline, and its lowest job. -/
def firstFailure (l : Launch) : Option (Nat × Nat) :=
  l.failures.foldl (fun m f => match m with
    | none => some f
    | some x => if f.1 < x.1 || (f.1 == x.1 && f.2 < x.2) then some f else some x) none

/-- The completion record of a launch (R267): its two dwords. -/
def completion (l : Launch) : Word × Word :=
  let done := min l.discarded (2 ^ 32 - 1) * 2 ^ 32
  match l.stopped with
  | some a => (BitVec.ofNat 64 (done + 3), a)
  | none =>
    match firstFailure l with
    | some f => (BitVec.ofNat 64 (done + f.1 % 4 * 2 ^ 16 + (if l.exiting then 5 else 4)), BitVec.ofNat 64 f.2)
    | none => (BitVec.ofNat 64 (done + if l.exiting then 1 else 0), 0)

/-- LAUNCH_COMPLETE (R266): a bound launch with nothing left completes; a stopped one discards its queued work. -/
def execLaunchComplete (lid : Nat) (s : State) : Out' :=
  match s.launch? lid with
  | none => .next s
  | some l =>
    let gs := (launchCores s l.tenant lid).map (·.1)
    if gs = [] || l.dead || hasContext s lid || (l.stopped.isNone && hasQueued s l) ||
        !leesRoom s (gs.flatMap fun g => lastCells s g l.tenant) || !reportRoom s l then .next s
    else
      let s := gs.foldl (lastRelease l.tenant) s
      let s := report s l (completion l).1 (completion l).2
      let s := gs.foldl (unbind l.tenant) s
      .next { s with
        launches := s.launches.filter fun x => x.lid != lid
        fl := { s.fl with
          arrivals := s.fl.arrivals.filter fun a => a.entry.task.lid != lid
          conds := s.fl.conds.filter fun r => r.lid != lid } }

/-- EXIT_MARK_SEEN (R287): core g sees its launch's exit mark. -/
def execExitMarkSeen (g : GCore) (lid : Nat) (s : State) : Out' :=
  match s.launch? lid with
  | none => .next s
  | some l =>
    if l.exiting then .next (s.modBind g.toNat l.tenant fun b => if b.lid = lid then { b with seenExit := true } else b)
    else .next s

/-- WORK_AREA_FAULT (R264): an access of the hardware to a work area of the launch fails, and the launch is stopped. -/
def execWorkAreaFault (lid : Nat) (addr : Word) (s : State) : Out' :=
  match s.launch? lid with
  | none => .next s
  | some l =>
    let hit (g : Nat) : Bool :=
      decide (l.area g ≤ addr.toNat) && decide (addr.toNat < l.area g + 0x20000) &&
        match check s g l.tenant .wr addr.toNat 1 with
        | .ok ps => (lostIn s ps).isSome
        | .error _ => true
    if (launchCores s l.tenant lid).any (fun e => hit e.1) then .next (stopLaunch s lid addr) else .next s

/-! ### Continuations and messages -/

/-- CONTINUATION_QUEUE (R283, R284): registered continuation n is queued by its condition, or by its deadline, whichever came
first (R290). -/
def execContinuationQueue (n : Nat) (s : State) : Out' :=
  match s.fl.conds[n]? with
  | none => .next s
  | some r =>
    if !leesRoom s [(r.pa, 0)] then .next s
    else .next (asSlot s r.home 0 fun s =>
      if !r.late && contHolds s r.kind then queueIfMet s r
      else if r.late || r.deadline ≤ s.cycle then countSent (queueRecord s r 0) r.home.toNat r.tenant r.lid 1
      else s)

/-- The context that holds a TID, in a slot of core g or parked there. -/
def mailHolder (s : State) (g : Nat) (tid : BitVec 32) : Option Ctx :=
  ((coreCtxs s g) ++ (s.core g).parked.map (·.ctx)).find? fun c => c.tid == tid

/-- The saved context of core g that holds a TID. -/
def savedHolder (s : State) (g : Nat) (tid : BitVec 32) : Option Ctx :=
  ((s.core g).saved.flatMap fun e => e.2.map (·.2)).find? fun c => c.tid == tid

/-- The first entry of a kind in the store spills. -/
def spillFirst (line : Bool) : List Msg → List Msg
  | [] => []
  | m :: ms => if m.line = line && !m.spilled then { m with spilled := true } :: ms else m :: spillFirst line ms

/-- The tenant in whose spill area the oldest entry of a message's kind goes (R224, R264). -/
def spillOwner (mail : List Msg) (m : Msg) : TenantNo :=
  ((mail.find? fun x => x.line == m.line && !x.spilled).map (·.tenant)).getD m.tenant

/-- The oldest entry of a message's kind goes to the spill area in the work area of its tenant's launch (R224, R264); what
the entry holds beside the message is the hardware's. -/
def mailSpill (s : State) (g : Nat) (m : Msg) : State :=
  let mail := (s.core g).mail
  match mail.find? (fun x => x.line == m.line && !x.spilled) with
  | none => s
  | some x =>
    let n := (mail.filter fun y => y.spilled && y.tenant == x.tenant).length
    let image := x.data ++ (upTo (128 - x.data.length)).map fun i => Config.opaqueByte (128 * s.fresh + i)
    match s.bind g x.tenant with
    | some b => areaWrite { s with fresh := s.fresh + 1 } g x.tenant b.lid (0x10000 + 128 * n) image
    | none => s

/-- A message enters core g's mailbox store (R224), after a spill where its kind is full; none where both are full. -/
def acceptMail (s : State) (g : Nat) (m : Msg) : Option State :=
  let mail := (s.core g).mail
  let held := (mail.filter fun x => x.line == m.line && !x.spilled).length
  if held < (if m.line then 16 else 64) then some (s.modCore g fun c => { c with mail := c.mail ++ [m] })
  else if (mail.filter fun x => x.spilled && x.tenant == spillOwner mail m).length < 32 then
    some (((mailSpill s g m).modCore g fun c => { c with mail := spillFirst m.line c.mail ++ [m] }).bump g 0x0052)
  else none

/-- The sender's instruction completes (R224). -/
def sendDone (s : State) (m : Msg) : State :=
  match (allOuts s).find? fun e => e.2.2.id == m.out && isSend e.2.2.i with
  | some (g, k, o) => runOut s g k o .done
  | none => s

/-- The sending core adds 1 to its RCVD (R241). -/
def senderCounts (s : State) (m : Msg) : State := countRcvd s (tidCore m.src) m.tenant m.lid 1

/-- The acceptance of a message for context c of core g, into the store or into the log of a saved context; a logged message
that is replayed has been counted already (R222, R241). -/
def acceptFor (s : State) (g : Nat) (c : Ctx) (saved : Bool) (m : Msg) : Option State :=
  let s' := if saved then some (s.modCore g fun x => { x with log := x.log ++ [m] }) else acceptMail s g m
  if m.accepted then s' else
  s'.map fun s => (if c.task.lid = m.lid then s else senderCounts s m).bump (tidCore m.src) 0x0050

/-- MESSAGE_ACCEPT (R224–R226, R241): message n in flight is accepted or dropped by its receiving core, behind the
earlier ones of its sender and kind. -/
def execMessageAccept (n : Nat) (s : State) : Out' :=
  match s.fl.mesh[n]? with
  | none => .next s
  | some m =>
    let g := tidCore m.dst
    if (s.fl.mesh.take n).any fun x => x.src == m.src && x.dst == m.dst && x.line == m.line && x.hi == m.hi then .next s
    else
      let gone : State := { s with fl := { s.fl with mesh := dropAt s.fl.mesh n } }
      let drop : State := if m.accepted then gone else sendDone (senderCounts (gone.bump g 0x0053) m) m
      let take (c : Ctx) (saved : Bool) : State :=
        if c.tenant ≠ m.tenant then drop else ((acceptFor gone g c saved m).map fun s => sendDone s m).getD s
      match mailHolder s g m.dst with
      | some c => .next (take c false)
      | none =>
        match savedHolder s g m.dst with
        | some c => .next (take c true)
        | none => .next drop

end Sys2Proof.Machine
end

