-- ==== Sys2Proof/Machine/Tenant.lean ====
section
/-! DEFINITION. Tenants on a core (R276, R433, R434, R458): the end of a time slice, the core block, the restore of a
tenant, and the passing of a core. -/

namespace Sys2Proof.Machine

/-! ### Whose turn -/

/-- Tenants other than o that have a bound launch or saved contexts on core g (R276). -/
def competitors (s : State) (g : Nat) (o : Option TenantNo) : List TenantNo :=
  ((upTo 16).map (BitVec.ofNat 4)).filter fun t =>
    some t != o && ((s.bind g t).isSome || tget [] (s.core g).saved t.toNat != [])

/-- The tenant of a list with the smallest key, the lowest number among equals. -/
def leastOf (key : TenantNo → Nat) (l : List TenantNo) : Option TenantNo :=
  l.foldl (fun m t => match m with
    | none => some t
    | some x => if key t < key x then some t else some x) none

/-- The tenant that core g passes to: the one that has waited longest, or for a core that runs none the one whose launch
was bound first (R276). -/
def nextTenant (s : State) (g : Nat) : Option TenantNo :=
  let c := s.core g
  match c.tenant with
  | some _ => leastOf (fun t => tget 0 c.lastRan t.toNat) (competitors s g c.tenant)
  | none => leastOf (fun t => ((s.bind g t).map (·.boundAt)).getD 0) (competitors s g none)

/-! ### The end of a slice -/

/-- The slice of core g's tenant is over (R250, R276). -/
def sliceOver (s : State) (g : Nat) (t : TenantNo) : Bool :=
  let len := fld (s.cfgAt (tenReg t 0x220)) 31 0
  len != 0 && decide ((s.core g).sliceStart + len ≤ s.cycle)

/-- A context can be saved: what is outstanding can be withdrawn or cancelled, or waits, and no trap is on its way, which is
entered first (R202, R222, R321, R454). -/
def savable (c : Ctx) : Bool :=
  c.iss.entry.isNone && c.iss.outs.all fun o => (isSfu o.i || isUpdate o.i || o.wait.isSome) && o.trap.isNone

/-- The base of core g's save area of tenant t (R433). -/
def saveBase (s : State) (g : Nat) (t : TenantNo) : Nat := fld (s.cfgAt (tenReg t 0x18)) 51 19 * 2 ^ 19 + g * 0x80000

/-- The piece of a save area; none where it is no DRAM. -/
def savePieces (s : State) (pa n : Nat) : List Piece :=
  match placeOf s.part pa with
  | .dram _ => [⟨0, pa, n, 0⟩]
  | _ => []

/-- Slot k of core g is saved for its tenant (R276, R430). -/
def saveSlot (g : GCore) (t : TenantNo) (s : State) (k : Nat) : State :=
  let slot : Slot := BitVec.ofNat 4 k
  match s.ctx g slot with
  | none => s
  | some _ =>
    let s := asSlot s g slot toSaved
    let c := (s.ctx g slot).getD {}
    let s := saveRecord s (.core g) (savePieces s (saveBase s g.toNat t + 0x1000 * k) 4096) c
    (s.setCtx g slot none).modCore g.toNat fun x => { x with
      saved := tput x.saved t.toNat (tget [] x.saved t.toNat ++ [(k, c)]) }

/-- The spill counter after n moves. -/
def spillBy (w : Word) (n : Nat) : Word := BitVec.ofNat 64 (min (w.toNat + n) (2 ^ 64 - 1))

/-- The on-chip arrivals of core g move to the spill ring; what finds no room is held in the mesh (R263, R274). -/
def spillArrivals (s : State) (g : GCore) (t : TenantNo) : State :=
  match s.bind g.toNat t with
  | none => s
  | some b =>
    let n := 256 - b.ring.length
    let moved := b.arrivals.take n
    let s := s.setBind g.toNat t (some { b with ring := b.ring ++ moved, arrivals := [], spill := spillBy b.spill moved.length })
    let s := ringWrite s g.toNat t moved.length
    { s with fl := { s.fl with arrivals := s.fl.arrivals ++ (b.arrivals.drop n).map fun e => ⟨g, t, e⟩ } }

/-- The contexts of core g as a save takes them: their pushed stores are performed before its release (R172, R305). -/
def flushSlots (s : State) (g : GCore) : State :=
  (upTo 16).foldl (fun s k =>
    let slot : Slot := BitVec.ofNat 4 k
    if (s.ctx g slot).isSome then asSlot s g slot toSaved else s) s

/-- Core g's tenant is taken off the core (R276): Release(MODULE), every context saved, arrivals spilled. -/
def saveTenant (s : State) (g : GCore) (t : TenantNo) : State :=
  let s := flushSlots s g
  let s := publish s g .module (pubCells s g.toNat .module)
  let s := spillArrivals ((upTo 16).foldl (saveSlot g t) s) g t
  s.modCore g.toNat fun c => { c with leaving := true }

/-- The lees stores have room for a save. -/
def saveRoom (s : State) (g : GCore) (t : TenantNo) : Bool :=
  let s := flushSlots s g
  leesRoom s (pubCells s g.toNat .module) && roomFor s (savePieces s (saveBase s g.toNat t) 0x10000)

/-- A new slice begins. -/
def restartSlice (s : State) (g : Nat) : State :=
  let now := s.cycle
  s.modCore g fun c => { c with sliceStart := now }

/-- The last retirement left core g empty in this cycle (R276). -/
def lastRetired (s : State) (g : GCore) (t : TenantNo) : Bool :=
  (s.core g.toNat).ended == s.cycle + 1 && coreCtxs s g.toNat == [] &&
    match s.bind g.toNat t with
    | some b => candidates s g.toNat t b == []
    | none => true

/-- TIME_SLICE_EXPIRY (R276): with no competitor, or where the last retirement wins, the slice restarts; else the
tenant's contexts are saved once they can be. -/
def execTimeSliceExpiry (g : GCore) (s : State) : Out' :=
  match (s.core g.toNat).tenant with
  | none => .next s
  | some t =>
    if !sliceOver s g.toNat t || (s.core g.toNat).leaving then .next s
    else if competitors s g.toNat (some t) = [] || lastRetired s g t then .next (restartSlice s g.toNat)
    else if (coreCtxs s g.toNat).all savable && saveRoom s g t then .next (saveTenant s g t)
    else .next s

/-! ### Core blocks -/

/-- An address of core g's scratchpad or data memories. -/
def coreLocal (g a : Nat) : Bool :=
  (spadBase + g * 2 ^ 17 ≤ a && a < spadBase + (g + 1) * 2 ^ 17) || (smemBase + g * 2 ^ 14 ≤ a && a < smemBase + (g + 1) * 2 ^ 14)

/-- The bytes of a scalar core's instruction store and data memory. -/
def scalarImage (s : State) (g : Nat) (r : Role) : List Byte :=
  imemBytes (s.scalar g r) 0 0x4000 ++ s.memBytes (smemBase + g * 2 ^ 14 + if r = .storer then 2 ^ 13 else 0) 0x2000

/-- The full/empty bits as bytes (R433). -/
def feBytes (t : Table Bool) : List Byte :=
  (upTo 2048).map fun i => BitVec.ofNat 8 (((upTo 8).map fun j => if tget false t (8 * i + j) then 2 ^ j else 0).sum)

/-- A weight slot as 16 KiB of a core block (R433): its bytes, then free ones. -/
def slotImage (n i : Nat) (x : Option (WFmt × List Byte)) : List Byte :=
  let bs := ((x.map (·.2)).getD []).take 0x4000
  bs ++ freeBytes n (i + bs.length) (0x4000 - bs.length)

/-- The tag buffer as 1 KiB, four tags a byte as a map holds them (R347, R433). -/
def tagImage (tags : List Byte) : List Byte :=
  (upTo 1024).map fun i => BitVec.ofNat 8 ((upTo 4).map fun j => (tags.getD (4 * i + j) 0).toNat % 4 * 4 ^ j).sum

/-- The dwords of a core block at 0x4_5700, in the order in which R433 lists them. DESIGN CHOICE (log entry 36): one dword
each, with the bits of their special registers. -/
def blockDwords (r : CoreRegs) (b : Bind) : List Word :=
  let p (i : Nat) : Pmc := tget {} r.pmc i
  [r.mq.mmode.setWidth 64, (p 0).count, (p 1).count, (p 2).count, (p 3).count,
   (p 0).event.setWidth 64, (p 1).event.setWidth 64, (p 2).event.setWidth 64, (p 3).event.setWidth 64,
   r.phlim.setWidth 64, b.parkt.setWidth 64, r.twto.setWidth 64, b.qpto.setWidth 64, b.lcore.setWidth 64,
   BitVec.ofNat 64 ((if b.qp then 1 else 0) + if b.fuse then 2 else 0), b.qpbind, b.spill]

/-- The core block from 0x1_0000 on (R433); what no rule lays out is free bytes numbered from n. -/
def blockImage (s : State) (g n : Nat) (t : TenantNo) : List Byte :=
  let r := (s.core g).regs
  let ds := blockDwords r ((s.bind g t).getD { lid := 0 })
  s.memBytes (spadBase + g * 2 ^ 17) 0x20000 ++ slotImage n 0 r.mq.active ++ slotImage n 0x4000 r.mq.shadow ++
  scalarImage s g .loader ++ scalarImage s g .storer ++
  wordBytes ((upTo 64).map fun i => tget 0 r.s i) ++ ((upTo 32).flatMap fun i => bytesOf 64 (tget 0 r.vs i).toNat) ++
  wordBytes ((upTo 32).map fun i => tileWord (tget {} r.tiles i)) ++ feBytes r.fe ++ tagImage r.mq.tags ++
  wordBytes ds ++ freeBytes n 0x8000 (0x100 - 8 * ds.length) ++ freeBytes n 0x8100 0x2800

/-- Bytes a to a+n of a core block whose image from 0x1_0000 on is bs. -/
def blockPart (bs : List Byte) (a n : Nat) : List Byte := (bs.drop (a - 0x10000)).take n

/-- A tile entry as its word gives it (R138); the failed address of its last command is kept. -/
def wordTile (old : Tile) (w : Word) : Tile :=
  { old with state := w.extractLsb' 62 2, dfn := bit w 61, fault := bit w 60, base := w.extractLsb' 32 10
             size := w.extractLsb' 16 11, pend := w.setWidth 16 }

/-- A weight slot as a block gives its bytes back; its format and length are opaque. -/
def slotBack (bs : List Byte) (x : Option (WFmt × List Byte)) : Option (WFmt × List Byte) := x.map fun y => (y.1, bs.take y.2.length)

/-- The registers of a core block as its image gives them back (R333, R433): what no rule lays out comes from r, what the
block was saved with. -/
def imageRegs (bs : List Byte) (r : CoreRegs) : CoreRegs :=
  let d (a i : Nat) : Word := wordOfBytes (blockPart bs (a + 8 * i) 8)
  { r with
    s := tableOf 0 ((upTo 64).map fun i => (i, d 0x44000 i))
    vs := tableOf 0 ((upTo 32).map fun i => (i, BitVec.ofNat 512 (ofBytes (blockPart bs (0x44200 + 64 * i) 64))))
    tiles := tableOf {} ((upTo 32).map fun i => (i, wordTile (tget {} r.tiles i) (d 0x44A00 i)))
    fe := tableOf false ((upTo 16384).map fun j => (j, ((blockPart bs (0x44B00 + j / 8) 1).headD 0).getLsbD (j % 8)))
    pmc := tableOf {} ((upTo 4).map fun i => (i, { event := (d 0x45700 (5 + i)).setWidth 16, count := d 0x45700 (1 + i) }))
    phlim := (d 0x45700 9).setWidth 32
    twto := (d 0x45700 11).setWidth 32
    loader := { r.loader with imem := imageTable (blockPart bs 0x38000 0x4000) }
    storer := { r.storer with imem := imageTable (blockPart bs 0x3E000 0x4000) }
    mq := { r.mq with
      active := slotBack (blockPart bs 0x30000 0x4000) r.mq.active
      shadow := slotBack (blockPart bs 0x34000 0x4000) r.mq.shadow
      tags := if r.mq.tags = [] then [] else mapTags (blockPart bs 0x45300 0x400)
      mmode := (d 0x45700 0).setWidth 4 } }

/-- The bytes of core g's scratchpad and data memories as a block's image gives them back. -/
def imageCells (g : Nat) (bs : List Byte) : List (Nat × Byte) :=
  cellsAt (spadBase + g * 2 ^ 17) (blockPart bs 0x10000 0x20000) ++
  cellsAt (smemBase + g * 2 ^ 14) (blockPart bs 0x3C000 0x2000 ++ blockPart bs 0x42000 0x2000)

/-- The core block of tenant t is saved, and the core keeps nothing of it (R433). -/
def saveBlock (s : State) (g : GCore) (t : TenantNo) : State :=
  let i := g.toNat
  let ps := savePieces s (saveBase s i t + 0x10000) 0x38000
  let b : Block := ⟨(s.core i).regs, s.mem.filter fun c => coreLocal i c.1, (s.core i).ph.unpub⟩
  let s1 := writeNow (claim s t ps) (.core g) .module (pieceCells ps (blockImage s i s.fresh t))
  let s2 := s1.modCore i fun c => { c with
    regs := {}, blocks := tput c.blocks t.toNat (some b), ph := { c.ph with unpub := [], l2 := [] } }
  { s2 with mem := s2.mem.filter fun c => !coreLocal i c.1, fresh := s.fresh + 22 }

/-- The core keeps nothing of its tenant, and nothing is saved (R458). -/
def dropBlock (s : State) (g : GCore) : State :=
  let s := s.modCore g.toNat fun c => { c with regs := {}, ph := { c.ph with unpub := [], l2 := [] } }
  { s with mem := s.mem.filter fun c => !coreLocal g.toNat c.1 }

/-- A block as the save area gives it back (R333, R433); an area that is no memory gives the block as it was saved. -/
def areaBlock (s : State) (g : GCore) (t : TenantNo) (b : Block) : Block :=
  match savePieces s (saveBase s g.toNat t + 0x10000) 0x38000 with
  | [] => b
  | ps =>
    let bs := homeBytes s t ps
    { b with regs := imageRegs bs b.regs, cells := imageCells g.toNat bs }

/-- The core block of tenant t is restored, or the initial state where none is saved (R433, R434). -/
def restoreBlock (s : State) (g : GCore) (t : TenantNo) : State :=
  let i := g.toNat
  let b := match tget none (s.core i).blocks t.toNat with
    | some b => areaBlock s g t b
    | none => {}
  let s1 := s.modCore i fun c => { c with
    regs := b.regs, blocks := tdel c.blocks t.toNat
    ph := { c.ph with unpub := b.unpub, l2 := (b.unpub.map fun e => lineOf e.1).eraseDups } }
  ({ s1 with mem := s1.mem.filter fun c => !coreLocal i c.1 } : State).poke b.cells

/-! ### The restore -/

/-- A saved context as it comes back (R202, R222): its waits, which register anew as number id, evaluate again, and the
updates that it had outstanding are to be performed in order, before what RETT is to perform. -/
def Ctx.restored (c : Ctx) (id : Nat) : Ctx :=
  let up (w : Wait) : Wait := { w with woken := true, reg := id }
  let back (o : Out) : Out := if o.wait.isSome then { o with wait := o.wait.map up, src := { o.src with k := BitVec.ofNat 64 id } } else o
  let ups := c.iss.outs.filter fun o => isUpdate o.i
  { c with
    withdrawn := ups ++ c.withdrawn
    replay := c.replay || ups != []
    kept := if c.replay || ups = [] then c.kept else c.withdrawn.length
    iss := { c.iss with wait := c.iss.wait.map up, outs := (c.iss.outs.filter fun o => !isUpdate o.i).map back } }

/-- A saved context comes back to its slot, with the fields that its save area holds (R222, R276, R430). -/
def restoreSlot (g : GCore) (s : State) (e : Nat × Ctx) : State :=
  let k : Slot := BitVec.ofNat 4 e.1
  let bs := homeBytes s e.2.tenant (savePieces s (saveBase s g.toNat e.2.tenant + 0x1000 * e.1) 4096)
  ({ s with nextId := s.nextId + 1 } : State).setCtx g k (some ((restoreFields bs e.2).restored s.nextId))

/-- Logged messages are accepted in order; those that find no room go back to the head of the mesh, in their order, and are
accepted already (R222, R225). -/
def replayMail (g : Nat) (held : List Msg) : List Msg → State → State
  | [], s => { s with fl := { s.fl with mesh := held ++ s.fl.mesh } }
  | m :: ms, s =>
    match acceptMail s g m with
    | some s' => replayMail g held ms s'
    | none => replayMail g (held ++ [{ m with out := 0, accepted := true }]) ms s

/-- Nothing of the tenant's engine work still uses the core's own state (R333, R433). -/
def drained (s : State) (g : Nat) : Bool :=
  let c := s.core g
  c.regs.mq.cmds.isEmpty && !c.regs.mq.run && c.regs.mq.gone == [] && c.eng.fills.isEmpty

/-- Core g passes to tenant t (R276, R329, R433, R434): blocks change, images load, saved contexts return, the log is
replayed, and the core acquires at MODULE scope where it is restored. `save` says that the outgoing block is saved. -/
def passTo (save : Bool) (s : State) (g : GCore) (t : TenantNo) : State :=
  let i := g.toNat
  let now := s.cycle
  let old := (s.core i).tenant
  let held := (tget none (s.core i).blocks t.toNat).isSome
  let s := match old with
    | some o => (if save then saveBlock s g o else dropBlock s g).modCore i fun c => { c with lastRan := tput c.lastRan o.toNat (now + 1) }
    | none => s
  let back := tget [] (s.core i).saved t.toNat
  let s := (restoreBlock s g t).modCore i fun c => { c with
    tenant := some t, leaving := false, sliceStart := now, saved := tdel c.saved t.toNat }
  let s := s.modCluster (clusterOf i) fun c => { c with cells := none }
  let s := if (s.bind i t).any (fun b => !b.loaded) then loadImages s i t else s
  let s := back.foldl (restoreSlot g) s
  let mine := (s.core i).log.filter fun m => m.tenant == t
  let s := replayMail i [] mine (s.modCore i fun c => { c with log := c.log.filter fun m => m.tenant != t })
  if held then acquire s i .module else s

/-- The room that saving the outgoing block needs. -/
def passRoom (s : State) (g : Nat) : Bool :=
  match (s.core g).tenant with
  | some o => roomFor s (savePieces s (saveBase s g o + 0x10000) 0x38000)
  | none => true

/-- TENANT_RESTORE (R276, R433): a core whose tenant is saved, or that runs none, passes to tenant t where it is t's
turn. -/
def execTenantRestore (g : GCore) (t : TenantNo) (s : State) : Out' :=
  let c := s.core g.toNat
  if (c.leaving || c.tenant.isNone) && nextTenant s g.toNat == some t && drained s g.toNat && passRoom s g.toNat then
    .next (passTo true s g t)
  else .next s

/-- TENANT_HANDOVER (R458): a core whose tenant has no context, candidate or bound launch there passes at once, and nothing
is saved. -/
def execTenantHandover (g : GCore) (s : State) : Out' :=
  match (s.core g.toNat).tenant with
  | none => .next s
  | some o =>
    if (s.bind g.toNat o).isSome || coreCtxs s g.toNat != [] || (s.core g.toNat).leaving || !drained s g.toNat then
      .next s
    else
      match nextTenant s g.toNat with
      | some t => .next (passTo false s g t)
      | none => .next s

end Sys2Proof.Machine
end

