-- ==== Sys2Proof/Machine/Coherence.lean ====
section
/-! DEFINITION. The events of the memory system: publications and the lees store (R158, R175), the sluice (R177, R178),
recalls and evictions of lines (R193, R197, R200, R201), and the acceptance of pushed commands (R331, R389). -/

namespace Sys2Proof.Machine

/-! ### Publications -/

/-- PUBLICATION_COMPLETE (R158, R175): waiting publication n completes once the lees stores have room, in the order of
its core's publications. -/
def execPublicationComplete (n : Nat) (s : State) : Out' :=
  match s.coh.waiting[n]? with
  | none => .next s
  | some w =>
    if (s.coh.waiting.take n).any (fun x => x.g == w.g) || !leesRoom (s.asWho w.g 0) w.cells then .next s
    else
      let s1 : State := { s with coh := { s.coh with waiting := dropAt s.coh.waiting n } }
      .next ((publishHeld s1 w.g w.scope w.cells).bumpBy w.g.toNat 0x0041 (s.cycle - w.since))

/-- LEES_RELEASE (R175): old versions that no open snapshot can read leave the lees stores. -/
def execLeesRelease (s : State) : Out' :=
  .next { s with coh := { s.coh with pubs := leesDrop s s.coh.pubs } }

/-! ### The sluice -/

/-- SLUICE_WINDOW (R178): the end of the window of 65,536 cc. -/
def execSluiceWindow (s : State) : Out' := .next (advance s ((s.cycle / 65536 + 1) * 65536 - s.cycle))

/-- Two sibling regions may merge (R177). -/
def mayMerge (s : State) (a b : Region) : Bool :=
  a.gran == b.gran && a.gran < 16 && b.line == Nat.xor a.line (2 ^ (a.gran - 7)) &&
    decide (a.conflictAt + 2 ^ 20 ≤ s.cycle) && decide (b.conflictAt + 2 ^ 20 ≤ s.cycle)

/-- Two sibling regions as one (R177). -/
def mergeRegions (a b : Region) : Region :=
  let keys := (tkeys a.lastUse ++ tkeys b.lastUse).eraseDups
  { line := min a.line b.line, gran := a.gran + 1, deg := min a.deg b.deg
    lastUse := keys.foldl (fun t k => tput t k (max (tget 0 a.lastUse k) (tget 0 b.lastUse k))) []
    conflictAt := max a.conflictAt b.conflictAt
    writes := a.writes ++ b.writes, touches := a.touches ++ b.touches, rises := a.rises ++ b.rises
    evicts := a.evicts ++ b.evicts }

/-- REGION_MERGE (R177): region n of die d and its sibling half merge. -/
def execRegionMerge (d : DieNo) (n : Nat) (s : State) : Out' :=
  let rs := (s.die d.toNat).regions
  match rs[n]? with
  | none => .next s
  | some a =>
    match rs.find? (mayMerge s a) with
    | none => .next s
    | some b =>
      let m := mergeRegions a b
      let s := s.modDie d.toNat fun die => { die with regions := m :: die.regions.filter fun x => x != a && x != b }
      .next (trimRegion (s.bumpDie d.toNat 0x0049 1) m)

/-! ### Lines -/

/-- LINE_RECALL (R193): the home recalls a line from the L1 that owns it. -/
def execLineRecall (line : Nat) (s : State) : Out' :=
  .next { s with coh := { s.coh with owned := tset none s.coh.owned line none } }

/-- COPY_EVICT_FOLD (R197): the home folds the update-only copy that core g's L1 evicts. -/
def execCopyEvictFold (g : GCore) (line : Nat) (s : State) : Out' :=
  let key := partKey line g.toNat
  match tget [] s.coh.copies key with
  | [] => .next s
  | p =>
    let s := unpart s line
    let s1 : State := { s with coh := { s.coh with copies := tset [] s.coh.copies key [] } }
    .next (homeLine (foldPartial s1 g .core line (tget 0 s.coh.hdr line) p) line)

/-- ACC_LINE_EVICT (R201): the home evicts an accumulator line half accumulated. -/
def execAccLineEvict (line : Nat) (s : State) : Out' :=
  let h := tget 0 s.coh.hdr line
  .next (if h = 0 then s else { s with coh := { s.coh with hdr := tset 0 s.coh.hdr line (setFld h 7 7 1) } })

/-- SLICE_EVICTION (R200): core g's L1 evicts a slice, and the home keeps it. -/
def execSliceEviction (g : GCore) (line : Nat) (s : State) : Out' :=
  let key := partKey line g.toNat
  if tget [] s.coh.slices key = [] || s.coh.sliceHome.contains key then .next s
  else .next { s with coh := { s.coh with sliceHome := key :: s.coh.sliceHome } }

/-! ### Pushed commands -/

/-- The timeline, the destination and the queue entry of a pushed command (R331, R389). -/
def pushOf : Instr → Option (Nat × GReg × (Src → State → State))
  | .mldw _ f a _ _ => some (1, a, enterM (cmdMldw f))
  | .mswap _ a => some (1, a, enterM cmdMswap)
  | .mstream _ f o r a _ _ d => some (1, a, enterM (cmdMstream f o r d))
  | .mattn _ a _ => some (1, a, enterM cmdMattn)
  | .mcfg _ a _ => some (1, a, enterM cmdMcfg)
  | .cpy _ a _ _ len => some (0, a, enterC (cmdCpy len))
  | .cpy2d _ a _ => some (0, a, enterC cmdCpy2d)
  | .cpyf _ x y a _ _ _ => some (0, a, enterC (cmdCpyf x y))
  | .cpyg _ a _ _ _ _ r => some (0, a, enterC (cmdCpyg r))
  | .coll _ op a _ _ _ _ n g => some (2, a, enterColl op n g)
  | .colla _ a _ => some (2, a, enterColla)
  | .smpl _ a _ => some (3, a, enterPr reqSmpl)
  | .smplv _ a _ => some (3, a, enterPr reqSmplv)
  | .smcommit _ a _ _ => some (3, a, enterPr reqCommit)
  | _ => none

/-- COMMAND_ACCEPT (R331, R389): the queue accepts the pushed command of outstanding instruction j, or the cancelled
command completes. -/
def execCommandAccept (g : GCore) (k : Slot) (j : Nat) (s : State) : Out' :=
  match s.outOf g k j with
  | none => .next s
  | some o =>
    match pushOf o.i with
    | some (tl, a, enter) => .next (runOut s g k o (perfPush tl a enter o.src))
    | none => .next s

end Sys2Proof.Machine
end

