-- ==== Sys2Proof/Machine/Scalar.lean ====
section
/-! DEFINITION. The loader and storer cores (R147–R154): RV64IMC with Zicsr in machine mode, the Xfltile
instructions, and the fills and drains that they push. -/

namespace Sys2Proof.Machine

/-! ### Registers -/

/-- Register x[r]; x0 reads 0. -/
def Scalar.rx (x : Scalar) (r : BitVec 5) : Word := if r = 0 then 0 else tget 0 x.x r.toNat
/-- Register x[r] is written; a write of x0 is discarded. -/
def Scalar.wx (x : Scalar) (r : BitVec 5) (v : Word) : Scalar := if r = 0 then x else { x with x := tset 0 x.x r.toNat v }
/-- A CSR as it is stored. -/
def Scalar.csrAt (x : Scalar) (n : Nat) : Word := tget 0 x.csr n
/-- A CSR is stored. -/
def Scalar.setCsr (x : Scalar) (n : Nat) (v : Word) : Scalar := { x with csr := tset 0 x.csr n v }

/-- The running scalar core. -/
def State.sx (s : State) : Scalar :=
  match s.who with
  | .scalar g r => s.scalar g.toNat r
  | _ => {}
/-- The state with the running scalar core changed. -/
def State.modSx (s : State) (f : Scalar → Scalar) : State :=
  match s.who with
  | .scalar g r => s.modScalar g.toNat r f
  | _ => s
/-- The number of a role (R153). -/
def roleNo : Role → Nat
  | .loader => 0
  | .storer => 1

/-! ### Exceptions -/

/-- An exception of machine mode (R147): mepc, mcause, mtval and mstatus are written, and the pc goes to the base
of mtvec. -/
def Scalar.except (x : Scalar) (cause : Nat) (info : Word) : Scalar :=
  let st := x.csrAt 0x300
  let st := setFld (setFld st 7 7 (fld st 3 3)) 3 3 0
  { ((((x.setCsr 0x341 x.pc).setCsr 0x342 (BitVec.ofNat 64 cause)).setCsr 0x343
      (if Config.mtvalSet cause then info else 0)).setCsr 0x300 st) with pc := x.csrAt 0x305 &&& ~~~3, deadline := none }

/-- MRET: the pc returns to mepc, and mstatus restores MIE from MPIE. -/
def Scalar.mret (x : Scalar) : Scalar :=
  let st := x.csrAt 0x300
  { x.setCsr 0x300 (setFld (setFld st 3 3 (fld st 7 7)) 7 7 1) with pc := x.csrAt 0x341 }

/-- The instruction at the pc retires, and the pc goes on. -/
def Scalar.next (x : Scalar) (pc : Word) : Scalar :=
  { x.setCsr 0xB02 (x.csrAt 0xB02 + 1) with pc := pc, deadline := none }

/-! ### Control and status registers -/

/-- A CSR as software reads it at a cc in scalar core id; none where it does not exist. -/
def csrRead (x : Scalar) (cycle id n : Nat) : Option Word :=
  if n = 0x300 then some (x.csrAt 0x300 ||| 0x1800)
  else if n = 0x301 then some 0x8000000000001104
  else if n = 0x304 || n = 0x305 || n = 0x340 || n = 0x341 || n = 0x342 || n = 0x343 || n = 0xB02 then some (x.csrAt n)
  else if n = 0x344 || n = 0x320 || (0x323 ≤ n && n ≤ 0x33F) || (0xB03 ≤ n && n ≤ 0xB1F) || n = 0xF15 then some 0
  else if n = 0xB00 then some (x.csrAt 0xB00 + BitVec.ofNat 64 cycle)
  else if 0xF11 ≤ n && n ≤ 0xF14 then some (Config.scalarId n (if n = 0xF14 then id else 0))
  else none

/-- A CSR is written by software: the bits that R147's machine mode lets it write. -/
def csrWrite (x : Scalar) (cycle n : Nat) (v : Word) : Scalar :=
  if n = 0x300 then x.setCsr n (v &&& 0x88)
  else if n = 0x304 then x.setCsr n (v &&& 0x888)
  else if n = 0x305 then x.setCsr n (v &&& ~~~2)
  else if n = 0x341 then x.setCsr n (v &&& ~~~1)
  else if n = 0x340 || n = 0x342 || n = 0x343 || n = 0xB02 then x.setCsr n v
  else if n = 0xB00 then x.setCsr n (v - BitVec.ofNat 64 cycle)
  else x

/-- A CSR of which the two highest bits of the number are set is read-only. -/
def csrReadOnly (n : BitVec 12) : Bool := n.extractLsb' 10 2 == 3

/-- The value that a CSR instruction writes. -/
def csrNew (o : RvCsr) (old v : Word) : Word :=
  match o with
  | .rw => v
  | .rs => old ||| v
  | .rc => old &&& ~~~v

/-! ### Arithmetic -/

/-- The low 32 bits of a result, sign-extended. -/
def rvW (x : BitVec 32) : Word := x.signExtend 64

/-- The high half of the product of two integers. -/
def rvMulHigh (a b : Int) : Word := BitVec.ofInt 64 (a * b / 2 ^ 64)

/-- The two-operand operations of RV64I and RV64M (R147). -/
def rvAlu (o : RvAlu) (a b : Word) : Word :=
  let aw := a.setWidth 32
  let bw := b.setWidth 32
  let sh := b.toNat % 64
  let shw := b.toNat % 32
  match o with
  | .add => a + b
  | .sub => a - b
  | .sll => a <<< sh
  | .slt => wordOfBool (a.slt b)
  | .sltu => wordOfBool (a.ult b)
  | .xor => a ^^^ b
  | .srl => a >>> sh
  | .sra => a.sshiftRight sh
  | .or => a ||| b
  | .and => a &&& b
  | .mul => a * b
  | .mulh => rvMulHigh a.toInt b.toInt
  | .mulhsu => rvMulHigh a.toInt b.toNat
  | .mulhu => rvMulHigh a.toNat b.toNat
  | .div => if b = 0 then -1 else a.sdiv b
  | .divu => if b = 0 then -1 else a / b
  | .rem => if b = 0 then a else a.srem b
  | .remu => if b = 0 then a else a % b
  | .addw => rvW (aw + bw)
  | .subw => rvW (aw - bw)
  | .sllw => rvW (aw <<< shw)
  | .srlw => rvW (aw >>> shw)
  | .sraw => rvW (aw.sshiftRight shw)
  | .mulw => rvW (aw * bw)
  | .divw => if bw = 0 then -1 else rvW (aw.sdiv bw)
  | .divuw => if bw = 0 then -1 else rvW (aw / bw)
  | .remw => rvW (if bw = 0 then aw else aw.srem bw)
  | .remuw => rvW (if bw = 0 then aw else aw % bw)

/-- Whether a branch is taken. -/
def rvTaken (c : RvBr) (a b : Word) : Bool :=
  match c with
  | .beq => a == b
  | .bne => a != b
  | .blt => a.slt b
  | .bge => !a.slt b
  | .bltu => a.ult b
  | .bgeu => !a.ult b

/-! ### Data memory -/

/-- The bytes of an access. -/
def rvBytes : RvMem → Nat
  | .b | .bu => 1
  | .h | .hu => 2
  | .w | .wu => 4
  | .d => 8

/-- A loaded value, extended. -/
def rvExtend (m : RvMem) (v : Word) : Word :=
  match m with
  | .b => sext 8 v
  | .h => sext 16 v
  | .w => sext 32 v
  | _ => v

/-- The physical address of a scalar core's data memory (R110). -/
def dataBase (g : GCore) (r : Role) : Nat := smemBase + g.toNat * 2 ^ 14 + (if r = .storer then 2 ^ 13 else 0)

/-- The first byte of an access outside the data memory of 8 KiB (R147). -/
def outside (a : Word) (n : Nat) : Option Word :=
  if 0x2000 ≤ a.toNat then some a else if 0x2000 < a.toNat + n then some 0x2000 else none

/-! ### RV64IMC and Zicsr -/

/-- A CSR instruction: its old value to rd, its new value where it writes; illegal where the CSR does not exist or is
read-only. -/
def rvCsr (o : RvCsr) (rd : BitVec 5) (n : BitVec 12) (v : Word) (writes : Bool) (word pc : Word) (cycle id : Nat)
    (x : Scalar) : Scalar :=
  match csrRead x cycle id n.toNat with
  | none => x.except 2 word
  | some old =>
    if writes && csrReadOnly n then x.except 2 word
    else
      let y := (x.next pc).wx rd old
      if writes then csrWrite y cycle n.toNat (csrNew o old v) else y

/-- The word of a CSR instruction, which mtval may hold. -/
def csrWord (f3 : BitVec 3) (n : BitVec 12) (src rd : BitVec 5) : Word := (n ++ src ++ f3 ++ rd ++ (0x73 : BitVec 7)).setWidth 64
/-- The funct3 of a CSR operation. -/
def csrF3 : RvCsr → BitVec 3
  | .rw => 1
  | .rs => 2
  | .rc => 3

/-- What a scalar core does at an instruction of RV64IMC or Zicsr but for its stores to memory (R147). -/
def rvScalar (i : RvInstr) (cycle : Nat) (g : GCore) (r : Role) (load : Nat → Nat → Word) (x : Scalar) : Scalar :=
  let id := 2 * g.toNat + roleNo r
  let seq := x.pc + i.len.setWidth 64
  match i.op with
  | .lui rd imm => (x.next seq).wx rd imm
  | .auipc rd imm => (x.next seq).wx rd (x.pc + imm)
  | .jal rd imm => (x.next (x.pc + imm)).wx rd seq
  | .jalr rd rs1 imm => (x.next ((x.rx rs1 + imm) &&& ~~~1)).wx rd seq
  | .branch c a b imm => x.next (if rvTaken c (x.rx a) (x.rx b) then x.pc + imm else seq)
  | .load m rd rs1 imm =>
    let a := x.rx rs1 + imm
    match outside a (rvBytes m) with
    | some v => x.except 5 v
    | none => (x.next seq).wx rd (rvExtend m (load a.toNat (rvBytes m)))
  | .store m rs1 _ imm =>
    match outside (x.rx rs1 + imm) (rvBytes m) with
    | some v => x.except 7 v
    | none => x.next seq
  | .alui o rd rs1 imm => (x.next seq).wx rd (rvAlu o (x.rx rs1) imm)
  | .alu o rd rs1 rs2 => (x.next seq).wx rd (rvAlu o (x.rx rs1) (x.rx rs2))
  | .csr o rd rs1 n => rvCsr o rd n (x.rx rs1) (o == .rw || rs1 != 0) (csrWord (csrF3 o) n rs1 rd) seq cycle id x
  | .csri o rd imm n =>
    rvCsr o rd n (imm.setWidth 64) (o == .rw || imm != 0) (csrWord (csrF3 o ||| 4) n imm rd) seq cycle id x
  | .fence => x.next seq
  | .ecall => x.except 11 0
  | .ebreak => x.except 3 x.pc
  | .mret => x.mret.next (x.csrAt 0x341)
  | .wfi => x
  | .illegal w =>
    if i.len = 0 then x.except 1 (if x.pc.toNat = 0x3FFE then 0x4000 else x.pc) else x.except 2 (w.setWidth 64)

/-- What an instruction of RV64IMC stores: cells of memory (R147). -/
def rvStores (i : RvInstr) (g : GCore) (r : Role) (x : Scalar) : List (Nat × Byte) :=
  match i.op with
  | .store m rs1 rs2 imm =>
    let a := x.rx rs1 + imm
    if (outside a (rvBytes m)).isSome then [] else cellsOf (dataBase g r + a.toNat) (rvBytes m) (x.rx rs2).toNat
  | _ => []

/-- RV64IMC_INSTRUCTION (R147); a length of 0 stands for a fetch outside the instruction store. -/
def execRv64imcInstruction (i : RvInstr) (s : State) : Out' :=
  match s.who with
  | .scalar g r =>
    let load (a n : Nat) : Word := wordOfBytes (s.memBytes (dataBase g r + a) n)
    .next ((s.poke (rvStores i g r s.sx)).modSx (rvScalar i s.cycle g r load))
  | _ => .fault .wrongAgent

/-! ### The Xfltile instructions -/

/-- An Xfltile instruction (R148): illegal in the core to which the table does not assign it. Its request reaches the tile
table in a cc in which no entry has changed, where compute threads come first (R140). -/
def tileOp (role : Option Role) (i : Instr) (body : GCore → Role → State → State) (s : State) : Out' :=
  match s.who with
  | .scalar g r =>
    if role.all (fun x => x == r) then .next (body g r (advanceTo s (s.core g.toNat).tileFrom))
    else .next (s.modSx fun x => x.except 2 (((encodeTile i).getD 0).setWidth 64))
  | _ => .fault .wrongAgent

/-- An Xfltile instruction completes with a value in rd. -/
def tileRet (rd : BitVec 5) (v : Word) (s : State) : State := s.modSx fun x => (x.next (x.pc + 4)).wx rd v

/-- A command is accepted (R150): PEND rises, and the job is pushed. -/
def tilePush (g : GCore) (t : TReg) (state : BitVec 2) (clear : Bool) (j : FillJob) (s : State) : State :=
  let e := s.tile g.toNat t
  (s.setTile g.toNat t { e with state := state, fault := e.fault && !clear, pend := e.pend + 1 }).modCore g.toNat fun c =>
    { c with eng := { c.eng with fills := c.eng.fills ++ [j] } }

/-- A tile is defined and in the state for a fill (R140, R150). -/
def fillable (e : Tile) : Bool := e.dfn && (e.state == 0 || e.state == 1)
/-- A tile is defined and in the state for a drain (R150). -/
def drainable (e : Tile) : Bool := e.dfn && e.state == 3

/-- The packed operand is out of range for a tile: status 3 (R149, R150). -/
def packedBad (s : State) (g : Nat) (v : Word) : Bool :=
  let n := fld v 42 32
  fld v 63 43 ≠ 0 || fld v 31 26 ≠ 0 || fld v 15 5 ≠ 0 || n = 0 || 1024 < n ||
    (s.tile g (v.extractLsb' 0 5)).size.toNat < fld v 25 16 + n

/-- TFILL and TDRAIN (R150). -/
def packedMove (drain : Bool) (rd a b : BitVec 5) (g : GCore) (s : State) : State :=
  let v := s.sx.rx b
  let t : TReg := v.extractLsb' 0 5
  let e := s.tile g.toNat t
  if packedBad s g.toNat v then tileRet rd 3 s
  else if !(if drain then drainable e else fillable e) then tileRet rd 2 s
  else tileRet rd 0 (tilePush g t (if drain then 3 else 1) (!drain)
    ⟨drain, t, s.sx.rx a, 128, fld v 25 16 * 128, 128, fld v 42 32, 128, false⟩ s)

/-- TFILL (R150). -/
def execTfill (rd a b : BitVec 5) (s : State) : Out' :=
  tileOp (some .loader) (.tfill rd a b) (fun g _ => packedMove false rd a b g) s

/-- TDRAIN (R150). -/
def execTdrain (rd a b : BitVec 5) (s : State) : Out' :=
  tileOp (some .storer) (.tdrain rd a b) (fun g _ => packedMove true rd a b g) s

/-- The job that a TFILL2 descriptor describes, or none where a field is out of range (R151). -/
def fillDesc (s : State) (g : Nat) (d : List Byte) : Option FillJob :=
  let w := dwordAt d 2
  let p := dwordAt d 3
  let t : TReg := w.extractLsb' 32 5
  let off := fld w 57 48 * 128
  let rows := fld w 31 16
  let rowb := fld w 12 0
  let pitch := fld p 16 0
  if fld w 63 58 ≠ 0 || fld w 47 37 ≠ 0 || fld w 15 13 ≠ 0 || fld p 63 17 ≠ 0 || rows = 0 || 1024 < rows || rowb = 0 ||
      4096 < rowb || pitch % 8 ≠ 0 || pitch < rowb ||
      (s.tile g t).size.toNat * 128 < off + (rows - 1) * pitch + rowb then none
  else some ⟨false, t, dwordAt d 0, dwordAt d 1, off, pitch, rows, rowb, false⟩

/-- TFILL2 (R151). -/
def execTfill2 (rd a : BitVec 5) (s : State) : Out' :=
  tileOp (some .loader) (.tfill2 rd a) (fun g r s =>
    let v := s.sx.rx a
    if v.toNat % 8 ≠ 0 || (outside v 32).isSome then tileRet rd 3 s else
    match fillDesc s g.toNat (s.memBytes (dataBase g r + v.toNat) 32) with
    | none => tileRet rd 3 s
    | some j => if fillable (s.tile g.toNat j.tile) then tileRet rd 0 (tilePush g j.tile 1 true j s) else tileRet rd 2 s) s

/-! ### Tile waits -/

/-- A wait of R152: its checks, then the test, which ends it or lets it wait for rs2 cc. `now` says that the tile is in
the state that the instruction is for, `met` that its condition holds. -/
def tileWait (rd a b : BitVec 5) (now met : Tile → Bool) (fin : GCore → TReg → State → State) (g : GCore) (s : State) : State :=
  let v := s.sx.rx a
  let t : TReg := v.extractLsb' 0 5
  let e := s.tile g.toNat t
  let n := (s.sx.rx b).toNat
  if fld v 63 5 ≠ 0 then tileRet rd 3 s
  else if !e.dfn || !now e then tileRet rd 2 s
  else if met e then fin g t s
  else
    match s.sx.deadline with
    | some d => if d ≤ s.cycle then tileRet rd 1 s else s
    | none => if n = 0 then tileRet rd 1 s else s.modSx fun x => { x with deadline := some (s.cycle + n) }

/-- The end of TREADY or TEMPTY (R152): the tile's state changes, or a fill or drain had failed. -/
def tileEnd (rd : BitVec 5) (state : BitVec 2) (g : GCore) (t : TReg) (s : State) : State :=
  let e := s.tile g.toNat t
  if e.fault then tileRet rd 4 s else tileRet rd 0 (s.setTile g.toNat t { e with state := state })

/-- TREADY (R152). -/
def execTready (rd a b : BitVec 5) (s : State) : Out' :=
  tileOp (some .loader) (.tready rd a b) (fun g _ =>
    tileWait rd a b (fun e => e.state == 1) (fun e => e.pend == 0) (tileEnd rd 2) g) s

/-- TEMPTY (R152). -/
def execTempty (rd a b : BitVec 5) (s : State) : Out' :=
  tileOp (some .storer) (.tempty rd a b) (fun g _ =>
    tileWait rd a b (fun e => e.state == 3) (fun e => e.pend == 0) (tileEnd rd 0) g) s

/-- TWAITE (R152). -/
def execTwaite (rd a b : BitVec 5) (s : State) : Out' :=
  tileOp (some .loader) (.twaite rd a b) (fun g _ =>
    tileWait rd a b (fun _ => true) (fun e => e.state == 0) (fun _ _ => tileRet rd 0) g) s

/-- TWAITD (R152). -/
def execTwaitd (rd a b : BitVec 5) (s : State) : Out' :=
  tileOp (some .storer) (.twaitd rd a b) (fun g _ =>
    tileWait rd a b (fun _ => true) (fun e => e.state == 3) (fun _ _ => tileRet rd 0) g) s

/-- The Xfltile wait that scalar core r stands at, run again once its deadline has come; another instruction waits for
nothing. -/
def waitAgain (i : Instr) (s : State) : Out' :=
  match i with
  | .tready rd a b => execTready rd a b s
  | .tempty rd a b => execTempty rd a b s
  | .twaite rd a b => execTwaite rd a b s
  | .twaitd rd a b => execTwaitd rd a b s
  | _ => .next s

/-- SCALAR_WAIT_TIMEOUT (R152): the deadline of a scalar core's tile wait comes, and the wait returns status 1 where its
condition does not hold. -/
def execScalarWaitTimeout (g : GCore) (r : Role) (s : State) : Out' :=
  let x := s.scalar g.toNat r
  match x.deadline, scalarFetch x with
  | some d, some w =>
    if x.running then waitAgain (decodeRv w) { advance s (d - s.cycle) with who := .scalar g r } else .next s
  | _, _ => .next s

/-! ### TCFG -/

/-- TCFG item 0 (R153). -/
def execTcfgReadEntry (rd a : BitVec 5) (s : State) : Out' :=
  tileOp none (.tcfgReadEntry rd a) (fun g _ s =>
    tileRet rd (tileWord (s.tile g.toNat ((s.sx.rx a).extractLsb' 0 5))) s) s

/-- TCFG item 1 (R153). -/
def execTcfgRole (rd a : BitVec 5) (s : State) : Out' :=
  tileOp none (.tcfgRole rd a) (fun g r s => tileRet rd (BitVec.ofNat 64 (roleNo r + g.toNat * 2 ^ 16)) s) s

/-- TCFG item 2 (R153). -/
def execTcfgFailedAddress (rd a : BitVec 5) (s : State) : Out' :=
  tileOp none (.tcfgFailedAddress rd a) (fun g _ s =>
    tileRet rd (s.tile g.toNat ((s.sx.rx a).extractLsb' 0 5)).failed s) s

/-- TCFG item 3 (R140, R153). -/
def execTcfgReturnEmpty (rd a : BitVec 5) (s : State) : Out' :=
  tileOp none (.tcfgReturnEmpty rd a) (fun g r s =>
    let t : TReg := (s.sx.rx a).extractLsb' 0 5
    let e := s.tile g.toNat t
    if e.state == (match r with | .loader => 1 | .storer => 3) && e.pend == 0 then
      tileRet rd 0 (s.setTile g.toNat t { e with state := 0 })
    else tileRet rd 2 s) s

/-! ### Fills and drains -/

/-- The scratchpad address of row i of a command. -/
def fillAt (s : State) (g : Nat) (j : FillJob) (i : Nat) : Nat :=
  spadBase + g * 2 ^ 17 + (s.tile g j.tile).base.toNat * 128 + j.off + i * j.pitch

/-- The virtual address of row i in memory. -/
def FillJob.at (j : FillJob) (i : Nat) : Word := j.mem + BitVec.ofNat 64 i * j.stride

/-- One row of a fill (R150, R151), or the address of the access that failed (R154). -/
def fillStep (g : GCore) (t : TenantNo) (j : FillJob) (s : State) (i : Nat) : Except Word State :=
  match check s g.toNat t .rd (va56 (j.at i)) j.rowb with
  | .error e => .error e.val
  | .ok ps =>
    match lostIn s ps with
    | some e => .error e.val
    | none =>
      match engRead s g.toNat t (j.at i) j.rowb with
      | .error _ => .error (j.at i)
      | .ok (bs, s') => .ok (s'.poke (cellsAt (fillAt s g.toNat j i) bs))

/-- One row of a drain (R150), or the address of the access that failed (R154). -/
def drainStep (g : GCore) (t : TenantNo) (j : FillJob) (s : State) (i : Nat) : Except Word State :=
  match engPieces s g.toNat t (j.at i) j.rowb with
  | .error e => .error e.val
  | .ok ps =>
    match lostIn s ps with
    | some e => .error e.val
    | none => .ok (engStore s g t ps (s.memBytes (fillAt s g.toNat j i) j.rowb))

/-- The rows of a command in order; a failure ends it, and what it has written stands (R154). -/
def fillRows (row : State → Nat → Except Word State) : State → List Nat → State × Option Word
  | s, [] => (s, none)
  | s, i :: r =>
    match row s i with
    | .error a => (s, some a)
    | .ok s' => fillRows row s' r

/-- The pieces that a drain writes. -/
def drainPieces (s : State) (g : Nat) (t : TenantNo) (j : FillJob) : List Piece :=
  (upTo j.rows).flatMap fun i => match engPieces s g t (j.at i) j.rowb with | .ok ps => ps | .error _ => []

/-- The cells that a drain writes, by their lines. -/
def drainCells (s : State) (g : Nat) (t : TenantNo) (j : FillJob) : List (Nat × Byte) :=
  (drainPieces s g t j).flatMap fun q => (pieceLines q).map fun l => (l * 128, 0)

/-- FILL_DRAIN_COMPLETE (R150, R154): command n of core g moves its rows; its last write, or its failure, lowers
PEND. One whose tile is defined no longer, or in another state, fails; PEND of a new definition does not count it. -/
def execFillDrainComplete (g : GCore) (n : Nat) (s : State) : Out' :=
  let s := advanceTo s (s.core g.toNat).tileFrom
  match (s.core g.toNat).eng.fills[n]? with
  | none => .next s
  | some j =>
    let t := (s.core g.toNat).tenant.getD 0
    let same := !j.stale && (s.tile g.toNat j.tile).state == (if j.drain then 3 else 1)
    let cells := if j.drain && same then drainCells s g.toNat t j else []
    if !leesRoom s cells then .next (thirstFor s cells)
    else
      let (s1, bad) := if same then fillRows (if j.drain then drainStep g t j else fillStep g t j) (quench s cells) (upTo j.rows)
        else (s, some j.mem)
      let e := s1.tile g.toNat j.tile
      .next ((s1.setTile g.toNat j.tile { e with
        fault := e.fault || bad.isSome, failed := bad.getD e.failed, pend := if j.stale then e.pend else e.pend - 1 }).modCore g.toNat fun c =>
          { c with eng := { c.eng with fills := dropAt c.eng.fills n } })

end Sys2Proof.Machine
end

