-- ==== Sys2Proof/Machine/Registers.lean ====
section
/-! DEFINITION. Configuration space (R438, R439): what a write does to each register, what a read returns, the reset of a
tenant (R440), and the replacement of a key (R442). -/

namespace Sys2Proof.Machine

/-! ### Fields -/

/-- The bits [hi:lo] of a dword, all 1. -/
def onesAt (hi lo : Nat) : Word := BitVec.ofNat 64 ((2 ^ (hi + 1 - lo) - 1) * 2 ^ lo)

/-- The bits of a register that a write stores, and those that a write of 1 clears. -/
structure RegBits where
  rw : Word := 0
  w1c : Word := 0
  deriving DecidableEq, Repr

/-- The fields of a tenant's block by offset (R250, R361, R398, R439). -/
def tenantBits (off : Nat) : RegBits :=
  if off = 0x000 then { rw := 3 }
  else if off = 0x008 then { rw := onesAt 51 20 ||| 1 }
  else if off = 0x010 then { rw := onesAt 55 0 }
  else if off = 0x018 then { rw := onesAt 51 19 }
  else if off = 0x020 then { rw := onesAt 3 0 }
  else if off = 0x030 then { w1c := onesAt 7 0 }
  else if 0x100 ≤ off && off < 0x200 then { rw := onesAt 51 16 ||| (if off % 16 = 0 then 1 else 0) }
  else if off = 0x200 then { rw := onesAt 51 8 }
  else if off = 0x208 then { rw := onesAt 32 32 ||| onesAt 4 0, w1c := onesAt 33 33 }
  else if off = 0x220 then { rw := onesAt 31 0 }
  else if off = 0x300 then { rw := onesAt 47 30 ||| onesAt 7 0 }
  else if off = 0x308 then { rw := onesAt 47 12 }
  else if 0x1000 ≤ off && off < 0x1400 then { rw := if off % 16 = 0 then onesAt 63 16 ||| 1 else onesAt 31 0 }
  else {}

/-- The fields of a die's block by offset (R78, R330, R361). -/
def dieBits (off : Nat) : RegBits :=
  if off < 0x400 then
    (match off % 64 with
    | 0 => { rw := onesAt 47 16 ||| onesAt 3 2 ||| 1 }
    | 8 => { rw := onesAt 51 16 }
    | 16 => { rw := onesAt 51 7 }
    | 24 => { rw := onesAt 51 0 }
    | 32 => { w1c := 7 }
    | _ => {})
  else if 0x2000 ≤ off && off < 0x2200 then
    (match off % 32 with
    | 0 => { rw := onesAt 47 7 }
    | 8 => { rw := onesAt 39 0 }
    | 16 => { w1c := onesAt 63 63 }
    | _ => {})
  else if 0x3000 ≤ off && off < 0x3200 then { rw := onesAt 31 0 }
  else {}

/-- The fields of the module's block by offset (R398, R445, R477, R479). -/
def moduleBits (ports off : Nat) : RegBits :=
  if off = 0x000 then { rw := onesAt 31 0 }
  else if off = 0x010 then { rw := onesAt 9 0 }
  else if 0x100 ≤ off && off < 0x200 then
    { rw := if off % 16 = 0 then onesAt 49 30 ||| 3 else onesAt 49 30 ||| onesAt 15 0 }
  else if 0x200 ≤ off && off < 0x200 + 8 * ports then { w1c := onesAt 47 0 }
  else {}

/-- The fields of the register at an address of configuration space; none where no register is (R438). -/
def regBits (p : Part) (a : Nat) : RegBits :=
  if a % 8 ≠ 0 then {}
  else if 0x4000000000000 ≤ a && a < 0x4000000000000 + 16 * 0x100000 then tenantBits (a % 0x100000)
  else if 0x5000000000000 ≤ a && a < 0x5000000000000 + p.dies * 0x1000000 then dieBits (a % 0x1000000)
  else if 0x6000000000000 ≤ a && a < 0x6000001000000 then moduleBits p.ports (a - 0x6000000000000)
  else {}

/-- A write as the fields of a register take it. -/
def RegBits.write (b : RegBits) (old v : Word) : Word := (old &&& ~~~(b.rw ||| (b.w1c &&& v))) ||| (v &&& b.rw)

/-- A field whose write stores another value than the written one: LOG2N above 16 (R250), CAP outside 200–720 (R479). -/
def limitReg (a : Nat) (v : Word) : Word :=
  if a = modReg 0x10 then BitVec.ofNat 64 (max 200 (min 720 v.toNat))
  else if 0x4000000000000 ≤ a && a < 0x4000001000000 && a % 0x100000 == 0x208 && decide (16 < fld v 4 0) then setFld v 4 0 16
  else v

/-- A register takes a write field by field. -/
def storeReg (s : State) (a : Nat) (v : Word) : State :=
  let b := regBits s.part a
  if b = {} then s else s.setCfg a (limitReg a (b.write (s.cfgAt a) v))

/-- HALTLOG takes a write: any 1 in its count clears the count (R439). -/
def writeHaltlog (s : State) (t : TenantNo) (v : Word) : State :=
  let a := tenReg t 0x28
  if fld v 63 48 = 0 then s else s.setCfg a (setFld (s.cfgAt a) 63 48 0)

/-! ### Keys -/

/-- A line lies under a key slot of a tenant. -/
def underKey (s : State) (t : TenantNo) (slot line : Nat) : Bool :=
  match tget none s.coh.lineKey line with
  | some (k, _) => k == t.toNat * 16 + slot
  | none => false

/-- A key slot takes a fresh key (R442): every cached line of the tenant and slot is discarded. -/
def newKey (s : State) (t : TenantNo) (slot : Nat) : State :=
  let k := t.toNat * 16 + slot
  let gone (line : Nat) : Bool := underKey s t slot line
  let s := dropLines s fun l => gone l || (viewLines s l).any gone
  let pub (p : Pub) : Pub := { p with cells := p.cells.filter fun c => !gone (lineOf c.1) }
  let wait (p : PubWait) : PubWait := { p with cells := p.cells.filter fun c => !gone (lineOf c.1) }
  let core (c : Core) : Core := { c with
    ph := { c.ph with unpub := c.ph.unpub.filter (fun e => !gone (lineOf e.1)), l2 := c.ph.l2.filter fun l => !gone l }
    cache := { c.cache with icache := c.cache.icache.filter fun e => !gone (lineOf e.1) } }
  { s with
    cores := s.cores.map fun e => (e.1, core e.2)
    coh := { s.coh with
      keyGen := tset 0 s.coh.keyGen k (tget 0 s.coh.keyGen k + 1)
      pubs := s.coh.pubs.map pub
      waiting := s.coh.waiting.map wait
      copies := s.coh.copies.filter fun e => !gone (e.1 / 4096)
      slices := s.coh.slices.filter fun e => !gone (e.1 / 4096)
      sliceHome := s.coh.sliceHome.filter fun x => !gone (x / 4096)
      owned := s.coh.owned.filter fun e => !gone e.1
      mirror := s.coh.mirror.filter fun l => !gone l } }

/-- KEY_GEN (R442): a write of GEN to KEYCTLt with a slot. -/
def execKeyGen (t : TenantNo) (slot : BitVec 4) (s : State) : Out' :=
  .next (newKey (s.setCfg (tenReg t 0x20) (slot.setWidth 64)) t slot.toNat)

/-! ### The reset of a tenant -/

/-- The contexts of tenant t on core g, in slots, parked and saved. -/
def tenantCtxs (s : State) (g : Nat) (t : TenantNo) : List Ctx :=
  ((coreCtxs s g) ++ (s.core g).parked.map (·.ctx) ++ (tget [] (s.core g).saved t.toNat).map (·.2)).filter fun c => c.tenant == t

/-- The jobs that a context has pushed and no queue has accepted: timeline and number. -/
def pushedJobs (c : Ctx) : List (Nat × Nat) :=
  c.iss.outs.filterMap fun o => if o.trap.isNone then (pushTl o.i).map fun tl => (tl, o.src.job) else none

/-- Core g loses the tenant's contexts and the commands that have not started, which count as done (R440). -/
def stopCore (t : TenantNo) (s : State) (g : Nat) : State :=
  let pushed := (tenantCtxs s g t).flatMap pushedJobs
  let copies := ((s.core g).eng.cq.filter fun j => j.tenant == t && !j.started).map fun j => (0, j.job)
  let colls := (s.fl.colls.filter fun j => j.g.toNat == g && j.tenant == t && !j.started).map fun j => (2, j.job)
  let press := ((s.die (dieOf g)).press.filter fun j => j.g.toNat == g && j.tenant == t).map fun j => (3, j.job)
  let mine := fun (k : Slot) => (s.ctx (BitVec.ofNat 12 g) k).any fun c => c.tenant == t
  let s1 := (pushed ++ copies ++ colls ++ press).foldl (fun s j => jobDone s g j.1 j.2) s
  let s2 := (cancelM s1 g 0 fun u => u == t).1
  let s3 := s2.modCore g fun c => { c with
    parked := c.parked.filter fun p => p.ctx.tenant != t
    saved := tdel c.saved t.toNat
    log := c.log.filter fun m => m.tenant != t
    mail := c.mail.filter fun m => m.tenant != t
    cache := { c.cache with tlb := c.cache.tlb.filter fun e => e.tenant != t }
    eng := { c.eng with
      cq := c.eng.cq.filter fun j => j.tenant != t || j.started
      fills := if c.tenant = some t then [] else c.eng.fills
      portJobs := if c.tenant = some t then [] else c.eng.portJobs
      sfuQ := c.eng.sfuQ.filter fun r => !mine r.k
      sfuRun := c.eng.sfuRun.filter fun r => !mine r.1.k }
    regs := if c.tenant = some t then c.regs.stopScalars else c.regs }
  { s3 with
    ctxs := s3.ctxs.filter fun e => !(e.1 / 16 == g && e.2.any fun c => c.tenant == t)
    binds := tset none s3.binds (g * 16 + t.toNat) none
    fl := { s3.fl with colls := s3.fl.colls.filter fun j => !(j.g.toNat == g && j.tenant == t && !j.started) } }

/-- A die loses what it holds of the tenant (R440, R261). -/
def stopDie (t : TenantNo) (s : State) (d : Nat) : State :=
  let ended (r : RopeJob) : Bool := (s.ctx r.g r.k).isNone
  s.modDie d fun x => { x with
    igq := x.igq.filter fun e => e.1 / 64 != t.toNat
    ropes := x.ropes.filter fun r => !ended r
    press := x.press.filter fun j => j.tenant != t
    verdicts := x.verdicts.filter fun v => v.tenant != t }

/-- The parts of TENCTLt.RESET that wait for nothing (R440). -/
def stopTenant (s : State) (t : TenantNo) : State :=
  let gs := (tkeys s.cores ++ (tkeys s.ctxs).map (· / 16) ++ ((tkeys s.binds).filter fun k => k % 16 == t.toNat).map (· / 16)).eraseDups
  let s1 := gs.foldl (stopCore t) s
  let s2 := (upTo s.part.dies).foldl (stopDie t) s1
  { s2 with
    clusters := s2.clusters.map fun e => (e.1, { e.2 with tlb := e.2.tlb.filter fun x => x.tenant != t })
    launches := s2.launches.filter fun l => l.tenant != t
    cfg := tset none s2.cfg (lqCons t) (some (s2.cfgAt (lqProd t)))
    fl := { s2.fl with
      mesh := s2.fl.mesh.filter fun m => m.tenant != t
      arrivals := s2.fl.arrivals.filter fun a => a.tenant != t
      invs := s2.fl.invs.filter fun i => i.tenant != t
      conds := s2.fl.conds.filter fun r => r.tenant != t } }

/-- A job of the tenant is running in an engine (R440). -/
def jobsRun (s : State) (t : TenantNo) : Bool :=
  (s.cores.any fun e =>
    (e.2.regs.mq.cmds.any fun j => j.tenant == t) || (e.2.tenant == some t && (e.2.regs.mq.run || e.2.regs.mq.gone != [])) ||
      e.2.eng.cq.any fun j => j.tenant == t) ||
  (s.clusters.any fun e => e.2.rows.any fun r => r.tenant == t) || (s.fl.colls.any fun j => j.tenant == t) ||
  s.dies.any fun e => e.2.walk.any fun w => w.job.tenant == t

/-- A core forgets the tenant (R434, R440). -/
def forgetCore (t : TenantNo) (g : Nat) (c : Core) : Core :=
  let _ := g
  let c := { c with blocks := tdel c.blocks t.toNat, lastRan := tdel c.lastRan t.toNat }
  if c.tenant = some t then
    { c with regs := {}, tenant := none, leaving := false, ph := { c.ph with unpub := [], l2 := [] } }
  else c

/-- The tenant's core blocks are discarded on every core (R440). -/
def forgetTenant (s : State) (t : TenantNo) : State :=
  let gs := (s.cores.filter fun e => e.2.tenant == some t).map (·.1)
  { s with
    cores := s.cores.map fun e => (e.1, forgetCore t e.1 e.2)
    mem := s.mem.filter fun c => !gs.any fun g => coreLocal g c.1 }

/-- TENCTLt.RESET (R440): what can end at once ends; once no engine job of the tenant runs, its core blocks go and the
write is complete. -/
def resetTenant (s : State) (t : TenantNo) : State :=
  let s1 := stopTenant s t
  if jobsRun s1 t then s1 else forgetTenant s1 t

/-- TENANT_RESET (R440). -/
def execTenantReset (t : TenantNo) (s : State) : Out' := .next (resetTenant s t)

/-! ### Writes -/

/-- The offset of a format window's register (R438). -/
def fwOff : FwReg → Nat
  | .cfg => 0
  | .vbase => 8
  | .sbase => 16
  | .scbase => 24
  | .stat => 32

/-- A line of the decoded view of format window n of die d. -/
def windowLine (s : State) (d n line : Nat) : Bool :=
  match placeOf s.part (line * 128) with
  | .view e => e == d && viewWindow s d (line * 128) == some n
  | _ => false

/-- A register of format window n of die d is written: every cached line of its decoded view is discarded first (R81). -/
def writeWindow (s : State) (d n off : Nat) (v : Word) : State := storeReg (dropLines s (windowLine s d n)) (dieReg d (64 * n + off)) v

/-- FW_REGISTER_WRITE (R78, R81): a register of a format window is written. -/
def execFwRegisterWrite (d : DieNo) (n : BitVec 4) (r : FwReg) (v : Word) (s : State) : Out' :=
  .next (writeWindow s d.toNat n.toNat (fwOff r) v)

/-- A write to the block of tenant t. -/
def writeTenant (s : State) (t : TenantNo) (off : Nat) (v : Word) : State :=
  let a := tenReg t off
  if off = 0 then (if bit v 2 then resetTenant (storeReg s a v) t else storeReg s a v)
  else if off = 0x20 then (if bit v 63 then newKey (storeReg s a v) t (fld v 3 0) else storeReg s a v)
  else if off = 0x28 then writeHaltlog s t v
  else if off = 0x210 then (match execLqprodWrite t v s with | .next s' => s' | _ => s)
  else storeReg s a v

/-- A host write to an address of configuration space (R438). -/
def writeConfig (s : State) (a : Nat) (v : Word) : State :=
  if 0x4000000000000 ≤ a && a < 0x4000000000000 + 16 * 0x100000 then
    writeTenant s (BitVec.ofNat 4 (a / 0x100000)) (a % 0x100000) v
  else if 0x5000000000000 ≤ a && a < 0x5000000000000 + s.part.dies * 0x1000000 && 0x2000 ≤ a % 0x1000000 &&
      a % 0x1000000 < 0x2200 && a % 32 == 24 then
    (prCancel s ((a - 0x5000000000000) / 0x1000000) (BitVec.ofNat 4 (a % 0x1000000 / 32)) (zext 56 v)).1
  else if 0x5000000000000 ≤ a && a < 0x5000000000000 + s.part.dies * 0x1000000 && a % 0x1000000 < 0x400 then
    writeWindow s ((a - 0x5000000000000) / 0x1000000) (a % 0x1000000 / 64) (a % 64) v
  else storeReg s a v

/-- The boot has stopped: the physical function exposes only BOOTSTAT and DOE (R481). -/
def bootStopped (s : State) : Bool := fld (s.cfgAt (modReg 0x28)) 7 0 != 0

/-- CONFIG_REGISTER_WRITE (R438): the host writes a configuration register. -/
def execConfigRegisterWrite (addr : Nat) (v : Word) (s : State) : Out' :=
  .next (if bootStopped s then s else writeConfig s addr v)

/-! ### Reads -/

/-- LLTSTATd (R450). -/
def lltstat (s : State) (d : Nat) : Word :=
  let x := s.die d
  BitVec.ofNat 64 ((if x.lostRgn = [] then 0 else 2 ^ 63) + x.lostRgn.length * 2 ^ 32 + x.lost.length)

/-- Entry e of a die's lost-line table (R450). -/
def lltEntry (s : State) (d e : Nat) : Word :=
  match (s.die d).lost[e]? with
  | some l => BitVec.ofNat 64 (2 ^ 63 + l.cause.toNat * 2 ^ 60 + l.line * 128)
  | none => 0

/-- Dword i of region record r of a die (R452). -/
def regionRecord (s : State) (d r i : Nat) : Word :=
  match (s.die d).lostRgn[r]? with
  | none => 0
  | some e =>
    if i = 0 then BitVec.ofNat 64 (2 ^ 63 + e.1 % 2 ^ 36 * 2 ^ 16)
    else if i ≤ 8 then e.2.extractLsb' (64 * (i - 1)) 64
    else 0

/-- A host read of configuration space (R438): registers that are held elsewhere, write-only bits as 0, and zero where no
register is. -/
def readConfig (s : State) (a : Nat) : Word :=
  if a % 8 ≠ 0 then 0
  else if bootStopped s && a ≠ modReg 0x28 then 0
  else if 0x5000000000000 ≤ a && a < 0x5000000000000 + s.part.dies * 0x1000000 then
    let d := (a - 0x5000000000000) / 0x1000000
    let off := a % 0x1000000
    if off = 0x1000 then lltstat s d
    else if 0x10000 ≤ off && off < 0x18000 then lltEntry s d ((off - 0x10000) / 8)
    else if 0x20000 ≤ off && off < 0x40000 then regionRecord s d ((off - 0x20000) / 128) (off % 128 / 8)
    else s.cfgAt a
  else s.cfgAt a

end Sys2Proof.Machine
end

