-- ==== Sys2Proof/Machine/Device.lean ====
section
/-! DEFINITION. Errors and dead agents (R447–R451), power (R479), boot and reset (R480–R482), and attestation over DOE
(R474, R483). -/

namespace Sys2Proof.Machine

/-! ### Dead agents -/

/-- Cores of die d, among those that a table lists. -/
def ofDie (d : Nat) (g : Nat) : Bool := dieOf g == d

/-- A context was on die d: in a slot, parked or saved. -/
def launchOn (s : State) (d lid : Nat) : Bool :=
  (s.ctxs.any fun e => ofDie d (e.1 / 16) && e.2.any fun c => c.task.lid == lid) ||
  s.cores.any fun e => ofDie d e.1 &&
    ((e.2.parked.any fun p => p.ctx.task.lid == lid) || e.2.saved.any fun x => x.2.any fun y => y.2.task.lid == lid)

/-- A line enters a lost-line table that has room, or its region's record (R450, R451); false where neither has
room. -/
def recordLost (s : State) (line : Nat) (cause : BitVec 3) : State × Bool :=
  let d := homeDie s (line * 128)
  let x := s.die d
  let r := line / 512
  if lineLost s (line * 128) then (s, true)
  else if x.lost.length < 4096 then
    ((s.modDie d fun x => { x with lost := x.lost ++ [⟨line, cause⟩] }).bumpDie d 0x0009 1, true)
  else if (tget 0 x.lostRgn r) = 0 && 1024 ≤ x.lostRgn.length then (s, false)
  else
    (((s.modDie d fun x => { x with lostRgn := tset 0 x.lostRgn r (tget 0 x.lostRgn r ||| ((1 : BitVec 512) <<< (line % 512))) }).raise
      16 1).bumpDie d 0x0009 1, true)

/-- The accumulator lines of which a core of die d holds an update-only copy or a slice (R204). -/
def heldPartials (s : State) (d : Nat) : List Nat :=
  (((tkeys s.coh.copies) ++ ((tkeys s.coh.slices).filter fun k => !s.coh.sliceHome.contains k)).filter fun k =>
    ofDie d (k % 4096)).map (· / 4096)

/-- What is lost with die d: its cores' contexts, queues, unpublished stores, jobs, TLB and cache contents, the replicas in
its L2, and the copies that its mirror store kept of its buddy's lines (R448, R449). -/
def dropDie (s : State) (d : Nat) : State :=
  let here (k : Nat) : Bool := ofDie d (k % 4096) && !s.coh.sliceHome.contains k
  let mine (w : Option GCore) : Bool := w.any fun g => ofDie d g.toNat
  { s with
    ctxs := s.ctxs.filter fun e => !ofDie d (e.1 / 16)
    cores := s.cores.filter fun e => !ofDie d e.1
    clusters := s.clusters.filter fun e => e.1 / 64 != d
    dies := s.dies.map fun e => if e.1 = d then (e.1, { e.2 with l2 := [], igq := [], ropes := [], reclaim := [], press := [], walk := none, verdicts := [] }) else e
    launches := s.launches.map fun l => if launchOn s d l.lid then { l with dead := true } else l
    fl := { s.fl with colls := s.fl.colls.filter fun j => !ofDie d j.g.toNat }
    coh := { s.coh with
      mirror := s.coh.mirror.filter fun l => Nat.xor (homeDie s (l * 128)) 1 != d
      waiting := s.coh.waiting.filter fun w => !ofDie d w.g.toNat
      copies := s.coh.copies.filter fun e => !ofDie d (e.1 % 4096)
      slices := s.coh.slices.filter fun e => !here e.1
      owned := s.coh.owned.filter fun e => !mine e.2 } }

/-- Die d is declared dead (R449): its replicas and contexts go, what its cores owned passes to the home, DEADMASK and
vector 0 of the physical function tell of it, and the accumulator lines of which its cores held copies or slices are lost
(R204). A home that has no record left for a line declares itself dead (R451). -/
def killDie : Nat → State → Nat → State
  | 0, s, _ => s
  | f + 1, s, d =>
    if !s.alive d then s else
    let s1 := dropDie s d
    (heldPartials s d).eraseDups.foldl (fun s line =>
      let r := recordLost s line 2
      if r.2 then r.1 else killDie f r.1 (homeDie s (line * 128)))
      ((s1.setCfg (modReg 8) (s1.cfgAt (modReg 8) ||| ((1 : Word) <<< d))).raise 16 0)

/-- A line is lost (R451); where the home has no record left for it the home declares itself dead. No more than the
module's eight dies can die of it. -/
def loseLine (cause : BitVec 3) (s : State) (line : Nat) : State :=
  let r := recordLost s line cause
  if r.2 then r.1 else killDie 8 r.1 (homeDie s (line * 128))

/-- AGENT_DEAD (R449): die d has been silent for 140,000 cc. -/
def execAgentDead (d : DieNo) (s : State) : Out' := .next (killDie 9 s d.toNat)

/-- UNCORRECTABLE_ERROR (R447): a line of device DRAM is lost that has no other valid copy: none at the buddy, and no clean
one in DRAM beside that of the home's L2. Where the buddy that should hold one is dead, or the home itself, both copies are
lost (R450). -/
def execUncorrectableError (line : Nat) (s : State) : Out' :=
  match placeOf s.part (line * 128) with
  | .dram d =>
    let mir := attrMir (tget 0 s.coh.attr line)
    let buddy := s.alive (Nat.xor d 1)
    if !s.alive d then .next (if mir && buddy then loseLine 3 s line else s)
    else
      match l2At s d line with
      | some x =>
        .next (if s.coh.mirror.contains line || !x.dirty then s else loseLine (if buddy then 1 else 3) s line)
      | none => .next (if s.coh.mirror.contains line then s else loseLine (if mir && !buddy then 3 else 1) s line)
  | _ => .next s

/-- ECC_CORRECTED (R447). -/
def execEccCorrected (d : DieNo) (s : State) : Out' := .next (s.bumpDie d.toNat 0x0008 1)

/-! ### Power, reset and boot -/

/-- PWRSTAT (R479). -/
def pwrstat : Nat := modReg 0x18

/-- BOOTSTAT (R482). -/
def bootstat : Nat := modReg 0x28

/-- The module after a reset (R438, R479): all device state is lost. What is not the device's stays: the part, the flash,
the host's memory, what was sent to the host, and the model's own counters. -/
def resetModule (s : State) : State :=
  { State.reset with
    part := s.part
    pending := s.pending
    mem := s.mem.filter fun c => hostBase ≤ c.1
    msix := s.msix
    fl := { toHost := s.fl.toHost }
    sec := { rollback := s.sec.rollback, answers := s.sec.answers }
    nextId := s.nextId
    fresh := s.fresh }

/-- THERMAL_TRIP (R479): the module is reset, and the host sees both links down. -/
def execThermalTrip (s : State) : Out' := .next (resetModule s)

/-- POWER_STEP (R479): at a 10 µs point the power controller has measured the power, in units of 10 W, and the hottest
junction in °C. At 105 °C the module is reset. -/
def execPowerStep (power : BitVec 10) (temp : BitVec 8) (s : State) : Out' :=
  if 105 ≤ temp.toNat then .next (resetModule s) else
  let step := fld (s.cfgAt pwrstat) 3 0
  let hot := fld (s.cfgAt (modReg 0x10)) 9 0 < power.toNat || 95 < temp.toNat
  let n := if hot then min 8 (step + 1) else step - 1
  .next (s.setCfg pwrstat (BitVec.ofNat 64 (power.toNat * 2 ^ 32 + temp.toNat * 2 ^ 16 + (if n = 0 then 0 else 16) + n)))

/-- The measurements that the boot has taken once it has passed a number of steps (R480). -/
def measuredBy (steps : Nat) : List Nat :=
  (if 1 ≤ steps then [1] else []) ++ (if 5 ≤ steps then [4] else []) ++ (if 6 ≤ steps then [3, 2] else [])

/-- The images that the boot has accepted by then: the firmware, the configuration record, the die firmware (R480). -/
def acceptedBy (steps : Nat) : List Nat :=
  (if 2 ≤ steps then [1] else []) ++ (if 5 ≤ steps then [4] else []) ++ (if 6 ≤ steps then [3] else [])

/-- An accepted image raises its rollback counter to its version (R481). -/
def raiseRollback (n : Nat) (t : Table Nat) (image : Nat) : Table Nat :=
  tset 0 t image (max (tget 0 t image) (Config.imageVersion (8 * n + image)))

/-- The boot of R480 up to a failing step, or to its end. -/
def boot (failing : BitVec 3) (s : State) : State :=
  let passed := if failing = 0 then 7 else failing.toNat - 1
  let s1 : State := { s with
    fresh := s.fresh + 1
    sec := { s.sec with
      measured := measuredBy passed, standby := failing == 0
      rollback := (acceptedBy passed).foldl (raiseRollback s.fresh) s.sec.rollback } }
  if failing = 0 then ({ s1 with linkUp := [true, true] } : State).setCfg bootstat (BitVec.ofNat 64 (2 ^ 63))
  else s1.setCfg bootstat (failing.setWidth 64)

/-- MODULE_RESET (R480): the module is reset and boots; `failing` is the step that fails, or 0. -/
def execModuleReset (failing : BitVec 3) (s : State) : Out' := .next (boot failing (resetModule s))

/-- CONTROLLER_TAKEOVER (R482): the standby controller becomes active, and its certificate takes slot 0 (R483); where none
stands by, both have failed and the module is reset. -/
def execControllerTakeover (s : State) : Out' :=
  if s.sec.standby then
    .next ((({ s with sec := { s.sec with standby := false, handshake := 0, session := false } } : State).setCfg bootstat
      (setFld (s.cfgAt bootstat) 62 62 1)).raise 16 2)
  else .next (resetModule s)

/-! ### Attestation -/

/-- An answer over DOE: its code, then a byte that stands for what R483 leaves open of it. -/
def answer (code : Byte) (s : State) : State :=
  { s with fresh := s.fresh + 1, sec := { s.sec with answers := s.sec.answers ++ [[0x13, code, Config.spdmByte s.fresh]] } }

/-- An SPDM request (R483): an error where the boot has stopped (R481) or `ok` does not hold, else the answer and what it
does to the handshake. -/
def spdm (ok : Bool) (code : Byte) (go : Secure → Secure) (s : State) : Out' :=
  if bootStopped s || !ok then .next (answer 0x7F s)
  else .next { answer code s with sec := go (answer code s).sec }

/-- GET_VERSION (R483): the handshake begins. -/
def execGetVersion (s : State) : Out' := spdm true 0x04 (fun x => { x with handshake := 1, session := false }) s
/-- GET_CAPABILITIES (R483). -/
def execGetCapabilities (s : State) : Out' := spdm (s.sec.handshake == 1) 0x61 (fun x => { x with handshake := 2 }) s
/-- NEGOTIATE_ALGORITHMS (R483): ECDSA P-384 and SHA-384. -/
def execNegotiateAlgorithms (s : State) : Out' := spdm (s.sec.handshake == 2) 0x63 (fun x => { x with handshake := 3 }) s
/-- GET_DIGESTS (R483). -/
def execGetDigests (s : State) : Out' := spdm (3 ≤ s.sec.handshake) 0x01 id s
/-- GET_CERTIFICATE (R483): slot 0 alone holds a chain. -/
def execGetCertificate (slot : BitVec 4) (s : State) : Out' := spdm (3 ≤ s.sec.handshake && slot == 0) 0x02 id s
/-- CHALLENGE (R483). -/
def execChallenge (slot : BitVec 4) (s : State) : Out' := spdm (3 ≤ s.sec.handshake && slot == 0) 0x03 id s
/-- GET_MEASUREMENTS (R483): the number of measurements, one of those taken, or all. -/
def execGetMeasurements (idx : BitVec 8) (s : State) : Out' :=
  spdm (3 ≤ s.sec.handshake && (idx == 0 || idx == 0xFF || s.sec.measured.contains idx.toNat)) 0x60 id s
/-- KEY_EXCHANGE (R483). -/
def execKeyExchange (s : State) : Out' := spdm (3 ≤ s.sec.handshake) 0x64 (fun x => { x with handshake := 4 }) s
/-- FINISH (R483): the session opens. -/
def execFinish (s : State) : Out' := spdm (s.sec.handshake == 4) 0x65 (fun x => { x with handshake := 3, session := true }) s

/-- DOE_DISCOVERY (R474): the object types are discovery, CMA/SPDM and secured SPDM. -/
def execDoeDiscovery (s : State) : Out' := .next { s with sec := { s.sec with answers := s.sec.answers ++ [[0, 1, 2]] } }

end Sys2Proof.Machine
end

