-- ==== Sys2Proof/Machine/Links.lean ====
section
/-! DEFINITION. The links of the module: host AtomicOps and host accesses to device memory (R194, R447, R474, R475), and
the fabric ports (R403, R476, R477). -/

namespace Sys2Proof.Machine

/-! ### Host windows -/

/-- A piece that lies in the windows of host port i. -/
def onPort (s : State) (i : Nat) (p : Piece) : Bool :=
  match placeOf s.part p.pa with
  | .host j => j == i
  | _ => false

/-- Outstanding instruction n, of a slot or of a parked context. -/
def findOut (s : State) (n : Nat) : Option (GCore × Slot × Out) := (allOuts s).find? fun e => e.2.2.id == n && e.2.2.trap.isNone

/-- PROT of an outstanding access to a host window (R194, R475). -/
def hostProt (o : Out) : Trap := tileProt (accOf o.i).1 ((o.src.ps ++ o.src.qs).headD ⟨0, 0, 0, 0⟩).va

/-- A host AtomicOp's completion brings the original value to the instruction that asked for it (R194). -/
def hostDone (r : Rmw) (src : Src) (old : Nat) (s : State) : Perf :=
  .done (rmwApply r src (old % 2 ^ (8 * r.n)) (s.poke (pieceCells src.ps (bytesOf r.n old))))

/-- HOST_ATOMIC_COMPLETION (R194): the completion of outstanding instruction n's AtomicOp, or its error. -/
def execHostAtomicCompletion (n : Nat) (old : BitVec 128) (err : Bool) (s : State) : Out' :=
  match findOut s n with
  | none => .next s
  | some (g, k, o) =>
    match rmwOf o.i o.src with
    | none => .next s
    | some r =>
      if !o.src.ps.any (nonCoherent s) || !mayPerform s g k o then .next s
      else if err then .next (deferTrap s g k n (hostProt o))
      else .next (runOut s g k o (hostDone r o.src old.toNat))

/-- The host stores bytes to its own memory at an offset (R248, R446); both host link windows show it. -/
def hostStore (off : Nat) (bs : List Byte) (s : State) : State :=
  s.poke ((upTo bs.length).map fun i => (hostBase + (off + i) % 2 ^ 50, bs.getD i 0))

/-- The instructions that wait on a port: core, slot, instruction. -/
def waitingOn (s : State) (i : Nat) : List (GCore × Slot × Out) :=
  (allOuts s).filter fun e => e.2.2.trap.isNone && (e.2.2.src.ps ++ e.2.2.src.qs).any (onPort s i)

/-- HOST_LINK_DOWN (R475): what is outstanding on port i raises PROT, and its windows are gone until it trains again. -/
def execHostLinkDown (i : BitVec 1) (s : State) : Out' :=
  let s1 := (waitingOn s i.toNat).foldl (fun s x => deferTrap s x.1 x.2.1 x.2.2.id (hostProt x.2.2)) s
  .next { s1 with linkUp := modAt s1.linkUp i.toNat fun _ => false, linkCxl := modAt s1.linkCxl i.toNat fun _ => false }

/-- HOST_LINK_RETRAIN (R475): port i's link trains again, with or without CXL.cache. -/
def execHostLinkRetrain (i : BitVec 1) (cxl : Bool) (s : State) : Out' :=
  .next { s with linkUp := modAt s.linkUp i.toNat fun _ => true, linkCxl := modAt s.linkCxl i.toNat fun _ => cxl }

/-- ATS_INVALIDATION (R474): the cached translations of a range of port i are dropped, and the completion returns. -/
def execAtsInvalidation (i : BitVec 1) (addr len : Nat) (s : State) : Out' :=
  let hit (e : Nat × Nat) : Bool := e.1 == i.toNat && decide (addr < (e.2 + 1) * 4096) && decide (e.2 * 4096 < addr + len)
  .next { s with ats := s.ats.filter (fun e => !hit e), fl := { s.fl with toHost := s.fl.toHost ++ [.atsDone i] } }

/-! ### The host in device memory -/

/-- A range of device DRAM as a piece without a page. -/
def dramPiece (a n : Nat) : Piece := ⟨a, a, n, 0⟩

/-- A range lies in the DRAM of one die. -/
def inDram (s : State) (a n : Nat) : Bool :=
  match placeOf s.part a, placeOf s.part (a + (n - 1)) with
  | .dram d, .dram e => d == e
  | _, _ => false

/-- A message goes to the host. -/
def toHost (s : State) (m : HostMsg) : State := { s with fl := { s.fl with toHost := s.fl.toHost ++ [m] } }

/-- CXL_MEM_READ (R447): the host reads the line of an address; a lost line reads as zeros, marked poisoned. -/
def execCxlMemRead (addr : Nat) (s : State) : Out' :=
  let a := addr / 128 * 128
  if !inDram s a 128 then .next s
  else if lineLost s a || homeGone s a 0 then .next (toHost s (.data a (List.replicate 128 0) true))
  else
    let s := recallLines s [dramPiece a 128]
    .next (toHost s (.data a (s.memBytes a 128) false))

/-- CXL_MEM_WRITE (R447, R451): the host writes bytes within device DRAM at their home. -/
def execCxlMemWrite (addr : Nat) (bytes : List Byte) (s : State) : Out' :=
  let ws := cellsAt addr bytes
  if bytes = [] || !inDram s addr bytes.length || homeGone s addr 0 || !leesRoom s ws then .next s
  else .next (writeHome s .host .system ws)

/-- The new value of a host AtomicOp (R474): none where nothing is written. -/
def hostOpNew (op : AtomOp) (n old x y : Nat) : Option Nat :=
  match op with
  | .fetchAdd => some ((old + x) % 2 ^ (8 * n))
  | .swap => some (x % 2 ^ (8 * n))
  | .cas => if old = x % 2 ^ (8 * n) then some (y % 2 ^ (8 * n)) else none

/-- HOST_ATOMICOP (R474): the device completes a host's AtomicOp at the home of an aligned operand of 4, 8 or 16 bytes. -/
def execHostAtomicop (op : AtomOp) (sz : Size) (addr : Nat) (x y : BitVec 128) (s : State) : Out' :=
  let n := sizeBytes sz
  if n < 4 || addr % n ≠ 0 || !inDram s addr n || lineLost s addr || homeGone s addr 0 || isAcc s addr then
    .next (toHost s .atomicError)
  else
    let s1 := recallLines s [dramPiece addr n]
    let old := s1.memBytes addr n
    if !leesRoom s1 (cellsAt addr old) then .next s
    else
      let s2 := match hostOpNew op n (ofBytes old) x.toNat y.toNat with
        | some v => writeHome s1 .host .system (cellsOf addr n v)
        | none => s1
      .next (toHost s2 (.atomic old))

/-! ### Fabric messages as bytes -/

/-- A fabric message: its type, header and payload. -/
abbrev FabMsg := Byte × FabHdr × List Byte

/-- The 32 bytes of a header and the payload (R403). -/
def msgBytes (m : FabMsg) : List Byte :=
  [m.1, 0] ++ bytesOf 2 m.2.1.tag.toNat ++ bytesOf 4 m.2.1.seq.toNat ++ bytesOf 2 m.2.1.nmem.toNat ++
    bytesOf 2 m.2.1.rank.toNat ++ bytesOf 2 m.2.1.swid.toNat ++ [m.2.1.chunk, 0] ++ bytesOf 2 m.2.1.seg.toNat ++
    bytesOf 2 m.2.1.length.toNat ++ bytesOf 5 m.2.1.offset.toNat ++ List.replicate 7 0 ++ m.2.2

/-- The header that 32 bytes hold (R403). -/
def hdrOf (bs : List Byte) : FabHdr :=
  let v (o n : Nat) : Nat := ofBytes ((bs.drop o).take n)
  { tag := BitVec.ofNat 16 (v 2 2), seq := BitVec.ofNat 32 (v 4 4), nmem := BitVec.ofNat 16 (v 8 2)
    rank := BitVec.ofNat 16 (v 10 2), swid := BitVec.ofNat 16 (v 12 2), chunk := BitVec.ofNat 8 (v 14 1)
    seg := BitVec.ofNat 16 (v 16 2), length := BitVec.ofNat 16 (v 18 2), offset := BitVec.ofNat 40 (v 20 5) }

/-- The messages that lie whole in received bytes, and the bytes left; a byte that begins no message ends the flit. -/
def cutMessages (fuel : Nat) (bs : List Byte) : List FabMsg × List Byte :=
  match fuel with
  | 0 => ([], [])
  | f + 1 =>
    match bs with
    | [] => ([], [])
    | ty :: _ =>
      if ty ≠ 0x21 && ty ≠ 0x22 && ty ≠ 0x23 then ([], [])
      else if bs.length < 32 then ([], bs)
      else
        let h := hdrOf bs
        let n := 32 + h.length.toNat
        if bs.length < n then ([], bs)
        else
          let r := cutMessages f (bs.drop n)
          ((ty, h, (bs.take n).drop 32) :: r.1, r.2)

/-- Received messages go to the collective engine (R403); none where one waits for lees space. -/
def fabDeliver (s : State) : List FabMsg → Option State
  | [] => some s
  | m :: ms =>
    match (if m.1 = 0x21 then some (collDiscard s) else collArrive (m.1 == 0x22) m.2.1 m.2.2 s) with
    | none => none
    | some s' => fabDeliver s' ms

/-- The payloads of the flits that carry a message, each of 244 bytes. -/
def cutPayloads (fuel : Nat) (bs : List Byte) : List (List Byte) :=
  match fuel with
  | 0 => []
  | f + 1 =>
    if bs = [] then [] else (bs.take 244 ++ List.replicate (244 - bs.length) 0) :: cutPayloads f (bs.drop 244)

/-! ### Fabric ports -/

/-- Port p. -/
def State.fport (s : State) (p : Nat) : FPort := tget {} s.fports p
/-- The state with port p changed. -/
def State.modFport (s : State) (p : Nat) (f : FPort → FPort) : State := { s with fports := tput s.fports p (f (s.fport p)) }
/-- FPORTSTATp (R477). -/
def portReg (p : Nat) : Nat := modReg (0x200 + 8 * p)
/-- The port is present and carries flits. -/
def portUp (s : State) (p : Nat) : Bool := p < s.part.ports && bit (s.cfgAt (portReg p)) 63

/-- Flits are sent on a port with their kinds. -/
def FPort.send (x : FPort) (kind : BitVec 4) (fs : List Flit) : FPort := { x with sent := x.sent ++ fs.map fun f => (kind, f) }

/-- The ACK that a flit of the port carries: the last SEQ received in order (R476). -/
def FPort.ackNo (x : FPort) : BitVec 12 := x.rxNext - 1

/-- One data flit enters the retry buffer and is sent. -/
def FPort.data (x : FPort) (payload : List Byte) : FPort :=
  let f : Flit := ⟨x.txSeq, x.ackNo, true, payload⟩
  { x with txSeq := x.txSeq + 1, retry := x.retry ++ [f] }.send 1 [f]

/-- A message is framed into flits where the retry buffer of 2,048 flits has room (R476). -/
def FPort.message (x : FPort) (m : FabMsg) : Option FPort :=
  let ps := cutPayloads 32 (msgBytes m)
  if 2048 < x.retry.length + ps.length then none
  else
    let y := ps.foldl FPort.data x
    some { y with msgs := y.msgs ++ [(y.txSeq - 1, m)] }

/-- The outgoing messages of the module that a port takes, in order; the rest stay. -/
def sendAll (x : FPort) : List FabMsg → FPort × List FabMsg
  | [] => (x, [])
  | m :: ms =>
    match x.message m with
    | none => (x, m :: ms)
    | some y => sendAll y ms

/-- Port p sends what waits to be sent. -/
def portSend (s : State) (p : Nat) : State :=
  if !portUp s p || s.fl.fabOut = [] then s else
  let r := sendAll (s.fport p) s.fl.fabOut
  ({ s with fl := { s.fl with fabOut := r.2 } } : State).modFport p fun _ => r.1

/-- SEQ a is acknowledged by ack: it is not above it, modulo 4096. -/
def acked (ack a : BitVec 12) : Bool := (ack - a).toNat < 2048

/-- A port takes the ACK of a flit: acknowledged flits leave the retry buffer (R476). -/
def FPort.takeAck (x : FPort) (ack : BitVec 12) : FPort :=
  let left := x.retry.filter fun f => !acked ack f.seq
  if left.length = x.retry.length then x
  else { x with retry := left, msgs := x.msgs.filter (fun m => !acked ack m.1), replays := 0 }

/-- A field of FPORTSTAT rises and saturates (R477). -/
def portCount (s : State) (p hi lo n : Nat) : State :=
  let v := s.cfgAt (portReg p)
  s.setCfg (portReg p) (setFld v hi lo (min (fld v hi lo + n) (2 ^ (hi + 1 - lo) - 1)))

/-- A port stops carrying flits: UP and LANES are 0. -/
def portStop (s : State) (p : Nat) : State :=
  let v := s.cfgAt (portReg p)
  s.setCfg (portReg p) (setFld v 63 60 0)

/-- The negative acknowledge that a discarded flit calls for (R476). -/
def FPort.refuse (x : FPort) : FPort :=
  if x.nak then x else { x with nak := true }.send 3 [⟨0, x.ackNo, true, []⟩]

/-- A port that is up receives a flit whose CRC holds, else discards it with a negative acknowledge; then it sends what
waits. -/
def receive (p : BitVec 5) (f : Flit) (go : State → Option State) (s : State) : Out' :=
  if !portUp s p.toNat then .next s
  else if !f.crcOk then .next (s.modFport p.toNat fun x => { x with nak := false }.refuse)
  else
    match go (s.modFport p.toNat fun x => x.takeAck f.ack) with
    | none => .next s
    | some s' => .next (portSend s' p.toNat)

/-- FABRIC_DATA_FLIT (R476): accepted in sequence, a duplicate, or out of order. -/
def execFabricDataFlit (p : BitVec 5) (f : Flit) (s : State) : Out' :=
  receive p f (fun s =>
    let x := s.fport p.toNat
    if f.seq = x.rxNext then
      let bytes := x.rx ++ f.payload
      let r := cutMessages (bytes.length + 1) bytes
      (fabDeliver s r.1).map fun s => s.modFport p.toNat fun x =>
        let y : FPort := { x with rx := r.2, rxNext := x.rxNext + 1, nak := false }
        y.send 2 [⟨0, y.ackNo, true, []⟩]
    else if 1 ≤ (x.rxNext - f.seq).toNat && (x.rxNext - f.seq).toNat ≤ 2048 then some s
    else some (s.modFport p.toNat FPort.refuse)) s

/-- FABRIC_ACK_FLIT (R476): its ACK frees the retry buffer. -/
def execFabricAckFlit (p : BitVec 5) (f : Flit) (s : State) : Out' := receive p f some s
/-- FABRIC_IDLE_FLIT (R476): it carries an ACK only. -/
def execFabricIdleFlit (p : BitVec 5) (f : Flit) (s : State) : Out' := receive p f some s

/-- FABRIC_NAK_FLIT (R476): the sender replays its retry buffer, and retrains after 16 consecutive replays. -/
def execFabricNakFlit (p : BitVec 5) (f : Flit) (s : State) : Out' :=
  receive p f (fun s =>
    let s1 := (portCount s p.toNat 47 32 1).modFport p.toNat fun x => { x with replays := x.replays + 1 }.send 1 x.retry
    some (if 16 ≤ (s1.fport p.toNat).replays then portStop s1 p.toNat else s1)) s

/-- The traffic of a port that is down moves to the ports that are up, or is discarded and counted (R476). -/
def portFail (s : State) (p : Nat) : State :=
  let msgs := (s.fport p).msgs.map (·.2)
  let s1 := (portStop s p).modFport p fun x => { x with retry := [], msgs := [], rx := [], replays := 0 }
  if (upTo s.part.ports).any fun q => portUp s1 q then { s1 with fl := { s1.fl with fabOut := msgs ++ s1.fl.fabOut } }
  else portCount { s1 with fl := { s1.fl with fabOut := [] } } p 31 0 (msgs.length + s1.fl.fabOut.length)

/-- FABRIC_PORT_TRAINED (R476, R477): the port carries flits on 1, 2 or 4 lanes and replays its retry buffer; with no lane
the training has failed. -/
def execFabricPortTrained (p : BitVec 5) (lanes : BitVec 3) (s : State) : Out' :=
  if s.part.ports ≤ p.toNat then .next s
  else if lanes = 1 || lanes = 2 || lanes = 4 then
    let s1 := (s.setCfg (portReg p.toNat) (setFld (setFld (s.cfgAt (portReg p.toNat)) 63 63 1) 62 60 lanes.toNat)).modFport
      p.toNat fun x => { x with replays := 0 }.send 1 x.retry
    .next (portSend s1 p.toNat)
  else .next (portFail s p.toNat)

end Sys2Proof.Machine
end

