-- ==== Sys2Proof/Machine/Dispatch.lean ====
section
/-! DEFINITION. The meaning of every instruction and event, one arm for each constructor. -/

namespace Sys2Proof.Machine

/-- The meaning of an instruction or event in a state. -/
def exec (i : Instr) (s : State) : Host.Outcome State Fault Refusal :=
  match i with
  | .nop ct => Sys2Proof.Machine.execNop ct s
  | .add ct a b c => Sys2Proof.Machine.execAdd ct a b c s
  | .sub ct a b c => Sys2Proof.Machine.execSub ct a b c s
  | .addi ct a b imm => Sys2Proof.Machine.execAddi ct a b imm s
  | .mul ct a b c => Sys2Proof.Machine.execMul ct a b c s
  | .mulh ct a b c => Sys2Proof.Machine.execMulh ct a b c s
  | .mulhn ct a b c => Sys2Proof.Machine.execMulhn ct a b c s
  | .div ct a b c => Sys2Proof.Machine.execDiv ct a b c s
  | .divn ct a b c => Sys2Proof.Machine.execDivn ct a b c s
  | .rem ct a b c => Sys2Proof.Machine.execRem ct a b c s
  | .remn ct a b c => Sys2Proof.Machine.execRemn ct a b c s
  | .and ct a b c => Sys2Proof.Machine.execAnd ct a b c s
  | .or ct a b c => Sys2Proof.Machine.execOr ct a b c s
  | .xor ct a b c => Sys2Proof.Machine.execXor ct a b c s
  | .andn ct a b c => Sys2Proof.Machine.execAndn ct a b c s
  | .andi ct a b imm => Sys2Proof.Machine.execAndi ct a b imm s
  | .ori ct a b imm => Sys2Proof.Machine.execOri ct a b imm s
  | .xori ct a b imm => Sys2Proof.Machine.execXori ct a b imm s
  | .shl ct a b n => Sys2Proof.Machine.execShl ct a b n s
  | .shr ct a b n => Sys2Proof.Machine.execShr ct a b n s
  | .sra ct a b n => Sys2Proof.Machine.execSra ct a b n s
  | .rol ct a b n => Sys2Proof.Machine.execRol ct a b n s
  | .clz ct a b => Sys2Proof.Machine.execClz ct a b s
  | .ctz ct a b => Sys2Proof.Machine.execCtz ct a b s
  | .popc ct a b => Sys2Proof.Machine.execPopc ct a b s
  | .min ct a b c => Sys2Proof.Machine.execMin ct a b c s
  | .max ct a b c => Sys2Proof.Machine.execMax ct a b c s
  | .minn ct a b c => Sys2Proof.Machine.execMinn ct a b c s
  | .maxn ct a b c => Sys2Proof.Machine.execMaxn ct a b c s
  | .sextB ct a b => Sys2Proof.Machine.execSextB ct a b s
  | .sextH ct a b => Sys2Proof.Machine.execSextH ct a b s
  | .sextW ct a b => Sys2Proof.Machine.execSextW ct a b s
  | .bfxZ ct a b pos wr => Sys2Proof.Machine.execBfxZ ct a b pos wr s
  | .bfxS ct a b pos wr => Sys2Proof.Machine.execBfxS ct a b pos wr s
  | .bfi ct a b c pos wr => Sys2Proof.Machine.execBfi ct a b c pos wr s
  | .sel ct a b c p => Sys2Proof.Machine.execSel ct a b c p s
  | .mov ct a b => Sys2Proof.Machine.execMov ct a b s
  | .movi ct a imm => Sys2Proof.Machine.execMovi ct a imm s
  | .movhi ct a imm => Sys2Proof.Machine.execMovhi ct a imm s
  | .lea ct a b m => Sys2Proof.Machine.execLea ct a b m s
  | .cmp ct c t p a b => Sys2Proof.Machine.execCmp ct c t p a b s
  | .cmpi ct c t p a imm => Sys2Proof.Machine.execCmpi ct c t p a imm s
  | .pand ct a b c => Sys2Proof.Machine.execPand ct a b c s
  | .por ct a b c => Sys2Proof.Machine.execPor ct a b c s
  | .pxor ct a b c => Sys2Proof.Machine.execPxor ct a b c s
  | .pnot ct a b => Sys2Proof.Machine.execPnot ct a b s
  | .br ct target => Sys2Proof.Machine.execBr ct target s
  | .jmp ct b => Sys2Proof.Machine.execJmp ct b s
  | .call ct target => Sys2Proof.Machine.execCall ct target s
  | .callr ct b => Sys2Proof.Machine.execCallr ct b s
  | .ret ct => Sys2Proof.Machine.execRet ct s
  | .loop ct a target => Sys2Proof.Machine.execLoop ct a target s
  | .coord ct a c => Sys2Proof.Machine.execCoord ct a c s
  | .ld ct sz sgn a b m => Sys2Proof.Machine.execLd ct sz sgn a b m s
  | .st ct sz a b m => Sys2Proof.Machine.execSt ct sz a b m s
  | .ldq ct a d b m => Sys2Proof.Machine.execLdq ct a d b m s
  | .stq ct a d b m => Sys2Proof.Machine.execStq ct a d b m s
  | .ldv ct a d b m => Sys2Proof.Machine.execLdv ct a d b m s
  | .stv ct a d b m => Sys2Proof.Machine.execStv ct a d b m s
  | .ldvx ct wd a b c k sh off => Sys2Proof.Machine.execLdvx ct wd a b c k sh off s
  | .stvx ct wd a b c k sh off => Sys2Proof.Machine.execStvx ct wd a b c k sh off s
  | .ldf ct a b m p e => Sys2Proof.Machine.execLdf ct a b m p e s
  | .ldfe ct a b m p e => Sys2Proof.Machine.execLdfe ct a b m p e s
  | .stf ct a b m => Sys2Proof.Machine.execStf ct a b m s
  | .stef ct a b m p e => Sys2Proof.Machine.execStef ct a b m p e s
  | .sete ct p b m => Sys2Proof.Machine.execSete ct p b m s
  | .tdef ct t b c => Sys2Proof.Machine.execTdef ct t b c s
  | .trel ct t mode => Sys2Proof.Machine.execTrel ct t mode s
  | .tstat ct a t => Sys2Proof.Machine.execTstat ct a t s
  | .pref ct lv b m => Sys2Proof.Machine.execPref ct lv b m s
  | .wbl ct b m => Sys2Proof.Machine.execWbl ct b m s
  | .zline ct b m => Sys2Proof.Machine.execZline ct b m s
  | .rgnq ct a b m => Sys2Proof.Machine.execRgnq ct a b m s
  | .phase ct sc => Sys2Proof.Machine.execPhase ct sc s
  | .fence ct sc => Sys2Proof.Machine.execFence ct sc s
  | .dfence ct sc => Sys2Proof.Machine.execDfence ct sc s
  | .tlwait ct p t c tmo => Sys2Proof.Machine.execTlwait ct p t c tmo s
  | .tlread ct a t issued => Sys2Proof.Machine.execTlread ct a t issued s
  | .ldnow ct acq sz sc a b m d => Sys2Proof.Machine.execLdnow ct acq sz sc a b m d s
  | .stnow ct rel sz sc a b m d => Sys2Proof.Machine.execStnow ct rel sz sc a b m d s
  | .amo ct ar op sc a b m d => Sys2Proof.Machine.execAmo ct ar op sc a b m d s
  | .amoi ct ar op sc a b imm off => Sys2Proof.Machine.execAmoi ct ar op sc a b imm off s
  | .cas ct ar dw sc a b m d p => Sys2Proof.Machine.execCas ct ar dw sc a b m d p s
  | .casq ct ar sc a b m d p => Sys2Proof.Machine.execCasq ct ar sc a b m d p s
  | .red ct rel op sc a b m => Sys2Proof.Machine.execRed ct rel op sc a b m s
  | .redv ct rel op sc a d b m k => Sys2Proof.Machine.execRedv ct rel op sc a d b m k s
  | .acinit ct chain op fmt sc b r => Sys2Proof.Machine.execAcinit ct chain op fmt sc b r s
  | .acread ct rd b m => Sys2Proof.Machine.execAcread ct rd b m s
  | .acchain ct p b c r => Sys2Proof.Machine.execAcchain ct p b c r s
  | .acflush ct fin b r => Sys2Proof.Machine.execAcflush ct fin b r s
  | .acckpt ct b c r => Sys2Proof.Machine.execAcckpt ct b c r s
  | .acrstr ct b c r => Sys2Proof.Machine.execAcrstr ct b c r s
  | .send ct rel hi a b => Sys2Proof.Machine.execSend ct rel hi a b s
  | .sendv ct rel hi a b c => Sys2Proof.Machine.execSendv ct rel hi a b c s
  | .recv ct acq dst b p tmo => Sys2Proof.Machine.execRecv ct acq dst b p tmo s
  | .recvp ct acq dst b p => Sys2Proof.Machine.execRecvp ct acq dst b p s
  | .waitfe ct empty p b m e => Sys2Proof.Machine.execWaitfe ct empty p b m e s
  | .waitb ct acq p b tmo => Sys2Proof.Machine.execWaitb ct acq p b tmo s
  | .waitc ct acq p b c tmo => Sys2Proof.Machine.execWaitc ct acq p b c tmo s
  | .binit ct sc b c d => Sys2Proof.Machine.execBinit ct sc b c d s
  | .barr ct rel a b c => Sys2Proof.Machine.execBarr ct rel a b c s
  | .stc ct sz sc a b m d chunk => Sys2Proof.Machine.execStc ct sz sc a b m d chunk s
  | .bread ct a b n => Sys2Proof.Machine.execBread ct a b n s
  | .qwave ct a b => Sys2Proof.Machine.execQwave ct a b s
  | .qreset ct b => Sys2Proof.Machine.execQreset ct b s
  | .sleep ct b imm => Sys2Proof.Machine.execSleep ct b imm s
  | .launch ct a b => Sys2Proof.Machine.execLaunch ct a b s
  | .fork ct a target => Sys2Proof.Machine.execFork ct a target s
  | .join ct p b tmo => Sys2Proof.Machine.execJoin ct p b tmo s
  | .jinit ct b c => Sys2Proof.Machine.execJinit ct b c s
  | .suspend ct b c cond tmo => Sys2Proof.Machine.execSuspend ct b c cond tmo s
  | .resume ct p b => Sys2Proof.Machine.execResume ct p b s
  | .migrate ct b m => Sys2Proof.Machine.execMigrate ct b m s
  | .endt ct => Sys2Proof.Machine.execEndt ct s
  | .exit ct => Sys2Proof.Machine.execExit ct s
  | .setpri ct b => Sys2Proof.Machine.execSetpri ct b s
  | .yield ct p => Sys2Proof.Machine.execYield ct p s
  | .lend ct n => Sys2Proof.Machine.execLend ct n s
  | .dqlen ct a => Sys2Proof.Machine.execDqlen ct a s
  | .aqspill ct clr a => Sys2Proof.Machine.execAqspill ct clr a s
  | .vadd ct t a b c k v => Sys2Proof.Machine.execVadd ct t a b c k v s
  | .vsub ct t a b c k v => Sys2Proof.Machine.execVsub ct t a b c k v s
  | .vmul ct t a b c k v => Sys2Proof.Machine.execVmul ct t a b c k v s
  | .vfma ct t a b c d k v => Sys2Proof.Machine.execVfma ct t a b c d k v s
  | .vfms ct t a b c d k v => Sys2Proof.Machine.execVfms ct t a b c d k v s
  | .vmin ct t a b c k v => Sys2Proof.Machine.execVmin ct t a b c k v s
  | .vmax ct t a b c k v => Sys2Proof.Machine.execVmax ct t a b c k v s
  | .vabs ct t a b k v => Sys2Proof.Machine.execVabs ct t a b k v s
  | .vneg ct t a b k v => Sys2Proof.Machine.execVneg ct t a b k v s
  | .vcmp ct c t ka b c2 k v => Sys2Proof.Machine.execVcmp ct c t ka b c2 k v s
  | .vsel ct wd a b c kd v => Sys2Proof.Machine.execVsel ct wd a b c kd v s
  | .vcvt ct src dst a b k v => Sys2Proof.Machine.execVcvt ct src dst a b k v s
  | .vshuf ct wd a b c d k v => Sys2Proof.Machine.execVshuf ct wd a b c d k v s
  | .vbcast ct wd a b k v => Sys2Proof.Machine.execVbcast ct wd a b k v s
  | .vred ct op t a b k v => Sys2Proof.Machine.execVred ct op t a b k v s
  | .vscan ct op a b k v => Sys2Proof.Machine.execVscan ct op a b k v s
  | .viadd ct sat t a b c k v => Sys2Proof.Machine.execViadd ct sat t a b c k v s
  | .visub ct sat t a b c k v => Sys2Proof.Machine.execVisub ct sat t a b c k v s
  | .vimul ct t a b c k v => Sys2Proof.Machine.execVimul ct t a b c k v s
  | .vand ct wd a b c k v => Sys2Proof.Machine.execVand ct wd a b c k v s
  | .vor ct wd a b c k v => Sys2Proof.Machine.execVor ct wd a b c k v s
  | .vxor ct wd a b c k v => Sys2Proof.Machine.execVxor ct wd a b c k v s
  | .vshl ct t a b n k v => Sys2Proof.Machine.execVshl ct t a b n k v s
  | .vshr ct t a b n k v => Sys2Proof.Machine.execVshr ct t a b n k v s
  | .vdot ct t a b c k v => Sys2Proof.Machine.execVdot ct t a b c k v s
  | .vsp2 ct hi a b c k v => Sys2Proof.Machine.execVsp2 ct hi a b c k v s
  | .vmov ct wd a b k v => Sys2Proof.Machine.execVmov ct wd a b k v s
  | .kand ct a b c => Sys2Proof.Machine.execKand ct a b c s
  | .kor ct a b c => Sys2Proof.Machine.execKor ct a b c s
  | .knot ct a b => Sys2Proof.Machine.execKnot ct a b s
  | .kmov ct m => Sys2Proof.Machine.execKmov ct m s
  | .scfg ct wr size a c => Sys2Proof.Machine.execScfg ct wr size a c s
  | .sstart ct a => Sys2Proof.Machine.execSstart ct a s
  | .sstop ct a => Sys2Proof.Machine.execSstop ct a s
  | .sstat ct a b => Sys2Proof.Machine.execSstat ct a b s
  | .vexp ct a b k v => Sys2Proof.Machine.execVexp ct a b k v s
  | .vexp2 ct a b k v => Sys2Proof.Machine.execVexp2 ct a b k v s
  | .vlog2 ct a b k v => Sys2Proof.Machine.execVlog2 ct a b k v s
  | .vrcp ct a b k v => Sys2Proof.Machine.execVrcp ct a b k v s
  | .vrsq ct a b k v => Sys2Proof.Machine.execVrsq ct a b k v s
  | .vsqrt ct a b k v => Sys2Proof.Machine.execVsqrt ct a b k v s
  | .vsin ct a b k v => Sys2Proof.Machine.execVsin ct a b k v s
  | .vcos ct a b k v => Sys2Proof.Machine.execVcos ct a b k v s
  | .vtanh ct a b k v => Sys2Proof.Machine.execVtanh ct a b k v s
  | .rng ct a => Sys2Proof.Machine.execRng ct a s
  | .vrng ct a k => Sys2Proof.Machine.execVrng ct a k s
  | .rngsave ct a d => Sys2Proof.Machine.execRngsave ct a d s
  | .rngload ct b c => Sys2Proof.Machine.execRngload ct b c s
  | .rngjump ct => Sys2Proof.Machine.execRngjump ct s
  | .cbrng ct u a b c d e => Sys2Proof.Machine.execCbrng ct u a b c d e s
  | .mldw ct f a b c => Sys2Proof.Machine.execMldw ct f a b c s
  | .mswap ct a => Sys2Proof.Machine.execMswap ct a s
  | .mstream ct f o64 rows a b c d => Sys2Proof.Machine.execMstream ct f o64 rows a b c d s
  | .mattn ct a b => Sys2Proof.Machine.execMattn ct a b s
  | .mtags ct a b => Sys2Proof.Machine.execMtags ct a b s
  | .mcfg ct a b => Sys2Proof.Machine.execMcfg ct a b s
  | .mcancel ct a b => Sys2Proof.Machine.execMcancel ct a b s
  | .mqstat ct a => Sys2Proof.Machine.execMqstat ct a s
  | .rdesc ct src id => Sys2Proof.Machine.execRdesc ct src id s
  | .rnew ct a b c id => Sys2Proof.Machine.execRnew ct a b c id s
  | .rcat ct a b c => Sys2Proof.Machine.execRcat ct a b c s
  | .rsplit ct a b c d => Sys2Proof.Machine.execRsplit ct a b c d s
  | .rsplice ct a b c d del n => Sys2Proof.Machine.execRsplice ct a b c d del n s
  | .rwalk ct a b c d e => Sys2Proof.Machine.execRwalk ct a b c d e s
  | .rsum ct a b c d slot => Sys2Proof.Machine.execRsum ct a b c d slot s
  | .rget ct sgn a b c => Sys2Proof.Machine.execRget ct sgn a b c s
  | .riter ct a b c d e => Sys2Proof.Machine.execRiter ct a b c d e s
  | .rlen ct a b => Sys2Proof.Machine.execRlen ct a b s
  | .rref ct b => Sys2Proof.Machine.execRref ct b s
  | .rdrop ct b => Sys2Proof.Machine.execRdrop ct b s
  | .rpub ct sc p b c d e => Sys2Proof.Machine.execRpub ct sc p b c d e s
  | .rload ct acq sc a b d => Sys2Proof.Machine.execRload ct acq sc a b d s
  | .cpy ct a b c len => Sys2Proof.Machine.execCpy ct a b c len s
  | .cpy2d ct a b => Sys2Proof.Machine.execCpy2d ct a b s
  | .cpyf ct src dst a b c d => Sys2Proof.Machine.execCpyf ct src dst a b c d s
  | .cpyg ct a b c d e rowb => Sys2Proof.Machine.execCpyg ct a b c d e rowb s
  | .coll ct op a b c d e nchm1 group => Sys2Proof.Machine.execColl ct op a b c d e nchm1 group s
  | .colla ct a b => Sys2Proof.Machine.execColla ct a b s
  | .smpl ct a b => Sys2Proof.Machine.execSmpl ct a b s
  | .smplv ct a b => Sys2Proof.Machine.execSmplv ct a b s
  | .smcommit ct a b c => Sys2Proof.Machine.execSmcommit ct a b c s
  | .smcancel ct a b => Sys2Proof.Machine.execSmcancel ct a b s
  | .treedef ct b id => Sys2Proof.Machine.execTreedef ct b id s
  | .engq ct e a => Sys2Proof.Machine.execEngq ct e a s
  | .trap ct imm => Sys2Proof.Machine.execTrap ct imm s
  | .sysc ct imm => Sys2Proof.Machine.execSysc ct imm s
  | .rett ct => Sys2Proof.Machine.execRett ct s
  | .rdsr ct a num => Sys2Proof.Machine.execRdsr ct a num s
  | .wrsr ct b num => Sys2Proof.Machine.execWrsr ct b num s
  | .tlbinv ct sc b c => Sys2Proof.Machine.execTlbinv ct sc b c s
  | .tlbsync ct => Sys2Proof.Machine.execTlbsync ct s
  | .ctxsave ct p b => Sys2Proof.Machine.execCtxsave ct p b s
  | .ctxload ct b => Sys2Proof.Machine.execCtxload ct b s
  | .halt ct => Sys2Proof.Machine.execHalt ct s
  | .bkpt ct imm => Sys2Proof.Machine.execBkpt ct imm s
  | .llrcl ct b m => Sys2Proof.Machine.execLlrcl ct b m s
  | .hirq ct b n => Sys2Proof.Machine.execHirq ct b n s
  | .perf ct b n => Sys2Proof.Machine.execPerf ct b n s
  | .tfill rd rs1 rs2 => Sys2Proof.Machine.execTfill rd rs1 rs2 s
  | .tfill2 rd rs1 => Sys2Proof.Machine.execTfill2 rd rs1 s
  | .tready rd rs1 rs2 => Sys2Proof.Machine.execTready rd rs1 rs2 s
  | .twaite rd rs1 rs2 => Sys2Proof.Machine.execTwaite rd rs1 rs2 s
  | .tdrain rd rs1 rs2 => Sys2Proof.Machine.execTdrain rd rs1 rs2 s
  | .twaitd rd rs1 rs2 => Sys2Proof.Machine.execTwaitd rd rs1 rs2 s
  | .tempty rd rs1 rs2 => Sys2Proof.Machine.execTempty rd rs1 rs2 s
  | .tcfgReadEntry rd rs1 => Sys2Proof.Machine.execTcfgReadEntry rd rs1 s
  | .tcfgRole rd rs1 => Sys2Proof.Machine.execTcfgRole rd rs1 s
  | .tcfgFailedAddress rd rs1 => Sys2Proof.Machine.execTcfgFailedAddress rd rs1 s
  | .tcfgReturnEmpty rd rs1 => Sys2Proof.Machine.execTcfgReturnEmpty rd rs1 s
  | .rv64imcInstruction n => Sys2Proof.Machine.execRv64imcInstruction n s
  | .repetitionIssue g k => Sys2Proof.Machine.execRepetitionIssue g k s
  | .idleTurn g k => Sys2Proof.Machine.execIdleTurn g k s
  | .fetchLineArrival g k => Sys2Proof.Machine.execFetchLineArrival g k s
  | .longLatencyComplete g k j => Sys2Proof.Machine.execLongLatencyComplete g k j s
  | .deferredTrapDetect g k j => Sys2Proof.Machine.execDeferredTrapDetect g k j s
  | .trapEntry g k => Sys2Proof.Machine.execTrapEntry g k s
  | .phlimit g k => Sys2Proof.Machine.execPhlimit g k s
  | .tilewait g k => Sys2Proof.Machine.execTilewait g k s
  | .wakeReinsert g k => Sys2Proof.Machine.execWakeReinsert g k s
  | .waitDeadline g k => Sys2Proof.Machine.execWaitDeadline g k s
  | .parkContext g k => Sys2Proof.Machine.execParkContext g k s
  | .admitContext g k => Sys2Proof.Machine.execAdmitContext g k s
  | .stealProbe g => Sys2Proof.Machine.execStealProbe g s
  | .priorityAging g => Sys2Proof.Machine.execPriorityAging g s
  | .arrivalAppend n => Sys2Proof.Machine.execArrivalAppend n s
  | .timeSliceExpiry g => Sys2Proof.Machine.execTimeSliceExpiry g s
  | .tenantRestore g t => Sys2Proof.Machine.execTenantRestore g t s
  | .tenantHandover g => Sys2Proof.Machine.execTenantHandover g s
  | .lqprodWrite t v => Sys2Proof.Machine.execLqprodWrite t v s
  | .launchRecordTake t => Sys2Proof.Machine.execLaunchRecordTake t s
  | .launchStart t => Sys2Proof.Machine.execLaunchStart t s
  | .launchComplete lid => Sys2Proof.Machine.execLaunchComplete lid s
  | .exitMarkSeen g lid => Sys2Proof.Machine.execExitMarkSeen g lid s
  | .workAreaFault lid addr => Sys2Proof.Machine.execWorkAreaFault lid addr s
  | .messageAccept n => Sys2Proof.Machine.execMessageAccept n s
  | .continuationQueue n => Sys2Proof.Machine.execContinuationQueue n s
  | .stcCount n => Sys2Proof.Machine.execStcCount n s
  | .qwaveCollect n => Sys2Proof.Machine.execQwaveCollect n s
  | .publicationComplete n => Sys2Proof.Machine.execPublicationComplete n s
  | .leesRelease => Sys2Proof.Machine.execLeesRelease s
  | .sluiceWindow => Sys2Proof.Machine.execSluiceWindow s
  | .regionMerge d n => Sys2Proof.Machine.execRegionMerge d n s
  | .remoteSpadTurn g => Sys2Proof.Machine.execRemoteSpadTurn g s
  | .lineRecall line => Sys2Proof.Machine.execLineRecall line s
  | .reductionApply n => Sys2Proof.Machine.execReductionApply n s
  | .copyEvictFold g line => Sys2Proof.Machine.execCopyEvictFold g line s
  | .accLineEvict line => Sys2Proof.Machine.execAccLineEvict line s
  | .commandAccept g k j => Sys2Proof.Machine.execCommandAccept g k j s
  | .arbiterVisit c => Sys2Proof.Machine.execArbiterVisit c s
  | .matrixTileStart c => Sys2Proof.Machine.execMatrixTileStart c s
  | .matrixRowDrain c n => Sys2Proof.Machine.execMatrixRowDrain c n s
  | .matrixJobDone g n => Sys2Proof.Machine.execMatrixJobDone g n s
  | .copyPiece c => Sys2Proof.Machine.execCopyPiece c s
  | .copyJobDone g => Sys2Proof.Machine.execCopyJobDone g s
  | .collectiveJobStart g => Sys2Proof.Machine.execCollectiveJobStart g s
  | .reductionReply h payload => Sys2Proof.Machine.execReductionReply h payload s
  | .multicastData h payload => Sys2Proof.Machine.execMulticastData h payload s
  | .collChunkCount g j => Sys2Proof.Machine.execCollChunkCount g j s
  | .collTimeout g => Sys2Proof.Machine.execCollTimeout g s
  | .pressRequestStart d => Sys2Proof.Machine.execPressRequestStart d s
  | .pressNodeBoundary d => Sys2Proof.Machine.execPressNodeBoundary d s
  | .prcancWrite t d seq => Sys2Proof.Machine.execPrcancWrite t d seq s
  | .ropeUnitAccept g k j => Sys2Proof.Machine.execRopeUnitAccept g k j s
  | .ropeComplete d u n => Sys2Proof.Machine.execRopeComplete d u n s
  | .ropeReclaim d n => Sys2Proof.Machine.execRopeReclaim d n s
  | .fillDrainComplete g n => Sys2Proof.Machine.execFillDrainComplete g n s
  | .scalarWaitTimeout g r => Sys2Proof.Machine.execScalarWaitTimeout g r s
  | .sfuStart g => Sys2Proof.Machine.execSfuStart g s
  | .sfuResultWrite g => Sys2Proof.Machine.execSfuResultWrite g s
  | .streamReadahead g k r => Sys2Proof.Machine.execStreamReadahead g k r s
  | .streamStorePerform g k r => Sys2Proof.Machine.execStreamStorePerform g k r s
  | .tlbInvalidateDeliver n => Sys2Proof.Machine.execTlbInvalidateDeliver n s
  | .agentDead d => Sys2Proof.Machine.execAgentDead d s
  | .uncorrectableError line => Sys2Proof.Machine.execUncorrectableError line s
  | .eccCorrected d => Sys2Proof.Machine.execEccCorrected d s
  | .hostAtomicCompletion n old err => Sys2Proof.Machine.execHostAtomicCompletion n old err s
  | .hostLinkDown n => Sys2Proof.Machine.execHostLinkDown n s
  | .cxlMemRead addr => Sys2Proof.Machine.execCxlMemRead addr s
  | .cxlMemWrite addr bytes => Sys2Proof.Machine.execCxlMemWrite addr bytes s
  | .hostAtomicop op sz addr x y => Sys2Proof.Machine.execHostAtomicop op sz addr x y s
  | .fabricDataFlit p f => Sys2Proof.Machine.execFabricDataFlit p f s
  | .fabricAckFlit p f => Sys2Proof.Machine.execFabricAckFlit p f s
  | .fabricNakFlit p f => Sys2Proof.Machine.execFabricNakFlit p f s
  | .fabricIdleFlit p f => Sys2Proof.Machine.execFabricIdleFlit p f s
  | .powerStep power temp => Sys2Proof.Machine.execPowerStep power temp s
  | .thermalTrip => Sys2Proof.Machine.execThermalTrip s
  | .moduleReset failing => Sys2Proof.Machine.execModuleReset failing s
  | .controllerTakeover => Sys2Proof.Machine.execControllerTakeover s
  | .getVersion => Sys2Proof.Machine.execGetVersion s
  | .getCapabilities => Sys2Proof.Machine.execGetCapabilities s
  | .negotiateAlgorithms => Sys2Proof.Machine.execNegotiateAlgorithms s
  | .getDigests => Sys2Proof.Machine.execGetDigests s
  | .getCertificate slot => Sys2Proof.Machine.execGetCertificate slot s
  | .challenge slot => Sys2Proof.Machine.execChallenge slot s
  | .getMeasurements idx => Sys2Proof.Machine.execGetMeasurements idx s
  | .keyExchange => Sys2Proof.Machine.execKeyExchange s
  | .finish => Sys2Proof.Machine.execFinish s
  | .tenantReset t => Sys2Proof.Machine.execTenantReset t s
  | .keyGen t slot => Sys2Proof.Machine.execKeyGen t slot s
  | .fwRegisterWrite d n r v => Sys2Proof.Machine.execFwRegisterWrite d n r v s
  | .configRegisterWrite addr v => Sys2Proof.Machine.execConfigRegisterWrite addr v s
  | .hostLinkRetrain n cxl => Sys2Proof.Machine.execHostLinkRetrain n cxl s
  | .fabricPortTrained p lanes => Sys2Proof.Machine.execFabricPortTrained p lanes s
  | .atsInvalidation n addr len => Sys2Proof.Machine.execAtsInvalidation n addr len s
  | .doeDiscovery => Sys2Proof.Machine.execDoeDiscovery s
  | .sliceEviction g line => Sys2Proof.Machine.execSliceEviction g line s

end Sys2Proof.Machine
end

