-- ==== Sys2Proof/WellFormed.lean ====
section
/-! DEFINITION. Which instruction terms stand for a word of the manual: the operand values, scopes, types and
mark fields that the encoding tables admit (R45, R46, R50–R53). Events are well formed for every operand. -/

namespace Sys2Proof

/-- HINT is never 7, and is zero without mark H; LA is zero without mark L (R45, R50, R51). -/
def ctlOk (l h : Bool) (ct : Ctl) : Bool := (l || ct.la == 0) && (h || ct.hint == 0) && ct.hint != 7
/-- The number of a scope lies between lo and hi (R53). -/
def scopeWf (sc : Scope) (lo hi : Nat) : Bool := lo ≤ (scopeCode sc).toNat && (scopeCode sc).toNat ≤ hi
/-- GRP is not 3 (R296). -/
def vctlWf (v : VCtl) : Bool := v.grp != 3

/-- A well-formed instruction. -/
def Instr.wf (i : Instr) : Bool :=
  match i with
  | .nop ct => ctlOk false false ct
  | .add ct _ _ _ => ctlOk false false ct
  | .sub ct _ _ _ => ctlOk false false ct
  | .addi ct _ _ _ => ctlOk false false ct
  | .mul ct _ _ _ => ctlOk false false ct
  | .mulh ct _ _ _ => ctlOk false false ct
  | .mulhn ct _ _ _ => ctlOk false false ct
  | .div ct _ _ _ => ctlOk false false ct
  | .divn ct _ _ _ => ctlOk false false ct
  | .rem ct _ _ _ => ctlOk false false ct
  | .remn ct _ _ _ => ctlOk false false ct
  | .and ct _ _ _ => ctlOk false false ct
  | .or ct _ _ _ => ctlOk false false ct
  | .xor ct _ _ _ => ctlOk false false ct
  | .andn ct _ _ _ => ctlOk false false ct
  | .andi ct _ _ _ => ctlOk false false ct
  | .ori ct _ _ _ => ctlOk false false ct
  | .xori ct _ _ _ => ctlOk false false ct
  | .shl ct _ _ (.reg _) => ctlOk false false ct
  | .shl ct _ _ (.imm _) => ctlOk false false ct
  | .shr ct _ _ (.reg _) => ctlOk false false ct
  | .shr ct _ _ (.imm _) => ctlOk false false ct
  | .sra ct _ _ (.reg _) => ctlOk false false ct
  | .sra ct _ _ (.imm _) => ctlOk false false ct
  | .rol ct _ _ (.reg _) => ctlOk false false ct
  | .rol ct _ _ (.imm _) => ctlOk false false ct
  | .clz ct _ _ => ctlOk false false ct
  | .ctz ct _ _ => ctlOk false false ct
  | .popc ct _ _ => ctlOk false false ct
  | .min ct _ _ _ => ctlOk false false ct
  | .max ct _ _ _ => ctlOk false false ct
  | .minn ct _ _ _ => ctlOk false false ct
  | .maxn ct _ _ _ => ctlOk false false ct
  | .sextB ct _ _ => ctlOk false false ct
  | .sextH ct _ _ => ctlOk false false ct
  | .sextW ct _ _ => ctlOk false false ct
  | .bfxZ ct _ _ _ _ => ctlOk false false ct
  | .bfxS ct _ _ _ _ => ctlOk false false ct
  | .bfi ct _ _ _ _ _ => ctlOk false false ct
  | .sel ct _ _ _ _ => ctlOk false false ct
  | .mov ct _ _ => ctlOk false false ct
  | .movi ct _ _ => ctlOk false false ct
  | .movhi ct _ _ => ctlOk false false ct
  | .lea ct _ _ _ => ctlOk false false ct
  | .cmp ct _ _ _ _ _ => ctlOk false false ct
  | .cmpi ct _ _ _ _ _ => ctlOk false false ct
  | .pand ct _ _ _ => ctlOk false false ct
  | .por ct _ _ _ => ctlOk false false ct
  | .pxor ct _ _ _ => ctlOk false false ct
  | .pnot ct _ _ => ctlOk false false ct
  | .br ct t => ctlOk false false ct && t.extractLsb' 3 3 == 0
  | .jmp ct _ => ctlOk false false ct
  | .call ct t => ctlOk false false ct && t.extractLsb' 3 3 == 0
  | .callr ct _ => ctlOk false false ct
  | .ret ct => ctlOk false false ct
  | .loop ct _ t => ctlOk false false ct && t.extractLsb' 3 3 == 0
  | .coord ct _ _ => ctlOk false false ct
  | .ld ct sz sgn _ _ _ => ctlOk true true ct && sz != .q && (!sgn || sz != .d)
  | .st ct sz _ _ _ => ctlOk true true ct && sz != .q
  | .ldq ct _ _ _ _ => ctlOk true true ct
  | .stq ct _ _ _ _ => ctlOk true true ct
  | .ldv ct _ _ _ _ => ctlOk true true ct
  | .stv ct _ _ _ _ => ctlOk true true ct
  | .ldvx ct _ _ _ _ _ _ _ => ctlOk true true ct
  | .stvx ct _ _ _ _ _ _ _ => ctlOk true true ct
  | .ldf ct _ _ _ _ _ => ctlOk true true ct
  | .ldfe ct _ _ _ _ _ => ctlOk true true ct
  | .stf ct _ _ _ => ctlOk true true ct
  | .stef ct _ _ _ _ _ => ctlOk true true ct
  | .sete ct _ _ _ => ctlOk true false ct
  | .tdef ct _ _ _ => ctlOk false false ct
  | .trel ct _ _ => ctlOk false false ct
  | .tstat ct _ _ => ctlOk false false ct
  | .pref ct _ _ _ => ctlOk false true ct
  | .wbl ct _ _ => ctlOk true true ct
  | .zline ct _ _ => ctlOk true true ct
  | .rgnq ct _ _ _ => ctlOk true false ct
  | .phase ct sc => ctlOk false false ct && scopeWf sc 1 5
  | .fence ct sc => ctlOk false false ct && scopeWf sc 1 5
  | .dfence ct sc => ctlOk false false ct && scopeWf sc 1 5
  | .tlwait ct _ _ _ _ => ctlOk false false ct
  | .tlread ct _ _ _ => ctlOk false false ct
  | .ldnow ct acq sz sc _ _ _ d => ctlOk (!acq) false ct && (sz == .q || d == 0) && scopeWf sc 2 5
  | .stnow ct rel sz sc _ _ _ d => ctlOk (!rel) false ct && (sz == .q || d == 0) && scopeWf sc 2 5
  | .amo ct ar _ sc _ _ _ _ => ctlOk (!ar) false ct && scopeWf sc 1 5
  | .amoi ct ar _ sc _ _ _ _ => ctlOk (!ar) false ct && scopeWf sc 1 5
  | .cas ct ar _ sc _ _ _ _ _ => ctlOk (!ar) false ct && scopeWf sc 1 5
  | .casq ct ar sc _ _ _ _ _ => ctlOk (!ar) false ct && scopeWf sc 1 5
  | .red ct _ op sc _ _ _ => ctlOk true false ct && op != .int .swap && scopeWf sc 1 4
  | .redv ct _ _ sc _ _ _ _ _ => ctlOk true false ct && scopeWf sc 1 4
  | .acinit ct _ _ _ sc _ _ => ctlOk true false ct && scopeWf sc 1 4
  | .acread ct (.w _ _) _ _ => ctlOk true false ct
  | .acread ct (.d _ _) _ _ => ctlOk true false ct
  | .acread ct (.v _ _ _) _ _ => ctlOk true false ct
  | .acread ct (.hdr _) _ _ => ctlOk true false ct
  | .acchain ct _ _ _ _ => ctlOk false false ct
  | .acflush ct _ _ _ => ctlOk true false ct
  | .acckpt ct _ _ _ => ctlOk true false ct
  | .acrstr ct _ _ _ => ctlOk true false ct
  | .send ct _ _ _ _ => ctlOk true false ct
  | .sendv ct _ _ _ _ _ => ctlOk true false ct
  | .recv ct _ (.dword _) _ _ _ => ctlOk false false ct
  | .recv ct _ (.line _ _) _ _ _ => ctlOk false false ct
  | .recvp ct _ (.dword _) _ _ => ctlOk true false ct
  | .recvp ct _ (.line _ _) _ _ => ctlOk true false ct
  | .waitfe ct _ _ _ _ _ => ctlOk false false ct
  | .waitb ct _ _ _ _ => ctlOk false false ct
  | .waitc ct _ _ _ (.imm _) _ => ctlOk false false ct
  | .waitc ct _ _ _ (.reg _) _ => ctlOk false false ct
  | .binit ct sc _ _ _ => ctlOk true false ct && scopeWf sc 2 5
  | .barr ct _ _ _ _ => ctlOk true false ct
  | .stc ct sz sc _ _ _ _ _ => ctlOk true false ct && sz != .q && scopeWf sc 2 5
  | .bread ct _ _ _ => ctlOk true false ct
  | .qwave ct _ _ => ctlOk true false ct
  | .qreset ct _ => ctlOk true false ct
  | .sleep ct _ _ => ctlOk false false ct
  | .launch ct _ _ => ctlOk true false ct
  | .fork ct _ t => ctlOk false false ct && t.extractLsb' 3 3 == 0
  | .join ct _ _ _ => ctlOk false false ct
  | .jinit ct _ _ => ctlOk false false ct
  | .suspend ct _ _ .plain _ => ctlOk false false ct
  | .suspend ct _ _ (.tl _ _) _ => ctlOk false false ct
  | .suspend ct _ _ (.bar _) _ => ctlOk false false ct
  | .suspend ct _ _ (.join _) _ => ctlOk false false ct
  | .resume ct _ _ => ctlOk false false ct
  | .migrate ct _ _ => ctlOk false false ct
  | .endt ct => ctlOk false false ct
  | .exit ct => ctlOk false false ct
  | .setpri ct _ => ctlOk false false ct
  | .yield ct _ => ctlOk false false ct
  | .lend ct _ => ctlOk false false ct
  | .dqlen ct _ => ctlOk false false ct
  | .aqspill ct _ _ => ctlOk false false ct
  | .vadd ct t _ _ _ _ v => ctlOk false false ct && vctlWf v && t.isF
  | .vsub ct t _ _ _ _ v => ctlOk false false ct && vctlWf v && t.isF
  | .vmul ct t _ _ _ _ v => ctlOk false false ct && vctlWf v && t.isF
  | .vfma ct t _ _ _ _ _ v => ctlOk false false ct && vctlWf v && t.isF
  | .vfms ct t _ _ _ _ _ v => ctlOk false false ct && vctlWf v && t.isF
  | .vmin ct t _ _ _ _ v => ctlOk false false ct && vctlWf v && t.isF
  | .vmax ct t _ _ _ _ v => ctlOk false false ct && vctlWf v && t.isF
  | .vabs ct t _ _ _ v => ctlOk false false ct && vctlWf v && t.isF
  | .vneg ct t _ _ _ v => ctlOk false false ct && vctlWf v && t.isF
  | .vcmp ct c t _ _ _ _ v => ctlOk false false ct && vctlWf v && vcmpOk c t
  | .vsel ct _ _ _ _ _ v => ctlOk false false ct && vctlWf v
  | .vcvt ct s t _ _ _ v => ctlOk false false ct && vctlWf v && cvtPair s t
  | .vshuf ct _ _ _ _ _ _ v => ctlOk false false ct && vctlWf v
  | .vbcast ct _ _ _ _ v => ctlOk false false ct && vctlWf v
  | .vred ct _ t _ _ _ v => ctlOk false false ct && vctlWf v && t.isF
  | .vscan ct _ _ _ _ v => ctlOk false false ct && vctlWf v
  | .viadd ct _ t _ _ _ _ v => ctlOk false false ct && vctlWf v && t.isI
  | .visub ct _ t _ _ _ _ v => ctlOk false false ct && vctlWf v && t.isI
  | .vimul ct t _ _ _ _ v => ctlOk false false ct && vctlWf v && t.isI
  | .vand ct _ _ _ _ _ v => ctlOk false false ct && vctlWf v
  | .vor ct _ _ _ _ _ v => ctlOk false false ct && vctlWf v
  | .vxor ct _ _ _ _ _ v => ctlOk false false ct && vctlWf v
  | .vshl ct t _ _ (.lanes _) _ v => ctlOk false false ct && vctlWf v && t.isI
  | .vshl ct t _ _ (.imm _) _ v => ctlOk false false ct && vctlWf v && t.isI
  | .vshr ct t _ _ (.lanes _) _ v => ctlOk false false ct && vctlWf v && t.isI
  | .vshr ct t _ _ (.imm _) _ v => ctlOk false false ct && vctlWf v && t.isI
  | .vdot ct t _ _ _ _ v => ctlOk false false ct && vctlWf v && (t.isF || t == .f8)
  | .vsp2 ct _ _ _ _ _ v => ctlOk false false ct && vctlWf v
  | .vmov ct _ _ _ _ v => ctlOk false false ct && vctlWf v
  | .kand ct _ _ _ => ctlOk false false ct
  | .kor ct _ _ _ => ctlOk false false ct
  | .knot ct _ _ => ctlOk false false ct
  | .kmov ct (.kk _ _) => ctlOk false false ct
  | .kmov ct (.kg _ _) => ctlOk false false ct
  | .kmov ct (.gk _ _) => ctlOk false false ct
  | .scfg ct _ _ _ (.one _ _) => ctlOk false false ct
  | .scfg ct _ _ _ (.desc _) => ctlOk false false ct
  | .sstart ct _ => ctlOk false false ct
  | .sstop ct _ => ctlOk false false ct
  | .sstat ct _ _ => ctlOk false false ct
  | .vexp ct _ _ _ v => ctlOk true false ct && vctlWf v
  | .vexp2 ct _ _ _ v => ctlOk true false ct && vctlWf v
  | .vlog2 ct _ _ _ v => ctlOk true false ct && vctlWf v
  | .vrcp ct _ _ _ v => ctlOk true false ct && vctlWf v
  | .vrsq ct _ _ _ v => ctlOk true false ct && vctlWf v
  | .vsqrt ct _ _ _ v => ctlOk true false ct && vctlWf v
  | .vsin ct _ _ _ v => ctlOk true false ct && vctlWf v
  | .vcos ct _ _ _ v => ctlOk true false ct && vctlWf v
  | .vtanh ct _ _ _ v => ctlOk true false ct && vctlWf v
  | .rng ct _ => ctlOk false false ct
  | .vrng ct _ _ => ctlOk false false ct
  | .rngsave ct _ _ => ctlOk false false ct
  | .rngload ct _ _ => ctlOk false false ct
  | .rngjump ct => ctlOk false false ct
  | .cbrng ct _ _ _ _ _ _ => ctlOk false false ct
  | .mldw ct _ _ _ _ => ctlOk true false ct
  | .mswap ct _ => ctlOk true false ct
  | .mstream ct _ _ _ _ _ _ _ => ctlOk true false ct
  | .mattn ct _ _ => ctlOk true false ct
  | .mtags ct _ _ => ctlOk true false ct
  | .mcfg ct _ _ => ctlOk true false ct
  | .mcancel ct _ _ => ctlOk true false ct
  | .mqstat ct _ => ctlOk true false ct
  | .rdesc ct (some _) _ => ctlOk true false ct
  | .rdesc ct none _ => ctlOk true false ct
  | .rnew ct _ _ _ _ => ctlOk true false ct
  | .rcat ct _ _ _ => ctlOk true false ct
  | .rsplit ct _ _ _ _ => ctlOk true false ct
  | .rsplice ct _ _ _ _ _ _ => ctlOk true false ct
  | .rwalk ct _ _ _ _ _ => ctlOk true false ct
  | .rsum ct _ _ _ _ _ => ctlOk true false ct
  | .rget ct _ _ _ _ => ctlOk true false ct
  | .riter ct _ _ _ _ _ => ctlOk true false ct
  | .rlen ct _ _ => ctlOk true false ct
  | .rref ct _ => ctlOk true false ct
  | .rdrop ct _ => ctlOk true false ct
  | .rpub ct sc _ _ _ _ _ => ctlOk true false ct && scopeWf sc 3 4
  | .rload ct _ sc _ _ _ => ctlOk true false ct && scopeWf sc 3 4
  | .cpy ct _ _ _ (.imm _) => ctlOk true false ct
  | .cpy ct _ _ _ (.reg _) => ctlOk true false ct
  | .cpy2d ct _ _ => ctlOk true false ct
  | .cpyf ct s t _ _ _ _ => ctlOk true false ct && cvtPair s t
  | .cpyg ct _ _ _ _ _ _ => ctlOk true false ct
  | .coll ct op _ _ _ _ e _ _ => ctlOk true false ct && (op == .bcast || e == 0)
  | .colla ct _ _ => ctlOk true false ct
  | .smpl ct _ _ => ctlOk true false ct
  | .smplv ct _ _ => ctlOk true false ct
  | .smcommit ct _ _ _ => ctlOk true false ct
  | .smcancel ct _ _ => ctlOk true false ct
  | .treedef ct _ _ => ctlOk true false ct
  | .engq ct _ _ => ctlOk true false ct
  | .trap ct _ => ctlOk false false ct
  | .sysc ct _ => ctlOk false false ct
  | .rett ct => ctlOk false false ct
  | .rdsr ct _ n => ctlOk false false ct && srNumbers.contains n.toNat
  | .wrsr ct _ n => ctlOk false false ct && srNumbers.contains n.toNat
  | .tlbinv ct sc _ _ => ctlOk true false ct && scopeWf sc 1 4
  | .tlbsync ct => ctlOk false false ct
  | .ctxsave ct _ _ => ctlOk true false ct
  | .ctxload ct _ => ctlOk true false ct
  | .halt ct => ctlOk false false ct
  | .bkpt ct _ => ctlOk false false ct
  | .llrcl ct _ _ => ctlOk true false ct
  | .hirq ct _ _ => ctlOk false false ct
  | .perf ct _ _ => ctlOk false false ct
  | .tfill _ _ _ => true
  | .tfill2 _ _ => true
  | .tready _ _ _ => true
  | .twaite _ _ _ => true
  | .tdrain _ _ _ => true
  | .twaitd _ _ _ => true
  | .tempty _ _ _ => true
  | .tcfgReadEntry _ _ => true
  | .tcfgRole _ _ => true
  | .tcfgFailedAddress _ _ => true
  | .tcfgReturnEmpty _ _ => true
  | .idleTurn _ _ => true
  | .fetchLineArrival _ _ => true
  | .longLatencyComplete _ _ _ => true
  | .deferredTrapDetect _ _ _ => true
  | .trapEntry _ _ => true
  | .phlimit _ _ => true
  | .tilewait _ _ => true
  | .wakeReinsert _ _ => true
  | .waitDeadline _ _ => true
  | .parkContext _ _ => true
  | .admitContext _ _ => true
  | .stealProbe _ => true
  | .priorityAging _ => true
  | .arrivalAppend _ => true
  | .timeSliceExpiry _ => true
  | .tenantRestore _ _ => true
  | .tenantHandover _ => true
  | .lqprodWrite _ _ => true
  | .launchRecordTake _ => true
  | .launchStart _ => true
  | .launchComplete _ => true
  | .exitMarkSeen _ _ => true
  | .workAreaFault _ _ => true
  | .messageAccept _ => true
  | .continuationQueue _ => true
  | .stcCount _ => true
  | .qwaveCollect _ => true
  | .publicationComplete _ => true
  | .leesRelease => true
  | .sluiceWindow => true
  | .regionMerge _ _ => true
  | .remoteSpadTurn _ => true
  | .lineRecall _ => true
  | .reductionApply _ => true
  | .copyEvictFold _ _ => true
  | .accLineEvict _ => true
  | .commandAccept _ _ _ => true
  | .arbiterVisit _ => true
  | .matrixTileStart _ => true
  | .matrixRowDrain _ _ => true
  | .matrixJobDone _ _ => true
  | .copyPiece _ => true
  | .copyJobDone _ => true
  | .collectiveJobStart _ => true
  | .reductionReply _ _ => true
  | .multicastData _ _ => true
  | .collChunkCount _ _ => true
  | .collTimeout _ => true
  | .pressRequestStart _ => true
  | .pressNodeBoundary _ => true
  | .prcancWrite _ _ _ => true
  | .ropeUnitAccept _ _ _ => true
  | .ropeComplete _ _ _ => true
  | .ropeReclaim _ _ => true
  | .fillDrainComplete _ _ => true
  | .scalarWaitTimeout _ _ => true
  | .sfuStart _ => true
  | .sfuResultWrite _ => true
  | .streamReadahead _ _ _ => true
  | .streamStorePerform _ _ _ => true
  | .tlbInvalidateDeliver _ => true
  | .agentDead _ => true
  | .uncorrectableError _ => true
  | .eccCorrected _ => true
  | .hostAtomicCompletion _ _ _ => true
  | .hostLinkDown _ => true
  | .cxlMemRead _ => true
  | .cxlMemWrite _ _ => true
  | .hostAtomicop _ _ _ _ _ => true
  | .fabricDataFlit _ _ => true
  | .fabricAckFlit _ _ => true
  | .fabricNakFlit _ _ => true
  | .fabricIdleFlit _ _ => true
  | .powerStep _ _ => true
  | .thermalTrip => true
  | .moduleReset _ => true
  | .controllerTakeover => true
  | .getVersion => true
  | .getCapabilities => true
  | .negotiateAlgorithms => true
  | .getDigests => true
  | .getCertificate _ => true
  | .challenge _ => true
  | .getMeasurements _ => true
  | .keyExchange => true
  | .finish => true
  | .tenantReset _ => true
  | .keyGen _ _ => true
  | .fwRegisterWrite _ _ _ _ => true
  | .configRegisterWrite _ _ => true
  | .rv64imcInstruction i => i.len == 2 || i.len == 4
  | .repetitionIssue _ _ => true
  | .hostLinkRetrain _ _ => true
  | .fabricPortTrained _ _ => true
  | .atsInvalidation _ _ _ => true
  | .doeDiscovery => true
  | .sliceEviction _ _ => true

/-- A well-formed instruction, as a proposition. -/
abbrev WellFormed (i : Instr) : Prop := i.wf = true

end Sys2Proof
end

