-- ==== Sys2Proof/Machine/Step.lean ====
section
/-! DEFINITION. One step of the module: the pending action that comes next, or the passing of one cc. -/

namespace Sys2Proof.Machine

/-- What a turn's plan does in the state at the turn. -/
def runPlan (g : GCore) (k : Slot) (s : State) : Plan → Host.Outcome State Fault Refusal
  | .idle => exec (.idleTurn g k) s
  | .event i => exec i s
  | .trap t => .next (trapAt s t)
  | .one i => exec i s
  | .two i j =>
    match exec i s with
    | .next s' => if pairGoesOn s s' then exec j (withPair (pairView s) s') else .next s'
    | r => r

/-- The issue turn of a slot (R90): a turn in which its instruction goes nowhere is an idle one. -/
def turn (g : GCore) (k : Slot) (s : State) : Host.Outcome State Fault Refusal :=
  let t := toTurn s g k k
  match plan t g k false with
  | .idle => exec (.idleTurn g k) s
  | p =>
    match runPlan g k t p with
    | .next t' => .next (countIdle t t' g k)
    | r => r

/-- The sibling's instruction, issued in a turn lent by slot o (R95); `idle` is the outcome of the turn where the
sibling issues nothing either. -/
def lend (g : GCore) (k o : Slot) (t : State) (idle : Host.Outcome State Fault Refusal) : Host.Outcome State Fault Refusal :=
  let t := t.asWho g k
  match plan t g k true with
  | .one i => exec i ((useIdle t g o).bump g.toNat 0x0004)
  | _ => idle

/-- The turn of slot k's sibling, lent to slot k when the sibling issues nothing in it (R95). -/
def lent (g : GCore) (k : Slot) (s : State) : Host.Outcome State Fault Refusal :=
  let o := k ^^^ 1
  let t := toTurn s g o o
  match plan t g o false with
  | .idle => lend g k o t (exec (.idleTurn g o) s)
  | p =>
    match runPlan g o t p with
    | .next t' => if heldTurn t t' g o then lend g k o t' (.next (countIdle t t' g o)) else .next t'
    | r => r

/-- One instruction of a scalar core (R147). -/
def scalarStep (g : GCore) (r : Role) (s : State) : Host.Outcome State Fault Refusal :=
  let x := s.scalar g.toNat r
  if !x.running then .next s
  else
    match scalarFetch x with
    | some w => exec (decodeRv w) { s with who := .scalar g r }
    | none => exec (.rv64imcInstruction ⟨.illegal 0, 0⟩) { s with who := .scalar g r }

/-- The time at which an event finds the module: in the cc after the last issue turn, so that what it brings is not in time
for a wait that timed out in that turn (R220); a scratchpad's reserved turn follows slot 0's turn in its own cc (R115). -/
def eventTime (i : Instr) (s : State) : State :=
  match i with
  | .remoteSpadTurn _ => s
  | _ => advanceTo s s.eventsFrom

/-- One step. -/
def step (s : State) : Host.Outcome State Fault Refusal :=
  match s.pending with
  | [] => .next (advance s 1)
  | .turn g k :: r => turn g k { s with pending := r }
  | .lent g k :: r => lent g k { s with pending := r }
  | .scalar g r' :: r => scalarStep g r' { s with pending := r }
  | .hostStore off bs :: r => .next (hostStore off bs (advanceTo { s with pending := r } s.eventsFrom))
  | .event i :: r => exec i (eventTime i { s with pending := r, who := .unit })

/-- The fetch line that holds a word in slot 0, a legal target, with its parity (R32–R34). -/
def lineWith (w : BitVec 96) : List Byte :=
  bytesOf 60 w.toNat ++ bytesOf 4 ((lineParity [w, 0, 0, 0, 0] 1).toNat * 65536 + 1)

/-- The module with a context in slot 0 of core 0 that is about to issue a 96-bit word: the context, its
tenant's first memory window, its translation of page 0, and the line in the instruction cache. -/
def withThreadWord (s : State) (w : BitVec 96) : State :=
  let s := s.setCtx 0 0 (some { tid := 0 })
  let s := s.setCfg (tenReg 0 0x100) 1
  let s := s.setCfg (tenReg 0 0x108) 0x10000
  let s := s.modCore 0 fun c => { c with tenant := some 0, cache := { c.cache with
    icache := tset none c.cache.icache 0 (some ⟨0, lineWith w⟩), tlb := [⟨0, 0, 12, 0x1F⟩] } }
  { s with pending := [.turn 0 0] }

/-- The module with a scalar core of core 0 that is about to execute a word: the loader, or the storer for
opcode custom-1. -/
def withScalarWord (s : State) (w : BitVec 32) : State :=
  let r : Role := if w.extractLsb' 0 7 = 0x2B then .storer else .loader
  let s := s.modScalar 0 r fun x => { x with
    running := true, pc := 0
    imem := (cellsOf 0 4 w.toNat).foldl (fun t c => tset 0 t c.1 c.2) x.imem }
  { s with pending := [.scalar 0 r] }

/-- The state in which the very next step fetches and runs an instruction of an opcode-table row. -/
def State.withFetchWord (s : State) (nbits w : Nat) : State :=
  if nbits ≤ 32 then withScalarWord s (BitVec.ofNat 32 w) else withThreadWord s (BitVec.ofNat 96 w)

end Sys2Proof.Machine
end

