-- ==== Sys2Proof/Safety.lean ====
section
/-! DEFINITION. What counts as a safe step: one that answers a next state. -/

namespace Sys2Proof

/-- The state has a next state. -/
def Safe (s : Machine.State) : Prop := ∃ t, Machine.step s = .next t

/-- Every state that n steps reach is safe. -/
def SafeRun : Nat → Machine.State → Prop
  | 0, _ => True
  | n + 1, s => Safe s ∧ ∀ t, Machine.step s = .next t → SafeRun n t

end Sys2Proof
end

