-- ==== Sys2Proof/Certificates/Slice0/Obligations.lean ====
section
/-! DEFINITION. The statements of this slice: what the instructions do, taken from the numbered rules of spec/,
and, in the namespace Claim, the words that the statements share. -/

namespace Sys2Proof.Claim
open Sys2Proof.Machine

/-! ### The words of the statements -/

/-- The stored value of scalar register r of the running thread: g0 reads zero (R46), s-registers are the
core's (R96). -/
def regG (s : State) (r : GReg) : Word :=
  if r = 0 then 0 else if r.toNat < 64 then tget 0 s.c.regs.g r.toNat else s.sreg s.g.toNat (r.toNat - 64)

/-- A thread of a compute core is the running agent. -/
def Thread (s : State) : Prop := ∃ g k, s.who = .slot g k ∧ (s.ctx g k).isSome = true

/-- Vector register r of the running thread as it is stored; vs-registers are the core's (R293). -/
def regV (s : State) (r : VReg) : VWord :=
  if r.shared then s.vsreg s.g.toNat r.idx.toNat else tget 0 s.c.regs.v r.idx.toNat

/-- A thread executes an instruction whose guard holds and none of whose G fields `rs` names a queue port; it issues now, so that
no later write of a pair's second instruction stands over what it writes (R41). -/
structure Issues (s : State) (ct : Ctl) (rs : List GReg) : Prop where
  thread : Thread s
  guard : guardOf ct s = true
  ports : ∀ r ∈ rs, isPort s r = false
  now : s.c.iss.shadow = []

/-- Scalar register a was written with v: g0 discards it (R46); an s-register keeps the write of a
higher-numbered slot in the same cc (R97). -/
def WroteG (s t : State) (a : GReg) (v : Word) : Prop :=
  regG t a = if a = 0 then 0
    else if a.toNat < 64 then v
    else if sharedLost s s.g.toNat s.k.toNat (a.toNat - 64) then regG s a else v

/-- Predicate p was written with b: p0 discards it (R46). -/
def WroteP (s t : State) (p : PReg) (b : Bool) : Prop :=
  t.c.regs.p.getLsbD p.toNat = if p = 0 then s.c.regs.p.getLsbD 0 else b

/-- Mask register k was written with v: k0 discards it (R294). -/
def WroteK (s t : State) (k : KReg) (v : Word) : Prop :=
  tget 0 t.c.regs.k k.toNat = if k = 0 then tget 0 s.c.regs.k 0 else v

/-- Vector register a was written with v; a vs-register keeps the write of a higher-numbered slot in the same
cc (R97). -/
def WroteV (s t : State) (a : VReg) (v : VWord) : Prop :=
  regV t a = if a.shared && sharedLost s s.g.toNat s.k.toNat (64 + a.idx.toNat) then regV s a else v

/-- The registers of the thread other than those listed are unchanged. -/
structure Kept (s t : State) (gs : List GReg) (vs : List VReg) (ps : List PReg) (ks : List KReg) : Prop where
  scalars : ∀ r, r ∉ gs → regG t r = regG s r
  vectors : ∀ r, r ∉ vs → regV t r = regV s r
  predicates : ∀ p, p ∉ ps → t.c.regs.p.getLsbD p.toNat = s.c.regs.p.getLsbD p.toNat
  masks : ∀ k, k ∉ ks → tget 0 t.c.regs.k k.toNat = tget 0 s.c.regs.k k.toNat

/-- Of the core, nothing changes but the shared registers and the event counters: tiles, full/empty bits, engines and
queues, caches, phase state, mail and parked contexts are as before; other cores are unchanged. -/
def KeptCores (s t : State) : Prop :=
  (∀ h, h ≠ s.g.toNat → t.core h = s.core h) ∧
  let r := (t.core s.g.toNat).regs
  t.core s.g.toNat = { s.core s.g.toNat with
    regs := { (s.core s.g.toNat).regs with s := r.s, vs := r.vs, shw := r.shw, pmc := r.pmc } }

/-- Every byte of memory reads as before: raw, and as an ordinary load of any core and tenant reads it. -/
structure KeptMemory (s t : State) : Prop where
  raw : ∀ a, t.memAt a = s.memAt a
  load : ∀ g tn leaf a, coreByte t g tn leaf a = coreByte s g tn leaf a

/-- Every other context is unchanged. -/
def KeptOthers (s t : State) : Prop := ∀ g k, (g, k) ≠ (s.g, s.k) → t.ctx g k = s.ctx g k

/-- Windows of outstanding instructions are one instruction shorter (R92), and nothing else of them changes but the note of
registers that a pair's second instruction has written over its first one's (R41). -/
def Shorter (s t : State) : Prop :=
  t.c.iss.outs.map (fun o => { o with shadow := [] }) = s.c.iss.outs.map fun o => { o with left := o.left - 1, shadow := [] }

/-- No floating-point flag was raised. -/
def NoFlags (s t : State) : Prop := t.c.fpstat = s.c.fpstat ∧ t.c.fpNow = s.c.fpNow

/-- The instruction completes with the PC at `pc` and the return-address store `ras`, and changes, of the thread's
registers, only those listed, and FPSTAT with the flags raised in this cc; nothing of its trap registers and other state, of the cores but their
shared registers and counters, of memory, of the rest of the module, or of another context. -/
structure QuietRas (s t : State) (pc : CodeAddr) (ras : Ras) (gs : List GReg) (vs : List VReg) (ps : List PReg)
    (ks : List KReg) : Prop where
  module : t = { s with ctxs := t.ctxs, cores := t.cores }
  cores : KeptCores s t
  others : KeptOthers s t
  context : t.c = { s.c with regs := t.c.regs, iss := t.c.iss, fpstat := t.c.fpstat, fpNow := t.c.fpNow, pc := pc, ras := ras }
  windows : Shorter s t
  regs : Kept s t gs vs ps ks
  memory : KeptMemory s t

/-- As QuietRas, with the return-address store unchanged. -/
def Quiet (s t : State) (pc : CodeAddr) (gs : List GReg) (vs : List VReg) (ps : List PReg) (ks : List KReg) : Prop :=
  QuietRas s t pc s.c.ras gs vs ps ks

/-- Executing i completes in sequence, writes v to scalar register a and changes nothing else. -/
def Sets (i : Instr) (s : State) (a : GReg) (v : Word) : Prop :=
  ∃ t, exec i s = .next t ∧ WroteG s t a v ∧ NoFlags s t ∧ Quiet s t (nextPc s.c.pc) [a] [] [] []

/-- Executing i completes in sequence, writes b to predicate p and changes nothing else. -/
def SetsP (i : Instr) (s : State) (p : PReg) (b : Bool) : Prop :=
  ∃ t, exec i s = .next t ∧ WroteP s t p b ∧ NoFlags s t ∧ Quiet s t (nextPc s.c.pc) [] [] [p] []

/-- Executing i completes with the PC at `pc` and the return-address store `ras`, and changes nothing else. -/
def Jumps (i : Instr) (s : State) (pc : CodeAddr) (ras : Ras) : Prop :=
  ∃ t, exec i s = .next t ∧ NoFlags s t ∧ QuietRas s t pc ras [] [] [] []

/-- Executing i takes a trap at the instruction, with none of its effect. -/
def Traps (i : Instr) (s : State) (t : Trap) : Prop := exec i s = .next (trapAt s t)

/-- No outstanding instruction of the thread has met a trap (R94). -/
def NoTraps (s : State) : Prop := ∀ o ∈ s.c.iss.outs, o.trap = none

/-- The address of a memory operand of n bytes (R129): base, shifted index and offset modulo 2^56; with a tile base,
which must be READY, the place in the own scratchpad, inside the tile. -/
def OperandAt (s : State) (b : Base) (m : AddrOp) (n va : Nat) : Prop :=
  match b with
  | .reg r => va = (rdG s r + ((rdG s m.index <<< m.shift.toNat) + m.off.signExtend 64)).toNat % 2 ^ 56
  | .tile t =>
    let e := s.tile s.g.toNat t
    let x := ((rdG s m.index <<< m.shift.toNat) + m.off.signExtend 64).toInt
    e.state = 2 ∧ 0 ≤ x ∧ x + n ≤ e.size.toNat * 128 ∧
      va = (0xFFFFFFFFFE0000 + e.base.toNat * 128 + x.toNat) % 2 ^ 56

/-- The G registers of a memory operand. -/
def baseRegs (b : Base) (m : AddrOp) : List GReg :=
  match b with
  | .reg r => [r, m.index]
  | .tile _ => [m.index]

/-- The pieces can be read now: none in another core's scratchpad, none denied where it lies, none lost. -/
structure CanRead (s : State) (ps : List Piece) : Prop where
  near : ∀ p ∈ ps, isRemote s p = false
  allowed : spadDenied s .rd ps = none
  found : lostIn s ps = none

/-- The pieces can be written now. -/
structure CanWrite (s : State) (ps : List Piece) : Prop where
  near : ∀ p ∈ ps, isRemote s p = false
  allowed : spadDenied s .wr ps = none

/-- Long-latency instruction i with sources `src` is performed in its issue turn (R92, R115, R170): with LA = 0 or on the own
scratchpad, where nothing that its thread has outstanding has to be performed first. -/
def InTurn (i : Instr) (ct : Ctl) (s : State) (src : Src) : Prop :=
  (ct.la = 0 ∨ ownSpad s (src.ps ++ src.qs) = true) ∧ inOrder s i src = true

/-- The state in which an ordinary load of these pieces reads (R174, R199): the state at issue, or, where an accumulator
line or a scratchpad is among them, after the lines are combined; a choice among elements pushed to a stream is fresh. -/
def readState (s : State) (ps : List Piece) : State :=
  if bindsAtIssue s ps then s
  else
    let u := combineAll s (ps.flatMap pieceLines)
    if pushedCells u = [] then u else { u with fresh := u.fresh + 1 }

/-- The bytes that an ordinary load of these pieces reads (R132, R199): those of the state at issue, or after the lines are
combined; of an element that the thread has pushed to a stream, and that is not stored yet, the old or the new ones (R303). -/
def readBytes (s : State) (ps : List Piece) : List Byte :=
  if bindsAtIssue s ps then pushedOver s (loadSeed s) ps (coreBytes s s.g.toNat s.t ps)
  else
    let u := combineAll s (ps.flatMap pieceLines)
    pushedOver u (2 * u.fresh) ps (coreBytes u s.g.toNat s.t ps)

/-- Executing load i of the pieces ps: in its issue turn it reads the bytes and ends with `fin`; else it becomes outstanding,
with its value bound where memory is cached (R92, R132, R174). -/
def Loads (i : Instr) (ct : Ctl) (s : State) (src : Src) (fin : State → List Byte → State) : Prop :=
  let src' : Src := { src with bs := boundBytes s src.ps }
  (InTurn i ct s src' → CanRead s src.ps →
    exec i s = .next (retire ct none (fin (touchRead (readState s src.ps) s.g.toNat s.t ct.hint src.ps) (readBytes s src.ps)))) ∧
  (¬ InTurn i ct s src' → exec i s = .next (retire ct none (addOut i src' ct.la.toNat none s)))

/-- Executing store i of bytes bs to the pieces ps, without PHQUOTA: performed in the turn, or outstanding with its data
(R92, R132). -/
def Stores (i : Instr) (ct : Ctl) (s : State) (src : Src) (bs : List Byte) : Prop :=
  (InTurn i ct s src → CanWrite s src.ps →
    exec i s = .next (retire ct none (storeNow s s.g.toNat s.t ct.hint src.ps bs))) ∧
  (¬ InTurn i ct s src → exec i s = .next (retire ct none (addOut i src ct.la.toNat none s)))

/-- The running thread waits: its wait is recorded with the deadline, YLD gives up the turn after the issue (R52), and nothing
else changes (R218, R219). -/
def Blocks (i : Instr) (ct : Ctl) (s : State) (kind : WaitKind) (tmo : Nat) : Prop :=
  exec i s = .next (yieldOnce ct (({ s with nextId := s.nextId + 1 } : State).modC fun c =>
    { c with iss := { c.iss with wait := some ⟨kind, s.cycle, s.cycle + tmo, false, s.nextId⟩ } }))

/-- A wait has timed out at its evaluation (R220, R246): it is counted, and an arrival comes in a later cc. -/
def timedOut (s : State) : State := ({ s with turnsFrom := s.cycle + 1 } : State).bump s.g.toNat 0x0055

/-- A word of the own scratchpad, as the full/empty instructions check it (R135): aligned and permitted. -/
structure FeWord (s : State) (a : Acc) (va pa : Nat) : Prop where
  word : ∃ leaf, feCheck s a va = .ok ⟨va, pa, 8, leaf⟩
  own : placeOf s.part pa = .spad s.g.toNat

/-- The word can be accessed now: no strong access of another size overlapped it (R128), and nothing that the thread has
outstanding meets it (R170). -/
structure FeNow (s : State) (pa : Nat) : Prop where
  pure : ∀ i, i < 8 → mixedAt s 8 (pa + i) = false
  clear : ∀ o ∈ s.c.iss.outs, ∀ q ∈ o.src.ps ++ o.src.qs, vaMeets q.pa q.n pa 8 = false

/-- A release at scope sc goes through at once (R169, R175): the instruction has not begun, the thread has no access
outstanding, and the lees stores have room for what the core publishes. -/
structure CanRelease (s : State) (sc : Scope) : Prop where
  begin : s.c.iss.stage = 0 ∧ s.c.iss.hold = none ∧ s.c.iss.src = none
  performed : accessesOut s = false
  room : leesRoom (flushStreams s) (pubCells (flushStreams s) (flushStreams s).g.toNat sc) = true
  turn : (flushStreams s).coh.waiting.any (fun p => p.g == (flushStreams s).g) = false

/-- The state after a release: the stores of the thread's streams are performed and the core's unpublished bytes are
published (R158, R169); the instruction goes on in its second stage. -/
def released (s : State) (sc : Scope) : State :=
  let u := flushStreams s
  (publish u u.g sc (pubCells u u.g.toNat sc)).modC fun c => { c with iss := { c.iss with stage := 1 } }

/-- The state in which an access with a release at scope sc, or without one, is performed. -/
def afterRelease (rel : Bool) (s : State) (sc : Scope) : State := if rel then released s sc else s

/-- A release that the access names can go through; without one, the instruction has not begun. -/
def MayRelease (rel : Bool) (s : State) (sc : Scope) : Prop :=
  if rel then CanRelease s sc else s.c.iss.stage = 0 ∧ s.c.iss.src = none

/-- Executing long-latency instruction i, whose sources are `src` and whose access starts in state u, ends in t in its issue
turn, or becomes outstanding (R92). -/
def Starts (i : Instr) (ct : Ctl) (s u : State) (src : Src) (t : State) : Prop :=
  (InTurn i ct u src → exec i s = .next (retire ct none t)) ∧
  (¬ InTurn i ct u src → exec i s = .next (retire ct none (addOut i src ct.la.toNat none u)))

/-- A read-modify-write of n bytes can be performed now: in reach, permitted, on coherent memory that is neither an
accumulator line nor lost, with no strong access of another size to report (R192–R196, R128). -/
structure CanModify (s : State) (n : Nat) (ps : List Piece) : Prop where
  near : ∀ p ∈ ps, isRemote s p = false
  allowed : spadDenied s .wr ps = none
  ordinary : accIn s ps = false
  coherent : ps.any (nonCoherent s) = false
  found : lostIn s ps = none
  unmixed : mixTrap s s.t n ps = none
  room : leesRoom (recallLines s ps) (pieceCells ps (bytesOf n 0)) = true

/-- The line of a floating-point update takes it (R195, R196, R210, R211): an accumulator line of the operation, wide
enough in scope, in reach and not lost; `n` is 0 for RED and the lane count of a REDV. -/
structure CanUpdate (s : State) (op : AccOp) (sc : Scope) (n : Nat) (q : Piece) : Prop where
  near : isRemote s q = false
  allowed : spadDenied s .wr [q] = none
  found : lostIn s [q] = none
  line : tget 0 s.coh.hdr (lineOf q.pa) ≠ 0
  op : hdrOp (tget 0 s.coh.hdr (lineOf q.pa)) = op
  scope : scopeRank sc ≤ hdrScope (tget 0 s.coh.hdr (lineOf q.pa))
  fits : ¬ (n = 32 ∧ hdrElem (tget 0 s.coh.hdr (lineOf q.pa)) = 8)
  aligned : if n = 0 then q.pa % 128 % hdrElem (tget 0 s.coh.hdr (lineOf q.pa)) = 0
    else hdrElem (tget 0 s.coh.hdr (lineOf q.pa)) = 8 → q.pa % 128 = 0
  unmixed : s.tenDbg s.t = true → ∀ i, i < 128 → mixedAt s (hdrElem (tget 0 s.coh.hdr (lineOf q.pa))) (lineOf q.pa * 128 + i) = false

/-- As Blocks, where the instruction's evaluation left state u (R241). -/
def BlocksIn (i : Instr) (ct : Ctl) (s u : State) (kind : WaitKind) (tmo : Nat) : Prop :=
  exec i s = .next (yieldOnce ct (({ u with nextId := u.nextId + 1 } : State).modC fun c =>
    { c with iss := { c.iss with wait := some ⟨kind, u.cycle, u.cycle + tmo, false, u.nextId⟩ } }))

/-- Nothing that the thread has outstanding accesses the pieces, or is a remote access (R115, R170): an instruction that acts on
them at their home is in order. -/
def Clear (s : State) (ps : List Piece) : Prop :=
  ∀ o ∈ s.c.iss.outs, piecesMeet (o.src.ps ++ o.src.qs) ps = false ∧ (o.src.ps ++ o.src.qs).any (isRemote s) = false

/-- Other contexts are as before, but for what the core's stores do to their read-ahead: whether an element read before shows the
store or not is free (R302). -/
def OthersRead (s t : State) : Prop :=
  let rest (c : Ctx) : Ctx := { c with streams := c.streams.map fun e => (e.1, { e.2 with ahead := [] }) }
  ∀ g k, (g, k) ≠ (s.g, s.k) → (t.ctx g k).map rest = (s.ctx g k).map rest

/-- The message that a receive of this kind takes (R225, R230): the context's oldest of high priority, or, with none of
high priority, its oldest of low priority; `i` is its place in the core's mailbox. -/
def NextMessage (s : State) (line : Bool) (i : Nat) (m : Msg) : Prop :=
  let box := (s.core s.g.toNat).mail
  let mine (hi : Bool) (x : Msg) : Bool := x.dst == s.c.tid && x.line == line && x.hi == hi
  box[i]? = some m ∧ mine m.hi m = true ∧ (∀ j x, j < i → box[j]? = some x → mine m.hi x = false) ∧
    (m.hi = false → ∀ x ∈ box, mine true x = false)

/-- The running context has no message of this kind. -/
def NoMessage (s : State) (line : Bool) : Prop :=
  ∀ x ∈ (s.core s.g.toNat).mail, x.dst = s.c.tid → x.line ≠ line

/-- An object at its home can be used now (R232): in reach, permitted, on an ordinary line that is not lost. -/
structure CanUse (s : State) (a : Acc) (ps : List Piece) : Prop where
  near : ∀ p ∈ ps, isRemote s p = false
  allowed : spadDenied s a ps = none
  ordinary : accIn s ps = false
  found : lostIn s ps = none

/-! ### Vector lanes -/

/-- Lane j of w bits of the source group at b (R46, R293, R296). -/
def laneR (s : State) (b : VReg) (w j : Nat) : Nat := (rdV s (nextVReg b (j * w / 512))).toNat / 2 ^ (j * w % 512) % 2 ^ w

/-- Lane j of w bits of the group at a, as it is stored. -/
def laneV (s : State) (a : VReg) (w j : Nat) : Nat := (regV s (nextVReg a (j * w / 512))).toNat / 2 ^ (j * w % 512) % 2 ^ w

/-- The value that lane j keeps where an instruction does not write it: of a vs-register the one before this cc, so that no mixture
with another slot's write of the cc is left (R97). -/
def laneKept (s : State) (a : VReg) (w j : Nat) : Nat := (curV s (nextVReg a (j * w / 512))).toNat / 2 ^ (j * w % 512) % 2 ^ w

/-- The register that holds lane j is a vs-register whose write is lost to a higher-numbered slot (R97). -/
def laneLost (s : State) (a : VReg) (w j : Nat) : Bool :=
  a.shared && sharedLost s s.g.toNat s.k.toNat (64 + (nextVReg a (j * w / 512)).idx.toNat)

/-- The groups of n registers at rs are aligned and no register of them is a configured stream (R296, R299). -/
def Groups (s : State) (n : Nat) (rs : List VReg) : Prop :=
  ∀ r ∈ rs, r.idx.toNat % n = 0 ∧ ∀ i, i < n → streamOf s (nextVReg r i) = none

/-- The n registers of the group at a. -/
def group (a : VReg) (n : Nat) : List VReg := (List.range n).map (nextVReg a)

/-- Executing i completes in sequence; lane j of the group of n registers at a takes the value that f gives it, and keeps its
old value where f gives none; FPSTAT takes the flags `fl`; nothing else changes. -/
def SetsLanes (i : Instr) (s : State) (a : VReg) (n w : Nat) (f : Nat → Option Nat) (fl : BitVec 6) : Prop :=
  ∃ t, exec i s = .next t ∧
    (∀ j, j < 512 * n / w → laneV t a w j = if laneLost s a w j then laneV s a w j else ((f j).map (· % 2 ^ w)).getD (laneKept s a w j)) ∧
    t.c.fpstat = s.c.fpstat ||| fl ∧ Quiet s t (nextPc s.c.pc) [] (group a n) [] []

/-- The lanes below m that a mask register lets through (R295). -/
def activeLanes (k : Word) (m : Nat) : List Nat := (List.range m).filter fun j => k.getLsbD (j % 64)

/-- Executing i computes, lane by lane under mask k, the value and flags that f gives each lane; inactive lanes keep their value
and raise nothing (R295). -/
def MapsLanes (i : Instr) (s : State) (a : VReg) (n w : Nat) (k : Word) (f : Nat → Nat × BitVec 6) : Prop :=
  SetsLanes i s a n w (fun j => if k.getLsbD (j % 64) then some (f j).1 else none)
    ((activeLanes k (512 * n / w)).foldl (fun x j => x ||| (f j).2) 0)

/-- Executing i completes in sequence, writes v to mask register k and changes nothing else but FPSTAT, which takes `fl`. -/
def SetsK (i : Instr) (s : State) (k : KReg) (v : Word) (fl : BitVec 6) : Prop :=
  ∃ t, exec i s = .next t ∧ WroteK s t k v ∧ t.c.fpstat = s.c.fpstat ||| fl ∧ Quiet s t (nextPc s.c.pc) [] [] [] [k]

/-- The integer that w bits hold in an integer lane type. -/
def intOf (t : VType) (x : Nat) : Int :=
  match t with
  | .i8 | .i16 | .i32 | .i64 => (BitVec.ofNat (lanesBits t) x).toInt
  | _ => x

/-- An integer as w bits, wrapped. -/
def wrapBits (w : Nat) (x : Int) : Nat := (x % (2 ^ w : Nat)).toNat

/-- An integer brought into the range of an integer lane type. -/
def saturate (t : VType) (x : Int) : Int :=
  let w := lanesBits t
  match t with
  | .i8 | .i16 | .i32 | .i64 => max (-(2 ^ (w - 1) : Nat)) (min x ((2 ^ (w - 1) : Nat) - 1))
  | _ => max 0 (min x ((2 ^ w : Nat) - 1))

/-! ### Traps -/

/-- The handler can take a trap (R421): the context is in user mode and TVEC names an instruction. -/
def HandlerReady (s : State) : Prop := s.c.trap.mode = false ∧ s.c.trap.tvec ≠ 0 ∧ s.c.trap.tvec.toNat % 64 < 5

/-- The thread has no special-function request and no queue access to take back. -/
structure CanTrap (s : State) : Prop where
  port : s.c.iss.port = {}
  again : s.c.again = []
  queue : ∀ r ∈ (s.core s.g.toNat).eng.sfuQ, ¬ (r.g = s.g ∧ r.k = s.k)
  unit : ∀ r ∈ (s.core s.g.toNat).eng.sfuRun, ¬ (r.1.g = s.g ∧ r.1.k = s.k)

/-- From s to t the running context enters its handler (R421): the trap registers and the mode are written, the PC is at the
handler, the instruction's progress and its waits are dropped, a failed job that it reports leaves the failure record (R183), and
nothing else changes but the core's counters. -/
structure Enters (s t : State) (tr : Trap) (res : CodeAddr) : Prop where
  context : t.c = { s.c with
    pc := s.c.trap.tvec, savedRep := s.c.iss.rep, replay := false
    failures := if tr.code = 0x13 then s.c.failures.erase (tr.detail.toNat, tr.val.toNat) else s.c.failures
    trap := { s.c.trap with mode := true, code := tr.code, detail := tr.detail, tepc := s.c.pc, tres := res, tval := tr.val }
    iss := { s.c.iss with wait := none, entry := none, port := {}, hold := none, stage := 0, src := none, pair := none, rep := {}
                          yielded := false, upon := none, prev := none, seq := false } }
  module : t = { s with
    ctxs := t.ctxs, cores := t.cores, coh := { s.coh with thirst := s.coh.thirst.filter fun x => x.who != .slot s.g s.k } }
  cores : KeptCores s t
  others : KeptOthers s t
  memory : KeptMemory s t

/-! ### Loader and storer cores -/

/-- Executing i in scalar core r of core g, with state u for what it does elsewhere, ends with the pc at `pc`, one more instruction
retired, no wait, and register rd at v. -/
def Goes (i : Instr) (s u : State) (g : GCore) (r : Role) (pc : Word) (rd : BitVec 5) (v : Word) : Prop :=
  exec i s = .next (u.modScalar g.toNat r fun x => { x with
    pc := pc, deadline := none, csr := tset 0 x.csr 0xB02 (tget 0 x.csr 0xB02 + 1)
    x := if rd = 0 then x.x else tset 0 x.x rd.toNat v })

/-- Executing Xfltile instruction i returns status v in rd. -/
def Returns (i : Instr) (s u : State) (g : GCore) (r : Role) (rd : BitVec 5) (v : Word) : Prop :=
  Goes i s u g r ((u.scalar g.toNat r).pc + 4) rd v

/-- Executing i in scalar core r of core g takes the exception of a cause: mepc, mcause, mstatus and the pc are written, and of
the machine only the scalar core changes. -/
def Excepts (i : Instr) (s : State) (g : GCore) (r : Role) (cause : Nat) : Prop :=
  let x := s.scalar g.toNat r
  ∃ y, exec i s = .next (s.modScalar g.toNat r fun _ => y) ∧ y.x = x.x ∧ y.imem = x.imem ∧ y.running = x.running ∧
    y.pc = x.csrAt 0x305 &&& ~~~3 ∧ y.csrAt 0x341 = x.pc ∧ y.csrAt 0x342 = BitVec.ofNat 64 cause ∧
    (y.csrAt 0x300).getLsbD 7 = (x.csrAt 0x300).getLsbD 3 ∧ (y.csrAt 0x300).getLsbD 3 = false

/-! ### Engine commands -/

/-- Executing command i takes the next job number n of timeline tl (R182). With LA = 0, where its queue has room and no earlier
command waits, the command enters and n is written to a; else it is outstanding with the operand values w (R331, R389). -/
def Pushes (i : Instr) (ct : Ctl) (s : State) (tl : Nat) (a : GReg) (w : List Word) (enter : Nat → State → State) : Prop :=
  let n := (s.tl s.g.toNat tl).issued + 1
  let u := s.setTl s.g.toNat tl { s.tl s.g.toNat tl with issued := n }
  let ready := queueRoom u s.g.toNat tl = true ∧ pendingBelow u s.g.toNat tl n = false
  (ct.la = 0 → ready → exec i s = .next (retire ct none (wrG (enter n u) a (BitVec.ofNat 64 n)))) ∧
  (ct.la ≠ 0 ∨ ¬ ready → exec i s = .next (retire ct none (addOut i { w := w, job := n } ct.la.toNat none u)))

/-- Executing rope instruction i, whose sources are `src` and which starts in state u (R352, R353, R92): in its issue turn where its unit
has room and the thread has no rope instruction outstanding, else it becomes outstanding, noting the cc at which it met a full unit
(R386). -/
def RopeStarts (i : Instr) (ct : Ctl) (s u : State) (src : Src) : Prop :=
  let room := ((u.die (u.g.toNat / 512)).ropes.filter fun r => r.unit == u.g.toNat / 8 % 64 % 16).length < 8
  let alone := ∀ o ∈ u.c.iss.outs, isRope o.i = false
  let out (src : Src) : Prop := exec i s = .next (retire ct none (addOut i src ct.la.toNat none u))
  NoTraps u →
  (InTurn i ct u src → room → alone → ∀ t, perfRope i src u = .done t → NoTraps t → exec i s = .next (retire ct none t)) ∧
  (room → ¬ (InTurn i ct u src ∧ alone) → out src) ∧ (¬ room → out { src with job := u.cycle + 1 })

/-- In state t, collective job j has failed with a code (R182, R391): it has left the engine, counts as done, and is the core's last
failure. -/
def CollFails (t : State) (j : CollJob) (code : Nat) : Prop :=
  (∀ x ∈ t.fl.colls, ¬ (x.g = j.g ∧ x.job = j.job)) ∧ isDone t j.g.toNat 2 j.job = true ∧
    (t.core j.g.toNat).eng.collFail = ⟨BitVec.ofNat 8 code, j.job⟩

/-- The instructions with a REP field (R297). -/
def repeated : Instr → Bool
  | .vadd .. | .vsub .. | .vmul .. | .vfma .. | .vfms .. | .vmin .. | .vmax .. | .vabs .. | .vneg .. | .vcmp .. | .vsel .. | .vcvt ..
  | .vshuf .. | .vbcast .. | .vred .. | .vscan .. | .viadd .. | .visub .. | .vimul .. | .vand .. | .vor .. | .vxor .. | .vshl ..
  | .vshr .. | .vdot .. | .vsp2 .. | .vmov .. | .vexp .. | .vexp2 .. | .vlog2 .. | .vrcp .. | .vrsq .. | .vsqrt .. | .vsin ..
  | .vcos .. | .vtanh .. => true
  | _ => false

end Sys2Proof.Claim

section
open Sys2Proof Sys2Proof.Machine Sys2Proof.Claim

/-! ### Scalar instructions (05_scalar_control.md) -/

/-- R99: the integer arithmetic and logic instructions set g[A] from a = g[B] and b = g[C] or the sign-extended
immediate, and change nothing else; division by 0 and the overflowing division have the values that R99 gives them. -/
def Obligations.AluResults : Prop :=
  ∀ (ct : Ctl) (a b c : GReg) (imm : BitVec 42) (s : State), Issues s ct [a, b, c] →
    let x := rdG s b
    let y := rdG s c
    let z := imm.signExtend 64
    Sets (.add ct a b c) s a (x + y) ∧ Sets (.sub ct a b c) s a (x - y) ∧ Sets (.addi ct a b imm) s a (x + z) ∧
    Sets (.mul ct a b c) s a (BitVec.ofNat 64 (x.toNat * y.toNat)) ∧
    Sets (.mulh ct a b c) s a (BitVec.ofInt 64 (x.toInt * y.toInt / 2 ^ 64)) ∧
    Sets (.mulhn ct a b c) s a (BitVec.ofNat 64 (x.toNat * y.toNat / 2 ^ 64)) ∧
    Sets (.div ct a b c) s a (if y = 0 then BitVec.allOnes 64 else BitVec.ofInt 64 (x.toInt.tdiv y.toInt)) ∧
    Sets (.rem ct a b c) s a (if y = 0 then x else BitVec.ofInt 64 (x.toInt.tmod y.toInt)) ∧
    Sets (.divn ct a b c) s a (if y = 0 then BitVec.allOnes 64 else BitVec.ofNat 64 (x.toNat / y.toNat)) ∧
    Sets (.remn ct a b c) s a (if y = 0 then x else BitVec.ofNat 64 (x.toNat % y.toNat)) ∧
    Sets (.and ct a b c) s a (x &&& y) ∧ Sets (.or ct a b c) s a (x ||| y) ∧ Sets (.xor ct a b c) s a (x ^^^ y) ∧
    Sets (.andn ct a b c) s a (x &&& ~~~y) ∧
    Sets (.andi ct a b imm) s a (x &&& z) ∧ Sets (.ori ct a b imm) s a (x ||| z) ∧ Sets (.xori ct a b imm) s a (x ^^^ z) ∧
    Sets (.min ct a b c) s a (if x.toInt ≤ y.toInt then x else y) ∧
    Sets (.max ct a b c) s a (if x.toInt ≤ y.toInt then y else x) ∧
    Sets (.minn ct a b c) s a (if x.toNat ≤ y.toNat then x else y) ∧
    Sets (.maxn ct a b c) s a (if x.toNat ≤ y.toNat then y else x)

/-- R100: shifts by g[C][5:0] or the 6-bit immediate, counts of bits, and sign extensions. -/
def Sys2Proof.Claim.ShiftsAndCounts : Prop :=
  ∀ (ct : Ctl) (a b c : GReg) (m : BitVec 6) (s : State), Issues s ct [a, b, c] →
    let x := rdG s b
    (∀ p : ShiftAmt × Nat, p ∈ [(ShiftAmt.reg c, (rdG s c).toNat % 64), (ShiftAmt.imm m, m.toNat)] →
      Sets (.shl ct a b p.1) s a (BitVec.ofNat 64 (x.toNat * 2 ^ p.2)) ∧
      Sets (.shr ct a b p.1) s a (BitVec.ofNat 64 (x.toNat / 2 ^ p.2)) ∧
      Sets (.sra ct a b p.1) s a (BitVec.ofInt 64 (x.toInt / 2 ^ p.2)) ∧
      Sets (.rol ct a b p.1) s a (x.rotateLeft p.2)) ∧
    (∃ n : Nat, Sets (.clz ct a b) s a (BitVec.ofNat 64 n) ∧ n ≤ 64 ∧ (∀ j, 64 - n ≤ j → x.getLsbD j = false) ∧
      (n < 64 → x.getLsbD (63 - n) = true)) ∧
    (∃ n : Nat, Sets (.ctz ct a b) s a (BitVec.ofNat 64 n) ∧ n ≤ 64 ∧ (∀ j, j < n → x.getLsbD j = false) ∧
      (n < 64 → x.getLsbD n = true)) ∧
    Sets (.popc ct a b) s a (BitVec.ofNat 64 ((List.range 64).filter fun j => x.getLsbD j).length) ∧
    Sets (.sextB ct a b) s a ((x.setWidth 8).signExtend 64) ∧ Sets (.sextH ct a b) s a ((x.setWidth 16).signExtend 64) ∧
    Sets (.sextW ct a b) s a ((x.setWidth 32).signExtend 64)

/-- R101: bit fields are clipped at bit 63; a zero width is legal. -/
def Sys2Proof.Claim.BitFields : Prop :=
  ∀ (ct : Ctl) (a b c : GReg) (pos : BitVec 6) (wr : BitVec 7) (s : State), Issues s ct [a, b, c] →
    let x := rdG s b
    let w := min wr.toNat (64 - pos.toNat)
    let u := x.toNat / 2 ^ pos.toNat % 2 ^ w
    Sets (.bfxZ ct a b pos wr) s a (BitVec.ofNat 64 u) ∧
    Sets (.bfxS ct a b pos wr) s a (if w ≠ 0 ∧ 2 ^ (w - 1) ≤ u then BitVec.ofInt 64 ((u : Int) - 2 ^ w) else BitVec.ofNat 64 u) ∧
    ∃ v : Word, Sets (.bfi ct a b c pos wr) s a v ∧ ∀ j, j < 64 →
      v.getLsbD j = if pos.toNat ≤ j ∧ j < pos.toNat + w then (rdG s c).getLsbD (j - pos.toNat) else x.getLsbD j

/-- R102, R103, R109, R322: moves, constants, selection, address arithmetic, task coordinates, and NOP. -/
def Obligations.MovesAndAddresses : Prop :=
  ∀ (ct : Ctl) (a b c : GReg) (p : PReg) (s : State), Issues s ct [a, b, c] →
    Sets (.mov ct a b) s a (rdG s b) ∧
    (∀ imm : BitVec 56, Sets (.movi ct a imm) s a (imm.signExtend 64)) ∧
    (∀ imm : BitVec 8, Sets (.movhi ct a imm) s a (imm ++ (rdG s a).setWidth 56)) ∧
    Sets (.sel ct a b c p) s a (if rdP s p then rdG s b else rdG s c) ∧
    (∀ m : AddrOp, m.index = c → Sets (.lea ct a b m) s a (rdG s b + (rdG s c <<< m.shift.toNat) + m.off.signExtend 64)) ∧
    Sets (.coord ct a .x) s a (s.c.task.x.setWidth 64) ∧ Sets (.coord ct a .y) s a (s.c.task.y.setWidth 64) ∧
    Sets (.coord ct a .z) s a (s.c.task.z.setWidth 64) ∧
    (let d := ((s.launch? s.c.task.lid).map fun l => l.dw 1).getD 0
     Sets (.coord ct a .lin) s a (s.c.task.x.setWidth 64 +
       (d.setWidth 16).setWidth 64 * (s.c.task.y.setWidth 64 + ((d >>> 16).setWidth 16).setWidth 64 * s.c.task.z.setWidth 64))) ∧
    Jumps (.nop ct) s (nextPc s.c.pc) s.c.ras

/-- R104: integer compares on the low w bits as the type says, and predicate logic; writes to p0 are ignored. -/
def Obligations.ComparesAndPredicates : Prop :=
  ∀ (ct : Ctl) (t : IType) (p q r : PReg) (a b : GReg) (imm : BitVec 42) (s : State), Issues s ct [a, b] →
    (let bits : Nat := match t with | .i8 | .n8 => 8 | .i16 | .n16 => 16 | .i32 | .n32 => 32 | .i64 | .n64 => 64
     let value (z : Word) : Int := match t with
       | .i8 | .i16 | .i32 | .i64 => (z.setWidth bits).toInt
       | .n8 | .n16 | .n32 | .n64 => (z.toNat % 2 ^ bits : Nat)
     ∀ y i, (y = rdG s b ∧ i = (fun c => Instr.cmp ct c t p a b)) ∨
        (y = imm.signExtend 64 ∧ i = (fun c => Instr.cmpi ct c t p a imm)) →
       let x := rdG s a
       SetsP (i .eq) s p (value x = value y) ∧ SetsP (i .ne) s p (value x ≠ value y) ∧ SetsP (i .lt) s p (value x < value y) ∧
       SetsP (i .le) s p (value x ≤ value y) ∧ SetsP (i .gt) s p (value x > value y) ∧ SetsP (i .ge) s p (value x ≥ value y)) ∧
    SetsP (.pand ct p q r) s p (rdP s q && rdP s r) ∧ SetsP (.por ct p q r) s p (rdP s q || rdP s r) ∧
    SetsP (.pxor ct p q r) s p (xor (rdP s q) (rdP s r)) ∧ SetsP (.pnot ct p q) s p (!rdP s q)

/-- R105, R107: the transfers. A taken transfer goes to its target; CALL and CALLR push the code address that follows;
RET pops it; LOOP counts. A target with bits above 55 or a slot above 4 raises BADTARGET and changes nothing. -/
def Obligations.ControlTransfers : Prop :=
  ∀ (ct : Ctl) (a b : GReg) (target : CodeAddr) (s : State), Issues s ct [a, b] → NoTraps s →
    let c := rdG s a - 1
    let r := s.c.ras
    let next := nextPc s.c.pc
    (∀ pc, checkTarget s (target.setWidth 64) = .ok pc → pc = target ∧ Jumps (.br ct target) s target r ∧
      (c ≠ 0 → ∃ t, exec (.loop ct a target) s = .next t ∧ WroteG s t a c ∧ Quiet s t target [a] [] [] [])) ∧
    (c = 0 → Sets (.loop ct a target) s a c) ∧
    (∀ pc, checkTarget s (rdG s b) = .ok pc → pc = (rdG s b).setWidth 56 ∧ Jumps (.jmp ct b) s pc r) ∧
    (∀ x ∈ [(Instr.call ct target, target.setWidth 64), (Instr.callr ct b, rdG s b)], ∀ pc, checkTarget s x.2 = .ok pc →
      (r.depth = 0xFFFF → Traps x.1 s ⟨0x0D, 0, 0⟩) ∧
      (r.depth ≠ 0xFFFF → r.stored < 8 → ∃ r' : Ras, Jumps x.1 s pc r' ∧
        r' = { r with stored := r.stored + 1, depth := r.depth + 1, entries := r'.entries } ∧
        r'.entry r.stored = next ∧ ∀ i, i < r.stored → r'.entry i = r.entry i) ∧
      (r.depth ≠ 0xFFFF → r.stored = 8 → r.sz = 0 → ∃ r' : Ras, Jumps x.1 s pc r' ∧
        r' = { r with depth := r.depth + 1, entries := r'.entries } ∧
        r'.entry 7 = next ∧ ∀ i, i < 7 → r'.entry i = r.entry (i + 1)) ∧
      (r.depth ≠ 0xFFFF → r.stored = 8 → r.sz ≠ 0 → ∀ ps,
        check s s.g.toNat s.t .wr (r.base.toNat * 4096 + 8 * (r.head.toNat % 2 ^ r.sz.toNat)) 8 = .ok ps →
        overQuota s s.g.toNat s.t 0 ps = false → ∃ r' : Ras,
          (let src : Src := { ps := ps, w := [(r.entry 0).setWidth 64] }
           let now := inOrder s x.1 src = true ∧ ∀ p ∈ ps, isRemote s p = false
           (now → spadDenied s .wr ps = none → exec x.1 s = .next (retire ct (some pc)
             ((storeNow s s.g.toNat s.t 0 ps (bytesOf 8 (r.entry 0).toNat)).modC fun c => { c with ras := r' }))) ∧
           (¬ now → exec x.1 s = .next (retire ct (some pc) ((addOut x.1 src (2 ^ 32) none s).modC fun c => { c with ras := r' })))) ∧
          r' = { r with
            depth := r.depth + 1, entries := r'.entries
            head := BitVec.ofNat 16 ((r.head.toNat % 2 ^ r.sz.toNat + 1) % 2 ^ r.sz.toNat)
            spilled := BitVec.ofNat 16 (min (r.spilled.toNat + 1) (2 ^ r.sz.toNat)) } ∧
          r'.entry 7 = next ∧ ∀ i, i < 7 → r'.entry i = r.entry (i + 1))) ∧
    (∀ pc, 0 < r.stored → pc = r.entry (r.stored - 1) → pc.toNat % 64 < 5 →
      Jumps (.ret ct) s pc { r with stored := r.stored - 1, depth := if r.depth = 0 then 0 else r.depth - 1 }) ∧
    (r.stored = 0 → r.spilled = 0 → Traps (.ret ct) s ⟨0x0C, 0, 0⟩) ∧
    (r.stored = 0 → r.spilled ≠ 0 → ∀ ps pc, let at' := (r.head.toNat + 2 ^ r.sz.toNat - 1) % 2 ^ r.sz.toNat
      check s s.g.toNat s.t .rd (r.base.toNat * 4096 + 8 * at') 8 = .ok ps →
      let src : Src := { ps := ps, bs := boundBytes s ps, job := s.c.pc.toNat }
      (inOrder s (.ret ct) src = true → CanRead s ps → checkReturn (wordOfBytes (readBytes s ps)) = .ok pc →
        exec (.ret ct) s = .next (retire ct (some pc) ((touchRead (readState s ps) s.g.toNat s.t 0 ps).modC fun c => { c with
          ras := { r with
            head := BitVec.ofNat 16 at', spilled := r.spilled - 1
            depth := if r.depth = 0 then 0 else r.depth - 1 } }))) ∧
      (inOrder s (.ret ct) src = false ∨ (∃ p ∈ ps, isRemote s p = true) →
        exec (.ret ct) s = .next (retire ct none (addOut (.ret ct) src 0 none s)))) ∧
    (∀ x ∈ [(Instr.br ct target, target.setWidth 64), (Instr.jmp ct b, rdG s b), (Instr.call ct target, target.setWidth 64),
        (Instr.callr ct b, rdG s b)], 2 ^ 56 ≤ (x.2 : Word).toNat ∨ 5 ≤ (x.2 : Word).toNat % 64 → Traps x.1 s ⟨0x03, 0, x.2⟩) ∧
    (c ≠ 0 → 5 ≤ target.toNat % 64 → Traps (.loop ct a target) s ⟨0x03, 0, target.setWidth 64⟩)

/-! ### Memory access (06_memory_access.md) -/

/-- R129, R132–R134: the loads. LD zero- or sign-extends, LDQ fills two registers, LDV one or two vectors, LDVX the
active lanes. -/
def Obligations.LoadResults : Prop :=
  ∀ (ct : Ctl) (b : Base) (m : AddrOp) (a d : GReg) (va vd vc : VReg) (s : State),
    Issues s ct (a :: d :: baseRegs b m) → NoTraps s →
    (∀ (sz : Size) (sgn : Bool) (n : Nat), (sz, n) ∈ [(Size.b, 1), (Size.h, 2), (Size.w, 4), (Size.d, 8)] →
      ∀ x ps, OperandAt s b m n x → check s s.g.toNat s.t .rd x n = .ok ps →
        Loads (.ld ct sz sgn a b m) ct s { ps := ps } fun t bs => wrG t a (if sgn
          then (BitVec.ofNat (8 * n) (ofBytes bs)).signExtend 64 else BitVec.ofNat 64 (ofBytes bs))) ∧
    (∀ x ps, a ≠ d → OperandAt s b m 16 x → x % 16 = 0 → check s s.g.toNat s.t .rd x 16 = .ok ps →
      Loads (.ldq ct a d b m) ct s { ps := ps } fun t bs =>
        wrG (wrG t a (BitVec.ofNat 64 (ofBytes (bs.take 8)))) d (BitVec.ofNat 64 (ofBytes ((bs.drop 8).take 8)))) ∧
    (streamOf s va = none → streamOf s vd = none →
      (va = vd → ∀ x ps, OperandAt s b m 64 x → check s s.g.toNat s.t .rd x 64 = .ok ps →
        Loads (.ldv ct va vd b m) ct s { ps := ps } fun t bs => wrV t va (BitVec.ofNat 512 (ofBytes (bs.take 64)))) ∧
      (va ≠ vd → ∀ x ps, OperandAt s b m 128 x → check s s.g.toNat s.t .rd x 128 = .ok ps →
        Loads (.ldv ct va vd b m) ct s { ps := ps } fun t bs =>
          wrV (wrV t va (BitVec.ofNat 512 (ofBytes (bs.take 64)))) vd (BitVec.ofNat 512 (ofBytes ((bs.drop 64).take 64))))) ∧
    (streamOf s va = none → streamOf s vc = none → va ≠ vc → (∀ t, b = .tile t → tileReady s s.g.toNat t = true) →
      ∀ (wd : GWidth) (w : Nat) (k : KReg) (sh : BitVec 3) (off : BitVec 24), (wd, w) ∈ [(GWidth.h, 2), (GWidth.w, 4), (GWidth.d, 8)] →
        let on := (List.range (64 / w)).filter fun i => (rdK s k).getLsbD i
        ∀ ps, checkElems s .rd b w (rdV s vc) sh off on = .ok ps →
          Loads (.ldvx ct wd va b vc k sh off) ct s { k := rdK s k, ps := ps } fun t bs =>
            wrV t va (placeElems w (curV t va) bs on))

/-- R132–R134, R145: the stores. ST writes the low bytes of g[A], STQ two registers, STV one or two vectors, STVX the active
lanes in ascending order, ZLINE a line of zeros. -/
def Obligations.StoreResults : Prop :=
  ∀ (ct : Ctl) (b : Base) (m : AddrOp) (a d r : GReg) (va vd vc : VReg) (s : State),
    Issues s ct (a :: d :: r :: baseRegs b m) → NoTraps s →
    (∀ (sz : Size) (n : Nat), (sz, n) ∈ [(Size.b, 1), (Size.h, 2), (Size.w, 4), (Size.d, 8)] →
      ∀ x ps, OperandAt s b m n x → check s s.g.toNat s.t .wr x n = .ok ps → overQuota s s.g.toNat s.t ct.hint ps = false →
        Stores (.st ct sz a b m) ct s { ps := ps, w := [rdG s a] } (bytesOf n (rdG s a).toNat)) ∧
    (∀ x ps, a ≠ d → OperandAt s b m 16 x → x % 16 = 0 → check s s.g.toNat s.t .wr x 16 = .ok ps →
      overQuota s s.g.toNat s.t ct.hint ps = false →
      Stores (.stq ct a d b m) ct s { ps := ps, w := [rdG s a, rdG s d] } (bytesOf 8 (rdG s a).toNat ++ bytesOf 8 (rdG s d).toNat)) ∧
    (streamOf s va = none → streamOf s vd = none → ∀ n, n = (if va = vd then 64 else 128) →
      ∀ x ps, OperandAt s b m n x → check s s.g.toNat s.t .wr x n = .ok ps → overQuota s s.g.toNat s.t ct.hint ps = false →
        Stores (.stv ct va vd b m) ct s { ps := ps, v := [rdV s va, rdV s vd] }
          (bytesOf 64 (rdV s va).toNat ++ if va = vd then [] else bytesOf 64 (rdV s vd).toNat)) ∧
    (streamOf s va = none → streamOf s vc = none → (∀ t, b = .tile t → tileReady s s.g.toNat t = true) →
      ∀ (wd : GWidth) (w : Nat) (k : KReg) (sh : BitVec 3) (off : BitVec 24), (wd, w) ∈ [(GWidth.h, 2), (GWidth.w, 4), (GWidth.d, 8)] →
        let on := (List.range (64 / w)).filter fun i => (rdK s k).getLsbD i
        ∀ ps, checkElems s .wr b w (rdV s vc) sh off on = .ok ps → overQuota s s.g.toNat s.t ct.hint ps = false →
          Stores (.stvx ct wd va b vc k sh off) ct s { k := rdK s k, v := [rdV s va], ps := ps }
            (on.flatMap fun i => bytesOf w ((rdV s va).toNat / 2 ^ (8 * w * i) % 2 ^ (8 * w)))) ∧
    (∀ x ps, b = .reg r → OperandAt s b m 128 x → x % 128 = 0 → check s s.g.toNat s.t .wr x 128 = .ok ps →
      overQuota s s.g.toNat s.t ct.hint ps = false →
      Stores (.zline ct r m) ct s { ps := ps } (List.replicate 128 0))

/-- R135, R136, R239: full/empty words of the own scratchpad. LDF reads a FULL word, LDFE empties it, STF fills the word,
STEF fills an EMPTY one, SETE empties it and tells what it was; a waiting form that finds the other state waits, or with
timeout 0 sets its predicate false; so does WAITFE. -/
def Obligations.FullEmptyResults : Prop :=
  ∀ (ct : Ctl) (a b e : GReg) (m : AddrOp) (p : PReg) (s : State) (pa : Nat),
    Issues s ct [a, b, m.index, e] → NoTraps s → s.c.iss.wait = none →
    let va := (rdG s b + ((rdG s m.index <<< m.shift.toNat) + m.off.signExtend 64)).toNat % 2 ^ 56
    let u := strongMark s 8 ((List.range 8).map (pa + ·))
    let v := wordOfBytes (s.memBytes pa 8)
    let tmo := (rdG s e).toNat % 2 ^ 40
    let put (t : State) : State := (t.poke (cellsOf pa 8 (rdG s a).toNat)).setFe pa true
    (FeWord s .rd va pa → FeNow s pa → s.fe pa = true → exec (.ldf ct a b m p e) s = .next (retire ct none (wrP (wrG u a v) p true))) ∧
    (FeWord s .wr va pa → FeNow s pa → s.fe pa = true →
      exec (.ldfe ct a b m p e) s = .next (retire ct none (wrP (wrG (u.setFe pa false) a v) p true))) ∧
    (FeWord s .wr va pa → FeNow s pa → exec (.stf ct a b m) s = .next (retire ct none (put u))) ∧
    (FeWord s .wr va pa → FeNow s pa → s.fe pa = false → exec (.stef ct a b m p e) s = .next (retire ct none (wrP (put u) p true))) ∧
    (FeWord s .wr va pa → FeNow s pa → exec (.sete ct p b m) s = .next (retire ct none (wrP (u.setFe pa false) p (s.fe pa)))) ∧
    (FeWord s .rd va pa → ∀ full, s.fe pa = full →
      exec (.waitfe ct (!full) p b m e) s = .next (retire ct none (wrP s p true))) ∧
    (∀ x ∈ [(Instr.ldf ct a b m p e, Acc.rd, true, false), (.ldfe ct a b m p e, .wr, true, true),
        (.stef ct a b m p e, .wr, false, true), (.waitfe ct false p b m e, .rd, true, false),
        (.waitfe ct true p b m e, .rd, false, false)],
      FeWord s x.2.1 va pa → s.fe pa ≠ x.2.2.1 →
        (tmo ≠ 0 → Blocks x.1 ct s (.word pa x.2.2.1 x.2.2.2) tmo) ∧
        (tmo = 0 → exec x.1 s = .next (retire ct none (wrP (timedOut s) p false))))

/-- R138, R140, R142: the tile table. TDEF defines a free tile from byte offset and size in the scratchpad and names the
field that breaks a bound; TREL releases a READY tile; TSTAT reads the entry. -/
def Obligations.TileTable : Prop :=
  ∀ (ct : Ctl) (t : TReg) (a b c : GReg) (s : State), Issues s ct [a, b, c] →
    let o := (rdG s b).toNat
    let n := (rdG s c).toNat
    let e := s.tile s.g.toNat t
    (o % 128 = 0 → n % 128 = 0 → 128 ≤ n → o + n ≤ 131072 → e.state = 0 →
      exec (.tdef ct t b c) s = .next (retire ct none (s.setTile s.g.toNat t { e with
        dfn := true, fault := false, pend := 0, base := BitVec.ofNat 10 (o / 128), size := BitVec.ofNat 11 (n / 128) }))) ∧
    (o % 128 ≠ 0 ∨ 131072 < o → Traps (.tdef ct t b c) s (illopnd 1)) ∧
    (o % 128 = 0 → o ≤ 131072 → n % 128 ≠ 0 ∨ n < 128 ∨ 131072 < o + n → Traps (.tdef ct t b c) s (illopnd 2)) ∧
    (o % 128 = 0 → n % 128 = 0 → 128 ≤ n → o + n ≤ 131072 → e.state ≠ 0 → Traps (.tdef ct t b c) s (illopnd 0)) ∧
    (e.state = 2 → ∀ mode, exec (.trel ct t mode) s =
      .next (retire ct none (s.setTile s.g.toNat t { e with state := if mode then 3 else 0 }))) ∧
    (e.state ≠ 2 → s.c.iss.wait = none → ∀ mode n, n = (let w := (s.core s.g.toNat).regs.twto.toNat; if w = 0 then 2 ^ 32 else w) →
      Blocks (.trel ct t mode) ct s (.tile t) n) ∧
    Sets (.tstat ct a t) s a (e.state ++ BitVec.ofBool e.dfn ++ BitVec.ofBool e.fault ++ (0 : BitVec 18) ++ e.base ++
      (0 : BitVec 5) ++ e.size ++ e.pend)

/-- R143, R144, R146: prefetch changes no register and no byte and never traps; WBL unpins the line and leaves no dirty copy at its
home; RGNQ reads the
directory state of the line's region, 0 outside DRAM and views. -/
def Obligations.LineInstructions : Prop :=
  ∀ (ct : Ctl) (a b : GReg) (m : AddrOp) (s : State), Issues s ct [a, b, m.index] → NoTraps s →
    let va := (rdG s b + ((rdG s m.index <<< m.shift.toNat) + m.off.signExtend 64)).toNat % 2 ^ 56
    (∀ lv, ∃ t, exec (.pref ct lv b m) s = .next t ∧ t.c.pc = nextPc s.c.pc ∧ t.c.trap = s.c.trap ∧ Kept s t [] [] [] [] ∧
      ∀ x, t.memAt x = s.memAt x) ∧
    (∀ ps, check s s.g.toNat s.t .rd va 1 = .ok ps →
      (InTurn (.wbl ct b m) ct s { ps := ps } →
        ∃ t, exec (.wbl ct b m) s = .next t ∧ t.c.pc = nextPc s.c.pc ∧ Kept s t [] [] [] [] ∧ (∀ x, t.memAt x = s.memAt x) ∧
          ∀ l ∈ ps.flatMap pieceLines,
            (tget none (t.core (l1Core s s.g.toNat (l * 128) (fusedOf s s.g.toNat))).cache.l1 l).bind (·.pin) = none ∧
            ∀ d, placeOf s.part (l * 128) = .dram d → ((l2At t d l).map (·.dirty)).getD false = false) ∧
      (InTurn (.rgnq ct a b m) ct s { ps := ps } →
        (let pa := (ps.headD ⟨0, 0, 0, 0⟩).pa
         let r := regionOf s (lineOf pa)
         Sets (.rgnq ct a b m) s a (match placeOf s.part pa with
           | .dram _ | .view _ => BitVec.ofNat 64 (r.gran + r.deg % 8 * 2 ^ 16 + homeDie s pa * 2 ^ 24 +
               ((regionDies s r).map fun d => 2 ^ (32 + d)).sum +
               if tget 0 (s.die (homeDie s pa)).lostRgn (pa / 65536) ≠ 0 then 2 ^ 40 else 0)
           | _ => 0))) ∧
      (∀ i ∈ [Instr.wbl ct b m, .rgnq ct a b m], ¬ InTurn i ct s { ps := ps } →
        exec i s = .next (retire ct none (addOut i { ps := ps } ct.la.toNat none s))))

/-! ### Ordering (07_ordering.md) -/

/-- R169, R185–R189: the ordering instructions. PHASE at a scope above CORE releases, then acquires; PHASE CORE and FENCE
wait for the thread's own accesses; DFENCE releases; TLWAIT acquires at MODULE when the job is done, reports the lowest
failed job, or waits; TLREAD reads ISSUED or DONE. -/
def Obligations.OrderingInstructions : Prop :=
  ∀ (ct : Ctl) (a c : GReg) (p : PReg) (tl : TlReg) (sc : Scope) (s : State), Issues s ct [a, c] → s.c.iss.wait = none →
    let x := s.tl s.g.toNat tl.toNat
    let n := rdG s c
    (sc ≠ .core → CanRelease s sc → exec (.phase ct sc) s = .next (retire ct none (acquire (released s sc) s.g.toNat sc))) ∧
    (accessesOut s = false → exec (.phase ct .core) s = .next (retire ct none (flushStreams s))) ∧
    (CanRelease s sc → exec (.dfence ct sc) s = .next (retire ct none (released s sc))) ∧
    (accessesOut s = true → s.c.iss.stage = 0 → exec (.phase ct sc) s = .next (yieldOnce ct s) ∧
      exec (.dfence ct sc) s = .next (yieldOnce ct s)) ∧
    (let busy := s.c.iss.outs.any fun o => exemptOut s o || (isSfu o.i && o.src.job != 0)
     exec (.fence ct sc) s = .next (if busy then yieldOnce ct s else retire ct none (flushStreams s))) ∧
    (n.toNat ≤ x.done → failureUpTo s.c tl.toNat n.toNat = none → ∀ tmo,
      exec (.tlwait ct p tl c tmo) s = .next (retire ct none (wrP (acquire s s.g.toNat .module) p true))) ∧
    (∀ f, n.toNat ≤ x.done → failureUpTo s.c tl.toNat n.toNat = some f → ∀ tmo,
      Traps (.tlwait ct p tl c tmo) s ⟨0x13, tl.setWidth 8, BitVec.ofNat 64 f⟩) ∧
    (x.done < n.toNat → ∀ tmo : BitVec 28, tmo ≠ 0 → Blocks (.tlwait ct p tl c tmo) ct s (.timeline tl n) tmo.toNat) ∧
    (x.done < n.toNat → exec (.tlwait ct p tl c 0) s = .next (retire ct none (wrP (timedOut s) p false))) ∧
    Sets (.tlread ct a tl true) s a (BitVec.ofNat 64 x.issued) ∧ Sets (.tlread ct a tl false) s a (BitVec.ofNat 64 x.done)

/-- R169, R190, R191: LDNOW reads at the line's home, and acquires afterwards with .ACQ; STNOW writes there as one
publication, after a release with .REL. Both work on naturally aligned accesses, in the issue turn or as outstanding instructions.
Of a non-coherent host window LDNOW.Q reads one dword, and the other later (R248). -/
def Obligations.StrongAccesses : Prop :=
  ∀ (ct : Ctl) (a b d : GReg) (m : AddrOp) (flag : Bool) (sc : Scope) (sz : Size) (n : Nat) (ps : List Piece) (s : State),
    Issues s ct [a, b, d, m.index] → NoTraps s →
    (sz, n) ∈ [(Size.b, 1), (Size.h, 2), (Size.w, 4), (Size.d, 8), (Size.q, 16)] →
    let va := (rdG s b + ((rdG s m.index <<< m.shift.toNat) + m.off.signExtend 64)).toNat % 2 ^ 56
    va % n = 0 →
    (check s s.g.toNat s.t .rd va n = .ok ps → (sz = .q → a ≠ d) →
      let i := Instr.ldnow ct flag sz sc a b m d
      (InTurn i ct s { ps := ps } → CanRead s ps → mixTrap s s.t n ps = none →
        let u := recallLines s ps
        let read (qs : List Piece) : State := qs.foldl (fun s p => noteRead (tlbFill s s.g.toNat s.t p) s.g.toNat s.t 0 p) (strongDone u n qs)
        (sz = .q ∧ ps.any (nonCoherent s) = true → ∀ q ∈ ps, ps = [q] →
          let h : Piece := { q with n := 8 }
          exec i s = .next (retire ct none (addOut i { ps := ps, got := strongBytes u n [h] } ct.la.toNat none (read [h])))) ∧
        (¬ (sz = .q ∧ ps.any (nonCoherent s) = true) →
          let bs := strongBytes u n ps
          let w := wrG (read ps) a (BitVec.ofNat 64 (ofBytes (bs.take 8)))
          let z := if sz = .q then wrG w d (BitVec.ofNat 64 (ofBytes ((bs.drop 8).take 8))) else w
          exec i s = .next (retire ct none (if flag then acquire z z.g.toNat sc else z)))) ∧
      (¬ InTurn i ct s { ps := ps } → exec i s = .next (retire ct none (addOut i { ps := ps } ct.la.toNat none s)))) ∧
    (check s s.g.toNat s.t .wr va n = .ok ps → MayRelease flag s sc →
      let u := afterRelease flag s sc
      let bs := (bytesOf 8 (rdG s a).toNat ++ bytesOf 8 (rdG s d).toNat).take n
      (∀ o ∈ u.c.iss.outs, o.trap = none) →
      let i := Instr.stnow ct flag sz sc a b m d
      let src : Src := { ps := ps, w := [rdG s a, rdG s d] }
      (InTurn i ct u src → CanWrite u ps → mixTrap u u.t n ps = none → leesRoom u (pieceCells ps bs) = true →
        exec i s = .next (retire ct none (strongWrite u sc n ps bs))) ∧
      (¬ InTurn i ct u src → exec i s = .next (retire ct none (addOut i src ct.la.toNat none u))))

/-! ### Atomics and accumulators (08_atomics_accumulators.md) -/

/-- R193, R208–R210: the integer atomics read the old value at the home, write the new one there as one publication, and
return the old one; CAS and CASQ write, and set p, where the old value is the expected one. .AR releases before and
acquires after; .REL of RED releases before. -/
def Obligations.AtomicResults : Prop :=
  ∀ (ct : Ctl) (a b d : GReg) (m : AddrOp) (flag : Bool) (sc : Scope) (p : PReg) (ps : List Piece) (s : State),
    Issues s ct [a, b, d, m.index] → MayRelease flag s sc → (∀ o ∈ (afterRelease flag s sc).c.iss.outs, o.trap = none) →
    let u := afterRelease flag s sc
    let v := recallLines u ps
    let back (t : State) : State := if flag then acquire t t.g.toNat sc else t
    let put (n new : Nat) : State := ownLine (strongWrite v sc n ps (bytesOf n new)) sc ps
    let keep (n : Nat) : State := rmwRead (ownLine v sc ps) n ps
    let base := rdG s b
    let va := (base + ((rdG s m.index <<< m.shift.toNat) + m.off.signExtend 64)).toNat % 2 ^ 56
    (∀ (off : BitVec 20) (imm : BitVec 22), ps.any (nonCoherent s) = false → CanModify u 8 ps →
      let old : Word := BitVec.ofNat 64 (ofBytes (strongBytes v 8 ps))
      ∀ x ∈ [(va, (fun op => Instr.amo ct flag op sc a b m d), rdG s d),
          ((base + off.signExtend 64).toNat % 2 ^ 56, (fun op => Instr.amoi ct flag op sc a b imm off), imm.signExtend 64)],
        x.1 % 8 = 0 → check s s.g.toNat s.t .wr x.1 8 = .ok ps →
        ∀ q ∈ [(AmoOp.add, old + x.2.2), (.and, old &&& x.2.2), (.or, old ||| x.2.2), (.xor, old ^^^ x.2.2),
            (.min, if x.2.2.toInt < old.toInt then x.2.2 else old), (.max, if old.toInt < x.2.2.toInt then x.2.2 else old),
            (.minn, if x.2.2.toNat < old.toNat then x.2.2 else old), (.maxn, if old.toNat < x.2.2.toNat then x.2.2 else old),
            (.swap, x.2.2)],
          Starts (x.2.1 q.1) ct s u { ps := ps, w := [x.2.2] } (back (wrG (put 8 q.2.toNat) a old))) ∧
    (∀ (dw : Bool) (n : Nat), n = (if dw then 8 else 4) → va % n = 0 → check s s.g.toNat s.t .wr va n = .ok ps → CanModify u n ps →
      let old := ofBytes (strongBytes v n ps)
      let hit := decide (old = (rdG s a).toNat % 2 ^ (8 * n))
      Starts (.cas ct flag dw sc a b m d p) ct s u { ps := ps, w := [rdG s a, rdG s d] }
        (back (wrP (wrG (if hit then put n ((rdG s d).toNat % 2 ^ (8 * n)) else keep n) a (BitVec.ofNat 64 old)) p hit))) ∧
    (a.getLsbD 0 = false → d.getLsbD 0 = false → va % 16 = 0 → check s s.g.toNat s.t .wr va 16 = .ok ps → CanModify u 16 ps →
      let old := ofBytes (strongBytes v 16 ps)
      let pair (r : GReg) : Nat := (rdG s r).toNat + 2 ^ 64 * (rdG s (pairReg r)).toNat
      let hit := decide (old = pair a)
      Starts (.casq ct flag sc a b m d p) ct s u { ps := ps, w := [rdG s a, rdG s (pairReg a), rdG s d, rdG s (pairReg d)] }
        (back (wrP (wrG (wrG (if hit then put 16 (pair d) else keep 16) a (BitVec.ofNat 64 old)) (pairReg a)
          (BitVec.ofNat 64 (old / 2 ^ 64))) p hit))) ∧
    (∀ op, va % 8 = 0 → check s s.g.toNat s.t .wr va 8 = .ok ps → noHost s .wr ps = none → CanModify u 8 ps →
      let old : Word := BitVec.ofNat 64 (ofBytes (strongBytes v 8 ps))
      Starts (.red ct flag (.int op) sc a b m) ct s u { ps := ps, w := [rdG s a] } (put 8 (amoFn op old (rdG s a)).toNat))

/-- R197, R210, R211: a floating-point RED updates one element of its accumulator line, and REDV the elements of its active
lanes: at scope CORE in the core's own copy, with a chain in the core's slice, else at the home. Both complete in the issue turn, or
become outstanding; a byte that a strong access of another size overlapped is free afterwards (R128). -/
def Obligations.FloatReductions : Prop :=
  ∀ (ct : Ctl) (a b : GReg) (x y : VReg) (m : AddrOp) (k : KReg) (rel : Bool) (op : AccOp) (sc : Scope) (q : Piece) (s : State),
    Issues s ct [a, b, m.index] → MayRelease rel s sc → (∀ o ∈ (afterRelease rel s sc).c.iss.outs, o.trap = none) →
    let u := afterRelease rel s sc
    let va := (rdG s b + ((rdG s m.index <<< m.shift.toNat) + m.off.signExtend 64)).toNat % 2 ^ 56
    let h := tget 0 u.coh.hdr (lineOf q.pa)
    let done (f : Fmt) (lanes : List (Nat × Nat)) : State :=
      let xs := lanes.map fun l => (q.pa % 128 / hdrElem h + l.1, l.2)
      tlbFill (mixUpd u (updLine u (.core u.g) u.g sc (leafCl q.leaf == 0) (lineOf q.pa) f xs) sc (hdrElem h)
        (elemAddrs (lineOf q.pa) h xs)) u.g.toNat u.t q
    noHost s .wr [q] = none →
    (∀ (dbl : Bool) (n : Nat), n = (if dbl then 8 else 4) → va % n = 0 → check s s.g.toNat s.t .wr va n = .ok [q] → CanUpdate u op sc 0 q →
      Starts (.red ct rel (.flt dbl op) sc a b m) ct s u { ps := [q], w := [rdG s a] }
        (done (if dbl then .f64 else .f32) [(0, (rdG s a).toNat % 2 ^ (8 * n))])) ∧
    (streamOf s x = none → streamOf s y = none → ∀ n, n = (if x = y then 16 else 32) → va % (4 * n) = 0 →
      check s s.g.toNat s.t .wr va (4 * n) = .ok [q] → CanUpdate u op sc n q →
      (∃ t, exec (.redv ct rel op sc x y b m k) s = .next t ∧ t.c.pc = nextPc s.c.pc) ∧
      Starts (.redv ct rel op sc x y b m k) ct s u { ps := [q], v := [rdV s x, rdV s y], k := rdK s k }
        (done .f32 (((List.range n).filter fun i => (rdK s k).getLsbD i).map fun i =>
          (i, ((if i < 16 then rdV s x else rdV s y).toNat / 2 ^ (32 * (i % 16))) % 2 ^ 32))))

/-- R206, R212, R213: ACINIT makes lines of DRAM accumulator lines whose elements are the operation's identity; ACREAD
reads an element, a dword or lanes of an accumulator line after the copies of it are combined, or its header without that. -/
def Sys2Proof.Claim.AccumulatorLines : Prop :=
  ∀ (ct : Ctl) (a b c : GReg) (x y : VReg) (m : AddrOp) (r : RangeOp) (op : AccOp) (fmt : AccFmt) (sc : Scope) (s : State),
    Issues s ct [a, b, c, m.index] → NoTraps s →
    (∀ (chain : Option GReg) (ps : List Piece), (chain = none ∨ chain = some c ∧ badChain (rdG s c) = false) →
      let n := r.nm1.toNat + 1
      let va := (rdG s b + r.off.signExtend 64).toNat % 2 ^ 56
      let w := (chain.map fun c => rdG s c).toList
      let h := initHeader w.head? op fmt sc
      va % 128 = 0 → checkRange s va n = .ok ps → notDram s .wr ps = none → linesRoom s ps = true →
        Starts (.acinit ct chain op fmt sc b r) ct s s { ps := ps, w := w }
          (ps.foldl (fun s p => setLine s sc h p (identityBytes h)) s) ∧
        (ct.la = 0 → inOrder s (.acinit ct chain op fmt sc b r) { ps := ps, w := w } = true → ∀ p, ps = [p] → ∃ t, exec (.acinit ct chain op fmt sc b r) s = .next t ∧ tget 0 t.coh.hdr (lineOf p.pa) = h ∧
          ∀ i, i < 128 → t.memAt (lineOf p.pa * 128 + i) = (identityBytes h).getD i 0)) ∧
    (let va := (rdG s b + ((rdG s m.index <<< m.shift.toNat) + m.off.signExtend 64)).toNat % 2 ^ 56
     ∀ q : Piece, isAcc s q.pa = true → CanRead s [q] →
      (check s s.g.toNat s.t .rd va 1 = .ok [q] →
        let u := tlbFill (unpart s (lineOf q.pa)) s.g.toNat s.t q
        Starts (.acread ct (.hdr a) b m) ct s s { ps := [q] } (wrG u a (tget 0 u.coh.hdr (lineOf q.pa)))) ∧
      let u := tlbFill (recallLines s [q]) s.g.toNat s.t q
      let h := tget 0 u.coh.hdr (lineOf q.pa)
      let bs := homeBytes u u.t [q]
      (streamOf s x = none → streamOf s y = none →
        let vec (t : State) : State := if x = y then wrV t x (vOfBytes bs) else wrV (wrV t x (vOfBytes bs)) y (vOfBytes (bs.drop 64))
        ∀ z ∈ [((fun clr => AcRead.w clr a), 4, (fun t => wrG t a (BitVec.ofNat 64 (ofBytes bs)))),
            ((fun clr => .d clr a), 8, (fun t => wrG t a (BitVec.ofNat 64 (ofBytes bs)))),
            ((fun clr => .v clr x y), (if x = y then 64 else 128), vec)],
          va % z.2.1 = 0 → check s s.g.toNat s.t .rd va z.2.1 = .ok [q] →
          Starts (.acread ct (z.1 false) b m) ct s s { ps := [q] } (z.2.2 u) ∧
          (check s s.g.toNat s.t .wr va z.2.1 = .ok [q] → hdrElem h ≤ z.2.1 → (hdrChain h = true → z.2.1 = 128) →
            let ws := cellsAt q.pa ((List.range (z.2.1 / hdrElem h)).flatMap fun _ =>
              bytesOf (hdrElem h) (accIdentity (hdrFmt h) (hdrOp h)))
            let v := dropUnpub (writeHome u (.core u.g) (scopeOfNat (hdrScope h)) ws) u.g.toNat (ws.map (·.1))
            let v' : State := if hdrChain h then
              { v with coh := { v.coh with hdr := tset 0 v.coh.hdr (lineOf q.pa) (setFld h 51 39 0) } } else v
            Starts (.acread ct (z.1 true) b m) ct s s { ps := [q] } (z.2.2 (v'.bump s.g.toNat 0x0040)))))

/-- R214–R216: ACCHAIN folds the core's slice of each line when its link's turn has come and the thread's updates of the line are
applied, or waits for that; ACFLUSH combines
the lines, and with FIN makes them ordinary; ACCKPT saves data and headers of the lines, ACRSTR puts saved ones back. -/
def Sys2Proof.Claim.AccumulatorRanges : Prop :=
  ∀ (ct : Ctl) (b c : GReg) (r : RangeOp) (p : PReg) (fin : Bool) (ps qs : List Piece) (s : State),
    Issues s ct [b, c] → NoTraps s → s.c.iss.wait = none →
    let n := r.nm1.toNat + 1
    let va := (rdG s b + r.off.signExtend 64).toNat % 2 ^ 56
    let tmo := if (rdG s c).toNat % 2 ^ 40 = 0 then 2 ^ 32 else (rdG s c).toNat % 2 ^ 40
    let link := s.b.lcore.toNat
    (let i := Instr.acchain ct p b c r
     let applied (t : State) (q : Piece) : Bool := inOrder t i { ps := [q] }
     let waits (t : State) (line : Nat) (woken : Bool) : Prop := exec i s = .next (yieldOnce ct (
        ({ t with nextId := t.nextId + 1 } : State).modC fun c => { c with iss := { c.iss with
          wait := some ⟨.chain line, t.cycle, t.cycle + tmo, woken, t.nextId⟩ } }))
     checkRange s va n = .ok ps → (∀ o ∈ s.c.iss.outs, isRed o.i = false → goesFirst s o i { ps := ps } = false) → chainTrap s ps = none →
      (∀ t, chainLines link applied s ps = (t, .all) → exec i s = .next (retire ct none (wrP t p true))) ∧
      (∀ t line, chainLines link applied s ps = (t, .turn line) → waits t line false) ∧
      (∀ t line, chainLines link applied s ps = (t, .updates line) → waits t line true)) ∧
    (checkRange s va n = .ok ps → (∀ q ∈ ps, isRemote s q = false) → spadDenied s .wr ps = none →
      lostIn s (ps.filter fun q => isAcc s q.pa) = none →
      Starts (.acflush ct fin b r) ct s s { ps := ps } (ps.foldl (flushLine fin) s)) ∧
    (let cp := rdG s c
     areaOverlaps va (cp.toNat % 2 ^ 56) n = false → va % 128 = 0 → cp.toNat % 128 = 0 → checkRange s va n = .ok ps →
      (checkRuns s s.g.toNat s.t .wr (areaRuns (cp.toNat % 2 ^ 56) n) = .ok qs → notDram s .wr qs = none → (∀ q ∈ ps, isRemote s q = false) →
        spadDenied s .wr ps = none → accIn s qs = false → lostIn s (ps ++ qs) = none →
        (let l := ckptLines { ps := ps, qs := qs }
         linesRoom s (l.map (·.2.1) ++ l.map (·.2.2)) = true) →
        Starts (.acckpt ct b c r) ct s s { ps := ps, qs := qs } ((ckptLines { ps := ps, qs := qs }).foldl (fun s e =>
          let u := recallLines s [e.1]
          moduleWrite (moduleWrite u e.2.1 (homeBytes u u.t [e.1])) e.2.2 (bytesOf 8 (tget 0 u.coh.hdr (lineOf e.1.pa)).toNat)) s)) ∧
      (notDram s .wr ps = none → checkRuns s s.g.toNat s.t .rd (areaRuns (cp.toNat % 2 ^ 56) n) = .ok qs → notDram s .rd qs = none →
        accIn s qs = false → lostIn s qs = none →
        let u := recallLines s qs
        let l := rstrLines { ps := ps, qs := qs } (homeBytes u u.t qs)
        (∀ e ∈ l, e.2.1 = 0 ∨ hdrValid e.2.1 = true) → linesRoom u (l.map (·.1)) = true →
        Starts (.acrstr ct b c r) ct s s { ps := ps, qs := qs } (l.foldl (fun s e => setLine s .module (setFld e.2.1 7 7 0) e.1 e.2.2) u)))

/-! ### Messages and waits (09_messages_waits.md) -/

/-- R224–R230, R241: SEND and SENDV put a message on its way and count it as sent; RECV and RECVP take the context's next
message with its header, count it as taken, and with .ACQ acquire at the pair scope; RECV without a message waits or ends
with p false, RECVP ends with p false, and both are passive points. -/
def Obligations.Messages : Prop :=
  ∀ (ct : Ctl) (a b : GReg) (x y : VReg) (p : PReg) (flag hi : Bool) (tmo : Timeout) (s : State),
    Issues s ct ([a, b] ++ (match tmo with | .imm _ => [] | .reg e => [e])) → s.c.iss.wait = none → NoTraps s →
    streamOf s x = none → streamOf s y = none →
    let n := match tmo with | .imm v => v.toNat | .reg e => (rdG s e).toNat % 2 ^ 40
    let fin (dst : RecvDst) (i : Nat) (m : Msg) : State :=
      let t := takeMail s i m
      let t := match dst with
        | .dword a => wrG t a (BitVec.ofNat 64 (ofBytes (m.data.take 8)))
        | .line x y => if x = y then wrV t x (vOfBytes m.data) else wrV (wrV t x (vOfBytes m.data)) y (vOfBytes (m.data.drop 64))
      let t := wrP (wrG t b ((if m.hi then 0x100000000 else 0) + m.src.setWidth 64)) p true
      if flag then acquire t t.g.toNat (pairScope (tidCore m.src) t.g.toNat) else t
    (∀ z ∈ [(RecvDst.dword a, false), (RecvDst.line x y, true)],
      (∀ i m, NextMessage s z.2 i m →
        exec (.recv ct flag z.1 b p tmo) s = .next (retire ct none (fin z.1 i m)) ∧
        Starts (.recvp ct flag z.1 b p) ct s s {} (fin z.1 i m)) ∧
      (NoMessage s z.2 →
        (n ≠ 0 → BlocksIn (.recv ct flag z.1 b p tmo) ct s (passive s) (.mail z.2) n) ∧
        (n = 0 → exec (.recv ct flag z.1 b p tmo) s = .next (retire ct none (wrP (timedOut (passive s)) p false))) ∧
        Starts (.recvp ct flag z.1 b p) ct s s {} (wrP (passive s) p false))) ∧
    (∀ z ∈ [(Instr.send ct flag hi a b, ({ w := [rdG s a, rdG s b] } : Src), false, bytesOf 8 (rdG s b).toNat),
        (.sendv ct flag hi a x y, { w := [rdG s a], bs := some (bytesOf 64 (rdV s x).toNat ++ bytesOf 64 (if x = y then 0 else (rdV s y).toNat)) },
          true, bytesOf 64 (rdV s x).toNat ++ bytesOf 64 (if x = y then 0 else (rdV s y).toNat))],
      (rdG s a).toNat < 2 ^ 32 → tidCore ((rdG s a).setWidth 32) < s.part.dies * 512 →
      let sc := pairScope s.g.toNat (tidCore ((rdG s a).setWidth 32))
      MayRelease flag s sc →
      let u := afterRelease flag s sc
      let v := countSent u u.g.toNat u.t u.c.task.lid 1
      exec z.1 s = .next (retire ct none (addOut z.1 z.2.1 ct.la.toNat none { v with fl := { v.fl with
        mesh := v.fl.mesh ++ [⟨(rdG s a).setWidth 32, u.c.tid, u.t, u.c.task.lid, hi, z.2.2.1, z.2.2.2, false, u.nextId, false⟩] } })))

/-- R231, R234–R238, R240, R242–R244: barrier and wave objects. BINIT and QRESET write the object; BARR adds arrivals and
returns the count before; STC stores and then counts; BREAD reads a dword; WAITB and WAITC go on when enough arrived or the
chunk is done, and wait otherwise; QWAVE begins a wave or finds one running; SLEEP waits for its time. -/
def Obligations.ObjectsAndSleep : Prop :=
  ∀ (ct : Ctl) (a b c d e : GReg) (p : PReg) (flag : Bool) (sc : Scope) (tmo : Timeout) (ps qs : List Piece) (s : State),
    Issues s ct ([a, b, c, d, e] ++ (match tmo with | .imm _ => [] | .reg e => [e])) → s.c.iss.wait = none → NoTraps s →
    let n := match tmo with | .imm v => v.toNat | .reg e => (rdG s e).toNat % 2 ^ 40
    let low (x : Word) : Nat := x.toNat % 2 ^ 32
    let write := checkObj s .wr (rdG s b) = .ok ps ∧ CanUse s .wr ps ∧ objRoom s ps = true
    let read := checkObj s .rd (rdG s b) = .ok ps ∧ CanUse s .rd ps
    let obj := objBytes s ps
    (∀ exp nchunk cexp : Nat, write → rdG s c = BitVec.ofNat 64 exp → exp < 2 ^ 32 →
      rdG s d = BitVec.ofNat 64 (nchunk + 256 * cexp) → nchunk ≤ 64 → cexp < 256 → (nchunk ≠ 0 → cexp ≠ 0) →
      Starts (.binit ct sc b c d) ct s s { ps := ps, w := [rdG s c, rdG s d] }
        (objWrite s sc ps 0 (bytesOf 8 (scopeRank sc * 2 ^ 56 + cexp * 2 ^ 48 + nchunk * 2 ^ 32 + exp) ++ List.replicate 120 0))) ∧
    (write → Starts (.qreset ct b) ct s s { ps := ps } (objWrite s .module ps 0 (List.replicate 128 0))) ∧
    (let at' := objScope obj
     let u := afterRelease flag s (scopeOfNat at')
     write → MayRelease flag s (scopeOfNat at') → (flag = true → scopeOk at' = true) → CanUse u .wr ps → objRoom u ps = true →
     (∀ o ∈ u.c.iss.outs, o.trap = none) →
     let k := if c = 0 then 1 else low (rdG s c)
     Starts (.barr ct flag a b c) ct s u { ps := ps, w := [BitVec.ofNat 64 k], job := if scopeOk at' then at' else 0 }
       (wrG (countArrival u ps k none) a (BitVec.ofNat 64 (objArrived (objBytes u ps))))) ∧
    (∀ (sz : Size) (m : AddrOp) (chunk : Option GReg) (z : Nat), m.index = c → chunk = none ∨ chunk = some e →
      (sz, z) ∈ [(Size.b, 1), (Size.h, 2), (Size.w, 4), (Size.d, 8)] →
      let va := addrG s b m
      va % z = 0 → check s s.g.toNat s.t .wr va z = .ok qs → (∀ q ∈ qs, ∃ h, placeOf s.part q.pa = .dram h ∨ placeOf s.part q.pa = .spad h) →
      checkObj s .wr (rdG s d) = .ok ps → CanUse s .wr ps → CanWrite s qs →
      (chunk = some e → (rdG s e).toNat % 64 < objNchunk obj) → mixTrap s s.t z qs = none →
      leesRoom s (pieceCells qs (bytesOf z (rdG s a).toNat)) = true →
      let i := Instr.stc ct sz sc a b m d chunk
      let src : Src := { ps := qs, qs := ps, w := rdG s a :: (chunk.map fun r => rdG s r).toList }
      (InTurn i ct s src → exec i s = .next (retire ct none
        (addOut i { src with job := 1 } ct.la.toNat none (strongWrite s sc z qs (bytesOf z (rdG s a).toNat))))) ∧
      (¬ InTurn i ct s src → exec i s = .next (retire ct none (addOut i src ct.la.toNat none s)))) ∧
    (read → ∀ j, Starts (.bread ct a b j) ct s s { ps := ps } (wrG (recallLines s ps) a (dwordAt obj j.toNat))) ∧
    (read → (flag = true → scopeOk (objScope obj) = true) →
      let pa := (ps.headD ⟨0, 0, 0, 0⟩).pa
      let waits (i : Instr) (w : List Word) (kind : WaitKind) (ready : Bool) : Prop :=
        (ready = true → Starts i ct s s { ps := ps, w := w, job := s.cycle + n, tmo := n }
          (let t := wrP s p true; if flag then acquire t t.g.toNat (scopeOfNat (objScope (objBytes s ps))) else t)) ∧
        (ready = false → n ≠ 0 → Blocks i ct s kind n) ∧
        (ready = false → n = 0 → exec i s = .next (retire ct none (wrP (timedOut s) p false)))
      waits (.waitb ct flag p b tmo) [] (.barrier pa) (decide (objExpect obj ≤ objArrived obj)) ∧
      ∀ op j, (op = .reg c ∧ j = (rdG s c).toNat % 64) ∨ (∃ v, op = .imm v ∧ j = v.toNat ∧ j < 64) → j < objNchunk obj →
        waits (.waitc ct flag p b op tmo) [BitVec.ofNat 64 j] (.chunk pa j) ((dwordAt obj 2).getLsbD j)) ∧
    (write →
      (bit (dwordAt obj 0) 34 = true → Starts (.qwave ct a b) ct s s { ps := ps } (wrG s a 2)) ∧
      (bit (dwordAt obj 0) 34 = false → InTurn (.qwave ct a b) ct s { ps := ps } →
        exec (.qwave ct a b) s = .next (retire ct none (addOut (.qwave ct a b) { ps := ps, w := [0, 0], job := 1 } ct.la.toNat none
          (passive (objWrite s .module ps 0 (bytesOf 8 ((dwordAt obj 0) ||| (1 <<< 34)).toNat)))))) ∧
      (¬ InTurn (.qwave ct a b) ct s { ps := ps } →
        exec (.qwave ct a b) s = .next (retire ct none (addOut (.qwave ct a b) { ps := ps } ct.la.toNat none s)))) ∧
    (∀ imm : BitVec 40, let k := min ((rdG s b).toNat % 2 ^ 40 + imm.toNat) (2 ^ 40 - 1)
      (k = 0 → Jumps (.sleep ct b imm) s (nextPc s.c.pc) s.c.ras) ∧ (k ≠ 0 → Blocks (.sleep ct b imm) ct s .sleep k))

/-! ### Tasks (11_tasks_scheduling.md) -/

/-- R278–R281: LAUNCH releases at MODULE and appends the 256-byte record to the tenant's launch queue, or answers 1 where
the queue is off or full; FORK adds a task entry with eight arguments to the core's deque, counts it at the join counter
and sets p7, or clears p7 where the deque is full; JINIT sets the join counter, JOIN acquires and goes on when nothing is
pending, and waits otherwise. -/
def Obligations.LaunchForkJoin : Prop :=
  ∀ (ct : Ctl) (a b c : GReg) (p : PReg) (target : CodeAddr) (tmo : Timeout) (ps : List Piece) (s : State),
    Issues s ct ([a, b, c] ++ (match tmo with | .imm _ => [] | .reg e => [e])) → s.c.iss.wait = none →
    let n := match tmo with | .imm v => v.toNat | .reg e => (rdG s e).toNat % 2 ^ 40
    (let u := released s .module
     (∀ o ∈ u.c.iss.outs, o.trap = none) → CanRelease s .module → (rdG s b).toNat % 128 = 0 →
     check s s.g.toNat s.t .rd ((rdG s b).toNat % 2 ^ 56) 256 = .ok ps →
     (InTurn (.launch ct a b) ct u { ps := ps } → CanRead u ps →
       (bit (u.cfgAt (lqCtl u.t)) 32 = false ∨ lqSize u u.t ≤ lqPending u u.t →
         exec (.launch ct a b) s = .next (retire ct none (wrG u a 1))) ∧
       (let prod := (u.cfgAt (lqProd u.t)).toNat % 2 ^ 32
        let ws := cellsAt (lqSlot u u.t prod) (objBytes u ps)
        bit (u.cfgAt (lqCtl u.t)) 32 = true → lqPending u u.t < lqSize u u.t → leesRoom u ws = true →
        exec (.launch ct a b) s = .next (retire ct none (wrG
          ((writeNow (recallLines u ps) (.core u.g) .module (ws.filter fun w => inWindow u u.t w.1)).setCfg (lqProd u.t)
            (BitVec.ofNat 64 ((prod + 1) % 2 ^ 32))) a 0)))) ∧
     (¬ InTurn (.launch ct a b) ct u { ps := ps } →
       exec (.launch ct a b) s = .next (retire ct none (addOut (.launch ct a b) { ps := ps } ct.la.toNat none u)))) ∧
    (∀ pc, a.toNat ≤ 56 → checkTarget s (target.setWidth 64) = .ok pc → ownCounter s = .ok ps → Clear s ps →
      (spawnLimit s ≤ s.b.deque.length → SetsP (.fork ct a target) s 7 false) ∧
      (s.b.deque.length < spawnLimit s → objTrap .wr 1 ps s = none → ps = [] ∨ objRoom s ps = true →
        let e : TaskEntry := { kind := .forked, pc := target, task := { s.c.task with taken := 0 }, ready := s.cycle
                               args := (List.range 8).map fun i => rdG s (a + BitVec.ofNat 7 i) }
        exec (.fork ct a target) s = .next (retire ct none (wrP (countSent
          (dequeWrite ((countJoin s s.domain ps 1 1).modB fun b => { b with deque := b.deque ++ [e] }) s.g.toNat s.t)
          s.g.toNat s.t s.c.task.lid 1) 7 true)))) ∧
    (56 < a.toNat → Traps (.fork ct a target) s (illopnd 0)) ∧
    (rdG s b = 0 → exec (.jinit ct b c) s = .next (retire ct none (s.modC fun x => { x with task := { x.task with jctr := 0 } }))) ∧
    (rdG s b ≠ 0 → checkCounter s .wr (rdG s b) = .ok ps → Clear s ps → spadDenied s .wr ps = none → accIn s ps = false → objRoom s ps = true →
      exec (.jinit ct b c) s = .next (retire ct none ((objWrite s s.domain ps 0 (bytesOf 8 (rdG s c).toNat ++ List.replicate 8 0)).modC
        fun x => { x with task := { x.task with jctr := (rdG s b).setWidth 56 } }))) ∧
    (checkCounter s .rd (rdG s b) = .ok ps → objTrap .rd 1 ps s = none →
      let pending := (dwordAt (objBytes s ps) 0).toInt
      (pending ≤ 0 → exec (.join ct p b tmo) s = .next (retire ct none (wrP (acquire s s.g.toNat s.domain) p true))) ∧
      (0 < pending → n ≠ 0 → Blocks (.join ct p b tmo) ct s (.join (ps.headD ⟨0, 0, 0, 0⟩).pa) n) ∧
      (0 < pending → n = 0 → exec (.join ct p b tmo) s = .next (retire ct none (wrP (timedOut s) p false))))

/-- R282–R287: the instructions that end a context or send it away. Each waits for the thread's outstanding instructions,
releases at the domain scope (MIGRATE at the pair scope), and frees the slot: ENDT counts the end at the join counter, EXIT
also marks the launch, SUSPEND writes a continuation record and registers its condition, MIGRATE sends the context to
the owner of an address; RESUME queues a suspended record of its launch. -/
def Sys2Proof.Claim.EndingTasks : Prop :=
  ∀ (ct : Ctl) (b c : GReg) (m : AddrOp) (p : PReg) (ps : List Piece) (s : State), Issues s ct [b, c, m.index] →
    let sc := s.domain
    let u := released s sc
    (s.c.iss.outs ≠ [] → ∀ i ∈ [Instr.endt ct, .exit ct, .suspend ct b c .plain 0, .migrate ct b m], exec i s = .next (yieldOnce ct s)) ∧
    (s.c.iss.outs = [] → ownCounter s = .ok ps → CanRelease s sc → objTrap .wr 1 ps u = none → ps = [] ∨ objRoom u ps = true →
      ∃ t t', exec (.endt ct) s = .next t ∧ t = endContext (countJoin u sc ps (-1) 0) ∧ t.ctx s.g s.k = none ∧
        exec (.exit ct) s = .next t' ∧ t' = endContext (markExit (countJoin u sc ps (-1) 0)) ∧ t'.ctx s.g s.k = none ∧
        ∀ l, (countJoin u sc ps (-1) 0).launch? s.c.task.lid = some l → ∃ l', t'.launch? s.c.task.lid = some l' ∧ l'.exiting = true) ∧
    (∀ (cond : SuspendCond) (tmo : BitVec 28) (qs : List Piece),
      (∀ z ∈ suspendUses cond, isPort s z.reg = false) → s.c.iss.outs = [] →
      let mask := rdG s c &&& ~~~(1 : Word)
      (maskRegs mask).length ≤ 16 → checkRecord s (rdG s b) = .ok ps → checkCond s cond = .ok qs → CanRelease s sc →
      spadDenied u .wr ps = none → accIn u ps = false → objTrap .rd 3 qs u = none → objRoom u ps = true →
      let pa := (ps.headD ⟨0, 0, 0, 0⟩).pa
      let obj := (qs.headD ⟨0, 0, 0, 0⟩).pa
      let (kind, tln, wait, warg) : CondKind × Nat × Nat × Word := match cond with
        | .plain => (.plain, 0, 0, 0)
        | .tl j t => (.timeline s.g t (rdG s j), t.toNat, 1, rdG s j)
        | .bar o => (.barrier obj, 0, 2, rdG s o)
        | .join o => (.join obj, 0, 3, rdG s o)
      let r : Registered := ⟨pa, rdG s b, u.t, u.c.task.lid, u.g, kind, s.cycle + (if tmo = 0 then 2 ^ 28 else tmo.toNat), sc, false⟩
      let v := objWrite u sc ps 0 (recordBytes u (nextPc s.c.pc) mask tln wait warg)
      exec (.suspend ct b c cond tmo) s = .next (queueIfMet (endContext
        { v with fl := { v.fl with conds := v.fl.conds.filter (fun x => x.pa != pa) ++ [r] } }) r)) ∧
    (∀ q o, s.c.iss.outs = [] → pieceOf s s.g.toNat s.t .none (addrG s b m, 1) = .ok q → ownerOf s q.pa = some o → ownsLaunch s o = true →
      CanRelease s (pairScope s.g.toNat o) →
      let v := released s (pairScope s.g.toNat o)
      let e : TaskEntry := { kind := .migration, pc := nextPc v.c.pc, task := { v.c.task with taken := 0 }, p := v.c.regs.p, fs := v.c.fpstat
                             rm := v.c.fpctl, args := (List.range 8).map fun i => tget 0 v.c.regs.g (i + 1), ready := v.cycle
                             scope := pairScope s.g.toNat o }
      exec (.migrate ct b m) s = .next (endContext (countSent
        { v with fl := { v.fl with arrivals := v.fl.arrivals ++ [⟨BitVec.ofNat 12 o, v.t, e⟩] } } s.g.toNat v.t v.c.task.lid 1))) ∧
    (checkRecord s (rdG s b) = .ok ps → Clear s ps → objTrap .wr 1 ps s = none →
      let v := recallLines s ps
      let d := dwordAt (objBytes v ps) 1
      let suspended := d.toNat % 4 = 1 ∧ d.toNat / 2 ^ 12 % 2 ^ 16 = s.c.task.lid % 2 ^ 16
      (¬ suspended → exec (.resume ct p b) s = .next (retire ct none (wrP v p false))) ∧
      (suspended → objRoom v ps = true → exec (.resume ct p b) s = .next (retire ct none (wrP (countSent
        (queueRecord v ⟨(ps.headD ⟨0, 0, 0, 0⟩).pa, rdG s b, v.t, v.c.task.lid, d.extractLsb' 28 12, .plain, 0, v.domain, false⟩ 1)
        s.g.toNat v.t v.c.task.lid 1) p true))))

/-- R271, R275, R288, R289: SETPRI sets the priority and refuses values above 3; YIELD parks the context when a candidate of
at least its priority is ready and a park slot is free, else clears p; LEND gives the turns away; DQLEN and AQSPILL read the
core's queue lengths and the spill counter, which AQSPILL.CLR clears. -/
def Sys2Proof.Claim.PrioritiesAndQueues : Prop :=
  ∀ (ct : Ctl) (a b : GReg) (p : PReg) (n : BitVec 8) (s : State), Issues s ct [a, b] →
    (∀ v : BitVec 2, rdG s b = v.setWidth 64 → exec (.setpri ct b) s =
      .next (retire ct none (s.modC fun c => { c with task := { c.task with pri := v } }))) ∧
    (4 ≤ (rdG s b).toNat → Traps (.setpri ct b) s (illopnd 1)) ∧
    (let ready := (readyPris s s.g.toNat s.t).any fun r => decide (s.c.task.pri.toNat ≤ r)
     (freePark s s.g.toNat s.c.task.lid = none ∨ ready = false → SetsP (.yield ct p) s p false) ∧
     (∀ i, freePark s s.g.toNat s.c.task.lid = some i → ready = true →
       exec (.yield ct p) s = .next (parkIn (retire ct none (wrP (toSaved s) p true)) i true))) ∧
    exec (.lend ct n) s = .next (retire ct none (s.modC fun c =>
      { c with iss := { c.iss with lend := if n = 0 then 256 else n.toNat } })) ∧
    Sets (.dqlen ct a) s a (BitVec.ofNat 64 (s.c.task.pri.toNat * 2 ^ 40 + s.b.ring.length * 2 ^ 24 + s.b.arrivals.length * 2 ^ 16 +
      s.b.deque.length)) ∧
    Sets (.aqspill ct false a) s a s.b.spill ∧
    exec (.aqspill ct true a) s = .next (retire ct none (wrG (s.modB fun b => { b with spill := 0 }) a s.b.spill))

/-! ### Vectors and streams (13_vector_stream.md) -/

/-- R71, R75, R293–R296, R307: the floating-point lane operations on aligned register groups, rounded in FPCTL.RM; VABS and
VNEG change the sign bit and deliver the canonical NaN for a NaN. -/
def Obligations.VectorFloat : Prop :=
  ∀ (ct : Ctl) (t : VType) (a b c d : VReg) (k : KReg) (v : VCtl) (s : State), Issues s ct [] → isFp t = true →
    v.rep = false → v.grp ≠ 3 →
    let n := 2 ^ v.grp.toNat
    let w := lanesBits t
    Groups s n [a, b, c, d] →
    let f := fmtOf t
    let rm := rmodeOf s.c.fpctl
    let x (r : VReg) (j : Nat) : Nat := laneR s r w j
    let z (r : VReg) (j : Nat) : Val := f.val (x r j)
    let sign (g : Nat → Nat) (j : Nat) : Nat × BitVec 6 := if (z b j).isNan then (f.nan, if (z b j).isSig then fNV else 0) else (g (x b j), 0)
    MapsLanes (.vadd ct t a b c k v) s a n w (rdK s k) (fun j => fadd f rm (z b j) (z c j)) ∧
    MapsLanes (.vsub ct t a b c k v) s a n w (rdK s k) (fun j => fadd f rm (z b j) (z c j).negate) ∧
    MapsLanes (.vmul ct t a b c k v) s a n w (rdK s k) (fun j => fmul f rm (z b j) (z c j)) ∧
    MapsLanes (.vfma ct t a b c d k v) s a n w (rdK s k) (fun j => ffma f rm (z b j) (z c j) (z d j)) ∧
    MapsLanes (.vfms ct t a b c d k v) s a n w (rdK s k) (fun j => ffma f rm (z b j) (z c j) (z d j).negate) ∧
    MapsLanes (.vmin ct t a b c k v) s a n w (rdK s k) (fun j => fminmax f false (x b j) (x c j)) ∧
    MapsLanes (.vmax ct t a b c k v) s a n w (rdK s k) (fun j => fminmax f true (x b j) (x c j)) ∧
    MapsLanes (.vabs ct t a b k v) s a n w (rdK s k) (sign fun y => y % 2 ^ (w - 1)) ∧
    MapsLanes (.vneg ct t a b k v) s a n w (rdK s k) (sign fun y => (y + 2 ^ (w - 1)) % 2 ^ w)

/-- R309, R312, R313: integer, bitwise, shift, selection and moving lane operations; the sums and products wrap, the
saturating forms clamp; a shift amount is taken modulo the lane width; VSHUF picks lanes of B and C by index, 0 beyond. -/
def Sys2Proof.Claim.VectorInteger : Prop :=
  ∀ (ct : Ctl) (t : VType) (wd : VWidth) (a b c d : VReg) (g : GReg) (k : KReg) (v : VCtl) (s : State), Issues s ct [g] →
    v.rep = false → v.grp ≠ 3 →
    let n := 2 ^ v.grp.toNat
    Groups s n [a, b, c, d] →
    let w := lanesBits t
    let u := match wd with | .b => 8 | .h => 16 | .w => 32 | .d => 64
    let m := 512 * n / u
    let z (r : VReg) (j : Nat) : Int := intOf t (laneR s r w j)
    let x (r : VReg) (j : Nat) : Nat := laneR s r u j
    (∀ sat : Bool,
      MapsLanes (.viadd ct sat t a b c k v) s a n w (rdK s k) (fun j => (wrapBits w (if sat then saturate t (z b j + z c j) else z b j + z c j), 0)) ∧
      MapsLanes (.visub ct sat t a b c k v) s a n w (rdK s k) (fun j => (wrapBits w (if sat then saturate t (z b j - z c j) else z b j - z c j), 0))) ∧
    MapsLanes (.vimul ct t a b c k v) s a n w (rdK s k) (fun j => (wrapBits w (z b j * z c j), 0)) ∧
    MapsLanes (.vand ct wd a b c k v) s a n u (rdK s k) (fun j => (x b j &&& x c j, 0)) ∧
    MapsLanes (.vor ct wd a b c k v) s a n u (rdK s k) (fun j => (x b j ||| x c j, 0)) ∧
    MapsLanes (.vxor ct wd a b c k v) s a n u (rdK s k) (fun j => (x b j ^^^ x c j, 0)) ∧
    (∀ (q : VShift) (e : Nat → Nat), (q = .lanes c ∧ e = laneR s c w) ∨ (∃ i : BitVec 6, q = .imm i ∧ e = fun _ => i.toNat) →
      MapsLanes (.vshl ct t a b q k v) s a n w (rdK s k) (fun j => (laneR s b w j * 2 ^ (e j % w) % 2 ^ w, 0)) ∧
      MapsLanes (.vshr ct t a b q k v) s a n w (rdK s k) (fun j => (wrapBits w (z b j / (2 ^ (e j % w) : Nat)), 0))) ∧
    MapsLanes (.vmov ct wd a b k v) s a n u (rdK s k) (fun j => (x b j, 0)) ∧
    MapsLanes (.vshuf ct wd a b c d k v) s a n u (rdK s k)
      (fun j => (let i := x d j; if i < m then x b i else if i < 2 * m then x c (i - m) else 0, 0)) ∧
    MapsLanes (.vsel ct wd a b c k v) s a n u (BitVec.allOnes 64) (fun j => (if (rdK s k).getLsbD (j % 64) then x b j else x c j, 0)) ∧
    (v.grp = 0 → MapsLanes (.vbcast ct wd a g k v) s a 1 u (rdK s k) (fun _ => ((rdG s g).toNat % 2 ^ u, 0)))

/-- R308, R316: VCMP writes one bit per lane, 0 in inactive lanes, and raises NV for signalling NaNs; the mask instructions work
on the 64 bits of the mask registers. -/
def Sys2Proof.Claim.VectorMasks : Prop :=
  ∀ (ct : Ctl) (t : VType) (q : VCond) (ka kb kc k : KReg) (b c : VReg) (g : GReg) (v : VCtl) (s : State), Issues s ct [g] →
    (let n := 2 ^ v.grp.toNat
     let w := lanesBits t
     v.rep = false → v.grp ≠ 3 → Groups s n [b, c] → 512 * n / w ≤ 64 →
     let on := activeLanes (rdK s k) (512 * n / w)
     let r (j : Nat) : Bool × BitVec 6 := cmpLane q t (laneR s b w j) (laneR s c w j)
     ∃ m : Word, SetsK (.vcmp ct q t ka b c k v) s ka m (on.foldl (fun f j => f ||| (r j).2) 0) ∧
       ∀ j, j < 64 → m.getLsbD j = (decide (j ∈ on) && (r j).1)) ∧
    SetsK (.kand ct ka kb kc) s ka (rdK s kb &&& rdK s kc) 0 ∧ SetsK (.kor ct ka kb kc) s ka (rdK s kb ||| rdK s kc) 0 ∧
    SetsK (.knot ct ka kb) s ka (~~~(rdK s kb)) 0 ∧ SetsK (.kmov ct (.kk ka kb)) s ka (rdK s kb) 0 ∧
    SetsK (.kmov ct (.kg ka g)) s ka (rdG s g) 0 ∧ Sets (.kmov ct (.gk g kb)) s g (rdK s kb)

/-- R76, R77, R80, R310, R311: VCVT converts the lanes of a source group into a destination group of another lane width, whose
lanes beyond the source's become 0; VSP2 decodes SP2 bytes under a scale. -/
def Obligations.VectorConvert : Prop :=
  ∀ (ct : Ctl) (x y : VType) (a b : VReg) (g : GReg) (k : KReg) (v : VCtl) (s : State), Issues s ct [g] → v.rep = false → v.grp ≠ 3 →
    (let n := 2 ^ v.grp.toNat
     let ws := lanesBits x
     let wd := lanesBits y
     let m := n * 512 / ws
     let dn := max 1 (m * wd / 512)
     m * wd / 512 ≤ 4 → Groups s n [b] → Groups s dn [a] →
     partOverlap ⟨0, a, true, wd, dn⟩ ⟨1, b, false, ws, n⟩ = false →
     let r (j : Nat) : Nat × BitVec 6 := convert (rmodeOf s.c.fpctl) x y (laneR s b ws j)
     SetsLanes (.vcvt ct x y a b k v) s a dn wd
       (fun j => if m ≤ j then some 0 else if (rdK s k).getLsbD (j % 64) then some (r j).1 else none)
       ((activeLanes (rdK s k) m).foldl (fun f j => f ||| (r j).2) 0)) ∧
    (v.grp = 0 → Groups s 1 [a, b] → ∀ hi : Bool,
      let r (j : Nat) : Nat × Bool × Bool := sp2Fold (laneR s b 8 (if hi then 32 + j else j)) (rdG s g).toInt
      MapsLanes (.vsp2 ct hi a b g k v) s a 1 16 (rdK s k)
        (fun j => ((r j).1, (if (r j).2.1 then fSAT else 0) ||| (if (r j).2.2 then fUF else 0))))

/-- R86, R314, R315: VRED, VSCAN and VDOT take the active lanes in ascending order, one rounding per step; VRED of no active lane
is 0, and VDOT starts from the low word of g[A]. -/
def Obligations.VectorReductions : Prop :=
  ∀ (ct : Ctl) (op : AccOp) (t : VType) (a b c : VReg) (g : GReg) (k : KReg) (v : VCtl) (s : State), Issues s ct [g] → repDone s = 0 →
    v.rep = false → v.grp ≠ 3 →
    let n := 2 ^ v.grp.toNat
    let w := lanesBits t
    let rm := rmodeOf s.c.fpctl
    Groups s n [a, b, c] →
    let on := activeLanes (rdK s k) (512 * n / w)
    let wide (j : Nat) : W32 := BitVec.ofNat 32 (widen32 t (laneR s b w j))
    let step (x y : W32) : W32 := BitVec.ofNat 32 (match op with
      | .add => (fadd .f32 rm (Fmt.f32.val x.toNat) (Fmt.f32.val y.toNat)).1
      | .min => (fminmax .f32 false x.toNat y.toNat).1
      | .max => (fminmax .f32 true x.toNat y.toNat).1)
    let total (js : List Nat) : W32 := match js with | [] => 0 | j :: js => js.foldl (fun x i => step x (wide i)) (wide j)
    (∃ u, exec (.vred ct op t g b k v) s = .next u ∧ WroteG s u g ((total on).setWidth 64) ∧
      s.c.fpstat ||| u.c.fpstat = u.c.fpstat ∧ Quiet s u (nextPc s.c.pc) [g] [] [] []) ∧
    (t = .f32 → ∃ u, exec (.vscan ct op a b k v) s = .next u ∧
      (∀ j, j < 16 * n → laneV u a 32 j = if laneLost s a 32 j then laneV s a 32 j
        else if !(rdK s k).getLsbD (j % 64) then laneKept s a 32 j else (total (on.filter (· ≤ j))).toNat) ∧
      s.c.fpstat ||| u.c.fpstat = u.c.fpstat ∧ Quiet s u (nextPc s.c.pc) [] (group a n) [] []) ∧
    (∃ u, exec (.vdot ct t g b c k v) s = .next u ∧
      WroteG s u g (BitVec.ofNat 64 (on.foldl (fun x j => (fadd .f32 rm (Fmt.f32.val x)
        (mulVal ((fmtOf t).val (laneR s b w j)) ((fmtOf t).val (laneR s c w j))).1).1) ((rdG s g).toNat % 2 ^ 32))) ∧
      s.c.fpstat ||| u.c.fpstat = u.c.fpstat ∧ Quiet s u (nextPc s.c.pc) [g] [] [] [])

/-- R299–R301, R317–R319: configuring, starting, stopping and reading a stream register. SCFG sets base, element size, counts and
strides, from its operands or from a 64-byte descriptor, after stopping a configured stream; SSTART sets the position to the
first element; SSTOP drops the read-ahead; SSTAT tells the state and the elements left. Each of the first three performs the
thread's pushed stores first, and waits while a special-function result is still to be pushed. -/
def Sys2Proof.Claim.StreamRegisters : Prop :=
  ∀ (ct : Ctl) (a : VReg) (g b : GReg) (wr : Bool) (size : BitVec 2) (s : State), Issues s ct [g, b] → isStreamReg a = true →
    let stop (s : State) : State := let u := flushStreams s
      setStream u a { u.stream a with ahead := [], st := .configured }
    let free := sfuStores s = []
    (∀ count : BitVec 28, count ≠ 0 → free → exec (.scfg ct wr size a (.one b count)) s = .next (retire ct none
      (setStream (stop s) a { st := .configured, wr := wr, size := size, base := (rdG s b).setWidth 56, n := [count.toNat, 1, 1, 1]
                              stride := [BitVec.ofNat 64 (2 ^ size.toNat), 0, 0, 0], left := count.toNat }))) ∧
    (∀ ps, (rdG s b).toNat % 64 = 0 → check s s.g.toNat s.t .rd ((rdG s b).toNat % 2 ^ 56) 64 = .ok ps → free → CanRead s ps →
      inOrder s (.scfg ct wr size a (.desc b)) { ps := ps, bs := boundBytes s ps } = true →
      let d := dwordAt (readBytes s ps)
      let n := [(d 1).toNat % 2 ^ 32, (d 1).toNat / 2 ^ 32, (d 2).toNat % 2 ^ 32, (d 2).toNat / 2 ^ 32]
      let total := n.foldl (· * ·) 1
      (d 0).toNat < 2 ^ 56 → d 7 = 0 → 0 < total → total < 2 ^ 40 →
      exec (.scfg ct wr size a (.desc b)) s = .next (retire ct none (setStream (flushStreams (touchRead (readState s ps) s.g.toNat s.t 0 ps)) a
        { st := .configured, wr := wr, size := size, base := (d 0).setWidth 56, n := n, stride := [d 3, d 4, d 5, d 6], left := total }))) ∧
    ((s.stream a).st ≠ .unconfigured → free →
      exec (.sstart ct a) s = .next (retire ct none (let u := stop s
        setStream u a { u.stream a with st := .running, left := (u.stream a).n.foldl (· * ·) 1, flt := false })) ∧
      exec (.sstop ct a) s = .next (retire ct none (stop s))) ∧
    (¬ free → (∀ count : BitVec 28, count ≠ 0 → exec (.scfg ct wr size a (.one b count)) s = .next (yieldOnce ct s)) ∧
      ((s.stream a).st ≠ .unconfigured → ∀ i ∈ [Instr.sstart ct a, .sstop ct a], exec i s = .next (yieldOnce ct s))) ∧
    ((s.stream a).st = .unconfigured → Traps (.sstart ct a) s (illopnd 0) ∧ Traps (.sstop ct a) s (illopnd 0)) ∧
    (let x := s.stream a
     let bit (c : Bool) (i : Nat) : Nat := if c then 2 ^ i else 0
     Sets (.sstat ct g a) s g (if x.st = .unconfigured then 0 else BitVec.ofNat 64 (2 ^ 63 +
       bit (x.st == .running || x.st == .exhausted) 62 + bit x.wr 61 + bit (x.st == .exhausted) 60 + bit x.flt 59 +
       x.size.toNat * 2 ^ 56 + x.left)))

/-- R297, R301–R303: a stream operand. VMOV from a read stream whose next elements are read ahead puts them into its lanes and
advances the stream, the lanes beyond its end keeping their value; with REP, while elements are left beyond this group, it stays
at its PC with one repetition more; VMOV to a write stream pushes its active lanes as stores. -/
def Sys2Proof.Claim.StreamOperands : Prop :=
  ∀ (ct : Ctl) (wd : VWidth) (a b : VReg) (k : KReg) (rep : Bool) (s : State), Issues s ct [] → Groups s 1 [a] →
    let u := match wd with | .b => 8 | .h => 16 | .w => 32 | .d => 64
    let m := 512 / u
    let x := s.stream b
    streamOf s b = some x → x.st = .running → 8 * 2 ^ x.size.toNat = u → 0 < x.left →
    let n := min m x.left
    let i := Instr.vmov ct wd a b k ⟨rep, 0⟩
    let j := Instr.vmov ct wd b a k ⟨false, 0⟩
    (x.wr = false → ∀ bs : List (List Byte), bs.length = n → (∀ e ∈ bs, e.length = u / 8) →
      (∀ q, q < n → ∃ va ps, x.ahead[q]? = some (.ok va ps (bs.getD q []))) →
      ∃ t, exec i s = .next t ∧
        (∀ q, q < m → laneV t a u q = if laneLost s a u q then laneV s a u q
          else if decide (n ≤ q) || !(rdK s k).getLsbD (q % 64) then laneKept s a u q
          else ofBytes (bs.getD q [])) ∧
        t.stream b = { x with left := x.left - n, ahead := x.ahead.drop n, st := if x.left ≤ n then .exhausted else .running } ∧
        (rep = false ∨ x.left ≤ n → t.c.pc = nextPc s.c.pc) ∧
        (rep = true → n < x.left → t.c.pc = s.c.pc ∧ t.c.iss.rep.done = repDone s + 1 ∧ t.c.iss.rep.pc = s.c.pc)) ∧
    (x.wr = true → sfuPushes s b = [] → ∀ es, checkPush s x ((List.range n).filter fun q => (rdK s k).getLsbD (q % 64)) = .ok es →
      quotaTrap s 0 (es.flatMap (·.2)) = none → pushedBytes s b + n * (u / 8) ≤ 512 →
      ∃ t, exec j s = .next t ∧ t.c.pc = nextPc s.c.pc ∧
        t.stream b = { x with
          left := x.left - n, st := if x.left ≤ n then .exhausted else .running, ahead := x.ahead.drop n
          pushed := x.pushed ++ es.map fun e => (e.2, bytesOf (u / 8) (laneR s a u e.1)) })

/-- R320: a special-function instruction enters the core's queue as one request with its active lanes and becomes outstanding;
it waits while eight requests are queued. -/
def Sys2Proof.Claim.SpecialFunctions : Prop :=
  ∀ (ct : Ctl) (a b : VReg) (k : KReg) (s : State), Issues s ct [] → NoTraps s → Groups s 1 [a, b] →
    ∀ i ∈ [Instr.vexp ct a b k ⟨false, 0⟩, .vexp2 ct a b k ⟨false, 0⟩, .vlog2 ct a b k ⟨false, 0⟩, .vrcp ct a b k ⟨false, 0⟩,
      .vrsq ct a b k ⟨false, 0⟩, .vsqrt ct a b k ⟨false, 0⟩, .vsin ct a b k ⟨false, 0⟩, .vcos ct a b k ⟨false, 0⟩,
      .vtanh ct a b k ⟨false, 0⟩],
    let q := (s.core s.g.toNat).eng.sfuQ
    (8 ≤ q.length → exec i s = .next (yieldOnce ct s)) ∧
    (q.length < 8 → ∃ mask : Word, (∀ j, mask.getLsbD j = (decide (j < 16) && (rdK s k).getLsbD j)) ∧
      exec i s = .next (retire ct none (addOut i {} ct.la.toNat none (s.modCore s.g.toNat fun c => { c with eng := { c.eng with
        sfuQ := c.eng.sfuQ ++ [⟨s.g, s.k, s.nextId, true, i, a, rdV s b, mask, none⟩] } }))))

/-- R322–R326: the thread's generator. RNG takes one output, VRNG eight, RNGSAVE and RNGLOAD copy the state, RNGJUMP jumps it, and
CBRNG computes sixteen values from its operands alone. -/
def Sys2Proof.Claim.RandomNumbers : Prop :=
  ∀ (ct : Ctl) (a b c d e : GReg) (x : VReg) (k : KReg) (u : Bool) (s : State), Issues s ct [a, b, c, d, e] → streamOf s x = none →
    let lo := s.c.lo
    let hi := s.c.hi
    let y := lo ^^^ (lo <<< 23)
    let h := y ^^^ hi ^^^ (y >>> 18) ^^^ (hi >>> 5)
    let set (l h : Word) (t : State) : State := t.modC fun c => { c with lo := l, hi := h }
    exec (.rng ct a) s = .next (retire ct none (wrG (set hi h s) a (h + hi))) ∧
    (let st (n : Nat) : Word × Word := Nat.rec (lo, hi) (fun _ z => (rngStep z.1 z.2).1) n
     ∃ v, exec (.vrng ct x k) s = .next (retire ct none (wrV (set (st 8).1 (st 8).2 s) x v)) ∧
       ∀ j, j < 8 → v.extractLsb' (64 * j) 64 = if (rdK s k).getLsbD j then (rngStep (st j).1 (st j).2).2 else (curV s x).extractLsb' (64 * j) 64) ∧
    (a ≠ d → exec (.rngsave ct a d) s = .next (retire ct none (wrG (wrG s a lo) d hi))) ∧
    (rdG s b ≠ 0 ∨ rdG s c ≠ 0 → exec (.rngload ct b c) s = .next (retire ct none (set (rdG s b) (rdG s c) s))) ∧
    (rdG s b = 0 → rdG s c = 0 → Traps (.rngload ct b c) s (illopnd 1)) ∧
    exec (.rngjump ct) s = .next (retire ct none (set (rngJump (lo, hi)).1 (rngJump (lo, hi)).2 s)) ∧
    ∃ v, exec (.cbrng ct u x b c d e) s = .next (retire ct none (wrV s x v)) ∧ ∀ j, j < 16 →
      let z := cbHash (rdG s b) ((rdG s c).setWidth 32) ((rdG s d).setWidth 32) ((rdG s e).setWidth 32 + BitVec.ofNat 32 j)
      v.extractLsb' (32 * j) 32 = if u then uniform32 z else z

/-! ### System instructions (18_system_traps.md) -/

/-- R94, R418, R421–R423: trap entry. With nothing outstanding, a trap in user mode with a usable handler writes the trap
registers and enters the handler in handler mode; in handler mode, or with no usable handler, the context halts with the trap
registers describing the trap. Registers, memory and other contexts are as before. While an outstanding instruction goes on,
the trap waits; once all have trapped, the earliest is delivered and all of them are withdrawn. -/
def Obligations.TrapEntry : Prop :=
  ∀ (s : State) (tr : Trap), Thread s → CanTrap s →
    let u := trapAt s tr
    (s.c.iss.outs = [] → HandlerReady s → Enters s u tr s.c.pc) ∧
    (s.c.iss.outs = [] → ¬ HandlerReady s →
      u.c.halted = true ∧ u.c.regs = s.c.regs ∧ u.c.pc = s.c.pc ∧
      u.c.trap = { s.c.trap with code := tr.code, detail := tr.detail, tepc := s.c.pc, tres := s.c.pc, tval := tr.val } ∧
      KeptOthers s u ∧ KeptMemory s u) ∧
    ((∃ o ∈ s.c.iss.outs, o.trap = none) →
      u.c = { s.c with iss := { s.c.iss with entry := some ⟨tr, s.c.pc, s.c.pc⟩, port := {}, wait := none, stage := 0, src := none, pair := none, upon := none } } ∧
      KeptOthers s u ∧ KeptMemory s u) ∧
    (∀ o os e, s.c.iss.outs = o :: os → (∀ x ∈ o :: os, x.trap ≠ none) → o.trap = some e → HandlerReady s →
      u.c.pc = s.c.trap.tvec ∧ u.c.withdrawn = (o :: os) ++ s.c.withdrawn ∧ u.c.iss.outs = [] ∧ u.c.regs = s.c.regs ∧
      u.c.trap = { s.c.trap with mode := true, code := e.code, detail := e.detail, tepc := o.pc, tres := s.c.pc, tval := e.val } ∧
      KeptOthers s u ∧ KeptMemory s u)

/-- R426, R427, R429, R417: TRAP, SYSC and BKPT enter the handler with their codes, their immediates in TVAL and TRES at the
next code address. RETT returns to TRES in user mode, and with a TRES that is no instruction takes BADTARGET. HALT halts the
context with code 0 once nothing is outstanding, and counts it in HALTLOG. -/
def Sys2Proof.Claim.TrapInstructions : Prop :=
  ∀ (ct : Ctl) (s : State), Issues s ct [] →
    (CanTrap s → s.c.iss.outs = [] → HandlerReady s →
      (∀ imm, ∃ t, exec (.trap ct imm) s = .next t ∧ Enters s t ⟨0x16, 0, imm.setWidth 64⟩ (nextPc s.c.pc)) ∧
      (∀ imm, ∃ t, exec (.sysc ct imm) s = .next t ∧ Enters s t ⟨0x14, 0, imm.setWidth 64⟩ (nextPc s.c.pc)) ∧
      (∀ imm, ∃ t, exec (.bkpt ct imm) s = .next t ∧ Enters s t ⟨0x15, 0, imm.setWidth 64⟩ (nextPc s.c.pc))) ∧
    (s.c.trap.mode = true → s.c.trap.tres.toNat % 64 < 5 → s.c.withdrawn = [] → s.c.cancelled = [] → s.c.again = [] →
      exec (.rett ct) s = .next ((retire ct (some s.c.trap.tres) s).modC fun c => { c with
        trap := { c.trap with mode := false }, iss := { c.iss with rep := c.savedRep }, savedRep := {}, replay := false })) ∧
    (s.c.trap.mode = true → 5 ≤ s.c.trap.tres.toNat % 64 →
      Traps (.rett ct) s ⟨0x03, 0, s.c.trap.tres.setWidth 64⟩) ∧
    (s.c.iss.outs = [] → ∃ t, exec (.halt ct) s = .next t ∧
      t.c = { s.c with halted := true, iss := { s.c.iss with wait := none, entry := none } } ∧ KeptOthers s t ∧ KeptMemory s t ∧
      (let old := (s.cfgAt (tenReg s.c.tenant 0x28)).toNat
       let v := t.cfgAt (tenReg s.c.tenant 0x28)
       v.toNat / 2 ^ 48 = min (old / 2 ^ 48 + 1) 0xFFFF ∧ v.toNat / 2 ^ 32 % 256 = 0 ∧ v.toNat / 2 ^ 16 % 4096 = s.g.toNat ∧
         v.toNat % 16 = s.k.toNat)) ∧
    (s.c.iss.outs ≠ [] → exec (.halt ct) s = .next (yieldOnce ct s))

/-- R417, R424: in user mode the privileged instructions take PROT with DETAIL bit 2 and TVAL 0, before any condition of their own,
that of a queue port included. -/
def Sys2Proof.Claim.Privilege : Prop :=
  ∀ (ct : Ctl) (a : GReg) (p : PReg) (s : State), Issues s ct [] → s.c.trap.mode = false →
    (∀ i ∈ [Instr.rett ct, .ctxsave ct p a, .ctxload ct a], Traps i s ⟨0x06, 0x04, 0⟩) ∧
    (∀ n : BitVec 12, 0x030 ≤ n.toNat → n.toNat ≤ 0x037 → Traps (.wrsr ct a n) s ⟨0x06, 0x04, 0⟩) ∧
    (∀ n : BitVec 12, n = 0x036 ∨ n = 0x037 → Traps (.rdsr ct a n) s ⟨0x06, 0x04, 0⟩)

/-- R424, R428: RDSR reads each special register; the handler's scratch registers in handler mode only. -/
def Sys2Proof.Claim.SpecialRegisterReads : Prop :=
  ∀ (ct : Ctl) (a : GReg) (s : State), Issues s ct [a] →
    let r := (s.core s.g.toNat).regs
    let ras := s.c.ras
    let tl := s.c.trap
    let counter (i : Nat) : Word := (tget {} r.pmc i).count
    (∀ n v, (n, v) ∈ ([(0x000, s.part.caps), (0x001, s.c.tid.setWidth 64), (0x002, s.g.setWidth 64), (0x003, s.b.lcore.setWidth 64),
        (0x004, BitVec.ofNat 64 (s.g.toNat / 512)), (0x005, s.t.setWidth 64), (0x006, BitVec.ofNat 64 s.cycle),
        (0x007, if tl.mode then 1 else 0), (0x008, s.c.task.x.setWidth 64), (0x009, s.c.task.y.setWidth 64),
        (0x00A, s.c.task.z.setWidth 64), (0x010, s.c.fpctl.setWidth 64), (0x011, s.c.fpstat.setWidth 64),
        (0x012, BitVec.ofNat 64 (ras.base.toNat * 2 ^ 12 + ras.sz.toNat)),
        (0x013, BitVec.ofNat 64 (ras.stored * 2 ^ 48 + ras.spilled.toNat * 2 ^ 32 + ras.head.toNat * 2 ^ 16 + ras.depth.toNat)),
        (0x014, s.c.task.jctr.setWidth 64), (0x020, (if s.b.fuse then 2 else 0) + if s.b.qp then 1 else 0), (0x021, s.b.qpto.setWidth 64),
        (0x022, s.b.parkt.setWidth 64), (0x023, r.phlim.setWidth 64),
        (0x024, BitVec.ofNat 64 (min (s.core s.g.toNat).ph.l2.length 16384 * 2 ^ 32 + phaseAge s s.g.toNat)), (0x025, r.twto.setWidth 64),
        (0x026, r.mq.mmode.setWidth 64), (0x027, s.b.qpbind), (0x030, tl.tvec.setWidth 64),
        (0x031, BitVec.ofNat 64 ((if s.c.withdrawn = [] then 0 else 2 ^ 16) + tl.detail.toNat * 2 ^ 8 + tl.code.toNat)),
        (0x032, tl.tepc.setWidth 64), (0x033, tl.tres.setWidth 64), (0x034, tl.tval), (0x035, tl.ctxptr), (0x040, counter 0), (0x041, counter 1),
        (0x042, counter 2), (0x043, counter 3)] : List (BitVec 12 × Word)) → Sets (.rdsr ct a n) s a v) ∧
    (tl.mode = true → Sets (.rdsr ct a 0x036) s a tl.tscr0 ∧ Sets (.rdsr ct a 0x037) s a tl.tscr1)

/-- R74, R106, R108, R424, R428: WRSR writes each writable special register, and nothing to the others; the trap registers are written in handler
mode. FPSTAT takes the flags of the cc besides; a changed STORED leaves the entries below it. Writing TCAUSE.REX := 0 empties the withdrawn list. -/
def Sys2Proof.Claim.SpecialRegisterWrites : Prop :=
  ∀ (ct : Ctl) (b : GReg) (s : State), Issues s ct [b] →
    let v := rdG s b
    let core (f : CoreRegs → CoreRegs) : State := s.modCore s.g.toNat fun c => { c with regs := f c.regs }
    let count (i : Nat) : State := core fun r => { r with pmc := tput r.pmc i { tget {} r.pmc i with count := v } }
    let tr (f : TrapRegs → TrapRegs) : State := s.modC fun c => { c with trap := f c.trap }
    (∀ n u, (n, u) ∈ ([(0x010, s.modC fun c => { c with fpctl := v.setWidth 2 }), (0x011, s.modC fun c => { c with fpstat := v.setWidth 6 ||| if c.fpNow.1 = s.cycle then c.fpNow.2 else 0 }),
        (0x012, s.modC fun c => { c with ras := { c.ras with base := v.extractLsb' 12 44, sz := v.extractLsb' 0 4 } }),
        (0x021, s.modB fun b => { b with qpto := v.setWidth 32 }), (0x022, s.modB fun b => { b with parkt := v.setWidth 32 }),
        (0x023, core fun r => { r with phlim := v.setWidth 32 }), (0x025, core fun r => { r with twto := v.setWidth 32 }),
        (0x027, s.modB fun b => { b with qpbind := v }), (0x040, count 0), (0x041, count 1), (0x042, count 2), (0x043, count 3)] :
        List (BitVec 12 × State)) → exec (.wrsr ct b n) s = .next (retire ct none u)) ∧
    (∀ n ∈ ([0x000, 0x001, 0x002, 0x003, 0x004, 0x005, 0x006, 0x007, 0x008, 0x009, 0x00A, 0x014, 0x020, 0x024, 0x026] : List (BitVec 12)),
      exec (.wrsr ct b n) s = .next (retire ct none s)) ∧
    (∃ t, exec (.wrsr ct b 0x013) s = .next t ∧ t.c.pc = nextPc s.c.pc ∧ t.c.ras.depth = v.extractLsb' 0 16 ∧
      t.c.ras.head = v.extractLsb' 16 16 ∧ t.c.ras.spilled = v.extractLsb' 32 16 ∧ t.c.ras.stored = min (v.toNat / 2 ^ 48 % 16) 8 ∧
      (∀ i, i < t.c.ras.stored → t.c.ras.entry i = s.c.ras.entry i) ∧ (t.c.ras.stored = s.c.ras.stored → t.c.ras.entries = s.c.ras.entries)) ∧
    (s.c.trap.mode = true →
      (∀ n u, (n, u) ∈ ([(0x030, tr fun r => { r with tvec := v.setWidth 56 }), (0x032, tr fun r => { r with tepc := v.setWidth 56 }),
          (0x033, tr fun r => { r with tres := v.setWidth 56 }), (0x034, tr fun r => { r with tval := v }),
          (0x035, tr fun r => { r with ctxptr := v }), (0x036, tr fun r => { r with tscr0 := v }), (0x037, tr fun r => { r with tscr1 := v }),
          (0x031, s.modC fun c => { c with
            trap := { c.trap with code := v.extractLsb' 0 8, detail := v.extractLsb' 8 8 }
            withdrawn := if v.getLsbD 16 then c.withdrawn else [] })] : List (BitVec 12 × State)) →
        exec (.wrsr ct b n) s = .next (retire ct none u)))

/-- R436, R437, R443, R444: TLBINV releases, then sends one invalidation of the range, every address for length 0; TLBSYNC waits
until all that the context has sent are done; HIRQ releases, then writes the data and the pending bit and raises the vector;
PERF sets a counter's event. -/
def Obligations.MaintenanceInstructions : Prop :=
  ∀ (ct : Ctl) (b c : GReg) (s : State), Issues s ct [b, c] →
    (∀ sc, CanRelease s .module →
      let u := released s .module
      let n := (rdG s c).toNat
      ((rdG s b).toNat + n ≤ 2 ^ 56 → exec (.tlbinv ct sc b c) s = .next (retire ct none { u with fl := { u.fl with invs := u.fl.invs ++
        [{ g := u.g, tid := u.c.tid, tenant := u.t, scope := sc, lo := if n = 0 then 0 else (rdG s b).toNat
           len := if n = 0 then 2 ^ 56 else n }] } })) ∧
      (2 ^ 56 < (rdG s b).toNat + n → Traps (.tlbinv ct sc b c) s (illopnd 2))) ∧
    (let mine (i : TlbInv) : Bool := i.tid == s.c.tid && i.tenant == s.t
     let done := ∀ i ∈ s.fl.invs, mine i = true → i.delivered = true ∧ pushedIn s i = false ∧
       ∀ e ∈ allOuts s, e.2.2.id ∉ i.waits
     (done → exec (.tlbsync ct) s = .next (retire ct none { s with fl := { s.fl with invs := s.fl.invs.filter fun i => !mine i } })) ∧
     (¬ done → exec (.tlbsync ct) s = .next (yieldOnce ct s))) ∧
    (∀ n, CanRelease s .system →
      let u := released s .system
      let pend := tenReg u.t 0x30
      let v := u.setCfg (tenReg u.t (0x40 + 8 * n.toNat)) (rdG s b)
      exec (.hirq ct b n) s = .next (retire ct none ((v.setCfg pend (u.cfgAt pend ||| (1 : Word) <<< n.toNat)).raise u.t.toNat (2 + n.toNat)))) ∧
    (∀ n : BitVec 2,
      let v := (rdG s b).toNat
      let listed := v ≤ 9 ∨ (0x40 ≤ v ∧ v ≤ 0x49) ∨ (0x50 ≤ v ∧ v ≤ 0x57) ∨ (0x60 ≤ v ∧ v ≤ 0x63) ∨ (0x70 ≤ v ∧ v ≤ 0x75)
      (listed → exec (.perf ct b n) s = .next (retire ct none (s.modCore s.g.toNat fun c => { c with regs := { c.regs with
        pmc := tput c.regs.pmc n.toNat { tget {} c.regs.pmc n.toNat with event := (rdG s b).setWidth 16 } } }))) ∧
      (¬ listed → Traps (.perf ct b n) s (illopnd 1)))

/-- R430: the layout of a saved context, dword by dword; its registers are read back as they were. -/
def Obligations.SavedLayout : Prop :=
  ∀ (n : Nat) (c : Ctx),
    let bs := recordImage n c
    let d (a : Nat) : Word := dwordAt bs (a / 8)
    let t := c.trap
    bs.length = 4096 ∧
    (∀ a v, (a, v) ∈ [(0x008, c.pc.setWidth 64), (0x010, t.tepc.setWidth 64), (0x018, t.tres.setWidth 64), (0x028, t.tval),
      (0x030, t.tvec.setWidth 64), (0x038, t.ctxptr), (0x040, t.tscr0), (0x048, t.tscr1),
      (0x050, BitVec.ofNat 64 (c.fpstat.toNat * 2 ^ 8 + c.fpctl.toNat)), (0x070, c.task.jctr.setWidth 64), (0x078, c.lo), (0x080, c.hi),
      (0x088, BitVec.ofNat 64 (c.task.z.toNat * 2 ^ 32 + c.task.y.toNat * 2 ^ 16 + c.task.x.toNat))] → d a = v) ∧
    (d 0x000).toNat / 2 ^ 56 = 1 ∧ (d 0x000).toNat / 2 ^ 48 % 16 = c.tenant.toNat ∧ (d 0x000).toNat / 2 ^ 32 % 2 ^ 16 = c.task.lid % 2 ^ 16 ∧
    (d 0x000).toNat % 16 = c.task.pri.toNat * 4 + (if c.halted then 2 else 0) + (if t.mode then 1 else 0) ∧
    (d 0x020).toNat = (if c.withdrawn = [] then 0 else 2 ^ 16) + t.detail.toNat * 2 ^ 8 + t.code.toNat ∧
    (∀ p, 1 ≤ p → p < 8 → (d 0x058).getLsbD p = c.regs.p.getLsbD p) ∧
    (∀ r, 1 ≤ r → r < 64 → d (0x100 + 8 * r) = tget 0 c.regs.g r) ∧ (∀ k, 1 ≤ k → k < 8 → d (0x300 + 8 * k) = tget 0 c.regs.k k) ∧
    (∀ i, i < 8 → d (0x340 + 8 * i) = (c.ras.entry i).setWidth 64) ∧
    (∀ v i, v < 32 → i < 8 → d (0x480 + 64 * v + 8 * i) = (tget 0 c.regs.v v).extractLsb' (64 * i) 64) ∧
    (let r := loadRegs bs
     (∀ i, 1 ≤ i → i < 64 → tget 0 r.g i = tget 0 c.regs.g i) ∧ (∀ i, 1 ≤ i → i < 8 → tget 0 r.k i = tget 0 c.regs.k i) ∧
     (∀ i, i < 32 → tget 0 r.v i = tget 0 c.regs.v i) ∧ (∀ i, 1 ≤ i → i < 8 → r.p.getLsbD i = c.regs.p.getLsbD i) ∧ loadTrap bs = c.trap)

/-- R202, R321, R431, R432, R453: CTXSAVE in handler mode writes the record at the next code address with p[A] false in it, with the
updates that are not applied yet, which leave the context, and then sets p[A]; CTXLOAD takes the record that it reads at the home and goes on at its PC, and refuses a record of another version or tenant.
LLRCL writes 128 zero bytes, clears the line's loss and its accumulator header. -/
def Obligations.SavingContexts : Prop :=
  ∀ (ct : Ctl) (p : PReg) (b : GReg) (m : AddrOp) (s : State), Issues s ct [b, m.index] →
    let va := (rdG s b).toNat
    (s.c.trap.mode = true → va % 4096 = 0 →
      (∀ ps, check s s.g.toNat s.t .wr (va % 2 ^ 56) 4096 = .ok ps → spadDenied s .wr ps = none →
        (∀ o ∈ s.c.iss.outs, isSfu o.i = true ∨ isUpdate o.i = true) →
        leesRoom s (ps.flatMap fun q => (pieceLines q).map fun l => (l * 128, 0)) = true →
        let u := recallSfu (flushStreams s) s.g s.k
        let v := saveRecord u (.core u.g) ps { u.c with
          pc := nextPc u.c.pc, regs := { u.c.regs with p := u.c.regs.p &&& ~~~((1 : BitVec 8) <<< p.toNat) }, iss := {}, again := []
          withdrawn := u.c.withdrawn ++ u.c.iss.outs.filter fun o => isUpdate o.i
          cancelled := u.c.cancelled ++ u.c.again, cancelOuts := u.c.cancelOuts ++ u.c.iss.outs.filter fun o => isSfu o.i
          streams := u.c.streams.map fun e => (e.1, { e.2 with ahead := [], pushed := [] }) }
        let w := v.modC fun c => { c with iss := { c.iss with outs := c.iss.outs.filter fun o => !isUpdate o.i } }
        exec (.ctxsave ct p b) s = .next (retire ct none (wrP (dropUnpub w w.g.toNat (ps.flatMap pieceAddrs)) p true))) ∧
      (∀ ps, check s s.g.toNat s.t .rd (va % 2 ^ 56) 4096 = .ok ps → s.c.iss.outs = [] → spadDenied s .rd ps = none → lostIn s ps = none →
        let u := recallLines (flushStreams s) ps
        let bs := homeBytes u u.t ps
        let d (a : Nat) : Word := dwordAt bs (a / 8)
        let o := (findOpaque (recordFree bs) u.opaques).getD {}
        (recordOk u.t bs = false → Traps (.ctxload ct b) s (illopnd 1)) ∧
        (recordOk u.t bs = true → (d 0).getLsbD 1 = false → (d 0x008).toNat < 2 ^ 56 → (d 0x008).toNat % 64 < 5 → s.c.halted = false →
          (d 0x020).getLsbD 16 = false → o.cancelled = [] → o.again = [] →
          (∀ x ∈ o.iss.outs, isUpdate x.i = false ∧ x.wait = none) →
          ∃ t, exec (.ctxload ct b) s = .next t ∧ t.c.pc = (d 0x008).setWidth 56 ∧ t.c.regs = loadRegs bs ∧ t.c.trap = loadTrap bs ∧
            t.c.fpctl = (d 0x050).setWidth 2 ∧ t.c.fpstat = (d 0x050).extractLsb' 8 6 ∧ t.c.lo = d 0x078 ∧ t.c.hi = d 0x080 ∧
            t.c.task.jctr = (d 0x070).setWidth 56 ∧ t.c.tid = s.c.tid ∧ t.c.task.lid = s.c.task.lid ∧
            t.c.iss.wait = (o.iss.wait.map fun w => { w with deadline := (d 0x090).toNat, woken := true, reg := u.nextId }) ∧ OthersRead s t))) ∧
    (let a := (rdG s b + ((rdG s m.index <<< m.shift.toNat) + m.off.signExtend 64)).toNat % 2 ^ 56
     a % 128 = 0 → ∀ ps, check s s.g.toNat s.t .wr a 128 = .ok ps → noHost s .wr ps = none → NoTraps s →
     let q := ps.headD ⟨0, 0, 0, 0⟩
     let src : Src := { ps := ps }
     (InTurn (.llrcl ct b m) ct s src → (∀ x ∈ ps, isRemote s x = false) → spadDenied s .wr ps = none → isSpadPlace s q.pa = true →
       exec (.llrcl ct b m) s = .next (retire ct none (s.poke (cellsAt q.pa (bytesOf 128 0))))) ∧
     (InTurn (.llrcl ct b m) ct s src → isSpadPlace s q.pa = false → (∀ x ∈ ps, isRemote s x = false) → spadDenied s .wr ps = none → linesRoom s ps = true →
       ∃ t, exec (.llrcl ct b m) s = .next t ∧ t.c.pc = nextPc s.c.pc ∧ Kept s t [] [] [] [] ∧
         tget 0 t.coh.hdr (lineOf q.pa) = 0 ∧ lineLost t q.pa = false) ∧
     (¬ InTurn (.llrcl ct b m) ct s src → exec (.llrcl ct b m) s =
       .next (retire ct none (addOut (.llrcl ct b m) src ct.la.toNat none s))))

/-! ### Loader and storer cores (06_memory_access.md) -/

/-- R148–R151: TFILL and TFILL2 in the loader, TDRAIN in the storer. A field out of range returns status 3, a tile undefined or in
the wrong state status 2; else the command is pushed, PEND rises, a fill makes the tile FILLING and clears FAULT, and status 0 is
returned. In the other core each is an illegal instruction. The table takes one change a cc (R140): the request reaches it in the
next cc where an entry has changed in this one. -/
def Sys2Proof.Claim.TileCommands : Prop :=
  ∀ (rd a b : BitVec 5) (g : GCore) (r : Role) (o : State), o.who = .scalar g r →
    let s := advanceTo o (o.core g.toNat).tileFrom
    let x := s.scalar g.toNat r
    let v := x.rx b
    let t : TReg := v.setWidth 5
    let e := s.tile g.toNat t
    let off := v.toNat / 2 ^ 16 % 2 ^ 10
    let n := v.toNat / 2 ^ 32 % 2 ^ 11
    let fields := v.toNat < 2 ^ 43 ∧ v.toNat / 2 ^ 26 % 2 ^ 6 = 0 ∧ v.toNat / 2 ^ 5 % 2 ^ 11 = 0 ∧ 1 ≤ n ∧ n ≤ 1024 ∧ off + n ≤ e.size.toNat
    let push (t : TReg) (e : Tile) (j : FillJob) : State := (s.setTile g.toNat t e).modCore g.toNat fun c =>
      { c with eng := { c.eng with fills := c.eng.fills ++ [j] } }
    (∀ i role, (i, role) ∈ [(Instr.tfill rd a b, Role.loader), (.tdrain rd a b, .storer), (.tfill2 rd a, .loader)] → role ≠ r →
      Excepts i o g r 2) ∧
    (∀ i role drain, (i, role, drain) ∈ [(Instr.tfill rd a b, Role.loader, false), (.tdrain rd a b, .storer, true)] → role = r →
      let ready := e.dfn = true ∧ (if drain then e.state = 3 else e.state = 0 ∨ e.state = 1)
      (¬ fields → Returns i o s g r rd 3) ∧
      (fields → ¬ ready → Returns i o s g r rd 2) ∧
      (fields → ready → Returns i o (push t { e with
        state := if drain then 3 else 1, fault := e.fault && drain, pend := e.pend + 1 } ⟨drain, t, x.rx a, 128, off * 128, 128, n, 128, false⟩) g r rd 0)) ∧
    (r = .loader →
      let at' := (x.rx a).toNat
      let d (i : Nat) : Word := dwordAt (s.memBytes (dataBase g r + at') 32) i
      let w := (d 2).toNat
      let t : TReg := (d 2).extractLsb' 32 5
      let e := s.tile g.toNat t
      let off := w / 2 ^ 48 % 2 ^ 10 * 128
      let rows := w / 2 ^ 16 % 2 ^ 16
      let rowb := w % 2 ^ 13
      let pitch := (d 3).toNat
      let fields := w < 2 ^ 58 ∧ w / 2 ^ 37 % 2 ^ 11 = 0 ∧ w / 2 ^ 13 % 2 ^ 3 = 0 ∧ pitch < 2 ^ 17 ∧ 1 ≤ rows ∧ rows ≤ 1024 ∧ 1 ≤ rowb ∧
        rowb ≤ 4096 ∧ pitch % 8 = 0 ∧ rowb ≤ pitch ∧ off + (rows - 1) * pitch + rowb ≤ e.size.toNat * 128
      let ready := e.dfn = true ∧ (e.state = 0 ∨ e.state = 1)
      (at' % 8 ≠ 0 → Returns (.tfill2 rd a) o s g r rd 3) ∧
      (at' % 8 = 0 → at' + 32 ≤ 0x2000 → ¬ fields → Returns (.tfill2 rd a) o s g r rd 3) ∧
      (at' % 8 = 0 → at' + 32 ≤ 0x2000 → fields → ¬ ready → Returns (.tfill2 rd a) o s g r rd 2) ∧
      (at' % 8 = 0 → at' + 32 ≤ 0x2000 → fields → ready → Returns (.tfill2 rd a) o (push t { e with
        state := 1, fault := false, pend := e.pend + 1 } ⟨false, t, d 0, d 1, off, pitch, rows, rowb, false⟩) g r rd 0))

/-- R152, R153: the tile waits and TCFG. A wait whose condition holds ends with status 0, TREADY and TEMPTY changing the state or,
with FAULT set, returning status 4; with a timeout of 0 it returns 1; else it keeps its place and takes a deadline, and at the
deadline SCALAR_WAIT_TIMEOUT makes it return 1. TCFG reads the entry, the role, the failed address, or returns a tile to EMPTY. -/
def Sys2Proof.Claim.TileWaits : Prop :=
  ∀ (rd a b : BitVec 5) (g : GCore) (r : Role) (o : State), o.who = .scalar g r →
    let s := advanceTo o (o.core g.toNat).tileFrom
    let x := s.scalar g.toNat r
    let v := x.rx a
    let t : TReg := v.setWidth 5
    let e := s.tile g.toNat t
    let n := (x.rx b).toNat
    (∀ i role must met last, (i, role, must, met, last) ∈ ([
        (.tready rd a b, .loader, e.state = 1, e.pend = 0, some 2), (.tempty rd a b, .storer, e.state = 3, e.pend = 0, some 0),
        (.twaite rd a b, .loader, True, e.state = 0, none), (.twaitd rd a b, .storer, True, e.state = 3, none)] :
        List (Instr × Role × Prop × Prop × Option (BitVec 2))) →
      (role ≠ r → Excepts i o g r 2) ∧
      (role = r →
        (2 ^ 5 ≤ v.toNat → Returns i o s g r rd 3) ∧
        (v.toNat < 2 ^ 5 → ¬ (e.dfn = true ∧ must) → Returns i o s g r rd 2) ∧
        (v.toNat < 2 ^ 5 → e.dfn = true → must → met →
          Returns i o (match last with | some q => if e.fault then s else s.setTile g.toNat t { e with state := q } | none => s) g r rd
            (match last with | some _ => if e.fault then 4 else 0 | none => 0)) ∧
        (v.toNat < 2 ^ 5 → e.dfn = true → must → ¬ met →
          (x.deadline = none → n = 0 → Returns i o s g r rd 1) ∧
          (x.deadline = none → n ≠ 0 →
            exec i o = .next (s.modScalar g.toNat r fun x => { x with deadline := some (s.cycle + n) })) ∧
          (∀ d, x.deadline = some d → s.cycle < d → exec i o = .next s) ∧
          (∀ d, x.deadline = some d → d ≤ s.cycle → Returns i o s g r rd 1) ∧
          (∀ d w, x.deadline = some d → x.running = true → scalarFetch x = some w → decodeRv w = i → s.cycle ≤ d →
            let y : State := { advance s (d - s.cycle) with who := .scalar g r }
            exec (.scalarWaitTimeout g r) s = exec i y ∧ Returns i y (advanceTo y (y.core g.toNat).tileFrom) g r rd 1)))) ∧
    Returns (.tcfgReadEntry rd a) o s g r rd (e.state ++ BitVec.ofBool e.dfn ++ BitVec.ofBool e.fault ++ (0 : BitVec 18) ++ e.base ++
      (0 : BitVec 5) ++ e.size ++ e.pend) ∧
    Returns (.tcfgRole rd a) o s g r rd (BitVec.ofNat 64 ((if r = .storer then 1 else 0) + g.toNat * 2 ^ 16)) ∧
    Returns (.tcfgFailedAddress rd a) o s g r rd e.failed ∧
    (let mine := e.state = (if r = .loader then 1 else 3) ∧ e.pend = 0
     (mine → Returns (.tcfgReturnEmpty rd a) o (s.setTile g.toNat t { e with state := 0 }) g r rd 0) ∧
     (¬ mine → Returns (.tcfgReturnEmpty rd a) o s g r rd 2))

/-- R140, R150, R151, R154: FILL_DRAIN_COMPLETE. Its command leaves the engine and PEND falls by one. A fill of one row whose read
goes through puts the bytes at its place in the tile. A command whose tile's state has changed, or whose tile has been defined
anew, sets FAULT and moves nothing; of a new definition it lowers no PEND. -/
def Obligations.FillsAndDrains : Prop :=
  ∀ (g : GCore) (n : Nat) (j : FillJob) (o : State),
    let s := advanceTo o (o.core g.toNat).tileFrom
    (s.core g.toNat).eng.fills[n]? = some j →
    let t := (s.core g.toNat).tenant.getD 0
    let e := s.tile g.toNat j.tile
    (j.drain = true → leesRoom s (drainCells s g.toNat t j) = true) →
    (∃ u, exec (.fillDrainComplete g n) o = .next u ∧ (u.core g.toNat).eng.fills = dropAt (s.core g.toNat).eng.fills n ∧
      (u.tile g.toNat j.tile).pend = (if j.stale then e.pend else e.pend - 1) ∧ (e.fault = true → (u.tile g.toNat j.tile).fault = true)) ∧
    (∀ ps bs v, j.drain = false → j.stale = false → e.state = 1 → j.rows = 1 → check s g.toNat t .rd (va56 j.mem) j.rowb = .ok ps →
      lostIn s ps = none → engRead s g.toNat t j.mem j.rowb = .ok (bs, v) →
      ∃ u, exec (.fillDrainComplete g n) o = .next u ∧ (u.tile g.toNat j.tile).fault = e.fault ∧
        ∀ i, i < bs.length → u.memAt (0x3000000000000 + g.toNat * 2 ^ 17 + e.base.toNat * 128 + j.off + i) = bs.getD i 0) ∧
    (j.stale = true ∨ e.state ≠ (if j.drain then 3 else 1) → ∃ u, exec (.fillDrainComplete g n) o = .next u ∧
      (u.tile g.toNat j.tile).fault = true ∧ (u.tile g.toNat j.tile).failed = j.mem ∧ ∀ a, u.memAt a = s.memAt a)

/-- R147: the loader and storer cores execute RV64IM of RISC-V: two-operand operations, branches and jumps, loads and stores of the
data memory, machine-mode exceptions and their return. -/
def Obligations.ScalarInstructions : Prop :=
  ∀ (rd p q : BitVec 5) (imm : Word) (len : BitVec 3) (g : GCore) (r : Role) (s : State), s.who = .scalar g r →
    let x := s.scalar g.toNat r
    let a := x.rx p
    let b := x.rx q
    let w (v : BitVec 32) : Word := v.signExtend 64
    let al : BitVec 32 := a.setWidth 32
    let bl : BitVec 32 := b.setWidth 32
    let seq := x.pc + len.setWidth 64
    let rv (o : RvOp) : Instr := .rv64imcInstruction ⟨o, len⟩
    let base := dataBase g r
    (∀ o v, (o, v) ∈ ([(.add, a + b), (.sub, a - b), (.and, a &&& b), (.or, a ||| b), (.xor, a ^^^ b),
        (.sll, BitVec.ofNat 64 (a.toNat * 2 ^ (b.toNat % 64))), (.srl, BitVec.ofNat 64 (a.toNat / 2 ^ (b.toNat % 64))),
        (.sra, BitVec.ofInt 64 (a.toInt / (2 ^ (b.toNat % 64) : Nat))), (.slt, if a.toInt < b.toInt then 1 else 0),
        (.sltu, if a.toNat < b.toNat then 1 else 0), (.mul, a * b), (.mulh, BitVec.ofInt 64 (a.toInt * b.toInt / 2 ^ 64)),
        (.mulhsu, BitVec.ofInt 64 (a.toInt * b.toNat / 2 ^ 64)), (.mulhu, BitVec.ofNat 64 (a.toNat * b.toNat / 2 ^ 64)),
        (.div, if b = 0 then -1 else BitVec.ofInt 64 (a.toInt.tdiv b.toInt)), (.divu, if b = 0 then -1 else BitVec.ofNat 64 (a.toNat / b.toNat)),
        (.rem, if b = 0 then a else BitVec.ofInt 64 (a.toInt.tmod b.toInt)), (.remu, if b = 0 then a else BitVec.ofNat 64 (a.toNat % b.toNat)),
        (.addw, w (al + bl)), (.subw, w (al - bl)), (.mulw, w (al * bl)), (.sllw, w (BitVec.ofNat 32 (al.toNat * 2 ^ (b.toNat % 32)))),
        (.srlw, w (BitVec.ofNat 32 (al.toNat / 2 ^ (b.toNat % 32)))), (.sraw, w (BitVec.ofInt 32 (al.toInt / (2 ^ (b.toNat % 32) : Nat)))),
        (.divw, if bl = 0 then -1 else w (BitVec.ofInt 32 (al.toInt.tdiv bl.toInt))),
        (.divuw, if bl = 0 then -1 else w (BitVec.ofNat 32 (al.toNat / bl.toNat))),
        (.remw, if bl = 0 then w al else w (BitVec.ofInt 32 (al.toInt.tmod bl.toInt))),
        (.remuw, if bl = 0 then w al else w (BitVec.ofNat 32 (al.toNat % bl.toNat)))] : List (RvAlu × Word)) →
      Goes (rv (.alu o rd p q)) s s g r seq rd v) ∧
    Goes (rv (.lui rd imm)) s s g r seq rd imm ∧ Goes (rv (.auipc rd imm)) s s g r seq rd (x.pc + imm) ∧
    Goes (rv (.jal rd imm)) s s g r (x.pc + imm) rd seq ∧ Goes (rv (.jalr rd p imm)) s s g r ((a + imm) &&& ~~~1) rd seq ∧
    Goes (rv (.alui .add rd p imm)) s s g r seq rd (a + imm) ∧ Goes (rv .fence) s s g r seq 0 0 ∧
    (∀ c (y : Prop) [Decidable y], (c, y) ∈ ([(.beq, a = b), (.bne, a ≠ b), (.blt, a.toInt < b.toInt), (.bge, b.toInt ≤ a.toInt), (.bltu, a.toNat < b.toNat),
        (.bgeu, b.toNat ≤ a.toNat)] : List (RvBr × Prop)) →
      Goes (rv (.branch c p q imm)) s s g r (if y then x.pc + imm else seq) 0 0) ∧
    (∀ m n z, (m, n, z) ∈ ([(.b, 1, some 8), (.h, 2, some 16), (.w, 4, some 32), (.d, 8, none), (.bu, 1, none), (.hu, 2, none), (.wu, 4, none)] :
        List (RvMem × Nat × Option Nat)) →
      ((a + imm).toNat + n ≤ 0x2000 →
        (let v := ofBytes (s.memBytes (base + (a + imm).toNat) n)
         Goes (rv (.load m rd p imm)) s s g r seq rd (match z with | some k => BitVec.ofInt 64 (BitVec.ofNat k v).toInt | none => BitVec.ofNat 64 v)) ∧
        Goes (rv (.store m p q imm)) s (s.poke (cellsOf (base + (a + imm).toNat) n b.toNat)) g r seq 0 0) ∧
      (0x2000 < (a + imm).toNat + n → Excepts (rv (.load m rd p imm)) s g r 5 ∧ Excepts (rv (.store m p q imm)) s g r 7)) ∧
    Excepts (rv .ecall) s g r 11 ∧ Excepts (rv .ebreak) s g r 3 ∧ (∀ z, len ≠ 0 → Excepts (rv (.illegal z)) s g r 2) ∧
    (∀ z, Excepts (.rv64imcInstruction ⟨.illegal z, 0⟩) s g r 1) ∧
    (∃ u, exec (rv .mret) s = .next u ∧ (u.scalar g.toNat r).pc = x.csrAt 0x341 ∧
      ((u.scalar g.toNat r).csrAt 0x300).getLsbD 3 = (x.csrAt 0x300).getLsbD 7 ∧ ((u.scalar g.toNat r).csrAt 0x300).getLsbD 7 = true) ∧
    exec (rv .wfi) s = .next (s.modScalar g.toNat r fun x => x) ∧
    (∃ u, exec (rv (.csr .rw rd p 0x340)) s = .next u ∧ (u.scalar g.toNat r).csrAt 0x340 = a ∧ (u.scalar g.toNat r).pc = seq ∧
      (rd ≠ 0 → (u.scalar g.toNat r).rx rd = x.csrAt 0x340)) ∧
    (∃ u, exec (rv (.csri .rs rd 0 0x340)) s = .next u ∧ (u.scalar g.toNat r).csrAt 0x340 = x.csrAt 0x340 ∧
      (rd ≠ 0 → (u.scalar g.toNat r).rx rd = x.csrAt 0x340)) ∧
    Excepts (rv (.csr .rw rd p 0xC00)) s g r 2

/-! ### Engines (14_matrix.md, 17_engines_press.md) -/

/-- R331, R343–R346, R348: the commands of the matrix engine check their operands, take the next job number of timeline 1 and enter
the core's queue with the values of their operands. -/
def Sys2Proof.Claim.MatrixCommands : Prop :=
  ∀ (ct : Ctl) (a b c d : GReg) (s : State), Issues s ct [a, b, c, d] → NoTraps s →
    let x := rdG s b
    let y := rdG s c
    let z := rdG s d
    let enter (cmd : MCmd) (n : Nat) (u : State) : State := u.modCore s.g.toNat fun k => { k with regs := { k.regs with mq := { k.regs.mq with
      cmds := k.regs.mq.cmds ++ [{ job := n, cmd := cmd, tenant := s.t, own := ⟨s.c.tid, s.c.task.lid⟩ }] } } }
    (∀ f : WFmt,
      let rs : Word := if y = 0 then (if f = .f8 then 64 else 128) else y
      (x.toNat % 64 = 0 → rs.toNat % 64 = 0 → Pushes (.mldw ct f a b c) ct s 1 a [x, y] (enter (.mldw x rs f))) ∧
      (x.toNat % 64 ≠ 0 ∨ rs.toNat % 64 ≠ 0 → Traps (.mldw ct f a b c) s ⟨0x04, 0, x⟩)) ∧
    Pushes (.mswap ct a) ct s 1 a [] (enter .mswap) ∧
    (∀ (f : AFmt) (o64 : Bool) (rows : BitVec 9),
      let i := Instr.mstream ct f o64 rows a b c d
      (f = .f8 ∨ x.toNat % 2 = 0 → y.toNat % 128 = 0 → z.toNat % 128 = 0 →
        Pushes i ct s 1 a [x, y, z] (enter (.mstream x y (if d = 0 then none else some z) (rows.toNat + 1) f o64))) ∧
      (f = .bf16 → x.toNat % 2 ≠ 0 → Traps i s (alignTrap false x.toNat)) ∧
      (f = .f8 ∨ x.toNat % 2 = 0 → y.toNat % 128 ≠ 0 → Traps i s (alignTrap false y.toNat)) ∧
      (f = .f8 ∨ x.toNat % 2 = 0 → y.toNat % 128 = 0 → z.toNat % 128 ≠ 0 → Traps i s (alignTrap false z.toNat))) ∧
    (x.toNat % 128 = 0 → Pushes (.mattn ct a b) ct s 1 a [x] (enter (.mattn x))) ∧
    (x.toNat % 128 ≠ 0 → Traps (.mattn ct a b) s (alignTrap false x.toNat)) ∧
    (x.toNat < 16 → 1 ≤ x.toNat % 8 → x.toNat % 8 ≤ 4 → Pushes (.mcfg ct a b) ct s 1 a [x] (enter (.mcfg (x.setWidth 4)))) ∧
    (16 ≤ x.toNat ∨ x.toNat % 8 = 0 ∨ 4 < x.toNat % 8 → Traps (.mcfg ct a b) s (illopnd 1))

/-- R347, R349, R350: MTAGS loads, as ordinary loads read, 4,096 tags from its map, in the order of its fields, and counts those that are not 0; MCANCEL
removes the commands numbered g[B] or above that have not started, which count as done; MQSTAT reads the queue's state. -/
def Obligations.MatrixQueue : Prop :=
  ∀ (ct : Ctl) (a b : GReg) (s : State), Issues s ct [a, b] → NoTraps s →
    let g := s.g.toNat
    let q := (s.core g).regs.mq
    (∀ ps, (rdG s b).toNat % 128 = 0 → check s g s.t .rd ((rdG s b).toNat % 2 ^ 56) 1024 = .ok ps →
      let src : Src := { ps := ps, job := (s.tl g 1).issued }
      let u := combineAll s (ps.flatMap pieceLines)
      let tags := mapTags (loadBytes u 8 ps)
      mattnBefore s g src.job = false → CanRead s ps → (3 : Byte) ∉ tags →
        Starts (.mtags ct a b) ct s s src (wrG ((touchRead (loadFresh u 8 ps) g s.t 0 ps).modCore g fun c => { c with regs := { c.regs with
          mq := { c.regs.mq with tags := tags } } }) a (BitVec.ofNat 64 (tags.filter fun x => x != 0).length))) ∧
    (∀ bs i, i < 4 * bs.length → (mapTags bs).getD i 0 = BitVec.ofNat 8 ((bs.getD (i / 4) 0).toNat / 4 ^ (i % 4) % 4)) ∧
    (ct.la = 0 → (∀ c ∈ liveCtxs s g, ∀ o ∈ c.iss.outs, pushTl o.i ≠ some 1) →
      let gone := q.cmds.filter fun j => !j.started && decide ((rdG s b).toNat ≤ j.job)
      ∃ t, exec (.mcancel ct a b) s = .next t ∧ t.c.pc = nextPc s.c.pc ∧ WroteG s t a (BitVec.ofNat 64 gone.length) ∧
        (t.core g).regs.mq.cmds = q.cmds.filter (fun j => j.started || decide (j.job < (rdG s b).toNat)) ∧
        ∀ j ∈ gone, isDone t g 1 j.job = true) ∧
    (ct.la = 0 → Sets (.mqstat ct a) s a (BitVec.ofNat 64 (q.fcode.toNat * 2 ^ 48 + q.fjob % 2 ^ 16 * 2 ^ 32 +
      (let code (x : Option (WFmt × List Byte)) : Nat := match x with | none => 0 | some (.bf16, _) => 1 | some (.f8, _) => 2 | some (.sp2x, _) => 3
       code q.shadow * 2 ^ 20 + code q.active * 2 ^ 16) + q.mmode.toNat * 2 ^ 8 + (if q.run then 16 else 0) + q.cmds.length))) ∧
    (ct.la ≠ 0 →
      exec (.mcancel ct a b) s = .next (retire ct none (addOut (.mcancel ct a b) { w := [rdG s b] } ct.la.toNat none s)) ∧
      exec (.mqstat ct a) s = .next (retire ct none (addOut (.mqstat ct a) {} ct.la.toNat none s)))

/-- R388, R393–R396: the commands of the copy unit check their operands, take the next job number of timeline 0 and enter the core's
copy queue. -/
def Sys2Proof.Claim.CopyCommands : Prop :=
  ∀ (ct : Ctl) (a b c d e : GReg) (s : State), Issues s ct [a, b, c, d, e] → NoTraps s →
    let x := rdG s b
    let y := rdG s c
    let z := rdG s d
    let w := rdG s e
    let enter (cmd : CpyCmd) (n : Nat) (u : State) : State := u.modCore s.g.toNat fun k => { k with eng := { k.eng with
      cq := k.eng.cq ++ [{ job := n, tenant := s.t, own := ⟨s.c.tid, s.c.task.lid⟩, cmd := cmd }] } }
    (∀ len : BitVec 28, Pushes (.cpy ct a b c (.imm len)) ct s 0 a [x, y] (enter (.cpy x y (len.setWidth 64)))) ∧
    (z.toNat < 2 ^ 40 → Pushes (.cpy ct a b c (.reg d)) ct s 0 a [x, y, z] (enter (.cpy x y z))) ∧
    (2 ^ 40 ≤ z.toNat → Traps (.cpy ct a b c (.reg d)) s (illopnd 3)) ∧
    (x.toNat % 8 = 0 → Pushes (.cpy2d ct a b) ct s 0 a [x] (enter (.cpy2d x))) ∧
    (x.toNat % 8 ≠ 0 → Traps (.cpy2d ct a b) s (alignTrap false x.toNat)) ∧
    (∀ src dst : VType,
      let i := Instr.cpyf ct src dst a b c d
      let es := lanesBits src / 8
      let ed := lanesBits dst / 8
      (z ≠ 0 → z.toNat < 2 ^ 32 → x.toNat % ed = 0 → y.toNat % es = 0 → Pushes i ct s 0 a [x, y, z] (enter (.cpyf src dst x y z))) ∧
      (z = 0 ∨ 2 ^ 32 ≤ z.toNat → Traps i s (illopnd 3)) ∧
      (z ≠ 0 → z.toNat < 2 ^ 32 → x.toNat % ed ≠ 0 → Traps i s (alignTrap true x.toNat)) ∧
      (z ≠ 0 → z.toNat < 2 ^ 32 → x.toNat % ed = 0 → y.toNat % es ≠ 0 → Traps i s (alignTrap false y.toNat))) ∧
    (∀ rb : BitVec 13,
      let i := Instr.cpyg ct a b c d e rb
      (1 ≤ rb.toNat → rb.toNat ≤ 4096 → 1 ≤ w.toNat → w.toNat ≤ 2 ^ 20 → z.toNat % 4 = 0 →
        Pushes i ct s 0 a [x, y, z, w] (enter (.cpyg x y z w rb.toNat))) ∧
      (rb = 0 ∨ 4096 < rb.toNat → Traps i s (illopnd 0)) ∧
      (1 ≤ rb.toNat → rb.toNat ≤ 4096 → w = 0 ∨ 2 ^ 20 < w.toNat → Traps i s (illopnd 4)) ∧
      (1 ≤ rb.toNat → rb.toNat ≤ 4096 → 1 ≤ w.toNat → w.toNat ≤ 2 ^ 20 → z.toNat % 4 ≠ 0 → Traps i s (alignTrap false z.toNat)))

/-- R398–R402: COLL and COLLA take a job number of timeline 2; accepted, a job takes the group's SEQ, which rises by one. COLL forms
the descriptor that its operation stands for; COLLA reads it. One with a reserved bit set is accepted too, and fails as it starts. -/
def Obligations.CollectiveCommands : Prop :=
  ∀ (ct : Ctl) (a b c d e : GReg) (nch group : BitVec 6) (s : State), Issues s ct [a, b, c, d, e] → NoTraps s →
    let x := rdG s b
    let len := rdG s c
    let obj := rdG s d
    let root := rdG s e
    let grp := (s.cfgAt (cgrpReg s.t group)).toNat
    let members := grp / 2 ^ 48
    let rank := grp / 2 ^ 32 % 2 ^ 16
    let part := len.toNat / members
    let own := BitVec.ofNat 64 (rank * part)
    let accept (bad : Nat) (desc : List Word) (k : BitVec 6) (n : Nat) (u : State) : State :=
      let seq : W32 := (u.cfgAt (cseqReg s.t k)).setWidth 32
      let v := u.setCfg (cseqReg s.t k) ((seq + 1).setWidth 64)
      { v with fl := { v.fl with colls := v.fl.colls ++ [{ g := s.g, job := n, tenant := s.t, own := ⟨s.c.tid, s.c.task.lid⟩, desc := desc
                                                           seq := seq, group := k, bad := bad }] } }
    let enter := accept 0
    let tail (code r : Nat) : List Word := [obj, BitVec.ofNat 64 (code * 2 ^ 48 + r * 2 ^ 32 + nch.toNat * 2 ^ 8 + group.toNat), 0, 0, 0]
    (x.toNat % 128 = 0 →
      (len.toNat < 2 ^ 40 → Pushes (.coll ct .allred a b c d e nch group) ct s 2 a [x, len, obj, 0] (enter ([x, x, len] ++ tail 0 0) group)) ∧
      (members ≠ 0 → len.toNat % members = 0 → part < 2 ^ 40 →
        Pushes (.coll ct .redscat a b c d e nch group) ct s 2 a [x, len, obj, 0]
          (enter ([x, x + own, BitVec.ofNat 64 part] ++ tail 1 0) group) ∧
        Pushes (.coll ct .allgath a b c d e nch group) ct s 2 a [x, len, obj, 0]
          (enter ([x + own, x, BitVec.ofNat 64 part] ++ tail 2 0) group)) ∧
      (len.toNat < 2 ^ 40 → root.toNat < 2 ^ 16 →
        Pushes (.coll ct .bcast a b c d e nch group) ct s 2 a [x, len, obj, root] (enter ([x, x, len] ++ tail 3 root.toNat) group))) ∧
    (x.toNat % 128 ≠ 0 → ∀ op, Traps (.coll ct op a b c d e nch group) s (alignTrap false x.toNat)) ∧
    (x.toNat % 64 ≠ 0 → Traps (.colla ct a b) s (alignTrap false x.toNat)) ∧
    (x.toNat % 64 = 0 → Pushes (.colla ct a b) ct s 2 a [x] fun n u =>
      match engRead u s.g.toNat s.t x 64 with
      | .error code => collRefused u s.g s.t ⟨s.c.tid, s.c.task.lid⟩ n code
      | .ok (bs, v) =>
        let desc := (List.range 8).map (dwordAt bs)
        accept (if collaOk desc then 0 else 4) desc ((desc.getD 4 0).setWidth 6) n v)

/-- R5, R408, R409, R411–R414: the commands of the press take a job number of timeline 3 and enter the queue of the die's press, and
raise UNIMPL on a part without one. TREEDEF reads as a load does and defines the tenant's template; SMCANCEL drops the sequence's verdicts and counts what it
cancels; ENGQ reads an engine's state. -/
def Obligations.PressCommands : Prop :=
  ∀ (ct : Ctl) (a b c : GReg) (s : State), Issues s ct [a, b, c] → NoTraps s →
    let x := rdG s b
    let g := s.g.toNat
    let die := s.die (g / 512)
    let enter (cmd : PrCmd) (n : Nat) (u : State) : State := u.modDie (g / 512) fun k => { k with
      press := k.press ++ [{ g := s.g, job := n, tenant := s.t, own := ⟨s.c.tid, s.c.task.lid⟩, cmd := cmd }] }
    (s.part.press = false → ∀ i m, (i, m) ∈ ([(.smpl ct a b, 0xE2), (.smplv ct a b, 0xE3), (.smcommit ct a b c, 0xE4), (.smcancel ct a b, 0xE5),
      (.treedef ct b 0, 0xE6), (.engq ct .press a, 0xE7)] : List (Instr × Word)) → Traps i s ⟨0x0F, 0, m⟩) ∧
    (s.part.press = true →
      (x.toNat % 64 = 0 → Pushes (.smpl ct a b) ct s 3 a [x] (enter (.smpl x))) ∧
      (x.toNat % 64 ≠ 0 → Traps (.smpl ct a b) s (alignTrap false x.toNat)) ∧
      (x.toNat % 128 = 0 → Pushes (.smplv ct a b) ct s 3 a [x] (enter (.smplv x))) ∧
      (x.toNat % 128 ≠ 0 → Traps (.smplv ct a b) s (alignTrap false x.toNat)) ∧
      Pushes (.smcommit ct a b c) ct s 3 a [x, rdG s c] (enter (.smcommit x (rdG s c).toNat)) ∧
      (∀ id ps, x.toNat % 8 = 0 → check s g s.t .rd (x.toNat % 2 ^ 56) 72 = .ok ps →
        let src : Src := { ps := ps, bs := boundBytes s ps }
        let u := touchRead (readState s ps) g s.t 0 ps
        (∀ l, treeOf (readBytes s ps) = some l → CanRead s ps → InTurn (.treedef ct b id) ct s src → exec (.treedef ct b id) s =
          .next (retire ct none { u with trees := tset none u.trees (s.t.toNat * 32 + id.toNat) (some l) })) ∧
        (¬ InTurn (.treedef ct b id) ct s src → exec (.treedef ct b id) s =
          .next (retire ct none (addOut (.treedef ct b id) src ct.la.toNat none s)))) ∧
      (ct.la = 0 → ∃ t n, exec (.smcancel ct a b) s = .next t ∧ t.c.pc = nextPc s.c.pc ∧ WroteG s t a (BitVec.ofNat 64 n) ∧
        (t.die (g / 512)).verdicts = die.verdicts.filter (fun v => !(v.tenant == s.t && va56 v.seq == va56 x)) ∧
        (t.die (g / 512)).press.length = die.press.length ∧
        (die.press = [] → die.walk = none → n = die.verdicts.length - (t.die (g / 512)).verdicts.length)) ∧
      (ct.la ≠ 0 → exec (.smcancel ct a b) s = .next (retire ct none (addOut (.smcancel ct a b) { w := [x] } ct.la.toNat none s)))) ∧
    (ct.la ≠ 0 → ∀ e : EngSel, e ≠ .press ∨ s.part.press = true →
      exec (.engq ct e a) s = .next (retire ct none (addOut (.engq ct e a) {} ct.la.toNat none s))) ∧
    (ct.la = 0 → ∀ e f n q, (e, f, n, q) ∈ ([(.copy, (s.core g).eng.cqFail, 0, (s.core g).eng.cq.length),
        (.coll, (s.core g).eng.collFail, (s.fl.colls.filter fun j => j.started).length, (s.fl.colls.filter fun j => j.g.toNat == g && !j.started).length),
        (.press, (s.core g).eng.pressFail, die.verdicts.length, (die.press.filter fun j => j.g == s.g).length)] : List (EngSel × Fail × Nat × Nat)) →
      e ≠ .press ∨ s.part.press = true → Sets (.engq ct e a) s a (BitVec.ofNat 64
        (f.code.toNat * 2 ^ 48 + f.job % 2 ^ 16 * 2 ^ 32 + n % 2 ^ 8 * 2 ^ 8 + q)))

/-! ### Ropes (15_ropes.md) -/

/-- R352, R353, R374: a rope instruction with distinct destinations is performed in its issue turn with LA = 0 where its unit has room
and the thread has no other rope instruction outstanding; else it is outstanding with its operand values, noting the cc at which it
met a full unit (R386). RPUB releases first where
its new root may stand in the handle. -/
def Obligations.RopeIssue : Prop :=
  ∀ (ct : Ctl) (a b c d e : GReg) (id : BitVec 4) (k : BitVec 3) (del n : BitVec 8) (sgn : Bool) (s : State),
    Issues s ct [a, b, c, d, e] → NoTraps s →
    let x := rdG s b
    let y := rdG s c
    let z := rdG s d
    (∀ i src, (i, src) ∈ ([(.rdesc ct none id, {}), (.rnew ct a b c id, { w := [x, y] }), (.rcat ct a b c, { w := [x, y] }),
        (.rsplice ct a b c d del n, { w := [x, y, z] }), (.rsum ct a b c d k, { w := [x, y, z] }), (.rget ct sgn a b c, { w := [x, y] }),
        (.rlen ct a b, { w := [x] }), (.rref ct b, { w := [x] }), (.rdrop ct b, { w := [x] })] : List (Instr × Src)) →
      RopeStarts i ct s s src) ∧
    (x.toNat % 128 = 0 → RopeStarts (.rdesc ct (some b) id) ct s s { w := [x] }) ∧
    (x.toNat % 128 ≠ 0 → Traps (.rdesc ct (some b) id) s (alignTrap false x.toNat)) ∧
    (a ≠ d → RopeStarts (.rsplit ct a b c d) ct s s { w := [x, y] }) ∧
    (a = d → Traps (.rsplit ct a b c d) s (illopnd 3)) ∧
    (a ≠ d → a ≠ e → d ≠ e → RopeStarts (.rwalk ct a b c d e) ct s s { w := [x, y] } ∧
      (a ≠ c → c ≠ d → c ≠ e → RopeStarts (.riter ct a b c d e) ct s s { w := [x, y] })) ∧
    (∀ (p : PReg) (sc : Scope) (ps : List Piece), x.toNat % 16 = 0 → check s s.g.toNat s.t .wr (x.toNat % 2 ^ 56) 16 = .ok ps →
      noHost s .wr ps = none → MayRelease (handleRootOk s z) s sc →
      RopeStarts (.rpub ct sc p b c d e) ct s (afterRelease (handleRootOk s z) s sc) { ps := ps, w := [y, z] }) ∧
    (∀ (acq : Bool) (sc : Scope) (ps : List Piece), a ≠ d → x.toNat % 16 = 0 → check s s.g.toNat s.t .rd (x.toNat % 2 ^ 56) 16 = .ok ps →
      RopeStarts (.rload ct acq sc a b d) ct s s { ps := ps })

/-- R363, R369, R371, R374–R384: what rope instructions return and write. The empty rope is 0; RLEN gives the length, RWALK the leaf
of a position and RGET its element; RSUM of a whole rope gives its slot; RDESC defines an entry once; RREF and RDROP move a count by
one, and RDROP reclaims the line at 0; RPUB replaces a handle whose version is the one expected. -/
def Obligations.RopeResults : Prop :=
  ∀ (ct : Ctl) (a b c d x : GReg) (id : BitVec 4) (k : BitVec 3) (sgn : Bool) (root v w : Word) (s : State), Thread s →
    let e := ropeEnv s s.g s.t
    let done (t : State) : State := t.bump s.g.toNat 0x0060
    let seen (n : RNote) : State := noteReads s s.g s.t n.reads
    let key := s.t.toNat * 16 + id.toNat
    perfRope (.rlen ct a b) { w := [0] } s = .done (done (wrG s a 0)) ∧
    perfRope (.rcat ct a b c) { w := [0, 0] } s = .done (done (wrG s a 0)) ∧
    perfRope (.rsplit ct a b c d) { w := [0, 0] } s = .done (done (wrG (wrG s a 0) d 0)) ∧
    perfRope (.rsum ct a b c d k) { w := [0, 0, 0] } s = .done (done (wrG s a 0)) ∧
    perfRope (.riter ct a b c d x) { w := [0, 0] } s = .done (done (wrG (wrG (wrG s a 0) d 0) x 0)) ∧
    (∀ p, perfRope (.rget ct sgn a b c) { w := [0, p] } s = .trap (ropeFlt 9 0) ∧
      perfRope (.rwalk ct a b c d x) { w := [0, p] } s = .trap (ropeFlt 9 0)) ∧
    ((descOf s s.t id.toNat).isSome = true → perfRope (.rnew ct a b c id) { w := [root, 0] } s = .done (done (wrG s a 0))) ∧
    (∀ r n, rRoot e root {} = .ok (some r, n) →
      perfRope (.rlen ct a b) { w := [root] } s = .done (done (wrG (seen n) a (BitVec.ofNat 64 r.tlen))) ∧
      (∀ desc, n.did.bind (descOf s s.t) = some desc → (desc.slot k.toNat).isSome = true → 0 < r.tlen → r.tlen < 2 ^ 64 →
        perfRope (.rsum ct a b c d k) { w := [root, 0, BitVec.ofNat 64 r.tlen] } s =
          .done (done (wrG (seen n) a (r.sums.getD k.toNat 0)))) ∧
      (v.toNat > r.tlen → perfRope (.rsplit ct a b c d) { w := [root, v] } s = .trap (ropeFlt 9 0))) ∧
    (∀ l start n, leafAt e root v.toNat {} = .ok ((l, start), n) →
      perfRope (.rwalk ct a b c d x) { w := [root, v] } s = .done (done (wrG (wrG (wrG (seen n) a (BitVec.ofNat 64 l.addr)) d
        (BitVec.ofNat 64 (v.toNat - start))) x (BitVec.ofNat 64 start))) ∧
      (∀ desc els n', n.did.bind (descOf s s.t) = some desc → rElems e desc l n = .ok (els, n') →
        let bytes := (els.getD (v.toNat - start) []).take (min desc.es 8)
        perfRope (.rget ct sgn a b c) { w := [root, v] } s = .done (done (wrG (seen n') a
          (if sgn then sext (8 * min desc.es 8) (BitVec.ofNat 64 (ofBytes bytes)) else BitVec.ofNat 64 (ofBytes bytes)))))) ∧
    perfRope (.rdesc ct none id) {} s = .done (done { s with descs := tset none s.descs key none }) ∧
    (∀ ps, check s s.g.toNat s.t .rd (root.toNat % 2 ^ 56) 128 = .ok ps → lostIn s ps = none →
      let desc : RopeDesc := ⟨(List.range 16).map (dwordAt (homeBytes (recallLines s ps) s.t ps))⟩
      let u := noteReads s s.g s.t ps
      (descBad desc = none → descOf s s.t id.toNat = none →
        perfRope (.rdesc ct (some b) id) { w := [root] } s = .done (done { u with descs := tset none u.descs key (some desc) })) ∧
      (descBad desc = none → descOf s s.t id.toNat = some desc → perfRope (.rdesc ct (some b) id) { w := [root] } s = .done (done u)) ∧
      (∀ old, descBad desc = none → descOf s s.t id.toNat = some old → old ≠ desc →
        perfRope (.rdesc ct (some b) id) { w := [root] } s = .trap (illDesc 7 0 id.toNat)) ∧
      (∀ r q, descBad desc = some (r, q) → perfRope (.rdesc ct (some b) id) { w := [root] } s = .trap (illDesc r q id.toNat))) ∧
    perfRope (.rref ct b) { w := [0] } s = .done (done s) ∧ perfRope (.rdrop ct b) { w := [0] } s = .done (done s) ∧
    (∀ n count ps, root ≠ 0 → e.poolLine root.toNat = true → rCount e root.toNat {} = .ok (count, n) →
      check s s.g.toNat s.t .wr (e.countVa root.toNat % 2 ^ 56) 4 = .ok ps → leesRoom s (pieceCells ps (bytesOf 4 0)) = true →
      let put (m : Nat) : State := unitWrite (seen n) s.g s.t ps (bytesOf 4 m)
      (0 < count → count < 2 ^ 32 - 1 → perfRope (.rref ct b) { w := [root] } s = .done (done (put (count + 1)))) ∧
      (count = 2 ^ 32 - 1 → perfRope (.rref ct b) { w := [root] } s = .trap (ropeFlt 5 root.toNat)) ∧
      (1 < count → perfRope (.rdrop ct b) { w := [root] } s = .done (done (put (count - 1)))) ∧
      (count = 1 → perfRope (.rdrop ct b) { w := [root] } s = .done (done ((put 0).modDie (s.g.toNat / 512) fun d =>
        { d with reclaim := d.reclaim ++ [⟨s.g, s.t, root.toNat, true⟩] }))) ∧
      (count = 0 → perfRope (.rref ct b) { w := [root] } s = .trap (ropeFlt 6 root.toNat) ∧
        perfRope (.rdrop ct b) { w := [root] } s = .trap (ropeFlt 6 root.toNat))) ∧
    (∀ (p : PReg) (sc : Scope) (ps : List Piece), handleRootOk s w = true → CanModify s 16 ps →
      let u := recallLines s ps
      let old := ofBytes (strongBytes u 16 ps)
      let hit := decide (old / 2 ^ 64 = v.toNat)
      let t := wrG (wrP (if hit then ownLine (strongWrite u sc 16 ps (bytesOf 16 ((v + 1).toNat * 2 ^ 64 + w.toNat))) sc ps
        else rmwRead (ownLine u sc ps) 16 ps) p hit) x (if hit then v + 1 else BitVec.ofNat 64 (old / 2 ^ 64))
      perfRope (.rpub ct sc p b c d x) { ps := ps, w := [v, w] } s = .done (done (acquire t t.g.toNat sc)))

/-- R357, R359, R361, R362: a node line holds its fields and gives them back. The slot of a concatenation is the combine of the slots of
its parts, for the integer combiners. -/
def Obligations.RopeNodesAndSlots : Prop :=
  (∀ n : RNode, n.kind < 4 → n.height < 16 → n.fan ≤ 4 → n.kids.length = n.fan → n.desc < 16 → n.tlen < 2 ^ 40 → n.sums.length = 8 →
    (∀ k ∈ n.kids, k.1 < 2 ^ 48 ∧ k.2 < 2 ^ 32) → n.clean = true →
    (lineOfNode n).length = 128 ∧ nodeOfLine (lineOfNode n) = n) ∧
  (∀ (q : RSlot) (xs ys : List (List Byte)), xs ≠ [] → ys ≠ [] → q.ftype < 8 →
    let other (comb : Nat) (l : List (List Byte)) : Word := rLeaf { q with comb := comb } l
    (∀ comb ∈ [0, 1, 2, 3], rLeaf { q with comb := comb } (xs ++ ys) =
      rComb { q with comb := comb } (other comb xs) (other comb ys) xs.length 0 0) ∧
    rLeaf { q with comb := 8 } (xs ++ ys) = rComb { q with comb := 8 } (other 8 xs) (other 8 ys) xs.length (other 0 xs) (other 0 ys) ∧
    (xs.length + ys.length < 2 ^ 64 →
      rLeaf { q with comb := 9 } (xs ++ ys) = rComb { q with comb := 9 } (other 9 xs) (other 9 ys) xs.length (other 1 xs) (other 1 ys)))

/-! ### Events of the engines -/

/-- R329–R331, R335, R338, R343–R345, R348, R389: the matrix engine's events. A queue accepts a command in order while it has room. The
arbiter goes to the next queue, with its weight, when its tiles are used or its queue is empty. A tile of MCFG, MSWAP, MLDW or MSTREAM
does what the command says, and a bad command fails. Rows drain in order, their values scaled as the control block says. A job that has
left the array with no row left is done. -/
def Obligations.MatrixEvents : Prop :=
  ∀ (g : GCore) (k : Slot) (c : ClusterNo) (n : Nat) (s : State),
    let cl := s.cluster c.toNat
    let v := c.toNat * 8 + cl.pos.toNat
    let q := s.mq v
    let ends (j : MJob) (t : State) : Prop := (t.mq v).run = true ∧ (t.mq v).cmds = { j with started := true, ended := true } :: q.cmds.tail ∧
      (t.cluster c.toNat).used = cl.used + 1
    (∀ o tl a enter, s.outOf g k n = some o → pushOf o.i = some (tl, a, enter) → o.port = {} → o.shadow = [] → o.src.k = 0 →
      0 < a.toNat → a.toNat < 64 → (∀ p ∈ (s.core g.toNat).parked, ∀ x ∈ p.ctx.iss.outs, x.id ≠ n) →
      (queueRoom s g.toNat tl = true → pendingBelow s g.toNat tl o.src.job = false →
        ∃ t, exec (.commandAccept g k n) s = .next t ∧ t.outOf g k n = none ∧
          (t.ctx g k).map (fun x => tget 0 x.regs.g a.toNat) = some (BitVec.ofNat 64 o.src.job) ∧
          (tl = 1 → (t.mq g.toNat).cmds.length = (s.mq g.toNat).cmds.length + 1) ∧
          (tl = 0 → (t.core g.toNat).eng.cq.length = (s.core g.toNat).eng.cq.length + 1)) ∧
      (queueRoom s g.toNat tl = false → ∃ t, exec (.commandAccept g k n) s = .next t ∧ t.ctx g k = s.ctx g k ∧ t.cores = s.cores)) ∧
    (q.run = false →
      (cl.used < cl.budget → q.cmds ≠ [] → exec (.arbiterVisit c) s = .next s) ∧
      (cl.budget ≤ cl.used ∨ q.cmds = [] → exec (.arbiterVisit c) s = .next (s.modCluster c.toNat fun x =>
        { x with pos := cl.pos + 1, used := 0
                 budget := (s.cfgAt (marbReg c.toNat)).toNat / 16 ^ (cl.pos + 1).toNat % 16 + 1 })) ∧
      (cl.budget ≤ cl.used ∨ q.cmds = [] → exec (.matrixTileStart c) s = .next s) ∧
      (∀ j r, cl.used < cl.budget → q.cmds = j :: r → j.started = false → (∀ x ∈ r, x.job ≠ j.job) →
        (∀ m, j.cmd = .mcfg m → ∃ t, exec (.matrixTileStart c) s = .next t ∧ ends j t ∧ (t.mq v).mmode = m) ∧
        (j.cmd = .mswap → ∃ t, exec (.matrixTileStart c) s = .next t ∧ ends j t ∧ (t.mq v).active = q.shadow ∧ (t.mq v).shadow = q.active) ∧
        (∀ base rs f rows u, j.cmd = .mldw base rs f → engRows s v j.tenant base rs (64 * wfmtBytes f) 128 = .ok (rows, u) →
          ∃ t, exec (.matrixTileStart c) s = .next t ∧ ends j t ∧ (t.mq v).shadow = some (f, rows.flatten) ∧ (t.mq v).active = q.active) ∧
        (∀ a o rows f o64 w u rs, j.cmd = .mstream a o none rows f o64 → q.active = some w → mPaired w.1 f = true →
          engRows s v j.tenant a (BitVec.ofNat 64 (128 * actBytes f)) (128 * actBytes f) (min 64 rows) = .ok (rs, u) → j.pos = 0 →
          ∃ t, exec (.matrixTileStart c) s = .next t ∧ (t.mq v).run = true ∧ (t.cluster c.toNat).used = cl.used + 1 ∧
            (t.cluster c.toNat).rows.length = cl.rows.length + min rs.length (min 64 rows) ∧
            ∃ y, (t.mq v).cmds.head? = some y ∧ y.started = true ∧ y.pos = min 64 rows ∧ (y.ended = true ↔ rows ≤ 64)) ∧
        (j.cmd = .bad → ∃ t, exec (.matrixTileStart c) s = .next t ∧ (t.mq v).fcode = 6 ∧ (t.mq v).fjob = j.job ∧
          ∀ x ∈ (t.mq v).cmds, x.job ≠ j.job))) ∧
    (∀ r, cl.rows[n]? = some r → (∀ x ∈ cl.rows.take n, x.g ≠ r.g) → r.score = false → (dwordAt r.blk 1).toNat % 64 = 0 →
      (∃ t, exec (.matrixRowDrain c n) s = .next t ∧ ∀ x ∈ (t.cluster c.toNat).rows, x ∈ dropAt cl.rows n) ∧
      ∀ i, i < 64 → drainVal r none i = (r.sums.getD i 0).toNat) ∧
    (∀ r, cl.rows[n]? = some r → (∃ x ∈ cl.rows.take n, x.g = r.g) → exec (.matrixRowDrain c n) s = .next s) ∧
    (∀ (r : MRow) i, (dwordAt r.blk 1).toNat % 64 = 1 →
      drainVal r none i = (fmul .f32 .rne (Fmt.f32.val (r.sums.getD i 0).toNat) (Fmt.f32.val ((dwordAt r.blk 2).toNat % 2 ^ 32))).1) ∧
    (let here := (s.cluster (g.toNat / 8)).rows.any fun r => r.g == g && r.job == n
     (n ∈ (s.mq g.toNat).gone → here = false → ∃ t, exec (.matrixJobDone g n) s = .next t ∧ isDone t g.toNat 1 n = true ∧ n ∉ (t.mq g.toNat).gone) ∧
     (n ∉ (s.mq g.toNat).gone ∨ here = true → exec (.matrixJobDone g n) s = .next s))

/-- R390, R391, R393, R398–R403: the events of the copy unit and the collective engine. The next piece of a CPY that does not overlap is
read and stored, and its cluster's turn goes on; a copy that has ended leaves the queue and is done, its failure recorded. A collective
job starts with its messages, or fails; a message that no job awaits is discarded, one of a wrong length fails its job with code 7, and
another is written, unless it comes after the job's time; chunks are counted, and the last one ends the job; a job that waits too long fails with code 7. -/
def Obligations.CopyAndCollectiveEvents : Prop :=
  ∀ (g : GCore) (c : ClusterNo) (n : BitVec 6) (h : FabHdr) (payload : List Byte) (s : State),
    (∀ v j dst src len bs u ps, cpyNext s c.toNat = some (v, j) → j.cmd = .cpy dst src len → j.blk = [] →
      j.started = true ∨ cpyOverlap s v j dst src len.toNat = false →
      let m := min 4096 (len.toNat - j.pos)
      engRead s v j.tenant (src + BitVec.ofNat 64 j.pos) m = .ok (bs, u) →
      engPieces u v j.tenant (dst + BitVec.ofNat 64 j.pos) bs.length = .ok ps → leesRoom u (pieceCells ps bs) = true →
      exec (.copyPiece c) s = .next ((((engStore u (BitVec.ofNat 12 v) j.tenant ps bs).bumpAll (fun x => x / 8 == v / 8) 0x0070 bs.length).modCore v
        fun k => { k with eng := { k.eng with cq :=
          { j with started := true, pos := j.pos + m, finished := decide (len.toNat ≤ j.pos + m) } :: k.eng.cq.drop 1 } }).modCluster c.toNat
        fun x => { x with rr := (v % 8 + 1) % 8 })) ∧
    (cpyNext s c.toNat = none → exec (.copyPiece c) s = .next s) ∧
    (∀ j r, (s.core g.toNat).eng.cq = j :: r →
      (j.finished = true ∨ cpyEmpty j = true → ∃ t, exec (.copyJobDone g) s = .next t ∧ (t.core g.toNat).eng.cq = r ∧ isDone t g.toNat 0 j.job = true ∧
        (j.fail ≠ 0 → (t.core g.toNat).eng.cqFail = ⟨BitVec.ofNat 8 j.fail, j.job⟩) ∧ (j.fail = 0 → (t.core g.toNat).eng.cqFail = (s.core g.toNat).eng.cqFail)) ∧
      (j.finished = false → cpyEmpty j = false → exec (.copyJobDone g) s = .next s)) ∧
    (∀ j, collNext s g = some j →
      let grp := s.cfgAt (cgrpReg j.tenant j.group)
      (collCode s j grp ≠ 0 → ∃ t, exec (.collectiveJobStart g) s = .next t ∧ CollFails t j (collCode s j grp)) ∧
      (∀ ms u v, collCode s j grp = 0 → collMessages s j grp = .ok (ms, u) → collCopy u j grp = .ok v →
        exec (.collectiveJobStart g) s = .next { v with fl := { v.fl with
          fabOut := v.fl.fabOut ++ ms
          colls := v.fl.colls.map fun x => if x.g = g && x.job == j.job
            then { x with started := true, want := collWants x grp, clock := s.cycle } else x } })) ∧
    (collNext s g = none → exec (.collectiveJobStart g) s = .next s) ∧
    (∀ i reply, (i, reply) ∈ [(Instr.reductionReply h payload, true), (.multicastData h payload, false)] →
      let due := s.fl.colls.findSome? fun j => (j.want.find? (pieceMatches h reply j)).map fun p => (j, p)
      (due = none → exec i s = .next (s.bumpAll (fun _ => true) 0x0072 1)) ∧
      let late (j : CollJob) : Prop := ∃ cc, collLimit s j = some cc ∧ cc < s.cycle
      (∀ j p, due = some (j, p) → late j ∨ h.length.toNat ≠ p.len → ∃ t, exec i s = .next t ∧ CollFails t j 7) ∧
      (∀ j p ps, due = some (j, p) → ¬ late j → h.length.toNat = p.len → engPieces s j.g.toNat j.tenant p.dst (payload.take p.len).length = .ok ps →
        leesRoom s (pieceCells ps (payload.take p.len)) = true →
        let u := engStore s j.g j.tenant ps (payload.take p.len)
        exec i s = .next { u with fl := { u.fl with colls := u.fl.colls.map fun x => if x.g = j.g && x.job == j.job
          then { x with want := x.want.filter (fun y => y != p), clock := u.cycle } else x } })) ∧
    (∀ j ps, s.fl.colls.find? (fun j => j.g == g && chunkReady j n.toNat) = some j → collObj s j = some ps →
      objRoom s ps = true →
      ∃ t, exec (.collChunkCount g n) s = .next t ∧
        (j.counted.length + 1 = j.nch → isDone t g.toNat 2 j.job = true ∧ ∀ x ∈ t.fl.colls, ¬ (x.g = g ∧ x.job = j.job)) ∧
        (j.counted.length + 1 ≠ j.nch → ∃ x ∈ t.fl.colls, x.g = g ∧ x.job = j.job ∧ x.counted = n.toNat :: j.counted)) ∧
    (s.fl.colls.find? (fun j => j.g == g && chunkReady j n.toNat) = none → exec (.collChunkCount g n) s = .next s) ∧
    (let lim := (s.cfgAt (modReg 0)).toNat % 2 ^ 32
     let late := s.fl.colls.find? fun j => j.g == g && j.started && j.want != [] && lim != 0 && decide (j.clock + lim * 1024 ≤ s.cycle)
     (∀ j, late = some j → ∃ t, exec (.collTimeout g) s = .next t ∧ CollFails t j 7) ∧ (late = none → exec (.collTimeout g) s = .next s))

/-! ### Events of a thread -/

/-- R35–R37, R90–R94, R141, R176, R219–R222, R297, R421: the events of a thread. The next repetition of a vector instruction issues; a
turn in which nothing issues passes; a fetch line arrives in the instruction cache, a lost one as no line; an outstanding load
writes its register and is no longer outstanding, or meets its trap; the trap that is pending is taken by a handler, or halts the
context; PHLIMIT and TILEWAIT trap at the thread's turn; an arrival wakes a waiting context, and its deadline comes. -/
def Obligations.ThreadEvents : Prop :=
  ∀ (g : GCore) (k : Slot) (n : Nat) (s : State) (c : Ctx), s.ctx g k = some c →
    let after (i : Instr) (P : State → Prop) : Prop := ∃ t, exec i s = .next t ∧ P t
    let quietSfu : Prop := c.again = [] ∧ (∀ r ∈ (s.core g.toNat).eng.sfuQ, ¬ (r.g = g ∧ r.k = k)) ∧
      ∀ r ∈ (s.core g.toNat).eng.sfuRun, ¬ (r.1.g = g ∧ r.1.k = k)
    let handler : Prop := c.trap.mode = false ∧ c.trap.tvec ≠ 0 ∧ c.trap.tvec.toNat % 64 < 5
    let entered (code : Nat) (val : Word) (epc res : CodeAddr) (x : Ctx) : Prop := x.pc = c.trap.tvec ∧ x.trap.mode = true ∧
      x.trap.code.toNat = code ∧ x.trap.tval = val ∧ x.trap.tepc = epc ∧ x.trap.tres = res ∧ x.regs = c.regs ∧ x.halted = c.halted
    (∀ bs i, s.who = .slot g k → c.iss.rep.done ≠ 0 → c.iss.rep.pc = c.pc → fetch s g.toNat c.tenant c.pc = .line bs →
      decodeSlot bs (c.pc.toNat % 64) false = .ok i → repeated i = true →
      ∃ t, exec (.repetitionIssue g k) s = .next t ∧ exec i s = .next t) ∧
    (let u := toTurn s g k k
     plan u g k false = .idle → stoppedLaunch u c = false → parkDue u g k = false → c.replay = false → c.again = [] →
     let c' : Ctx := if c.goesOn then c else { c with iss := { c.iss with pair := none, upon := none } }
     after (.idleTurn g k) fun t => t.cycle = nextTurn (turnFrom s g.toNat) k.toNat ∧ t.who = s.who ∧
       t.ctx g k = some { c' with iss := { c'.iss with skip := false, lend := c.iss.lend - 1 } } ∧ t.mem = s.mem ∧
       ∀ h j, (h, j) ≠ (g, k) → t.ctx h j = s.ctx h j) ∧
    (∀ p, fetchPiece s g.toNat c.tenant c.pc = .ok p → after (.fetchLineArrival g k) fun t =>
      let u := recallLines s [p]
      let old := (s.core g.toNat).cache.icache
      let new := (t.core g.toNat).cache.icache
      tget none new p.pa = some ⟨c.tenant, if (lostIn u [p]).isSome then [0] else homeBytes u c.tenant [p]⟩ ∧
      (old.length < 1024 → ∀ a, a ≠ p.pa → tget none new a = tget none old a) ∧
      (old.length ≤ 1024 → new.length ≤ 1024) ∧ t.ctxs = s.ctxs) ∧
    (∀ o ct sz sgn a b m, s.outOf g k n = some o → o.i = .ld ct sz sgn a b m → o.port = {} → o.shadow = [] →
      (∀ p ∈ (s.core g.toNat).parked, ∀ x ∈ p.ctx.iss.outs, x.id ≠ n) → 0 < a.toNat → a.toNat < 64 → mayPerform s g k o = true → (∀ p ∈ o.src.ps, isRemote (s.asWho g k) p = false) →
      spadDenied (s.asWho g k) .rd o.src.ps = none →
      (lostIn (s.asWho g k) o.src.ps = none → ∀ bs, o.src.bs = some bs → after (.longLatencyComplete g k n) fun t =>
        t.outOf g k n = none ∧ ∃ x, t.ctx g k = some x ∧ x.pc = c.pc ∧ tget 0 x.regs.g a.toNat =
          (let w := 8 * sizeBytes sz
           if sgn then (BitVec.ofNat w (ofBytes bs)).signExtend 64 else BitVec.ofNat 64 (ofBytes bs)) ∧
          ∀ r, r ≠ a.toNat → tget 0 x.regs.g r = tget 0 c.regs.g r) ∧
      (∀ tr, lostIn (s.asWho g k) o.src.ps = some tr → quietSfu → after (.deferredTrapDetect g k n) fun t =>
        exec (.longLatencyComplete g k n) s = .next t ∧ ∃ x, t.ctx g k = some x ∧ x.pc = c.pc ∧ x.regs = c.regs ∧
          ∃ y ∈ x.iss.outs, y.id = n ∧ y.trap = some tr)) ∧
    (∀ e, c.iss.outs = [] → c.iss.entry = some e →
      (handler → after (.trapEntry g k) fun t => ∃ x, t.ctx g k = some x ∧ entered e.trap.code.toNat e.trap.val e.epc e.res x) ∧
      (¬ handler → after (.trapEntry g k) fun t => ∃ x, t.ctx g k = some x ∧ x.halted = true ∧ x.trap.code = e.trap.code ∧
        x.trap.tepc = e.epc ∧ x.pc = c.pc)) ∧
    (∀ o os tr, c.iss.outs = o :: os → o.trap = some tr → handler →
      ((∀ y ∈ os, y.trap ≠ none) → after (.trapEntry g k) fun t => ∃ x, t.ctx g k = some x ∧
        entered tr.code.toNat tr.val o.pc c.pc x ∧ x.iss.outs = [] ∧ x.withdrawn = (o :: os) ++ c.withdrawn) ∧
      ((∃ y ∈ os, y.trap = none) → exec (.trapEntry g k) s = .next s)) ∧
    (c.iss.outs = [] → c.iss.port = {} → quietSfu → handler →
      (plan s g k false = .event (.phlimit g k) → after (.phlimit g k) fun t => ∃ x, t.ctx g k = some x ∧
        entered 0x0A (BitVec.ofNat 64 (min (s.cycle - (s.core g.toNat).ph.moved) 0xFFFFFFFF)) c.pc c.pc x) ∧
      (∀ w r, c.iss.wait = some w → w.kind = .tile r → plan s g k false = .event (.tilewait g k) → tileExpired s g.toNat c = true →
        after (.tilewait g k) fun t => ∃ x, t.ctx g k = some x ∧ entered 0x0E (BitVec.ofNat 64 r.toNat) c.pc c.pc x)) ∧
    (∀ w, c.iss.wait = some w → (∀ o ∈ c.iss.outs, o.wait = none) →
      (w.woken = false → waitReady s g c w = true → after (.wakeReinsert g k) fun t =>
        t.ctx g k = some { c with iss := { c.iss with wait := some { w with woken := true } } } ∧ t.mem = s.mem) ∧
      (w.woken = false → waitReady s g c w = false → (∀ p ∈ (s.core g.toNat).parked, p.slot ≠ k.toNat) →
        exec (.wakeReinsert g k) s = .next s) ∧
      after (.waitDeadline g k) fun t => t.cycle = max s.cycle w.deadline ∧ t.ctxs = s.ctxs ∧ t.mem = s.mem)

/-! ### Events of a core's contexts and tenants -/

/-- R220–R224, R255, R268–R272, R274–R276, R287, R433, R434, R458: parking, admission, steals, aging, arrivals and time slices. A blocked
context moves to the lowest free park slot; the best candidate, no other being before it, fills a free slot; a probe takes a victim's
highest tile task; candidates rise by one priority for each 2^20 cc; an arrival joins its core's queue, the spill ring, or nothing; at
the end of a slice the tenant's contexts are saved, and they come back with the tenant; a core with nothing left of its tenant passes on
and saves nothing. -/
def Obligations.ContextEvents : Prop :=
  ∀ (g : GCore) (k : Slot) (tn : TenantNo) (n : Nat) (s : State),
    let after (i : Instr) (P : State → Prop) : Prop := ∃ t, exec i s = .next t ∧ P t
    let core := s.core g.toNat
    (∀ c i ps, let u := (toTurn s g k k).bump g.toNat 0x0003
      let v := toSaved (u.asWho g k)
      s.ctx g k = some c → parkDue (toTurn s g k k) g k = true → freePark s g.toNat c.task.lid = some i →
      check v g.toNat c.tenant .wr ((workArea s c.task.lid g.toNat + 0x1000 * i) % 2 ^ 56) 4096 = .ok ps →
      after (.parkContext g k) fun t => t.ctx g k = none ∧ ∃ x, (t.core g.toNat).parked = core.parked ++ [⟨i, x, false, false, t.cycle⟩] ∧
        x.regs = c.regs ∧ x.pc = c.pc ∧ x.tid = c.tid ∧ x.iss.wait = c.iss.wait) ∧
    (∀ l r, bestOf l = some r → r ∈ l ∧ ∀ x ∈ l, x.before r = false) ∧
    (∀ b, core.tenant = some tn → s.bind g.toNat tn = some b → core.leaving = false → b.loaded = true → s.alive (dieOf g.toNat) = true →
      s.ctx g k = none →
      (candidates s g.toNat tn b = [] → exec (.admitContext g k) s = .next s) ∧
      (∀ r l, bestOf (candidates s g.toNat tn b) = some r → r.cand = .tile → s.launch? b.lid = some l → b.seenExit = false →
        let e := l.tile g.toNat b.tileLo b.since
        after (.admitContext g k) fun t => ∃ x, t.ctx g k = some x ∧ x.pc = (l.dw 0).setWidth 56 ∧ x.tenant = tn ∧
          x.tid = (tget 0 core.gens k.toNat + 1) ++ g ++ k ∧ x.task.x = e.task.x ∧ x.task.y = e.task.y ∧ x.task.z = e.task.z ∧
          x.task.lid = l.lid ∧ x.trap.mode = false ∧ x.regs.v = [] ∧ x.iss.outs = [] ∧
          (∀ i, i < 8 → tget 0 x.regs.g (16 + i) = l.dw (16 + i)) ∧ (∀ i, i < 16 ∨ 24 ≤ i → tget 0 x.regs.g i = 0) ∧
          ∃ b', t.bind g.toNat tn = some b' ∧ b'.tileLo = b.tileLo + 1 ∧ b'.tileHi = b.tileHi) ∧
      (∀ r i p ps, bestOf (candidates s g.toNat tn b) = some r → r.cand = .parked i → core.parked[i]? = some p →
        check s g.toNat p.ctx.tenant .rd ((workArea s p.ctx.task.lid g.toNat + 0x1000 * p.slot) % 2 ^ 56) 4096 = .ok ps →
        after (.admitContext g k) fun t => (t.core g.toNat).parked = dropAt core.parked i ∧ ∃ x, t.ctx g k = some x ∧
          x.regs = p.ctx.regs ∧ x.pc = p.ctx.pc ∧ x.tid = p.ctx.tid ∧ x.task.pri = BitVec.ofNat 2 r.pri) ∧
      (∀ v vb l, candidates s g.toNat tn b = [] → isStopped s b.lid = false → (victimsOf s g.toNat tn b)[b.probe]? = some v →
        s.bind v tn = some vb → s.launch? vb.lid = some l →
        (vb.tileLo < vb.tileHi → after (.stealProbe g) fun t =>
          (t.bind v tn).map (fun x => (x.tileLo, x.tileHi)) = some (vb.tileLo, vb.tileHi - 1) ∧
          (t.bind g.toNat tn).map (fun x => (x.stolen, x.probe)) = some ([l.tile v (vb.tileHi - 1) s.cycle], 0)) ∧
        (hasWork vb = false → exec (.stealProbe g) s = .next (s.setBind g.toNat tn (some { b with probe := b.probe + 1 }))))) ∧
    (after (.priorityAging g) fun t => ∀ b, s.bind g.toNat tn = some b → ∃ b', t.bind g.toNat tn = some b' ∧ b'.lid = b.lid ∧
      let aged (e : TaskEntry) : TaskEntry := let up := (s.cycle - e.ready) / 2 ^ 20
        { e with task := { e.task with pri := BitVec.ofNat 2 (min 3 (e.task.pri.toNat + up)) }, ready := e.ready + up * 2 ^ 20 }
      b'.deque = b.deque.map aged ∧ b'.arrivals = b.arrivals.map aged ∧ b'.ring = b.ring.map aged) ∧
    (∀ a, s.fl.arrivals[n]? = some a →
      let gone : State := { s with fl := { s.fl with arrivals := dropAt s.fl.arrivals n } }
      let e : TaskEntry := { a.entry with ready := s.cycle }
      (s.bind a.g.toNat a.tenant = none → exec (.arrivalAppend n) s = .next gone) ∧
      ∀ b l, s.bind a.g.toNat a.tenant = some b → s.launch? b.lid = some l → b.lid = a.entry.task.lid → isStopped s b.lid = false →
        b.seenExit = false →
        let depth := (l.dw 3).toNat / 2 ^ 10 % 2 ^ 7
        let here := (s.core a.g.toNat).tenant = some a.tenant ∧ (s.core a.g.toNat).leaving = false
        let with' (b : Bind) : State := gone.setBind a.g.toNat a.tenant (some b)
        let put (b : Bind) : Prop := exec (.arrivalAppend n) s = .next (with' b)
        let spill (b : Bind) : Prop := exec (.arrivalAppend n) s = .next (ringWrite (with' b) a.g.toNat a.tenant 1)
        (here → b.arrivals.length < depth → put { b with arrivals := b.arrivals ++ [e] }) ∧
        (here → depth ≤ b.arrivals.length → b.ring.length < 256 → b.spill ≠ BitVec.allOnes 64 → spill { b with
          ring := b.ring ++ b.arrivals.take 1, arrivals := b.arrivals.drop 1 ++ [e], spill := b.spill + 1 }) ∧
        (¬ here → b.ring.length < 256 → b.spill ≠ BitVec.allOnes 64 → spill { b with ring := b.ring ++ [e], spill := b.spill + 1 }) ∧
        (¬ here ∨ depth ≤ b.arrivals.length → 256 ≤ b.ring.length → exec (.arrivalAppend n) s = .next s)) ∧
    (core.tenant = some tn → core.leaving = false →
      (sliceOver s g.toNat tn = false → exec (.timeSliceExpiry g) s = .next s) ∧
      (sliceOver s g.toNat tn = true → competitors s g.toNat (some tn) = [] → exec (.timeSliceExpiry g) s = .next (s.modCore g.toNat fun x =>
        { x with sliceStart := s.cycle })) ∧
      (sliceOver s g.toNat tn = true → competitors s g.toNat (some tn) ≠ [] → lastRetired s g tn = false → saveRoom s g tn = true →
        (∀ j c, s.ctx g j = some c → savable c = true) → after (.timeSliceExpiry g) fun t => (t.core g.toNat).leaving = true ∧
          ∀ j, t.ctx g j = none ∧ ∀ c, s.ctx g j = some c → ∃ x, (j.toNat, x) ∈ tget [] (t.core g.toNat).saved tn.toNat ∧
            x.regs = c.regs ∧ x.pc = c.pc ∧ x.tid = c.tid ∧ x.tenant = c.tenant)) ∧
    (let back := tget [] core.saved tn.toNat
     let block (u : State) := (tget none core.blocks tn.toNat).map fun b => (areaBlock u g tn b).regs
     let area (u : State) (j : Nat) (c : Ctx) : List Byte := homeBytes u c.tenant (savePieces u (saveBase u g.toNat c.tenant + 0x1000 * j) 4096)
     let passed (u t : State) : Prop := let x := t.core g.toNat
      x.tenant = some tn ∧ x.leaving = false ∧ x.sliceStart = s.cycle ∧ tget [] x.saved tn.toNat = [] ∧
      x.regs.s = ((block u).map (·.s)).getD [] ∧ x.regs.tiles = ((block u).map (·.tiles)).getD [] ∧
      ∀ e ∈ back, ∃ y, t.ctx g (BitVec.ofNat 4 e.1) = some y ∧ y.tid = e.2.tid ∧
        let r := restoreFields (area u e.1 e.2) e.2
        y.regs = r.regs ∧ y.pc = r.pc ∧ y.fpctl = r.fpctl ∧ y.fpstat = r.fpstat ∧ y.ras = r.ras ∧ y.trap = r.trap
     (back.map (·.1)).Nodup → (∀ e ∈ back, e.1 < 16) → nextTenant s g.toNat = some tn → drained s g.toNat = true →
      (passRoom s g.toNat = true → core.leaving = true ∨ core.tenant = none →
        after (.tenantRestore g tn) (passed (core.tenant.elim s (saveBlock s g)))) ∧
      (∀ o, core.tenant = some o → s.bind g.toNat o = none → core.leaving = false → (∀ j, s.ctx g j = none) →
        after (.tenantHandover g) fun t => passed s t ∧ (t.core g.toNat).blocks = tdel core.blocks tn.toNat)) ∧
    (nextTenant s g.toNat ≠ some tn → exec (.tenantRestore g tn) s = .next s)

/-! ### Events of launches and messages -/

/-- R224–R226, R241, R251, R253–R255, R264, R266, R267, R274, R283, R287: launches and messages. The doorbell moves PROD, or sets OVF; the
next record starts waiting, or is reported with its reason; a waiting launch binds its cores, each with its tile tasks; a launch
with nothing left reports and unbinds; the exit mark and a failed work area are seen; a message enters the mailbox of the context that
holds its TID, or is dropped; a continuation whose condition holds is queued on its home. -/
def Obligations.LaunchEvents : Prop :=
  ∀ (tn : TenantNo) (g : GCore) (lid n : Nat) (v : Word) (s : State),
    let after (i : Instr) (P : State → Prop) : Prop := ∃ t, exec i s = .next t ∧ P t
    let low (x : Word) : Nat := x.toNat % 2 ^ 32
    let cons (t : State) : Nat := (t.cfgAt (lqCons tn)).toNat
    let reported (l : Launch) (d0 d1 : Word) (u t : State) : Prop := ∀ p d, caddrPieces u l = [p] → placeOf s.part p.pa = .dram d → l.dw 8 = 0 →
      t.memBytes p.pa 16 = bytesOf 8 d0.toNat ++ bytesOf 8 d1.toNat
    (low (v - s.cfgAt (lqCons tn)) ≤ lqSize s tn → after (.lqprodWrite tn v) fun t => t.cfgAt (lqProd tn) = BitVec.ofNat 64 (low v) ∧
      t = { s with cfg := t.cfg }) ∧
    (lqSize s tn < low (v - s.cfgAt (lqCons tn)) → after (.lqprodWrite tn v) fun t => t.cfgAt (lqProd tn) = s.cfgAt (lqProd tn) ∧
      (t.cfgAt (lqCtl tn)).getLsbD 33 = true ∧ t = { s with cfg := t.cfg }) ∧
    ((s.cfgAt (lqCtl tn)).getLsbD 32 = true → s.tenEn tn = true → lqPending s tn ≠ 0 → waitingLaunch s tn = none →
      (readRecord s tn = none → after (.launchRecordTake tn) fun t => t.launches = s.launches ∧ cons t = (low (s.cfgAt (lqCons tn)) + 1) % 2 ^ 32 ∧
        t.nextLid = s.nextLid + 1 ∧ t.mem = s.mem) ∧
      ∀ bs, readRecord s tn = some bs →
        let l : Launch := { lid := s.nextLid, tenant := tn, words := (List.range 32).map (dwordAt bs) }
        (rejectReason s l = 0 → after (.launchRecordTake tn) fun t => ∃ l', t.launches = s.launches ++ [l'] ∧ l'.lid = l.lid ∧
          l'.tenant = tn ∧ l'.words = l.words ∧ l'.exiting = false ∧ l'.stopped = none ∧ t.cfg = s.cfg ∧ t.nextLid = s.nextLid + 1) ∧
        (rejectReason s l ≠ 0 → reportRoom s l = true → after (.launchRecordTake tn) fun t => t.launches = s.launches ∧
          cons t = (low (s.cfgAt (lqCons tn)) + 1) % 2 ^ 32 ∧ t.nextLid = s.nextLid + 1 ∧
          reported l (BitVec.ofNat 64 (rejectReason s l * 256 + 2)) 0 s t)) ∧
    ((s.cfgAt (lqCtl tn)).getLsbD 32 = false ∨ lqPending s tn = 0 → exec (.launchRecordTake tn) s = .next s) ∧
    (∀ l, waitingLaunch s tn = some l →
      (mustWait s l = true → exec (.launchStart tn) s = .next s) ∧
      (mustWait s l = false → after (.launchStart tn) fun t => cons t = (low (s.cfgAt (lqCons tn)) + 1) % 2 ^ 32 ∧ t.launches = s.launches ∧
        (∀ h ∈ l.cores s, ∃ b, t.bind h tn = some b ∧ b.lid = l.lid ∧ b.lcore = BitVec.ofNat 12 (l.lcore h) ∧ b.tileLo = 0 ∧
          b.tileHi = (if l.chosen h then l.tiles h else 0) ∧ b.sent = BitVec.ofNat 64 b.tileHi ∧ b.rcvd = 0 ∧ b.deque = [] ∧
          b.arrivals = [] ∧ b.ring = [] ∧ b.parkt.toNat = low (l.dw 4) ∧ b.qpto.toNat = (l.dw 4).toNat / 2 ^ 32) ∧
        ∀ h x, h ∉ l.cores s ∨ x ≠ l.tenant → t.bind h x = s.bind h x)) ∧
    (∀ l, s.launch? lid = some l → l.dead = false →
      let cores := (launchCores s l.tenant lid).map (·.1)
      let u := cores.foldl (lastRelease l.tenant) s
      (hasContext s lid = true ∨ (l.stopped = none ∧ hasQueued s l = true) → exec (.launchComplete lid) s = .next s) ∧
      (cores ≠ [] → hasContext s lid = false → l.stopped ≠ none ∨ hasQueued s l = false →
        leesRoom s (cores.flatMap fun h => lastCells s h l.tenant) = true → reportRoom s l = true → after (.launchComplete lid) fun t =>
          t.launch? lid = none ∧ (∀ h b, s.bind h l.tenant = some b → b.lid = lid → t.bind h l.tenant = none) ∧
          let lost := BitVec.ofNat 64 (min l.discarded (2 ^ 32 - 1) * 2 ^ 32)
          (∀ a, l.stopped = some a → reported l (lost + 3) a u t) ∧
          (l.stopped = none → l.failures = [] → reported l (lost + if l.exiting then 1 else 0) 0 u t) ∧
          (∀ tl job, l.stopped = none → l.failures = [(tl, job)] → tl < 4 → reported l (lost + BitVec.ofNat 64 (tl * 2 ^ 16) +
            if l.exiting then 5 else 4) (BitVec.ofNat 64 job) u t)) ∧
      (∀ b, s.bind g.toNat l.tenant = some b → b.lid = lid →
        (l.exiting = true → exec (.exitMarkSeen g lid) s = .next (s.setBind g.toNat l.tenant (some { b with seenExit := true }))) ∧
        (l.exiting = false → exec (.exitMarkSeen g lid) s = .next s) ∧
        (l.area g.toNat ≤ v.toNat → v.toNat < l.area g.toNat + 0x20000 → l.stopped = none →
          (∃ e, check s g.toNat l.tenant .wr v.toNat 1 = .error e) → after (.workAreaFault lid v) fun t =>
            (t.launch? lid).map (·.stopped) = some (some v) ∧ t = { s with launches := t.launches }))) ∧
    (∀ m, s.fl.mesh[n]? = some m →
      let dst := tidCore m.dst
      let first := ∀ x ∈ s.fl.mesh.take n, ¬ (x.src = m.src ∧ x.dst = m.dst ∧ x.line = m.line ∧ x.hi = m.hi)
      let sent (t : State) : Prop := t.fl.mesh = dropAt s.fl.mesh n ∧ (m.accepted = false → ∀ h j o,
        (allOuts s).filter (fun e => e.2.2.id == m.out) = [(h, j, o)] → isSend o.i = true → o.port = {} → t.outOf h j o.id = none)
      (¬ first → exec (.messageAccept n) s = .next s) ∧
      (first → mailHolder s dst m.dst = none → savedHolder s dst m.dst = none → after (.messageAccept n) fun t => sent t ∧
        (∀ h, (t.core h).mail = (s.core h).mail) ∧
        ∀ b, s.bind (tidCore m.src) m.tenant = some b → b.lid = m.lid →
          (t.bind (tidCore m.src) m.tenant).map (·.rcvd) = some (b.rcvd + if m.accepted then 0 else 1)) ∧
      (∀ c, first → mailHolder s dst m.dst = some c → c.tenant = m.tenant →
        (let held := ((s.core dst).mail.filter fun x => x.line == m.line && !x.spilled).length
         held < (if m.line then 16 else 64) → after (.messageAccept n) fun t => sent t ∧ (t.core dst).mail = (s.core dst).mail ++ [m]) ∧
        (((s.core dst).mail.filter fun x => x.line == m.line && !x.spilled).length = (if m.line then 16 else 64) →
         ((s.core dst).mail.filter fun x => x.spilled && x.tenant == spillOwner (s.core dst).mail m).length = 32 → exec (.messageAccept n) s = .next s))) ∧
    (∀ r, s.fl.conds[n]? = some r →
      (contHolds s r.kind = true → leesRoom s [(r.pa, 0)] = true → after (.continuationQueue n) fun t =>
        (∀ x ∈ t.fl.conds, x.pa ≠ r.pa) ∧ (∃ e, t.fl.arrivals = s.fl.arrivals ++ [⟨r.home, r.tenant, e⟩] ∧ e.kind = .resumed ∧ e.pa = r.pa ∧
          e.task.lid = r.lid) ∧
        ∀ b, s.bind r.home.toNat r.tenant = some b → b.lid = r.lid → (t.bind r.home.toNat r.tenant).map (·.sent) = some (b.sent + 1)) ∧
      (contHolds s r.kind = false → r.late = false → s.cycle < r.deadline → exec (.continuationQueue n) s = .next s))

/-! ### Events of the memory system -/

/-- R83, R115, R137, R158, R168, R175, R177, R178, R192–R201, R236, R243: the events of the memory system. A waiting publication writes
its bytes once there is room, in its core's order; old versions that every snapshot holds are let go; a window of the sluice
changes the degree of each region, and two quiet halves merge; the reserved turn of a scratchpad serves a remote load; outstanding
reductions, counts of STC and waves are performed; a line is recalled, a copy folded, an accumulator line and a slice evicted. -/
def Obligations.MemoryEvents : Prop :=
  ∀ (g : GCore) (d : DieNo) (n line : Nat) (s : State),
    let after (i : Instr) (P : State → Prop) : Prop := ∃ t, exec i s = .next t ∧ P t
    let hdr := tget 0 s.coh.hdr line
    let key := line * 4096 + g.toNat
    let seatedOut (h : GCore) (o : Out) : Prop := o.port = {} ∧ o.shadow = [] ∧ ∀ p ∈ (s.core h.toNat).parked, ∀ x ∈ p.ctx.iss.outs, x.id ≠ o.id
    (∀ w, s.coh.waiting[n]? = some w →
      ((∃ x ∈ s.coh.waiting.take n, x.g = w.g) ∨ leesRoom (s.asWho w.g 0) w.cells = false → exec (.publicationComplete n) s = .next s) ∧
      ((∀ x ∈ s.coh.waiting.take n, x.g ≠ w.g) → leesRoom (s.asWho w.g 0) w.cells = true → w.cells ≠ [] → (w.cells.map fun c => cellAddr c.1).Nodup →
        after (.publicationComplete n) fun t => t.coh.waiting = dropAt s.coh.waiting n ∧
          (∃ p ∈ t.coh.pubs, p.src = .core w.g ∧ p.scope = w.scope ∧ p.cells.map (fun c => (c.1, c.2.2)) = w.cells) ∧
          (∀ c ∈ w.cells, t.memAt c.1 = c.2) ∧ ∀ h, (t.core h).ph.unpub = (s.core h).ph.unpub)) ∧
    (after .leesRelease fun t => t = { s with coh := { s.coh with pubs := t.coh.pubs } } ∧ ∃ m, t.coh.pubs = s.coh.pubs.drop m ∧
      (∀ p ∈ s.coh.pubs.take m, takenByAll s p = true) ∧ ∀ p, t.coh.pubs.head? = some p → takenByAll s p = false) ∧
    (after .sluiceWindow fun t => t.cycle = (s.cycle / 65536 + 1) * 65536 ∧ t.mem = s.mem ∧ t.ctxs = s.ctxs ∧
      ∀ e r, e < s.part.dies → r ∈ (s.die e).regions → ((s.die e).regions.map fun x => (x.line, x.gran)).Nodup →
        ∃ r' ∈ (t.die e).regions, r'.line = r.line ∧ r'.gran = r.gran ∧ r'.writes = [] ∧ r'.touches = [] ∧
          r'.rises = [] ∧ r'.evicts = [] ∧
          r'.deg = (if r.writes ≠ [] ∨ (∃ x ∈ r.evicts, 4 ≤ (r.evicts.filter fun y => y.1 == x.1).length) then r.deg - 1
            else if r.rises ≠ [] then min (r.deg + 1) (s.part.dies - 1) else r.deg) ∧ (regionDies t r').length ≤ r'.deg) ∧
    (∀ a b, (s.die d.toNat).regions[n]? = some a → (s.die d.toNat).regions.find? (mayMerge s a) = some b →
      after (.regionMerge d n) fun t => ∃ m, (t.die d.toNat).regions = m :: (s.die d.toNat).regions.filter (fun x => x != a && x != b) ∧
        m.line = min a.line b.line ∧ m.gran = a.gran + 1 ∧ m.deg = min a.deg b.deg ∧ (regionDies t m).length ≤ m.deg) ∧
    (∀ a, (s.die d.toNat).regions[n]? = some a → (∀ b ∈ (s.die d.toNat).regions, mayMerge s a b = false) →
      exec (.regionMerge d n) s = .next s) ∧
    (∀ h k o c ct sz sgn a b m p, let cc := (max s.cycle (s.core g.toNat).reserved + 63) / 64 * 64
      remoteOuts { s with cycle := cc } g = [(h, k, o)] → s.ctx h k = some c → c.iss.outs = [o] → o.i = .ld ct sz sgn a b m →
      seatedOut h o → o.wait = none → o.src.bs = none → o.src.got = [] → o.src.sent = 0 → o.src.ps = [p] → p.n = sizeBytes sz →
      p.pa % p.n = 0 → 0 < a.toNat → a.toNat < 64 →
      let v := s.asWho h k
      isRemote v p = true → spadDenied v .rd [p] = none → lostIn v [p] = none → (∀ l ∈ pieceLines p, tget 0 s.coh.hdr l = 0) →
      pushedCells v = [] → (∀ i, i < p.n → mixedAt s p.n (p.pa + i) = false) →
      after (.remoteSpadTurn g) fun t => t.cycle = cc ∧ ∃ x, t.ctx h k = some x ∧
        x.iss.outs = [] ∧ tget 0 x.regs.g a.toNat = (let w := ofBytes (coreBytes v h.toNat c.tenant [p])
          if sgn then (BitVec.ofNat (8 * p.n) w).signExtend 64 else BitVec.ofNat 64 w)) ∧
    (exec (.lineRecall line) s = .next { s with coh := { s.coh with owned := tset none s.coh.owned line none } }) ∧
    (tget [] s.coh.copies key = [] → exec (.copyEvictFold g line) s = .next s) ∧
    (∀ i x e, tget [] s.coh.copies key = [(i, some x)] → placeOf s.part (line * 128) = .dram e → hdr ≠ 0 → i * hdrElem hdr < 128 →
      after (.copyEvictFold g line) fun t => tget [] t.coh.copies key = [] ∧ t.ctxs = s.ctxs ∧
        let a := line * 128 + i * hdrElem hdr
        t.memBytes a (hdrElem hdr) = bytesOf (hdrElem hdr)
          (accApply (hdrFmt hdr) (hdrOp hdr) (ofBytes (s.memBytes a (hdrElem hdr))) (hdrFmt hdr) x.toNat)) ∧
    (after (.accLineEvict line) fun t => t = { s with coh := { s.coh with hdr := t.coh.hdr } } ∧
      tget 0 t.coh.hdr line = (if hdr = 0 then 0 else hdr ||| 0x80) ∧ ∀ l, l ≠ line → tget 0 t.coh.hdr l = tget 0 s.coh.hdr l) ∧
    (after (.sliceEviction g line) fun t => t = { s with coh := { s.coh with sliceHome := t.coh.sliceHome } } ∧
      (tget [] s.coh.slices key ≠ [] → key ∈ t.coh.sliceHome)) ∧
    (∀ h k o q, (outsOf s isRed)[n]? = some (h, k, o) → s.outOf h k o.id = some o → mayPerform s h k o = true → o.src.ps = [q] →
      exec (.reductionApply n) s = exec (.longLatencyComplete h k o.id) s ∧
      ∀ ct rel dbl op sc a b m, o.i = .red ct rel (.flt dbl op) sc a b m → seatedOut h o →
        CanUpdate (s.asWho h k) op sc 0 q →
        let v := s.asWho h k
        let hd := tget 0 s.coh.hdr (lineOf q.pa)
        let xs := [(q.pa % 128 / hdrElem hd, (o.src.w.headD 0).toNat % 2 ^ (if dbl then 64 else 32))]
        let u := mixUpd v (updLine v (.core h) h sc (leafCl q.leaf == 0) (lineOf q.pa) (if dbl then .f64 else .f32) xs) sc (hdrElem hd)
          (elemAddrs (lineOf q.pa) hd xs)
        after (.reductionApply n) fun t => t.outOf h k o.id = none ∧ t.mem = u.mem ∧ t.coh = u.coh) ∧
    (∀ h k o q e, (outsOf s (fun i => match i with | .stc .. => true | _ => false))[n]? = some (h, k, o) → mayPerform s h k o = true →
      seatedOut h o → o.src.job = 1 → o.src.w.length = 1 → o.src.qs = [q] → placeOf s.part q.pa = .dram e →
      objTrap .wr 3 [q] (s.asWho h k) = none → objRoom (s.asWho h k) [q] = true → q.n = 128 →
      after (.stcCount n) fun t => t.outOf h k o.id = none ∧
        t.memBytes (q.pa + 8) 4 = bytesOf 4 (min (objArrived (objBytes (s.asWho h k) [q]) + 1) (2 ^ 32 - 1))) ∧
    (∀ h k o ct a b, (outsOf s (fun i => match i with | .qwave .. => true | _ => false))[n]? = some (h, k, o) → s.outOf h k o.id = some o →
      mayPerform s h k o = true → seatedOut h o → o.i = .qwave ct a b → 0 < o.src.job → objTrap .wr 1 o.src.ps (s.asWho h k) = none →
      let v := s.asWho h k
      let sent := o.src.w.headD 0
      let rcvd := o.src.w.getD 1 0
      (∀ c x, waveCore v (o.src.job - 1) = some (c, x) → after (.qwaveCollect n) fun t =>
        (t.outOf h k o.id).map (·.src) = some { o.src with w := [sent + x.sent, rcvd + x.rcvd], job := c + 2 }) ∧
      (waveCore v (o.src.job - 1) = none → (∀ p ∈ o.src.ps, isRemote v p = false) → objRoom v o.src.ps = true → 0 < a.toNat → a.toNat < 64 → after (.qwaveCollect n) fun t =>
        t.outOf h k o.id = none ∧ (t.ctx h k).map (fun x => tget 0 x.regs.g a.toNat) = some (
          let bs := objBytes v o.src.ps
          if (dwordAt bs 0).getLsbD 32 = true ∧ sent = rcvd ∧ sent = dwordAt bs 1 ∧ rcvd = dwordAt bs 2 then 1 else 0)))

/-! ### Events of the units -/

/-- R390, R391, R408, R411–R413: the events of the press. The next request of a die starts when no SMPLV runs there: SMPL and SMCOMMIT run to
their end, SMPLV reads its blocks and walks the tree, from node to node, until a boundary ends it; a failing request is done with its
code; a cancel drops the sequence's verdicts and marks its requests. -/
def Sys2Proof.Claim.PressEvents : Prop :=
  ∀ (d : DieNo) (tn : TenantNo) (seq : Word) (s : State),
    let after (i : Instr) (P : State → Prop) : Prop := ∃ t, exec i s = .next t ∧ P t
    let die := s.die d.toNat
    let ends (j : PrJob) (code : Nat) (t : State) : Prop := isDone t j.g.toNat 3 j.job = true ∧
      (code ≠ 0 → (t.core j.g.toNat).eng.pressFail = ⟨BitVec.ofNat 8 code, j.job⟩) ∧
      (code = 0 → (t.core j.g.toNat).eng.pressFail = (s.core j.g.toNat).eng.pressFail)
    (die.walk ≠ none ∨ die.press = [] → exec (.pressRequestStart d) s = .next s) ∧
    (∀ j r, die.walk = none → die.press = j :: r →
      let u := s.modDie d.toNat fun x => { x with press := r }
      let starts (code : Nat) (P : State → Prop) : Prop := after (.pressRequestStart d) fun t => (t.die d.toNat).press = r ∧ ends j code t ∧
        (t.die d.toNat).walk = none ∧ P t
      (∀ q v, j.cancel = true → j.cmd = .smcommit q v → starts 0 fun t => t.mem = s.mem ∧ (t.die d.toNat).verdicts = die.verdicts) ∧
      (j.cancel = false →
        (∀ a x, j.cmd = .smpl a → runSmpl u d.toNat j a = .ok x → starts 0 fun t => t.mem = x.mem) ∧
        (∀ a c, j.cmd = .smpl a → runSmpl u d.toNat j a = .error (.fail c) → c ≠ 0 → starts c fun t => t.mem = s.mem) ∧
        (∀ q v, j.cmd = .smcommit q v → (∀ y ∈ die.verdicts, ¬ (y.tenant = j.tenant ∧ va56 y.seq = va56 q)) →
          starts 10 fun t => t.mem = s.mem) ∧
        (∀ q v y, j.cmd = .smcommit q v → verdictOf s d.toNat j.tenant q = some y → y.job = v → ∀ b x ws z w, q.toNat % 64 = 0 →
          engRead u j.g.toNat j.tenant q 64 = .ok (b, x) → seqOk b = true → countWrites x j.g.toNat j.tenant b (y.toks ++ [y.next]) = .ok (ws, z) →
          prWrites z j.g j.tenant (ws ++ [(q + 8, bytesOf 8 (seqStep b + BitVec.ofNat 64 (y.toks.length + 1)).toNat)]) = .ok w →
          starts 0 fun t => t.mem = w.mem ∧ y ∉ (t.die d.toNat).verdicts) ∧
        (∀ a w x, j.cmd = .smplv a → startTree u d.toNat j a = .ok (w, x) → after (.pressRequestStart d) fun t =>
          (t.die d.toNat).press = r ∧ (t.die d.toNat).walk = some w ∧ w.job = j ∧ w.node = 0 ∧ w.depth = 0 ∧ w.path = []) ∧
        (∀ a c, j.cmd = .smplv a → startTree u d.toNat j a = .error c → c ≠ 0 → starts c fun t => t.mem = s.mem))) ∧
    (die.walk = none → exec (.pressNodeBoundary d) s = .next s) ∧
    (∀ w, die.walk = some w →
      let put (bs : List Byte) : Except EngEnd State := prWrites s w.job.g w.job.tenant [(dwordAt w.req 9, bs)]
      let walked (P : State → Prop) : Prop := after (.pressNodeBoundary d) fun t => (t.die d.toNat).walk = none ∧ ends w.job 0 t ∧ P t
      (∀ u, w.job.cancel = true → put (verdictRecord true 0 (seqStep w.blk) [] []) = .ok u → walked fun t => t.mem = u.mem ∧
        (t.die d.toNat).verdicts = (u.die d.toNat).verdicts) ∧
      (w.job.cancel = false →
        let p := w.p.map fun x => x.toNat
        (∀ u, w.leaf = true →
          let next := if isGreedy w.chain then prArgMax p else prSample p (prDraw w.blk (seqStep w.blk + BitVec.ofNat 64 w.depth) 1)
          let toks := w.path.map fun c => w.drafts.getD c 0
          put (verdictRecord false next (seqStep w.blk) w.path toks) = .ok u → walked fun t => t.mem = u.mem ∧
            (t.die d.toNat).verdicts = (u.die d.toNat).verdicts ++ [⟨w.job.tenant, w.job.g, dwordAt w.req 0, w.job.job, toks, BitVec.ofNat 32 next⟩]) ∧
        (w.leaf = false → liveKids w w.node = [] → after (.pressNodeBoundary d) fun t => (t.die d.toNat).walk = some { w with leaf := true }) ∧
        (∀ c p' q' w' u, w.leaf = false → tryKids w (liveKids w w.node) p (w.q.map fun x => x.toNat) = (some c, p', q') →
          prAt s { w with depth := w.depth + 1 } c (w.path ++ [c]) = .ok (w', u) → after (.pressNodeBoundary d) fun t =>
            (t.die d.toNat).walk = some w' ∧ w'.node = c ∧ w'.depth = w.depth + 1 ∧ w'.path = w.path ++ [c] ∧ w'.leaf = false))) ∧
    (after (.prcancWrite tn d seq) fun t =>
      let same (x : Word) : Prop := x.toNat % 2 ^ 56 = seq.toNat % 2 ^ 56
      (∀ v ∈ (t.die d.toNat).verdicts, v ∈ die.verdicts ∧ ¬ (v.tenant = tn ∧ same v.seq)) ∧
      (∀ v ∈ die.verdicts, ¬ (v.tenant = tn ∧ same v.seq) → v ∈ (t.die d.toNat).verdicts) ∧
      (∀ w, die.walk = some w → ∃ w', (t.die d.toNat).walk = some w' ∧
        (w'.job.cancel = true ↔ w.job.cancel = true ∨ (w.job.tenant = tn ∧ same (dwordAt w.req 0)))) ∧
      (t.die d.toNat).press.length = die.press.length ∧ t.mem = s.mem)

/-- R299, R302–R304, R320, R352, R353, R356, R371, R436, R437: the events of the trellis units, of the special-function unit, of the streams
and of the TLBs. A unit with room takes its thread's earliest rope instruction, and finishes it; a reclaimed piece line heads the pomace
list; a request starts every 4 cc at most and writes its lanes 20 cc later; the next element of a read stream is read ahead, and the
oldest pushed element of a write stream is stored; an invalidation drops the entries of its range. -/
def Sys2Proof.Claim.OtherUnitEvents : Prop :=
  ∀ (g : GCore) (k : Slot) (d : DieNo) (u4 : BitVec 4) (sr : BitVec 2) (n : Nat) (s : State),
    let after (i : Instr) (P : State → Prop) : Prop := ∃ t, exec i s = .next t ∧ P t
    let eng := (s.core g.toNat).eng
    let unit := g.toNat / 8 % 64 % 16
    let home := g.toNat / 512
    let parkedHas (h : GCore) (i : Nat) : Prop := ∃ p ∈ (s.core h.toNat).parked, ∃ x ∈ p.ctx.iss.outs, x.id = i
    (∀ c o, s.ctx g k = some c → c.iss.outs.find? (fun x => isRope x.i && x.trap.isNone) = some o → ¬ parkedHas g n →
      let held := ((s.die home).ropes.filter fun r => r.unit == unit).length
      (o.id ≠ n → exec (.ropeUnitAccept g k n) s = .next s) ∧
      (s.outOf g k n = some o → (∀ r ∈ (s.die home).ropes, r.out ≠ n) →
        (held < 8 → after (.ropeUnitAccept g k n) fun t =>
          (t.die home).ropes = (s.die home).ropes ++ [⟨g, k, n, unit⟩] ∧ t.ctxs = s.ctxs ∧ t.mem = s.mem) ∧
        (8 ≤ held → o.src.job ≠ 0 → exec (.ropeUnitAccept g k n) s = .next s) ∧
        (8 ≤ held → o.src.job = 0 → after (.ropeUnitAccept g k n) fun t => t.ctx g k = some { c with iss := { c.iss with
          outs := c.iss.outs.map fun x => if x.id = n then { x with src := { x.src with job := s.cycle + 1 } } else x } }))) ∧
    (∀ r o, ((s.die d.toNat).ropes.filter fun r => r.unit == u4.toNat)[n]? = some r → s.outOf r.g r.k r.out = some o → o.port = {} →
      ¬ parkedHas r.g r.out →
      let v := (s.asWho r.g r.k).modCtx r.g r.k fun c => { c with iss := { c.iss with
        port := {}, pair := none, upon := o.upon, shadow := o.shadow, wait := o.wait } }
      let gone (t : State) : Prop := t.outOf r.g r.k r.out = none ∧ ∀ x ∈ (t.die d.toNat).ropes, x.out ≠ r.out
      (∀ x, perfRope o.i o.src v = .done x → x.c.iss.port = {} → after (.ropeComplete d u4 n) fun t => gone t ∧ t.mem = x.mem ∧
        (t.ctx r.g r.k).map (·.regs) = (x.ctx r.g r.k).map (·.regs)) ∧
      (∀ tr, perfRope o.i o.src v = .trap tr → after (.ropeComplete d u4 n) fun t => gone t ∧ t.mem = s.mem ∧
        (t.ctx r.g r.k).map (·.regs) = (s.ctx r.g r.k).map (·.regs))) ∧
    (∀ r, (s.die d.toNat).reclaim[n]? = some r →
      let e := ropeEnv s r.g r.tenant
      (∀ p h, e.poolLine r.line = true → r.node = false → r.g.toNat / 512 = d.toNat → check s r.g.toNat r.tenant .wr r.line 8 = .ok [p] → placeOf s.part p.pa = .dram h →
        leesRoom s (pieceCells [p] (bytesOf 8 0)) = true → after (.ropeReclaim d n) fun t =>
          (t.die d.toNat).reclaim = dropAt (s.die d.toNat).reclaim n ∧ t.cfgAt (pomHead r.tenant d.toNat) = BitVec.ofNat 64 (r.line / 128 % 2 ^ 41 * 128) ∧
          (t.cfgAt (pomCnt r.tenant d.toNat)).toNat = ((s.cfgAt (pomCnt r.tenant d.toNat)).toNat % 2 ^ 40 + 1) % 2 ^ 40 ∧
          t.memBytes p.pa 8 = bytesOf 8 ((s.cfgAt (pomHead r.tenant d.toNat)).toNat / 128 % 2 ^ 41 * 128)) ∧
      (e.poolLine r.line = false → (s.cfgAt (ropeStat r.tenant d.toNat)).getLsbD 63 = false → after (.ropeReclaim d n) fun t =>
        (t.die d.toNat).reclaim = dropAt (s.die d.toNat).reclaim n ∧ t.mem = s.mem ∧
        t.cfgAt (ropeStat r.tenant d.toNat) = BitVec.ofNat 64 (2 ^ 63 + r.line % 2 ^ 48))) ∧
    (∀ r rs, eng.sfuQ = r :: rs →
      (eng.sfuNext ≤ s.cycle → exec (.sfuStart g) s = .next (s.modCore g.toNat fun c => { c with eng := { c.eng with
        sfuQ := rs, sfuRun := eng.sfuRun ++ [(r, s.cycle)], sfuNext := s.cycle + 4 } })) ∧
      (s.cycle < eng.sfuNext → exec (.sfuStart g) s = .next s)) ∧
    (∀ r t0 rs c, eng.sfuRun = (r, t0) :: rs → s.ctx r.g r.k = some c →
      (s.cycle < t0 + 20 → exec (.sfuResultWrite g) s = .next s) ∧
      (t0 + 20 ≤ s.cycle → r.elems = none → r.dst.shared = false → r.last = true → c.iss.shadow = [] →
        (∀ o ∈ c.iss.outs, o.id = r.out → o.shadow = []) → after (.sfuResultWrite g) fun t =>
        (t.core g.toNat).eng.sfuRun = rs ∧ (∀ x, t.ctx r.g r.k = some x → ∀ o ∈ x.iss.outs, o.id ≠ r.out) ∧
        let f (i : Nat) : W32 × BitVec 6 := sfuLane (sfuFnOf r.i) (BitVec.ofNat 32 (r.src.toNat / 2 ^ (32 * i)))
        (∀ i, i < 16 → laneV (t.asWho r.g r.k) r.dst 32 i =
          if r.mask.getLsbD i then (f i).1.toNat else laneV (s.asWho r.g r.k) r.dst 32 i) ∧
        (t.ctx r.g r.k).map (·.fpstat) = some (((List.range 16).filter fun i => r.mask.getLsbD i).foldl (fun x i => x ||| (f i).2) c.fpstat))) ∧
    (∀ c, s.ctx g k = some c →
      let reg : VReg := ⟨false, 28 + sr.setWidth 5⟩
      let v := s.asWho g k
      let x := v.stream reg
      (∀ ps, x.st = .running → x.wr = false → x.ahead.length < x.left → (x.ahead.length + 1) * 2 ^ x.size.toNat ≤ 512 →
        (∀ e ∈ x.ahead, ∃ va qs bs, e = .ok va qs bs) → pushedCells v = [] → check v g.toNat c.tenant .rd (x.addr x.ahead.length) (2 ^ x.size.toNat) = .ok ps →
        (∀ p ∈ ps, isRemote v p = false ∧ ∀ l ∈ pieceLines p, tget 0 s.coh.hdr l = 0) → spadDenied v .rd ps = none → lostIn v ps = none →
        after (.streamReadahead g k sr) fun t => ((t.asWho g k).stream reg).ahead =
          x.ahead ++ [.ok (x.addr x.ahead.length) ps (coreBytes v g.toNat c.tenant ps)] ∧ ((t.asWho g k).stream reg).left = x.left ∧ t.mem = s.mem) ∧
      (x.st ≠ .running ∨ x.left ≤ x.ahead.length ∨ x.wr = true → exec (.streamReadahead g k sr) s = .next s) ∧
      (∀ p ps, x.pushed = p :: ps → after (.streamStorePerform g k sr) fun t =>
        let w := storeNow v g.toNat c.tenant 0 p.1 p.2
        t.mem = w.mem ∧ t.cores = w.cores ∧ ((t.asWho g k).stream reg).pushed = ps) ∧
      (x.pushed = [] → exec (.streamStorePerform g k sr) s = .next s)) ∧
    (∀ i, s.fl.invs[n]? = some i → after (.tlbInvalidateDeliver n) fun t =>
      (t.fl.invs[n]?).map (·.delivered) = some true ∧ t.mem = s.mem ∧ t.ctxs = s.ctxs ∧
      ∀ h, inScope i.scope h i.g.toNat = true → ∀ e ∈ (t.core h).cache.tlb, e ∈ (s.core h).cache.tlb ∧
        ¬ (e.tenant = i.tenant ∧ e.page * 2 ^ e.bits < i.lo + i.len ∧ i.lo < e.page * 2 ^ e.bits + 2 ^ e.bits))

/-! ### Errors, power, reset, registers -/

/-- R438–R440, R442, R447–R451, R479, R480, R482: errors, dead dies, power, reset and the registers of configuration space. A die declared
dead leaves DEADMASK, holds no context, and the accumulator lines that its cores held are lost; a line without another copy is lost; the
throttle moves one step at a time; a reset loses the device's state and keeps the host's, and the boot passes or stops at a step; the
standby controller takes over once; a tenant's reset leaves nothing of it; a fresh key discards what lay under the old one. -/
def Obligations.FaultEvents : Prop :=
  ∀ (d : DieNo) (tn : TenantNo) (line : Nat) (s : State),
    let after (i : Instr) (P : State → Prop) : Prop := ∃ t, exec i s = .next t ∧ P t
    let module (off : Nat) : Nat := 0x6000000000000 + off
    let lostOrDead (t : State) (l : Nat) : Prop := lineLost t (l * 128) = true ∨ t.alive (homeDie s (l * 128)) = false
    let gone (t : State) : Prop := t.ctxs = [] ∧ t.cores = [] ∧ t.binds = [] ∧ t.launches = [] ∧ t.coh = {} ∧ t.cycle = 0 ∧
      ∀ a, t.memAt a = if a < hostBase then 0 else s.memAt a
    (s.alive d.toNat = true → after (.agentDead d) fun t => t.alive d.toNat = false ∧ (∀ e, s.alive e = false → t.alive e = false) ∧
      (∀ g k, dieOf g.toNat = d.toNat → t.ctx g k = none) ∧ (t.die d.toNat).l2 = [] ∧
      (∀ l ∈ t.coh.mirror, Nat.xor (homeDie s (l * 128)) 1 ≠ d.toNat) ∧
      (∀ l ∈ heldPartials s d.toNat, lostOrDead t l) ∧ ((∃ x ∈ s.linkUp, x = true) → (16, 0) ∈ t.msix) ∧ t.mem = s.mem) ∧
    (s.alive d.toNat = false → exec (.agentDead d) s = .next s) ∧
    (∀ e, placeOf s.part (line * 128) = .dram e →
      let mirrored := attrMir (tget 0 s.coh.attr line)
      let buddy := s.alive (Nat.xor e 1)
      let lost (cause : BitVec 3) : Prop := after (.uncorrectableError line) fun t => lostOrDead t line ∧ t.mem = s.mem ∧
        (lineLost s (line * 128) = false → (s.die e).lost.length < 4096 → (t.die e).lost = (s.die e).lost ++ [⟨line, cause⟩])
      (s.alive e = false → (mirrored = true → buddy = true → lost 3) ∧
        (mirrored = false ∨ buddy = false → exec (.uncorrectableError line) s = .next s)) ∧
      (s.alive e = true →
        (s.coh.mirror.contains line = true ∨ (∃ x, l2At s e line = some x ∧ x.dirty = false) →
          exec (.uncorrectableError line) s = .next s) ∧
        (s.coh.mirror.contains line = false → (∃ x, l2At s e line = some x ∧ x.dirty = true) → lost (if buddy then 1 else 3)) ∧
        (s.coh.mirror.contains line = false → l2At s e line = none → lost (if mirrored && !buddy then 3 else 1)))) ∧
    (exec (.eccCorrected d) s = .next (s.bumpDie d.toNat 0x0008 1)) ∧
    (∀ (power : BitVec 10) (temp : BitVec 8), 105 ≤ temp.toNat → after (.powerStep power temp) fun t => gone t ∧ t.cfg = [] ∧
      t.linkUp = [false, false]) ∧
    (∀ (power : BitVec 10) (temp : BitVec 8), temp.toNat < 105 → after (.powerStep power temp) fun t => t = { s with cfg := t.cfg } ∧
      let step := (s.cfgAt (module 0x18)).toNat % 16
      let n := if (s.cfgAt (module 0x10)).toNat % 2 ^ 10 < power.toNat ∨ 95 < temp.toNat then min 8 (step + 1) else step - 1
      (t.cfgAt (module 0x18)).toNat = power.toNat * 2 ^ 32 + temp.toNat * 2 ^ 16 + (if n = 0 then 0 else 16) + n) ∧
    (after .thermalTrip fun t => gone t ∧ t.cfg = [] ∧ t.linkUp = [false, false]) ∧
    (∀ f : BitVec 3, after (.moduleReset f) fun t => gone t ∧
      (t.cfgAt (module 0x28) = if f = 0 then BitVec.ofNat 64 (2 ^ 63) else f.setWidth 64) ∧ t.linkUp = (if f = 0 then [true, true] else [false, false]) ∧
      t.sec.standby = (f == 0) ∧ (∀ m, m ∈ t.sec.measured ↔ (m = 1 ∧ f ≠ 1) ∨ (m = 4 ∧ (f = 0 ∨ 6 ≤ f.toNat)) ∨
        ((m = 2 ∨ m = 3) ∧ (f = 0 ∨ f = 7)))) ∧
    (s.sec.standby = true → after .controllerTakeover fun t => t.sec.standby = false ∧ (t.cfgAt (module 0x28)).getLsbD 62 = true ∧
      (∀ i, i ≠ 62 → (t.cfgAt (module 0x28)).getLsbD i = (s.cfgAt (module 0x28)).getLsbD i) ∧ t.ctxs = s.ctxs ∧ t.mem = s.mem) ∧
    (s.sec.standby = false → after .controllerTakeover gone) ∧
    (jobsRun (stopTenant s tn) tn = false → after (.tenantReset tn) fun t => (∀ g k c, t.ctx g k = some c → c.tenant ≠ tn) ∧
      (∀ g, t.bind g tn = none ∧ tget none (t.core g).blocks tn.toNat = none ∧ (t.core g).tenant ≠ some tn) ∧
      (∀ l ∈ t.launches, l.tenant ≠ tn) ∧ (∀ m ∈ t.fl.mesh, m.tenant ≠ tn) ∧ t.cfgAt (lqCons tn) = s.cfgAt (lqProd tn)) ∧
    (∀ slot : BitVec 4, after (.keyGen tn slot) fun t => t.mem = s.mem ∧ t.ctxs = s.ctxs ∧
      tget 0 t.coh.keyGen (tn.toNat * 16 + slot.toNat) = tget 0 s.coh.keyGen (tn.toNat * 16 + slot.toNat) + 1 ∧
      (∀ h, ∀ e ∈ (t.core h).ph.unpub, underKey s tn slot.toNat (lineOf e.1) = false) ∧
      (∀ h, ∀ l ∈ tkeys (t.core h).cache.l1, underKey s tn slot.toNat l = false) ∧
      ∀ e, ∀ l ∈ tkeys (t.die e).l2, underKey s tn slot.toNat l = false) ∧
    (d.toNat < s.part.dies → ∀ (n : BitVec 4) (r : FwReg) (off : Nat) (rw w1c v : Word), (r, off, rw, w1c) ∈
        ([(.cfg, 0, 0x0000FFFFFFFF000D, 0), (.vbase, 8, 0x000FFFFFFFFF0000, 0), (.sbase, 16, 0x000FFFFFFFFFFF80, 0),
          (.scbase, 24, 0x000FFFFFFFFFFFFF, 0), (.stat, 32, 0, 7)] : List (FwReg × Nat × Word × Word)) →
      let a := 0x5000000000000 + d.toNat * 0x1000000 + n.toNat * 64 + off
      after (.fwRegisterWrite d n r v) fun t => t = { s with cfg := t.cfg, cores := t.cores, dies := t.dies } ∧
        (let out (x : Nat) : Bool := !windowLine s d.toNat n.toNat x
         (∀ h, t.core h = { s.core h with cache := { (s.core h).cache with l1 := (s.core h).cache.l1.filter fun x => out x.1 } }) ∧
         ∀ e, t.die e = { s.die e with l2 := (s.die e).l2.filter fun x => out x.1 }) ∧
        t.cfgAt a = (s.cfgAt a &&& ~~~(rw ||| (w1c &&& v))) ||| (v &&& rw) ∧ ∀ b, b ≠ a → t.cfgAt b = s.cfgAt b) ∧
    (∀ (a : Nat) (v : Word),
      (bootStopped s = true → exec (.configRegisterWrite a v) s = .next s) ∧
      (bootStopped s = false →
        (a = module 0x10 → (s.cfgAt a).toNat < 2 ^ 10 → after (.configRegisterWrite a v) fun t => t = { s with cfg := t.cfg } ∧
          (t.cfgAt a).toNat = max 200 (min 720 (v.toNat % 2 ^ 10))) ∧
        (a = tenReg tn 0x220 → after (.configRegisterWrite a v) fun t => t = { s with cfg := t.cfg } ∧
          (t.cfgAt a).toNat % 2 ^ 32 = v.toNat % 2 ^ 32) ∧
        (a = tenReg tn 0x210 → exec (.configRegisterWrite a v) s = exec (.lqprodWrite tn v) s) ∧
        (a % 8 ≠ 0 → ∃ t, exec (.configRegisterWrite a v) s = .next t ∧ ∀ b, t.cfgAt b = s.cfgAt b)))

/-! ### Links -/

/-- R194, R403, R447, R474–R477: the links. A host AtomicOp's completion brings the old value, or PROT; a port that is down takes its
outstanding accesses with PROT until it trains again; the host reads and writes device memory, and its AtomicOps answer with the old
value; a fabric port takes flits in sequence, asks once for those it discards, and replays its retry buffer when it is asked. -/
def Obligations.LinkEvents : Prop :=
  ∀ (i : BitVec 1) (n addr : Nat) (p : BitVec 5) (f : Flit) (s : State),
    let after (i : Instr) (P : State → Prop) : Prop := ∃ t, exec i s = .next t ∧ P t
    let sends (t : State) (m : HostMsg) : Prop := t.fl.toHost = s.fl.toHost ++ [m]
    (∀ g k o r (old : BitVec 128), findOut s n = some (g, k, o) → rmwOf o.i o.src = some r → o.src.ps.any (nonCoherent s) = true →
      mayPerform s g k o = true → (∀ q ∈ (s.core g.toNat).parked, ∀ x ∈ q.ctx.iss.outs, x.id ≠ n) →
      (after (.hostAtomicCompletion n old true) fun t => t.outOf g k n = none ∧ t.mem = s.mem) ∧
      (∀ ct ar op sc a b c m x, o.i = .amo ct ar op sc a b c m → s.ctx g k = some x → o ∈ x.iss.outs → o.port = {} → o.shadow = [] → 0 < a.toNat → a.toNat < 64 →
        after (.hostAtomicCompletion n old false) fun t => t.outOf g k n = none ∧
          (t.ctx g k).map (fun x => tget 0 x.regs.g a.toNat) = some (old.setWidth 64))) ∧
    (findOut s n = none → ∀ old err, exec (.hostAtomicCompletion n old err) s = .next s) ∧
    (after (.hostLinkDown i) fun t => t.linkUp = modAt s.linkUp i.toNat (fun _ => false) ∧ t.linkCxl = modAt s.linkCxl i.toNat (fun _ => false) ∧
      (((allOuts s).map (·.2.2.id)).Nodup → ∀ x ∈ waitingOn s i.toNat, t.outOf x.1 x.2.1 x.2.2.id = none) ∧ t.mem = s.mem) ∧
    (∀ cxl, exec (.hostLinkRetrain i cxl) s = .next { s with
      linkUp := modAt s.linkUp i.toNat fun _ => true, linkCxl := modAt s.linkCxl i.toNat fun _ => cxl }) ∧
    (∀ len, after (.atsInvalidation i addr len) fun t => sends t (.atsDone i) ∧
      ∀ e, e ∈ t.ats ↔ e ∈ s.ats ∧ ¬ (e.1 = i.toNat ∧ addr < (e.2 + 1) * 4096 ∧ e.2 * 4096 < addr + len)) ∧
    (let a := addr / 128 * 128
     inDram s a 128 = true →
      (lineLost s a = true → after (.cxlMemRead addr) fun t => sends t (.data a (List.replicate 128 0) true) ∧ t.mem = s.mem) ∧
      (lineLost s a = false → homeGone s a 0 = false → tget 0 s.coh.hdr (addr / 128) = 0 → after (.cxlMemRead addr) fun t =>
        sends t (.data a (s.memBytes a 128) false) ∧ t.mem = s.mem)) ∧
    (∀ bytes, bytes ≠ [] → inDram s addr bytes.length = true → homeGone s addr 0 = false → leesRoom s (cellsAt addr bytes) = true →
      after (.cxlMemWrite addr bytes) fun t => (∀ j, j < bytes.length → t.memAt (addr + j) = bytes.getD j 0) ∧ t.ctxs = s.ctxs) ∧
    (∀ (op : AtomOp) (sz : Size) (x y : BitVec 128),
      let m := sizeBytes sz
      (m < 4 ∨ addr % m ≠ 0 ∨ inDram s addr m = false ∨ lineLost s addr = true → after (.hostAtomicop op sz addr x y) fun t =>
        sends t .atomicError ∧ t.mem = s.mem) ∧
      (4 ≤ m → addr % m = 0 → inDram s addr m = true → lineLost s addr = false → homeGone s addr 0 = false → tget 0 s.coh.hdr (addr / 128) = 0 →
        let old := s.memBytes addr m
        leesRoom (recallLines s [⟨addr, addr, m, 0⟩]) (cellsAt addr old) = true → after (.hostAtomicop op sz addr x y) fun t => sends t (.atomic old) ∧
          ofBytes (t.memBytes addr m) = match op with
            | .fetchAdd => (ofBytes old + x.toNat) % 2 ^ (8 * m)
            | .swap => x.toNat % 2 ^ (8 * m)
            | .cas => if ofBytes old = x.toNat % 2 ^ (8 * m) then y.toNat % 2 ^ (8 * m) else ofBytes old)) ∧
    (let q := s.fport p.toNat
     let u := q.takeAck f.ack
     (portUp s p.toNat = false → ∀ j ∈ [Instr.fabricDataFlit p f, .fabricAckFlit p f, .fabricNakFlit p f, .fabricIdleFlit p f], exec j s = .next s) ∧
     (portUp s p.toNat = true → f.crcOk = false → q.nak = false → after (.fabricDataFlit p f) fun t =>
       (t.fport p.toNat).sent = q.sent ++ [(3, ⟨0, q.rxNext - 1, true, []⟩)] ∧ (t.fport p.toNat).rxNext = q.rxNext ∧ (t.fport p.toNat).rx = q.rx) ∧
     (portUp s p.toNat = true → f.crcOk = true → s.fl.fabOut = [] →
       (∀ r, f.seq = q.rxNext → cutMessages ((q.rx ++ f.payload).length + 1) (q.rx ++ f.payload) = ([], r) → after (.fabricDataFlit p f) fun t =>
         (t.fport p.toNat).rxNext = q.rxNext + 1 ∧ (t.fport p.toNat).rx = r ∧ (t.fport p.toNat).nak = false ∧
         (t.fport p.toNat).sent = u.sent ++ [(2, ⟨0, q.rxNext, true, []⟩)]) ∧
       (1 ≤ (q.rxNext - f.seq).toNat → (q.rxNext - f.seq).toNat ≤ 2048 → after (.fabricDataFlit p f) fun t => t.fport p.toNat = u) ∧
       (after (.fabricAckFlit p f) fun t => t.fport p.toNat = u ∧ t.mem = s.mem) ∧
       (after (.fabricIdleFlit p f) fun t => t.fport p.toNat = u ∧ t.mem = s.mem) ∧
       (∀ x ∈ u.retry, x ∈ q.retry ∧ (acked f.ack x.seq = false)) ∧ (∀ x ∈ q.retry, acked f.ack x.seq = false → x ∈ u.retry) ∧
       (after (.fabricNakFlit p f) fun t => (t.fport p.toNat).sent = u.sent ++ u.retry.map (fun x => (1, x)) ∧
         (t.fport p.toNat).retry = u.retry ∧ (t.fport p.toNat).replays = u.replays + 1 ∧ (portUp t p.toNat = true ↔ u.replays < 15))) ∧
     (p.toNat < s.part.ports → ∀ lanes ∈ [(1 : BitVec 3), 2, 4], s.fl.fabOut = [] → after (.fabricPortTrained p lanes) fun t =>
       portUp t p.toNat = true ∧ (s.cfgAt (portReg p.toNat)).toNat % 2 ^ 60 = (t.cfgAt (portReg p.toNat)).toNat % 2 ^ 60 ∧
       (t.cfgAt (portReg p.toNat)).toNat / 2 ^ 60 % 8 = lanes.toNat ∧ (t.fport p.toNat).retry = q.retry ∧ (t.fport p.toNat).replays = 0 ∧
       (t.fport p.toNat).sent = q.sent ++ q.retry.map fun x => (1, x)) ∧
     (p.toNat < s.part.ports → after (.fabricPortTrained p 0) fun t => portUp t p.toNat = false ∧ (t.fport p.toNat).retry = []))

/-- R474, R481, R483: attestation over DOE. Each request is answered with its response code, in the order of the handshake, and with an error
out of it or where the boot has stopped; the order and the codes are those of SPDM 1.3, which the spec names (the model's choice:
log entry 63). -/
def Obligations.SecurityMessages : Prop :=
  ∀ (slot : BitVec 4) (idx : BitVec 8) (s : State),
    let h := s.sec.handshake
    let answered (i : Instr) (code : Byte) (hs : Nat) (session : Bool) : Prop := ∃ t b, exec i s = .next t ∧
      t.sec.answers = s.sec.answers ++ [[0x13, code, b]] ∧ t.sec.handshake = hs ∧ t.sec.session = session ∧
      t = { s with fresh := t.fresh, sec := { s.sec with answers := t.sec.answers, handshake := hs, session := session } }
    let same (i : Instr) (code : Byte) : Prop := answered i code h s.sec.session
    (∃ t, exec .doeDiscovery s = .next t ∧ t = { s with sec := { s.sec with answers := s.sec.answers ++ [[0, 1, 2]] } }) ∧
    (bootStopped s = true → ∀ i ∈ [Instr.getVersion, .getCapabilities, .negotiateAlgorithms, .getDigests, .getCertificate slot, .challenge slot,
      .getMeasurements idx, .keyExchange, .finish], same i 0x7F) ∧
    (bootStopped s = false →
      answered .getVersion 0x04 1 false ∧
      (h = 1 → answered .getCapabilities 0x61 2 s.sec.session) ∧ (h ≠ 1 → same .getCapabilities 0x7F) ∧
      (h = 2 → answered .negotiateAlgorithms 0x63 3 s.sec.session) ∧ (h ≠ 2 → same .negotiateAlgorithms 0x7F) ∧
      (3 ≤ h → same .getDigests 0x01 ∧ (slot = 0 → same (.getCertificate slot) 0x02 ∧ same (.challenge slot) 0x03) ∧
        (slot ≠ 0 → same (.getCertificate slot) 0x7F ∧ same (.challenge slot) 0x7F) ∧
        (idx = 0 ∨ idx = 0xFF ∨ idx.toNat ∈ s.sec.measured → same (.getMeasurements idx) 0x60) ∧
        answered .keyExchange 0x64 4 s.sec.session) ∧
      (h < 3 → ∀ i ∈ [Instr.getDigests, .getCertificate slot, .challenge slot, .getMeasurements idx, .keyExchange], same i 0x7F) ∧
      (h = 4 → answered .finish 0x65 3 true) ∧ (h ≠ 4 → same .finish 0x7F))

/-! ### The step, decoding, and reset -/

/-- In state t, context c of slot k of core g may issue at its turn (R90–R95): it is not halted, gives no turn away, and neither
a trap, nor a wait, nor an outstanding instruction whose window is over, nor a repeated instruction keeps it. -/
structure Sys2Proof.Claim.MayIssue (t : State) (g : GCore) (k : Slot) (c : Ctx) : Prop where
  here : t.ctx g k = some c
  turns : c.halted = false ∧ c.iss.skip = false ∧ c.iss.lend = 0 ∧ ∀ l, t.launch? c.task.lid = some l → l.stopped = none
  clear : c.iss.entry = none ∧ c.replay = false ∧ c.again = []
  windows : ∀ o ∈ c.iss.outs, o.trap = none ∧ o.left ≠ 0
  wait : ∀ w ∈ c.waits, w.woken = true ∨ w.deadline ≤ t.cycle
  tile : ∀ w n, c.iss.wait = some w → w.kind = .tile n → t.cycle < w.deadline ∨ tileReady t g.toNat n = true
  phase : phlimitDue t g.toNat c = false
  rep : c.iss.rep.done = 0 ∨ c.iss.rep.pc ≠ c.pc

/-- R32, R54, R90, R95, R147: a step takes the first pending action. The turn of slot k passes time to the next cc that is k modulo 16;
there the context issues the instruction that the bytes at its PC decode to: the step is exec of it, counted as an idle turn where
nothing was issued; a paired second instruction follows the first; a refused word, a bad line and a refused fetch trap. The
slot of an absent sibling issues the second instruction of a pair in the sibling's turn. A scalar core executes the word
at its pc, an event is executed, in a cc after the last turn (the reserved turn of a scratchpad in the turn's own, R115, R220), the
host stores to its own memory, and with nothing pending one cc passes. -/
def Obligations.StepRunsDecodedInstruction : Prop :=
  ∀ (s : State) (g : GCore) (k : Slot) (r : List Action),
    (s.pending = .turn g k :: r → ∀ t c, t = toTurn { s with pending := r } g k k → MayIssue t g k c →
      let issued (x : Host.Outcome State Fault Refusal) : Host.Outcome State Fault Refusal :=
        match x with
        | .next u => .next (countIdle t u g k)
        | y => y
      let n := c.pc.toNat % 64
      (t.cycle % 16 = k.toNat ∧ s.cycle ≤ t.cycle ∧ t.who = .slot g k) ∧
      (∀ e, fetch t g.toNat c.tenant c.pc = .trap e → step s = issued (.next (trapAt t e))) ∧
      (∀ bs, fetch t g.toNat c.tenant c.pc = .line bs →
        let word (j : Nat) : BitVec 96 := BitVec.ofNat 96 (ofBytes ((bs.drop (12 * j)).take 12))
        (∀ e, lineBad bs = some e → step s = issued (.next (trapAt t ⟨0x01, 0, e.setWidth 64⟩))) ∧
        (lineBad bs = none → joinsTransfer bs n = false →
          (∀ e, decodeWord (word n) = .error (.illop e) → step s = issued (.next (trapAt t ⟨0x01, 0, e.setWidth 64⟩))) ∧
          (∀ e, decodeWord (word n) = .error (.illopnd e) → step s = issued (.next (trapAt t ⟨0x02, 0, e.setWidth 64⟩))) ∧
          (∀ i, decodeWord (word n) = .ok i → pairBit bs n = false → step s = issued (exec i t)) ∧
          (∀ i j u, decodeWord (word n) = .ok i → pairOf bs n (guardOf (splitWord (word n)).ct t) c = some j → exec i t = .next u →
            step s = issued (if pairGoesOn t u then exec j (withPair (pairView t) u) else .next u))))) ∧
    (s.pending = .lent g k :: r → ∀ c, s.ctx g (k ^^^ 1) = none →
      let t := (toTurn { s with pending := r } g (k ^^^ 1) (k ^^^ 1)).asWho g k
      let n := c.pc.toNat % 64
      MayIssue t g k c → ∀ bs i, fetch t g.toNat c.tenant c.pc = .line bs → lineBad bs = none → joinsTransfer bs n = false →
        decodeWord (BitVec.ofNat 96 (ofBytes ((bs.drop (12 * n)).take 12))) = .ok i →
        n ≠ 0 → pairBit bs (n - 1) = true → c.iss.prev = some (c.pc - 1) → c.iss.seq = true →
        step s = exec i ((useIdle t g (k ^^^ 1)).bump g.toNat 0x0004)) ∧
    (∀ q w, s.pending = .scalar g q :: r → (s.scalar g.toNat q).running = true → scalarFetch (s.scalar g.toNat q) = some w →
      step s = exec (decodeRv w) { s with pending := r, who := .scalar g q }) ∧
    (∀ i, s.pending = .event i :: r →
      let u : State := { s with pending := r, who := .unit }
      ((∀ h, i ≠ .remoteSpadTurn h) → step s = exec i (advanceTo u s.eventsFrom)) ∧ (∀ h, i = .remoteSpadTurn h → step s = exec i u)) ∧
    (∀ off bs, s.pending = .hostStore off bs :: r → bs.length ≤ 2 ^ 50 → ∃ t, step s = .next t ∧ t.pending = r ∧ t.ctxs = s.ctxs ∧
      ∀ j, j < bs.length → t.memAt (hostBase + (off + j) % 2 ^ 50) = bs.getD j 0) ∧
    (s.pending = [] → step s = .next (advance s 1))

/-- Words that the spec writes out for instructions of each chapter, and for TFILL, decode to those instructions (R44, R148). -/
def Obligations.SampleWordsDecode : Prop :=
  let ct : Ctl := ⟨0, false, 0, false, false, 0, 0, false⟩
  decodeWord 0x0100_0A18_3800_0920_0000_0000 = .ok (.add { ct with g1 := 2, g2 := 4, n2 := true } 5 6 7) ∧
  decodeWord 0x1227_0214_3000_0000_0000_0000 = .ok (.cmp ct .lt .n64 1 5 6) ∧
  decodeWord 0x3006_1024_0000_0002_4000_0010 = .ok (.ld { ct with hint := 1, la := 2 } .w true 8 (.reg 9) ⟨0, 0, 16⟩) ∧
  decodeWord 0x5300_0604_D000_0000_000F_4240 = .ok (.tlwait ct 3 1 26 1000000) ∧
  decodeWord 0x5B85_1418_00C0_4000_0000_0000 = .ok (.casq ct true .system 10 6 ⟨0, 0, 0⟩ 12 2) ∧
  decodeWord 0x6A00_1024_1000_0000_0000_03E8 = .ok (.recv ct false (.dword 8) 9 2 (.imm 1000)) ∧
  decodeWord 0x7900_0200_0000_0000_0002_0000 = .ok (.fork ct 1 0x20000) ∧
  decodeWord 0x9502_0214_0000_0000_0000_0000 = .ok (.vbcast ct .w ⟨false, 1⟩ 5 0 ⟨false, 0⟩) ∧
  decodeWord 0xA702_3828_0000_0000_0000_0100 = .ok (.scfg ct false 2 ⟨false, 28⟩ (.one 10 256)) ∧
  decodeWord 0xC300_1250_0000_0000_0000_0000 = .ok (.mattn ct 9 20) ∧
  decodeWord 0xDC00_102C_5000_0000_0000_0008 = .ok (.cpy ct 8 11 10 (.imm 8)) ∧
  decodeWord 0xED00_0000_0000_0000_0000_0007 = .ok (.sysc ct 7) ∧
  decodeRv 0x00C5_850B = .tfill 10 11 12

/-- Every instruction word that the encoder makes of a well-formed instruction decodes to that instruction, whatever its operands
(R44–R46), and so does every word of an Xfltile instruction (R148). -/
def Obligations.EncodeDecodeRoundTrip : Prop :=
  (∀ (i : Instr) (w : BitVec 96), i.wf = true → encode i = some w → decodeWord w = .ok i) ∧
  (∀ (i : Instr) (w : BitVec 32), encodeTile i = some w → decodeRv w = i)

/-- What the decoder accepts is well-formed, and is the instruction whose word it was: no two instructions share a word, and no bit
of a word goes unread (R44, R53, R54). -/
def Obligations.DecodeGivesWellFormed : Prop :=
  ∀ (w : BitVec 96) (i : Instr), decodeWord w = .ok i → i.wf = true ∧ encode i = some w

/-- Every step keeps memory in its canonical form: addresses strictly rising, and no byte listed that reads as an unlisted one. -/
def Obligations.MemoryStaysCanonical : Prop :=
  ∀ s t : State, s.mem.wf → step s = .next t → t.mem.wf

/-- R156, R250, R398, R424, R438, R439, R479: the machine right after reset. No context, no launch and nothing pending, no link up; CTO,
the power cap and each tenant's TSLICE at their reset values, every other register of the configuration blocks, the tiles and the
timelines at zero, PHLIMIT at 0x00100000; a context begins in user mode with its trap and FP registers at zero. Memory lists nothing, and
a byte that it does not list reads 0 (the model's choice, log entry 1). -/
def Obligations.ResetState : Prop :=
  let s := State.reset
  s.mem.wf ∧ (∀ a, s.memAt a = 0) ∧ s.cycle = 0 ∧ s.pending = [] ∧ (∀ g k, s.ctx g k = none) ∧ s.launches = [] ∧
    (∀ n, s.linkUp.getD n false = false) ∧
    (∀ g, (s.core g).tenant = none ∧ (s.core g).regs.phlim = 0x00100000 ∧ (s.core g).mail = [] ∧
      (∀ t : TReg, (s.tile g t).state = 0) ∧ (∀ n, s.tl g n = {})) ∧
    (let c : Ctx := {}
     c.trap.mode = false ∧ c.trap.tvec = 0 ∧ c.fpctl = 0 ∧ c.fpstat = 0) ∧
    s.cfgAt (modReg 0) = 0x00010000 ∧ s.cfgAt (modReg 0x10) = 720 ∧ (∀ t, s.cfgAt (tenReg t 0x220) = 0x002AB980) ∧
    (∀ n, n < 0x1000 → n ≠ 0 → n ≠ 0x10 → s.cfgAt (modReg n) = 0) ∧
    (∀ t n, n < 0x100000 → n ≠ 0x220 → s.cfgAt (tenReg t n) = 0) ∧
    (∀ d n, d < 8 → n < 0x1000000 → s.cfgAt (dieReg d n) = 0)

/-! ### Frames of loads and stores (R127, R132, R155) -/

/-- Store i writes bytes bs to the pieces ps (R129, R132–R134, R145): the address is that of its operand, the number of bytes that of its
form. -/
inductive Sys2Proof.Claim.StoreForm (s : State) (ct : Ctl) : Instr → List Piece → List Byte → Prop where
  | st (sz : Size) (n : Nat) (a : GReg) (b : Base) (m : AddrOp) (x : Nat) (ps : List Piece) :
      (sz, n) ∈ [(Size.b, 1), (Size.h, 2), (Size.w, 4), (Size.d, 8)] → OperandAt s b m n x → check s s.g.toNat s.t .wr x n = .ok ps →
      StoreForm s ct (.st ct sz a b m) ps (bytesOf n (rdG s a).toNat)
  | stq (a d : GReg) (b : Base) (m : AddrOp) (x : Nat) (ps : List Piece) :
      a ≠ d → OperandAt s b m 16 x → x % 16 = 0 → check s s.g.toNat s.t .wr x 16 = .ok ps →
      StoreForm s ct (.stq ct a d b m) ps (bytesOf 8 (rdG s a).toNat ++ bytesOf 8 (rdG s d).toNat)
  | stv (a d : VReg) (b : Base) (m : AddrOp) (x n : Nat) (ps : List Piece) :
      streamOf s a = none → streamOf s d = none → n = (if a = d then 64 else 128) → OperandAt s b m n x →
      check s s.g.toNat s.t .wr x n = .ok ps →
      StoreForm s ct (.stv ct a d b m) ps (bytesOf 64 (rdV s a).toNat ++ if a = d then [] else bytesOf 64 (rdV s d).toNat)
  | stvx (wd : GWidth) (w : Nat) (a c : VReg) (b : Base) (k : KReg) (sh : BitVec 3) (off : BitVec 24) (ps : List Piece) :
      (wd, w) ∈ [(GWidth.h, 2), (GWidth.w, 4), (GWidth.d, 8)] → streamOf s a = none → streamOf s c = none →
      (∀ t, b = .tile t → tileReady s s.g.toNat t = true) →
      checkElems s .wr b w (rdV s c) sh off ((List.range (64 / w)).filter fun i => (rdK s k).getLsbD i) = .ok ps →
      StoreForm s ct (.stvx ct wd a b c k sh off) ps
        (((List.range (64 / w)).filter fun i => (rdK s k).getLsbD i).flatMap fun i =>
          bytesOf w ((rdV s a).toNat / 2 ^ (8 * w * i) % 2 ^ (8 * w)))
  | zline (a : GReg) (m : AddrOp) (x : Nat) (ps : List Piece) :
      OperandAt s (.reg a) m 128 x → x % 128 = 0 → check s s.g.toNat s.t .wr x 128 = .ok ps →
      StoreForm s ct (.zline ct a m) ps (List.replicate 128 0)

/-- The G registers that a memory instruction names. -/
def Sys2Proof.Claim.memRegs : Instr → List GReg
  | .ld _ _ _ a b m => a :: baseRegs b m
  | .st _ _ a b m => a :: baseRegs b m
  | .ldq _ a d b m => a :: d :: baseRegs b m
  | .stq _ a d b m => a :: d :: baseRegs b m
  | .ldv _ _ _ b m => baseRegs b m
  | .stv _ _ _ b m => baseRegs b m
  | .ldvx _ _ _ b _ _ _ _ => baseRegs b ⟨0, 0, 0⟩
  | .stvx _ _ _ b _ _ _ _ => baseRegs b ⟨0, 0, 0⟩
  | .zline _ a m => [a, m.index]
  | _ => []

/-- Everything that a load or a store leaves unchanged besides memory: the registers other than its destinations, the FP status, the
accumulators, trap registers outside a trap, other contexts but for the read-ahead of their streams, and the tiles, full/empty bits, scalar cores and queues of the core. -/
structure Sys2Proof.Claim.MemFrame (s t : State) (gs : List GReg) (vs : List VReg) : Prop where
  regs : Kept s t gs vs [] []
  others : OthersRead s t
  fp : t.c.fpstat = s.c.fpstat ∧ t.c.fpctl = s.c.fpctl
  acc : t.c.lo = s.c.lo ∧ t.c.hi = s.c.hi
  trap : s.c.halted = false → t.c.halted = false → t.c.trap.mode = s.c.trap.mode → t.c.trap = s.c.trap
  cores : ∀ h, h ≠ s.g.toNat → (t.core h).regs = { (s.core h).regs with pmc := (t.core h).regs.pmc }
  core : let r := (t.core s.g.toNat).regs
    r = { (s.core s.g.toNat).regs with s := r.s, vs := r.vs, shw := r.shw, pmc := r.pmc }

/-- The frames of loads and stores (R127, R132–R134, R145, R155). A load changes no byte of memory, and only its destinations. A store
that is performed changes no byte outside its pieces, as any core reads it; in DRAM its bytes are unpublished, so that other cores read even
those as before (R155), while its own core reads them back; a store that becomes outstanding changes no byte yet. (A line that another
tenant or key holds turns to noise when it is stored to, R442: such lines are left out, as are decoded views, which read through other
bytes.) -/
def Obligations.LoadsAndStoresFrame : Prop :=
  ∀ (ct : Ctl) (b : Base) (m : AddrOp) (a d : GReg) (va vd vc : VReg) (s : State), NoTraps s →
    (∀ (sz : Size) (sgn : Bool) (wd : GWidth) (k : KReg) (sh : BitVec 3) (off : BitVec 24), s.coh.copies = [] →
      ∀ x ∈ [(Instr.ld ct sz sgn a b m, [a], []), (.ldq ct a d b m, [a, d], []), (.ldv ct va vd b m, [], [va, vd]),
          (.ldvx ct wd va b vc k sh off, [], [va])],
        Issues s ct (memRegs x.1) → ∀ t, exec x.1 s = .next t → t.mem = s.mem ∧ KeptOthers s t ∧ MemFrame s t x.2.1 x.2.2) ∧
    (∀ (i : Instr) (ps : List Piece) (bs : List Byte), StoreForm s ct i ps bs → Issues s ct (memRegs i) →
      overQuota s s.g.toNat s.t ct.hint ps = false →
      (InTurn i ct s { ps := ps } → CanWrite s ps → ∃ t, exec i s = .next t ∧ MemFrame s t [] [] ∧
        ∀ key, (∀ p ∈ ps, ∀ l ∈ pieceLines p, ∀ h, placeOf s.part (l * 128) = .dram h →
            leafKey p.leaf = key ∧ keyOk s s.t p.leaf (l * 128) = true) →
          let lines := ps.flatMap pieceLines
          let outside (y : Nat) : Prop := ∀ p ∈ ps, ¬ (p.pa ≤ y ∧ y < p.pa + p.n)
          (∀ y, outside y → t.memAt y = s.memAt y) ∧
          (∀ h tn leaf y, (∀ v, placeOf s.part y ≠ .view v) →
            (lineOf y ∉ lines ∨ (tn = s.t ∧ leafKey leaf = key)) →
            outside y ∨ (h ≠ s.g.toNat ∧ isSpadPlace s y = false) → coreByte t h tn leaf y = coreByte s h tn leaf y) ∧
          (∀ y v before after leaf, pieceCells ps bs = before ++ (y, v) :: after → (∀ w ∈ after, w.1 ≠ y) →
            (∃ h, placeOf s.part y = .dram h) ∨ (∃ h, placeOf s.part y = .host h) ∨ isSpadPlace s y = true →
            coreByte t s.g.toNat s.t leaf y = v)) ∧
      (¬ InTurn i ct s { ps := ps } → ∃ t, exec i s = .next t ∧ MemFrame s t [] [] ∧ KeptMemory s t))

/-! ### Guards, queue ports and waits -/

/-- R49: an instruction whose guard is false completes in its turn and does nothing else; nor does it trap or wait. -/
def Sys2Proof.Claim.FalseGuards : Prop :=
  ∀ (i : Instr) (f : Fields) (s : State), encodeFields i = some f → Thread s → NoTraps s → s.b.qp = false →
    guardOf f.ct s = false → s.c.goesOn = false →
    exec i s = .next (retire f.ct none s) ∧ Jumps i s (nextPc s.c.pc) s.c.ras

/-- R47, R260, R261: MOV between a register and a queue port that is bound to inter-group queue n of the die. A pop takes the oldest entry and
sets p7; a push appends; where the queue is empty or full, the instruction waits up to QPTO cc, then gives 0 or drops the value and clears
p7. A port bound to nothing raises ILLOPND for the field that names it, and with QP = 0 the field names an ordinary register. -/
def Sys2Proof.Claim.QueuePorts : Prop :=
  ∀ (ct : Ctl) (a b port : GReg) (q : Nat) (s : State), Issues s ct [a, b] → NoTraps s → q < 8 → port.toNat = 0x78 + q →
    s.c.iss.port = {} ∨ s.c.iss.port = { used := true } → (∀ o ∈ s.c.iss.outs, o.id < s.nextId) →
    let qp := s.b.qp = true
    let bound (n : Nat) : Prop := n < 64 ∧ fld s.b.qpbind (8 * q + 7) (8 * q) = 64 + n
    let key (n : Nat) : Nat := s.t.toNat * 64 + n
    let free (kind : WaitKind) : Prop := ∀ e ∈ heldCtxs s, ∀ w ∈ e.2.waits, w.kind ≠ kind
    let others (t : State) (n : Nat) : Prop :=
      (∀ n', n' ≠ key n → t.igq s.g.toNat n' = s.igq s.g.toNat n') ∧ t.c.pc = nextPc s.c.pc ∧ t.mem = s.mem ∧ KeptOthers s t
    let waits (i : Instr) (kind : WaitKind) (used : PortSt) : Prop := exec i s = .next (yieldOnce ct (
      ({ s with nextId := s.nextId + 1 } : State).modC fun c => { c with iss := { c.iss with
        port := used, wait := some ⟨kind, s.cycle, s.cycle + s.b.qpto.toNat, false, s.nextId⟩ } }))
    (qp → ∀ n, bound n → a.toNat < 0x78 →
      let kind := WaitKind.pop (16 + key n)
      (∀ x r, s.c.iss.wait = none → free kind → s.igq s.g.toNat (key n) = x :: r → ∃ t, exec (.mov ct a port) s = .next t ∧
        t.igq s.g.toNat (key n) = r ∧ WroteG s t a x ∧ WroteP s t 7 true ∧ Kept s t [a] [] [7] [] ∧ others t n) ∧
      (s.igq s.g.toNat (key n) = [] →
        (s.c.iss.wait = none → s.b.qpto ≠ 0 → waits (.mov ct a port) kind { used := true }) ∧
        ((s.c.iss.wait = none ∧ s.b.qpto = 0) ∨ (∃ w, s.c.iss.wait = some w ∧ w.kind = kind ∧ w.deadline ≤ s.cycle) →
          ∃ t, exec (.mov ct a port) s = .next t ∧ t.igq s.g.toNat (key n) = [] ∧ WroteG s t a 0 ∧ WroteP s t 7 false ∧
            Kept s t [a] [] [7] [] ∧ others t n))) ∧
    (qp → ∀ n, bound n → b.toNat < 0x78 →
      let kind := WaitKind.push (16 + key n)
      (s.c.iss.wait = none → free kind → (s.igq s.g.toNat (key n)).length < 32 → ∃ t, exec (.mov ct port b) s = .next t ∧
        t.igq s.g.toNat (key n) = s.igq s.g.toNat (key n) ++ [rdG s b] ∧ WroteP s t 7 true ∧ Kept s t [] [] [7] [] ∧ others t n) ∧
      (32 ≤ (s.igq s.g.toNat (key n)).length → s.c.iss.wait = none →
        (s.b.qpto ≠ 0 → waits (.mov ct port b) kind { pushes := [(q, rdG s b)], used := true, pushing := true }) ∧
        (s.b.qpto = 0 → ∃ t, exec (.mov ct port b) s = .next t ∧ t.igq s.g.toNat (key n) = s.igq s.g.toNat (key n) ∧
          WroteP s t 7 false ∧ Kept s t [] [] [7] [] ∧ others t n))) ∧
    (qp → fld s.b.qpbind (8 * q + 7) (8 * q) = 0 →
      (a.toNat < 0x78 → Traps (.mov ct a port) s (illopnd 1)) ∧ (b.toNat < 0x78 → Traps (.mov ct port b) s (illopnd 0))) ∧
    (s.b.qp = false → Sets (.mov ct a port) s a (rdG s port) ∧ Sets (.mov ct port b) s port (rdG s b))

/-- R47, R49, R260, R261: false guards, and the queue ports. -/
def Obligations.GuardsAndPorts : Prop := Sys2Proof.Claim.FalseGuards ∧ Sys2Proof.Claim.QueuePorts

/-- R218, R221: a wait that is evaluated again with its condition still false goes on waiting before its deadline; at or after the
deadline it ends: RECV, WAITB, WAITC and JOIN set their predicate false and fall through, SLEEP falls through. -/
def Obligations.WaitsEnd : Prop :=
  ∀ (ct : Ctl) (a b c : GReg) (x y : VReg) (p : PReg) (flag : Bool) (tmo : Timeout) (imm : BitVec 40) (ps : List Piece) (w : Wait)
    (s : State), Issues s ct ([a, b, c] ++ (match tmo with | .imm _ => [] | .reg e => [e])) → NoTraps s → s.c.iss.wait = some w →
    let stays (i : Instr) (u : State) : Prop := s.cycle < w.deadline →
      exec i s = .next (yieldOnce ct (u.modC fun c => { c with iss := { c.iss with wait := some { w with woken := false } } }))
    let ends (i : Instr) (u : State) : Prop := w.deadline ≤ s.cycle →
      exec i s = .next (retire ct none (wrP (timedOut u) p false))
    (streamOf s x = none → streamOf s y = none → ∀ z ∈ [(RecvDst.dword a, false), (RecvDst.line x y, true)],
      NoMessage s z.2 → w.kind = .mail z.2 →
      stays (.recv ct flag z.1 b p tmo) (passive s) ∧ ends (.recv ct flag z.1 b p tmo) (passive s)) ∧
    (checkObj s .rd (rdG s b) = .ok ps → CanUse s .rd ps →
      let obj := objBytes s ps
      let pa := (ps.headD ⟨0, 0, 0, 0⟩).pa
      (flag = true → scopeOk (objScope obj) = true) →
      (objArrived obj < objExpect obj → w.kind = .barrier pa → stays (.waitb ct flag p b tmo) s ∧ ends (.waitb ct flag p b tmo) s) ∧
      ∀ op j, (op = .reg c ∧ j = (rdG s c).toNat % 64) ∨ (∃ v, op = .imm v ∧ j = v.toNat ∧ j < 64) → j < objNchunk obj →
        (dwordAt obj 2).getLsbD j = false → w.kind = .chunk pa j →
        stays (.waitc ct flag p b op tmo) s ∧ ends (.waitc ct flag p b op tmo) s) ∧
    (checkCounter s .rd (rdG s b) = .ok ps → objTrap .rd 1 ps s = none → 0 < (dwordAt (objBytes s ps) 0).toInt →
      w.kind = .join (ps.headD ⟨0, 0, 0, 0⟩).pa → stays (.join ct p b tmo) s ∧ ends (.join ct p b tmo) s) ∧
    (w.kind = .sleep → stays (.sleep ct b imm) s ∧ (w.deadline ≤ s.cycle → exec (.sleep ct b imm) s = .next (retire ct none s)))

/-! ### Statements in two parts -/

/-- R100, R101: shifts, counts and sign extensions, and bit fields. -/
def Obligations.ShiftsAndBitFields : Prop := Sys2Proof.Claim.ShiftsAndCounts ∧ Sys2Proof.Claim.BitFields

/-- R417, R428: what RDSR gives of every special register, and what WRSR does to it. -/
def Obligations.SpecialRegisters : Prop := Sys2Proof.Claim.SpecialRegisterReads ∧ Sys2Proof.Claim.SpecialRegisterWrites

/-- R418, R421, R422, R427, R429: the instructions that trap, halt and return, and those that user mode may not run. -/
def Obligations.TrapsAndPrivilege : Prop := Sys2Proof.Claim.TrapInstructions ∧ Sys2Proof.Claim.Privilege

/-- R299–R305, R317–R319: the stream registers, and what an operand that names one does. -/
def Obligations.Streams : Prop := Sys2Proof.Claim.StreamRegisters ∧ Sys2Proof.Claim.StreamOperands

/-- R320–R326: the special functions and the random numbers. -/
def Obligations.SpecialUnits : Prop := Sys2Proof.Claim.SpecialFunctions ∧ Sys2Proof.Claim.RandomNumbers

/-- R206, R212–R217: the instructions on accumulator lines and on ranges of them. -/
def Obligations.Accumulators : Prop := Sys2Proof.Claim.AccumulatorLines ∧ Sys2Proof.Claim.AccumulatorRanges

/-- R331, R343–R348, R389, R393–R396: the commands of the matrix engine and of the copy unit. -/
def Obligations.EngineCommands : Prop := Sys2Proof.Claim.MatrixCommands ∧ Sys2Proof.Claim.CopyCommands

/-- R306–R313: the integer vector instructions and the masks. -/
def Obligations.VectorIntegerAndMasks : Prop := Sys2Proof.Claim.VectorInteger ∧ Sys2Proof.Claim.VectorMasks

/-- R282–R291: the instructions that end a task or send it away, and those on priorities and queues. -/
def Obligations.TaskEndsAndQueues : Prop := Sys2Proof.Claim.EndingTasks ∧ Sys2Proof.Claim.PrioritiesAndQueues

/-- R149–R153: the Xfltile commands of a loader and a storer, and their waits. -/
def Obligations.ScalarCoreTiles : Prop := Sys2Proof.Claim.TileCommands ∧ Sys2Proof.Claim.TileWaits

/-- R299–R304, R320, R352, R353, R371, R390, R408–R413, R436: the events of the press and of the other units. -/
def Obligations.UnitEvents : Prop := Sys2Proof.Claim.PressEvents ∧ Sys2Proof.Claim.OtherUnitEvents

end
end

