-- ==== Sys2Proof/Laws/Table.lean ====
section
/-! SUPPORT. The laws of the sparse tables of Bits.lean: what a table reads as after an update, and that every
update keeps the canonical form. -/

namespace Sys2Proof.Machine

theorem tget_tdel_same (d : α) (t : Table α) (k : Nat) : tget d (tdel t k) k = d := by
  induction t with
  | nil => rfl
  | cons e t ih =>
    obtain ⟨j, v⟩ := e
    by_cases h : j = k <;> simp [tdel, tget, h, ih]

theorem tget_tdel_other (d : α) (t : Table α) (k j : Nat) (hne : k ≠ j) : tget d (tdel t k) j = tget d t j := by
  induction t with
  | nil => rfl
  | cons e t ih =>
    obtain ⟨i, v⟩ := e
    by_cases h : i = k
    · subst h; simp [tdel, tget, ih, hne]
    · simp [tdel, tget, h, ih]

theorem tget_tins_same (d : α) (t : Table α) (k : Nat) (v : α) (hk : ∀ e ∈ t, e.1 ≠ k) : tget d (tins t k v) k = v := by
  induction t with
  | nil => simp [tins, tget]
  | cons e t ih =>
    obtain ⟨i, w⟩ := e
    have hi : i ≠ k := hk (i, w) (by simp)
    by_cases h : k < i
    · simp [tins, tget, h]
    · simp [tins, tget, h, hi, ih fun e he => hk e (by simp [he])]

theorem tget_tins_other (d : α) (t : Table α) (k j : Nat) (v : α) (hne : k ≠ j) : tget d (tins t k v) j = tget d t j := by
  induction t with
  | nil => simp [tins, tget, hne]
  | cons e t ih =>
    obtain ⟨i, w⟩ := e
    by_cases h : k < i <;> simp [tins, tget, h, hne, ih]

theorem tdel_ne (t : Table α) (k : Nat) : ∀ e ∈ tdel t k, e.1 ≠ k := by
  induction t with
  | nil => simp [tdel]
  | cons e t ih =>
    obtain ⟨i, w⟩ := e
    by_cases h : i = k
    · simpa [tdel, h] using ih
    · simpa [tdel, h] using ih

theorem tget_tput_same (d : α) (t : Table α) (k : Nat) (v : α) : tget d (tput t k v) k = v :=
  tget_tins_same d _ k v (tdel_ne t k)

theorem tget_tput_other (d : α) (t : Table α) (k j : Nat) (v : α) (hne : k ≠ j) : tget d (tput t k v) j = tget d t j := by
  rw [tput, tget_tins_other _ _ _ _ _ hne, tget_tdel_other _ _ _ _ hne]

theorem tget_tset_same [DecidableEq α] (d : α) (t : Table α) (k : Nat) (v : α) : tget d (tset d t k v) k = v := by
  unfold tset
  split
  · next h => rw [tget_tdel_same, h]
  · exact tget_tput_same d t k v

theorem tget_tset_other [DecidableEq α] (d : α) (t : Table α) (k j : Nat) (v : α) (hne : k ≠ j) :
    tget d (tset d t k v) j = tget d t j := by
  unfold tset
  split
  · exact tget_tdel_other _ _ _ _ hne
  · exact tget_tput_other _ _ _ _ _ hne

theorem ctxKey_inj {g g' : GCore} {k k' : Slot} (h : ctxKey g k = ctxKey g' k') : (g, k) = (g', k') := by
  unfold ctxKey at h
  have h1 : g = g' := by bv_omega
  have h2 : k = k' := by bv_omega
  rw [h1, h2]

/-! ### The canonical form -/

/-- The pairs of a table in canonical form. -/
theorem twf_iff [DecidableEq α] (d : α) (t : Table α) :
    twf d t = true ↔ t.Pairwise (fun a b => a.1 < b.1) ∧ ∀ e ∈ t, e.2 ≠ d := by
  induction t with
  | nil => simp [twf]
  | cons e t ih =>
    obtain ⟨j, v⟩ := e
    cases t with
    | nil => simp [twf]
    | cons e' t =>
      obtain ⟨k, w⟩ := e'
      simp only [twf, Bool.and_eq_true, decide_eq_true_eq, ih]
      constructor
      · rintro ⟨⟨hv, hjk⟩, hp, ha⟩
        refine ⟨List.pairwise_cons.2 ⟨?_, hp⟩, ?_⟩
        · intro a ha'
          rcases List.mem_cons.1 ha' with rfl | hm
          · exact hjk
          · exact Nat.lt_trans hjk ((List.pairwise_cons.1 hp).1 a hm)
        · intro e he
          rcases List.mem_cons.1 he with rfl | hm
          · exact hv
          · exact ha e hm
      · rintro ⟨hp, ha⟩
        obtain ⟨h1, h2⟩ := List.pairwise_cons.1 hp
        exact ⟨⟨ha (j, v) (by simp), h1 (k, w) (by simp)⟩, h2, fun e he => ha e (List.mem_cons_of_mem _ he)⟩

theorem mem_tdel (t : Table α) (k : Nat) (e : Nat × α) (h : e ∈ tdel t k) : e ∈ t := by
  induction t with
  | nil => simp [tdel] at h
  | cons a t ih =>
    obtain ⟨i, w⟩ := a
    by_cases hi : i = k
    · simp [tdel, hi] at h; exact List.mem_cons_of_mem _ (ih h)
    · simp [tdel, hi] at h
      rcases h with rfl | h
      · simp
      · exact List.mem_cons_of_mem _ (ih h)

theorem mem_tins (t : Table α) (k : Nat) (v : α) (e : Nat × α) (h : e ∈ tins t k v) : e = (k, v) ∨ e ∈ t := by
  induction t with
  | nil => simpa [tins] using h
  | cons a t ih =>
    obtain ⟨i, w⟩ := a
    by_cases hi : k < i
    · simpa [tins, hi] using h
    · simp [tins, hi] at h
      rcases h with rfl | h
      · simp
      · rcases ih h with h | h
        · exact .inl h
        · exact .inr (List.mem_cons_of_mem _ h)

theorem tdel_sorted (t : Table α) (k : Nat) (h : t.Pairwise fun a b => a.1 < b.1) :
    (tdel t k).Pairwise fun a b => a.1 < b.1 := by
  induction t with
  | nil => simp [tdel]
  | cons a t ih =>
    obtain ⟨i, w⟩ := a
    obtain ⟨h1, h2⟩ := List.pairwise_cons.1 h
    by_cases hi : i = k
    · simpa [tdel, hi] using ih h2
    · simpa [tdel, hi] using ⟨fun a b hb => h1 (a, b) (mem_tdel t k _ hb), ih h2⟩

theorem tins_sorted (t : Table α) (k : Nat) (v : α) (h : t.Pairwise fun a b => a.1 < b.1) (hk : ∀ e ∈ t, e.1 ≠ k) :
    (tins t k v).Pairwise fun a b => a.1 < b.1 := by
  induction t with
  | nil => simp [tins]
  | cons a t ih =>
    obtain ⟨i, w⟩ := a
    obtain ⟨h1, h2⟩ := List.pairwise_cons.1 h
    by_cases hi : k < i
    · simp only [tins, hi, if_true]
      refine List.pairwise_cons.2 ⟨fun e he => ?_, h⟩
      rcases List.mem_cons.1 he with rfl | hm
      · exact hi
      · exact Nat.lt_trans hi (h1 e hm)
    · have hik : i < k := by
        have := hk (i, w) (by simp)
        simp at this; omega
      simp only [tins, hi, if_false]
      refine List.pairwise_cons.2 ⟨fun e he => ?_, ih h2 fun e he => hk e (by simp [he])⟩
      rcases mem_tins t k v e he with rfl | hm
      · exact hik
      · exact h1 e hm

/-- A write keeps the canonical form. -/
theorem twf_tset [DecidableEq α] (d : α) (t : Table α) (k : Nat) (v : α) (h : twf d t = true) :
    twf d (tset d t k v) = true := by
  rw [twf_iff] at h ⊢
  unfold tset
  split
  · exact ⟨tdel_sorted t k h.1, fun e he => h.2 e (mem_tdel t k e he)⟩
  · next hv =>
    refine ⟨tins_sorted _ k v (tdel_sorted t k h.1) (tdel_ne t k), fun e he => ?_⟩
    rcases mem_tins _ k v e he with rfl | hm
    · exact hv
    · exact h.2 e (mem_tdel t k e hm)

/-- A part of a table keeps the canonical form. -/
theorem twf_filter [DecidableEq α] (d : α) (t : Table α) (p : Nat × α → Bool) (h : twf d t = true) :
    twf d (t.filter p) = true := by
  rw [twf_iff] at h ⊢
  exact ⟨h.1.filter p, fun e he => h.2 e (List.mem_filter.1 he).1⟩

/-- A pair that a table in rising order lists is what it reads as. -/
theorem tget_mem (d : α) (t : Table α) (h : t.Pairwise fun a b => a.1 < b.1) (e : Nat × α) (he : e ∈ t) : tget d t e.1 = e.2 := by
  induction t with
  | nil => simp at he
  | cons x t ih =>
    obtain ⟨h1, h2⟩ := List.pairwise_cons.1 h
    rcases List.mem_cons.1 he with rfl | he
    · simp [tget]
    · simp [tget, Nat.ne_of_lt (h1 e he), ih h2 he]

/-- A key that a table does not list reads as the default. -/
theorem tget_absent (d : α) (t : Table α) (k : Nat) (h : ∀ e ∈ t, e.1 ≠ k) : tget d t k = d := by
  induction t with
  | nil => rfl
  | cons x t ih => simp [tget, h x (by simp), ih fun e he => h e (by simp [he])]

/-- Tables in canonical form that read alike are equal. -/
theorem twf_ext [DecidableEq α] (d : α) {m n : Table α} (hm : twf d m = true) (hn : twf d n = true)
    (h : ∀ k, tget d m k = tget d n k) : m = n := by
  rw [twf_iff] at hm hn
  have low : ∀ (z : Nat × α) (a : Table α), (∀ e ∈ a, z.1 < e.1) → ∀ k, k < z.1 → tget d (z :: a) k = d := by
    intro z a ha k hk
    refine tget_absent _ _ _ fun e he => ?_
    rcases List.mem_cons.1 he with rfl | he
    · omega
    · have := ha e he; omega
  induction m generalizing n with
  | nil =>
    cases n with
    | nil => rfl
    | cons y n =>
      have h1 := h y.1
      rw [tget_mem d _ hn.1 y (by simp)] at h1
      exact absurd h1.symm (hn.2 y (by simp))
  | cons x m ih =>
    cases n with
    | nil =>
      have h1 := h x.1
      rw [tget_mem d _ hm.1 x (by simp)] at h1
      exact absurd h1 (hm.2 x (by simp))
    | cons y n =>
      obtain ⟨hx1, hx2⟩ := List.pairwise_cons.1 hm.1
      obtain ⟨hy1, hy2⟩ := List.pairwise_cons.1 hn.1
      have hk : x.1 = y.1 := by
        rcases Nat.lt_trichotomy x.1 y.1 with hlt | heq | hgt
        · have h1 := h x.1
          rw [tget_mem d _ hm.1 x (by simp), low y n hy1 x.1 hlt] at h1
          exact absurd h1 (hm.2 x (by simp))
        · exact heq
        · have h1 := h y.1
          rw [tget_mem d _ hn.1 y (by simp), low x m hx1 y.1 hgt] at h1
          exact absurd h1.symm (hn.2 y (by simp))
      have hv : x.2 = y.2 := by
        have h1 := h x.1
        rw [tget_mem d _ hm.1 x (by simp), hk, tget_mem d _ hn.1 y (by simp)] at h1
        exact h1
      have hxy : x = y := Prod.ext hk hv
      subst hxy
      rw [ih ⟨hx2, fun e he => hm.2 e (by simp [he])⟩ ⟨hy2, fun e he => hn.2 e (by simp [he])⟩]
      intro k
      have h1 := h k
      by_cases hxk : x.1 = k
      · subst hxk
        rw [tget_absent d m x.1 fun e he => Nat.ne_of_gt (hx1 e he), tget_absent d n x.1 fun e he => Nat.ne_of_gt (hy1 e he)]
      · simpa [tget, hxk] using h1

end Sys2Proof.Machine
end

