-- ==== Sys2Proof/Laws/State.lean ====
section
/-! SUPPORT. The small laws of the state record: for each update of Access.lean and Mem.lean and each field of
State that the update leaves alone, the field reads as before; for the updates of tables, what the new
table reads as. -/

namespace Sys2Proof.Machine

variable (s : State)

/-! ### setCore -/

@[simp] theorem State.setCore_part (g : Nat) (c : Core) : (s.setCore g c).part = s.part := rfl
@[simp] theorem State.setCore_cycle (g : Nat) (c : Core) : (s.setCore g c).cycle = s.cycle := rfl
@[simp] theorem State.setCore_eventsFrom (g : Nat) (c : Core) : (s.setCore g c).eventsFrom = s.eventsFrom := rfl
@[simp] theorem State.setCore_turnsFrom (g : Nat) (c : Core) : (s.setCore g c).turnsFrom = s.turnsFrom := rfl
@[simp] theorem State.setCore_pending (g : Nat) (c : Core) : (s.setCore g c).pending = s.pending := rfl
@[simp] theorem State.setCore_who (g : Nat) (c : Core) : (s.setCore g c).who = s.who := rfl
@[simp] theorem State.setCore_mem (g : Nat) (c : Core) : (s.setCore g c).mem = s.mem := rfl
@[simp] theorem State.setCore_ctxs (g : Nat) (c : Core) : (s.setCore g c).ctxs = s.ctxs := rfl
@[simp] theorem State.setCore_binds (g : Nat) (c : Core) : (s.setCore g c).binds = s.binds := rfl
@[simp] theorem State.setCore_clusters (g : Nat) (c : Core) : (s.setCore g c).clusters = s.clusters := rfl
@[simp] theorem State.setCore_dies (g : Nat) (c : Core) : (s.setCore g c).dies = s.dies := rfl
@[simp] theorem State.setCore_cfg (g : Nat) (c : Core) : (s.setCore g c).cfg = s.cfg := rfl
@[simp] theorem State.setCore_coh (g : Nat) (c : Core) : (s.setCore g c).coh = s.coh := rfl
@[simp] theorem State.setCore_fl (g : Nat) (c : Core) : (s.setCore g c).fl = s.fl := rfl
@[simp] theorem State.setCore_launches (g : Nat) (c : Core) : (s.setCore g c).launches = s.launches := rfl
@[simp] theorem State.setCore_nextLid (g : Nat) (c : Core) : (s.setCore g c).nextLid = s.nextLid := rfl
@[simp] theorem State.setCore_trees (g : Nat) (c : Core) : (s.setCore g c).trees = s.trees := rfl
@[simp] theorem State.setCore_descs (g : Nat) (c : Core) : (s.setCore g c).descs = s.descs := rfl
@[simp] theorem State.setCore_msix (g : Nat) (c : Core) : (s.setCore g c).msix = s.msix := rfl
@[simp] theorem State.setCore_linkUp (g : Nat) (c : Core) : (s.setCore g c).linkUp = s.linkUp := rfl
@[simp] theorem State.setCore_linkCxl (g : Nat) (c : Core) : (s.setCore g c).linkCxl = s.linkCxl := rfl
@[simp] theorem State.setCore_ats (g : Nat) (c : Core) : (s.setCore g c).ats = s.ats := rfl
@[simp] theorem State.setCore_fports (g : Nat) (c : Core) : (s.setCore g c).fports = s.fports := rfl
@[simp] theorem State.setCore_sec (g : Nat) (c : Core) : (s.setCore g c).sec = s.sec := rfl
@[simp] theorem State.setCore_nextId (g : Nat) (c : Core) : (s.setCore g c).nextId = s.nextId := rfl
@[simp] theorem State.setCore_fresh (g : Nat) (c : Core) : (s.setCore g c).fresh = s.fresh := rfl
@[simp] theorem State.setCore_opaques (g : Nat) (c : Core) : (s.setCore g c).opaques = s.opaques := rfl

/-! ### modCore -/

@[simp] theorem State.modCore_part (g : Nat) (f : Core → Core) : (s.modCore g f).part = s.part := rfl
@[simp] theorem State.modCore_cycle (g : Nat) (f : Core → Core) : (s.modCore g f).cycle = s.cycle := rfl
@[simp] theorem State.modCore_eventsFrom (g : Nat) (f : Core → Core) : (s.modCore g f).eventsFrom = s.eventsFrom := rfl
@[simp] theorem State.modCore_turnsFrom (g : Nat) (f : Core → Core) : (s.modCore g f).turnsFrom = s.turnsFrom := rfl
@[simp] theorem State.modCore_pending (g : Nat) (f : Core → Core) : (s.modCore g f).pending = s.pending := rfl
@[simp] theorem State.modCore_who (g : Nat) (f : Core → Core) : (s.modCore g f).who = s.who := rfl
@[simp] theorem State.modCore_mem (g : Nat) (f : Core → Core) : (s.modCore g f).mem = s.mem := rfl
@[simp] theorem State.modCore_ctxs (g : Nat) (f : Core → Core) : (s.modCore g f).ctxs = s.ctxs := rfl
@[simp] theorem State.modCore_binds (g : Nat) (f : Core → Core) : (s.modCore g f).binds = s.binds := rfl
@[simp] theorem State.modCore_clusters (g : Nat) (f : Core → Core) : (s.modCore g f).clusters = s.clusters := rfl
@[simp] theorem State.modCore_dies (g : Nat) (f : Core → Core) : (s.modCore g f).dies = s.dies := rfl
@[simp] theorem State.modCore_cfg (g : Nat) (f : Core → Core) : (s.modCore g f).cfg = s.cfg := rfl
@[simp] theorem State.modCore_coh (g : Nat) (f : Core → Core) : (s.modCore g f).coh = s.coh := rfl
@[simp] theorem State.modCore_fl (g : Nat) (f : Core → Core) : (s.modCore g f).fl = s.fl := rfl
@[simp] theorem State.modCore_launches (g : Nat) (f : Core → Core) : (s.modCore g f).launches = s.launches := rfl
@[simp] theorem State.modCore_nextLid (g : Nat) (f : Core → Core) : (s.modCore g f).nextLid = s.nextLid := rfl
@[simp] theorem State.modCore_trees (g : Nat) (f : Core → Core) : (s.modCore g f).trees = s.trees := rfl
@[simp] theorem State.modCore_descs (g : Nat) (f : Core → Core) : (s.modCore g f).descs = s.descs := rfl
@[simp] theorem State.modCore_msix (g : Nat) (f : Core → Core) : (s.modCore g f).msix = s.msix := rfl
@[simp] theorem State.modCore_linkUp (g : Nat) (f : Core → Core) : (s.modCore g f).linkUp = s.linkUp := rfl
@[simp] theorem State.modCore_linkCxl (g : Nat) (f : Core → Core) : (s.modCore g f).linkCxl = s.linkCxl := rfl
@[simp] theorem State.modCore_ats (g : Nat) (f : Core → Core) : (s.modCore g f).ats = s.ats := rfl
@[simp] theorem State.modCore_fports (g : Nat) (f : Core → Core) : (s.modCore g f).fports = s.fports := rfl
@[simp] theorem State.modCore_sec (g : Nat) (f : Core → Core) : (s.modCore g f).sec = s.sec := rfl
@[simp] theorem State.modCore_nextId (g : Nat) (f : Core → Core) : (s.modCore g f).nextId = s.nextId := rfl
@[simp] theorem State.modCore_fresh (g : Nat) (f : Core → Core) : (s.modCore g f).fresh = s.fresh := rfl
@[simp] theorem State.modCore_opaques (g : Nat) (f : Core → Core) : (s.modCore g f).opaques = s.opaques := rfl

/-! ### setCtx -/

@[simp] theorem State.setCtx_part (g : GCore) (k : Slot) (c : Option Ctx) : (s.setCtx g k c).part = s.part := rfl
@[simp] theorem State.setCtx_cycle (g : GCore) (k : Slot) (c : Option Ctx) : (s.setCtx g k c).cycle = s.cycle := rfl
@[simp] theorem State.setCtx_eventsFrom (g : GCore) (k : Slot) (c : Option Ctx) : (s.setCtx g k c).eventsFrom = s.eventsFrom := rfl
@[simp] theorem State.setCtx_turnsFrom (g : GCore) (k : Slot) (c : Option Ctx) : (s.setCtx g k c).turnsFrom = s.turnsFrom := rfl
@[simp] theorem State.setCtx_pending (g : GCore) (k : Slot) (c : Option Ctx) : (s.setCtx g k c).pending = s.pending := rfl
@[simp] theorem State.setCtx_who (g : GCore) (k : Slot) (c : Option Ctx) : (s.setCtx g k c).who = s.who := rfl
@[simp] theorem State.setCtx_mem (g : GCore) (k : Slot) (c : Option Ctx) : (s.setCtx g k c).mem = s.mem := rfl
@[simp] theorem State.setCtx_cores (g : GCore) (k : Slot) (c : Option Ctx) : (s.setCtx g k c).cores = s.cores := rfl
@[simp] theorem State.setCtx_binds (g : GCore) (k : Slot) (c : Option Ctx) : (s.setCtx g k c).binds = s.binds := rfl
@[simp] theorem State.setCtx_clusters (g : GCore) (k : Slot) (c : Option Ctx) : (s.setCtx g k c).clusters = s.clusters := rfl
@[simp] theorem State.setCtx_dies (g : GCore) (k : Slot) (c : Option Ctx) : (s.setCtx g k c).dies = s.dies := rfl
@[simp] theorem State.setCtx_cfg (g : GCore) (k : Slot) (c : Option Ctx) : (s.setCtx g k c).cfg = s.cfg := rfl
@[simp] theorem State.setCtx_coh (g : GCore) (k : Slot) (c : Option Ctx) : (s.setCtx g k c).coh = s.coh := rfl
@[simp] theorem State.setCtx_fl (g : GCore) (k : Slot) (c : Option Ctx) : (s.setCtx g k c).fl = s.fl := rfl
@[simp] theorem State.setCtx_launches (g : GCore) (k : Slot) (c : Option Ctx) : (s.setCtx g k c).launches = s.launches := rfl
@[simp] theorem State.setCtx_nextLid (g : GCore) (k : Slot) (c : Option Ctx) : (s.setCtx g k c).nextLid = s.nextLid := rfl
@[simp] theorem State.setCtx_trees (g : GCore) (k : Slot) (c : Option Ctx) : (s.setCtx g k c).trees = s.trees := rfl
@[simp] theorem State.setCtx_descs (g : GCore) (k : Slot) (c : Option Ctx) : (s.setCtx g k c).descs = s.descs := rfl
@[simp] theorem State.setCtx_msix (g : GCore) (k : Slot) (c : Option Ctx) : (s.setCtx g k c).msix = s.msix := rfl
@[simp] theorem State.setCtx_linkUp (g : GCore) (k : Slot) (c : Option Ctx) : (s.setCtx g k c).linkUp = s.linkUp := rfl
@[simp] theorem State.setCtx_linkCxl (g : GCore) (k : Slot) (c : Option Ctx) : (s.setCtx g k c).linkCxl = s.linkCxl := rfl
@[simp] theorem State.setCtx_ats (g : GCore) (k : Slot) (c : Option Ctx) : (s.setCtx g k c).ats = s.ats := rfl
@[simp] theorem State.setCtx_fports (g : GCore) (k : Slot) (c : Option Ctx) : (s.setCtx g k c).fports = s.fports := rfl
@[simp] theorem State.setCtx_sec (g : GCore) (k : Slot) (c : Option Ctx) : (s.setCtx g k c).sec = s.sec := rfl
@[simp] theorem State.setCtx_nextId (g : GCore) (k : Slot) (c : Option Ctx) : (s.setCtx g k c).nextId = s.nextId := rfl
@[simp] theorem State.setCtx_fresh (g : GCore) (k : Slot) (c : Option Ctx) : (s.setCtx g k c).fresh = s.fresh := rfl
@[simp] theorem State.setCtx_opaques (g : GCore) (k : Slot) (c : Option Ctx) : (s.setCtx g k c).opaques = s.opaques := rfl

/-! ### setBind -/

@[simp] theorem State.setBind_part (g : Nat) (t : TenantNo) (b : Option Bind) : (s.setBind g t b).part = s.part := rfl
@[simp] theorem State.setBind_cycle (g : Nat) (t : TenantNo) (b : Option Bind) : (s.setBind g t b).cycle = s.cycle := rfl
@[simp] theorem State.setBind_eventsFrom (g : Nat) (t : TenantNo) (b : Option Bind) : (s.setBind g t b).eventsFrom = s.eventsFrom := rfl
@[simp] theorem State.setBind_turnsFrom (g : Nat) (t : TenantNo) (b : Option Bind) : (s.setBind g t b).turnsFrom = s.turnsFrom := rfl
@[simp] theorem State.setBind_pending (g : Nat) (t : TenantNo) (b : Option Bind) : (s.setBind g t b).pending = s.pending := rfl
@[simp] theorem State.setBind_who (g : Nat) (t : TenantNo) (b : Option Bind) : (s.setBind g t b).who = s.who := rfl
@[simp] theorem State.setBind_mem (g : Nat) (t : TenantNo) (b : Option Bind) : (s.setBind g t b).mem = s.mem := rfl
@[simp] theorem State.setBind_ctxs (g : Nat) (t : TenantNo) (b : Option Bind) : (s.setBind g t b).ctxs = s.ctxs := rfl
@[simp] theorem State.setBind_cores (g : Nat) (t : TenantNo) (b : Option Bind) : (s.setBind g t b).cores = s.cores := rfl
@[simp] theorem State.setBind_clusters (g : Nat) (t : TenantNo) (b : Option Bind) : (s.setBind g t b).clusters = s.clusters := rfl
@[simp] theorem State.setBind_dies (g : Nat) (t : TenantNo) (b : Option Bind) : (s.setBind g t b).dies = s.dies := rfl
@[simp] theorem State.setBind_cfg (g : Nat) (t : TenantNo) (b : Option Bind) : (s.setBind g t b).cfg = s.cfg := rfl
@[simp] theorem State.setBind_coh (g : Nat) (t : TenantNo) (b : Option Bind) : (s.setBind g t b).coh = s.coh := rfl
@[simp] theorem State.setBind_fl (g : Nat) (t : TenantNo) (b : Option Bind) : (s.setBind g t b).fl = s.fl := rfl
@[simp] theorem State.setBind_launches (g : Nat) (t : TenantNo) (b : Option Bind) : (s.setBind g t b).launches = s.launches := rfl
@[simp] theorem State.setBind_nextLid (g : Nat) (t : TenantNo) (b : Option Bind) : (s.setBind g t b).nextLid = s.nextLid := rfl
@[simp] theorem State.setBind_trees (g : Nat) (t : TenantNo) (b : Option Bind) : (s.setBind g t b).trees = s.trees := rfl
@[simp] theorem State.setBind_descs (g : Nat) (t : TenantNo) (b : Option Bind) : (s.setBind g t b).descs = s.descs := rfl
@[simp] theorem State.setBind_msix (g : Nat) (t : TenantNo) (b : Option Bind) : (s.setBind g t b).msix = s.msix := rfl
@[simp] theorem State.setBind_linkUp (g : Nat) (t : TenantNo) (b : Option Bind) : (s.setBind g t b).linkUp = s.linkUp := rfl
@[simp] theorem State.setBind_linkCxl (g : Nat) (t : TenantNo) (b : Option Bind) : (s.setBind g t b).linkCxl = s.linkCxl := rfl
@[simp] theorem State.setBind_ats (g : Nat) (t : TenantNo) (b : Option Bind) : (s.setBind g t b).ats = s.ats := rfl
@[simp] theorem State.setBind_fports (g : Nat) (t : TenantNo) (b : Option Bind) : (s.setBind g t b).fports = s.fports := rfl
@[simp] theorem State.setBind_sec (g : Nat) (t : TenantNo) (b : Option Bind) : (s.setBind g t b).sec = s.sec := rfl
@[simp] theorem State.setBind_nextId (g : Nat) (t : TenantNo) (b : Option Bind) : (s.setBind g t b).nextId = s.nextId := rfl
@[simp] theorem State.setBind_fresh (g : Nat) (t : TenantNo) (b : Option Bind) : (s.setBind g t b).fresh = s.fresh := rfl
@[simp] theorem State.setBind_opaques (g : Nat) (t : TenantNo) (b : Option Bind) : (s.setBind g t b).opaques = s.opaques := rfl

/-! ### modCluster -/

@[simp] theorem State.modCluster_part (c : Nat) (f : Cluster → Cluster) : (s.modCluster c f).part = s.part := rfl
@[simp] theorem State.modCluster_cycle (c : Nat) (f : Cluster → Cluster) : (s.modCluster c f).cycle = s.cycle := rfl
@[simp] theorem State.modCluster_eventsFrom (c : Nat) (f : Cluster → Cluster) : (s.modCluster c f).eventsFrom = s.eventsFrom := rfl
@[simp] theorem State.modCluster_turnsFrom (c : Nat) (f : Cluster → Cluster) : (s.modCluster c f).turnsFrom = s.turnsFrom := rfl
@[simp] theorem State.modCluster_pending (c : Nat) (f : Cluster → Cluster) : (s.modCluster c f).pending = s.pending := rfl
@[simp] theorem State.modCluster_who (c : Nat) (f : Cluster → Cluster) : (s.modCluster c f).who = s.who := rfl
@[simp] theorem State.modCluster_mem (c : Nat) (f : Cluster → Cluster) : (s.modCluster c f).mem = s.mem := rfl
@[simp] theorem State.modCluster_ctxs (c : Nat) (f : Cluster → Cluster) : (s.modCluster c f).ctxs = s.ctxs := rfl
@[simp] theorem State.modCluster_cores (c : Nat) (f : Cluster → Cluster) : (s.modCluster c f).cores = s.cores := rfl
@[simp] theorem State.modCluster_binds (c : Nat) (f : Cluster → Cluster) : (s.modCluster c f).binds = s.binds := rfl
@[simp] theorem State.modCluster_dies (c : Nat) (f : Cluster → Cluster) : (s.modCluster c f).dies = s.dies := rfl
@[simp] theorem State.modCluster_cfg (c : Nat) (f : Cluster → Cluster) : (s.modCluster c f).cfg = s.cfg := rfl
@[simp] theorem State.modCluster_coh (c : Nat) (f : Cluster → Cluster) : (s.modCluster c f).coh = s.coh := rfl
@[simp] theorem State.modCluster_fl (c : Nat) (f : Cluster → Cluster) : (s.modCluster c f).fl = s.fl := rfl
@[simp] theorem State.modCluster_launches (c : Nat) (f : Cluster → Cluster) : (s.modCluster c f).launches = s.launches := rfl
@[simp] theorem State.modCluster_nextLid (c : Nat) (f : Cluster → Cluster) : (s.modCluster c f).nextLid = s.nextLid := rfl
@[simp] theorem State.modCluster_trees (c : Nat) (f : Cluster → Cluster) : (s.modCluster c f).trees = s.trees := rfl
@[simp] theorem State.modCluster_descs (c : Nat) (f : Cluster → Cluster) : (s.modCluster c f).descs = s.descs := rfl
@[simp] theorem State.modCluster_msix (c : Nat) (f : Cluster → Cluster) : (s.modCluster c f).msix = s.msix := rfl
@[simp] theorem State.modCluster_linkUp (c : Nat) (f : Cluster → Cluster) : (s.modCluster c f).linkUp = s.linkUp := rfl
@[simp] theorem State.modCluster_linkCxl (c : Nat) (f : Cluster → Cluster) : (s.modCluster c f).linkCxl = s.linkCxl := rfl
@[simp] theorem State.modCluster_ats (c : Nat) (f : Cluster → Cluster) : (s.modCluster c f).ats = s.ats := rfl
@[simp] theorem State.modCluster_fports (c : Nat) (f : Cluster → Cluster) : (s.modCluster c f).fports = s.fports := rfl
@[simp] theorem State.modCluster_sec (c : Nat) (f : Cluster → Cluster) : (s.modCluster c f).sec = s.sec := rfl
@[simp] theorem State.modCluster_nextId (c : Nat) (f : Cluster → Cluster) : (s.modCluster c f).nextId = s.nextId := rfl
@[simp] theorem State.modCluster_fresh (c : Nat) (f : Cluster → Cluster) : (s.modCluster c f).fresh = s.fresh := rfl
@[simp] theorem State.modCluster_opaques (c : Nat) (f : Cluster → Cluster) : (s.modCluster c f).opaques = s.opaques := rfl

/-! ### modDie -/

@[simp] theorem State.modDie_part (d : Nat) (f : Die → Die) : (s.modDie d f).part = s.part := rfl
@[simp] theorem State.modDie_cycle (d : Nat) (f : Die → Die) : (s.modDie d f).cycle = s.cycle := rfl
@[simp] theorem State.modDie_eventsFrom (d : Nat) (f : Die → Die) : (s.modDie d f).eventsFrom = s.eventsFrom := rfl
@[simp] theorem State.modDie_turnsFrom (d : Nat) (f : Die → Die) : (s.modDie d f).turnsFrom = s.turnsFrom := rfl
@[simp] theorem State.modDie_pending (d : Nat) (f : Die → Die) : (s.modDie d f).pending = s.pending := rfl
@[simp] theorem State.modDie_who (d : Nat) (f : Die → Die) : (s.modDie d f).who = s.who := rfl
@[simp] theorem State.modDie_mem (d : Nat) (f : Die → Die) : (s.modDie d f).mem = s.mem := rfl
@[simp] theorem State.modDie_ctxs (d : Nat) (f : Die → Die) : (s.modDie d f).ctxs = s.ctxs := rfl
@[simp] theorem State.modDie_cores (d : Nat) (f : Die → Die) : (s.modDie d f).cores = s.cores := rfl
@[simp] theorem State.modDie_binds (d : Nat) (f : Die → Die) : (s.modDie d f).binds = s.binds := rfl
@[simp] theorem State.modDie_clusters (d : Nat) (f : Die → Die) : (s.modDie d f).clusters = s.clusters := rfl
@[simp] theorem State.modDie_cfg (d : Nat) (f : Die → Die) : (s.modDie d f).cfg = s.cfg := rfl
@[simp] theorem State.modDie_coh (d : Nat) (f : Die → Die) : (s.modDie d f).coh = s.coh := rfl
@[simp] theorem State.modDie_fl (d : Nat) (f : Die → Die) : (s.modDie d f).fl = s.fl := rfl
@[simp] theorem State.modDie_launches (d : Nat) (f : Die → Die) : (s.modDie d f).launches = s.launches := rfl
@[simp] theorem State.modDie_nextLid (d : Nat) (f : Die → Die) : (s.modDie d f).nextLid = s.nextLid := rfl
@[simp] theorem State.modDie_trees (d : Nat) (f : Die → Die) : (s.modDie d f).trees = s.trees := rfl
@[simp] theorem State.modDie_descs (d : Nat) (f : Die → Die) : (s.modDie d f).descs = s.descs := rfl
@[simp] theorem State.modDie_msix (d : Nat) (f : Die → Die) : (s.modDie d f).msix = s.msix := rfl
@[simp] theorem State.modDie_linkUp (d : Nat) (f : Die → Die) : (s.modDie d f).linkUp = s.linkUp := rfl
@[simp] theorem State.modDie_linkCxl (d : Nat) (f : Die → Die) : (s.modDie d f).linkCxl = s.linkCxl := rfl
@[simp] theorem State.modDie_ats (d : Nat) (f : Die → Die) : (s.modDie d f).ats = s.ats := rfl
@[simp] theorem State.modDie_fports (d : Nat) (f : Die → Die) : (s.modDie d f).fports = s.fports := rfl
@[simp] theorem State.modDie_sec (d : Nat) (f : Die → Die) : (s.modDie d f).sec = s.sec := rfl
@[simp] theorem State.modDie_nextId (d : Nat) (f : Die → Die) : (s.modDie d f).nextId = s.nextId := rfl
@[simp] theorem State.modDie_fresh (d : Nat) (f : Die → Die) : (s.modDie d f).fresh = s.fresh := rfl
@[simp] theorem State.modDie_opaques (d : Nat) (f : Die → Die) : (s.modDie d f).opaques = s.opaques := rfl

/-! ### setCfg -/

@[simp] theorem State.setCfg_part (a : Nat) (v : Word) : (s.setCfg a v).part = s.part := rfl
@[simp] theorem State.setCfg_cycle (a : Nat) (v : Word) : (s.setCfg a v).cycle = s.cycle := rfl
@[simp] theorem State.setCfg_eventsFrom (a : Nat) (v : Word) : (s.setCfg a v).eventsFrom = s.eventsFrom := rfl
@[simp] theorem State.setCfg_turnsFrom (a : Nat) (v : Word) : (s.setCfg a v).turnsFrom = s.turnsFrom := rfl
@[simp] theorem State.setCfg_pending (a : Nat) (v : Word) : (s.setCfg a v).pending = s.pending := rfl
@[simp] theorem State.setCfg_who (a : Nat) (v : Word) : (s.setCfg a v).who = s.who := rfl
@[simp] theorem State.setCfg_mem (a : Nat) (v : Word) : (s.setCfg a v).mem = s.mem := rfl
@[simp] theorem State.setCfg_ctxs (a : Nat) (v : Word) : (s.setCfg a v).ctxs = s.ctxs := rfl
@[simp] theorem State.setCfg_cores (a : Nat) (v : Word) : (s.setCfg a v).cores = s.cores := rfl
@[simp] theorem State.setCfg_binds (a : Nat) (v : Word) : (s.setCfg a v).binds = s.binds := rfl
@[simp] theorem State.setCfg_clusters (a : Nat) (v : Word) : (s.setCfg a v).clusters = s.clusters := rfl
@[simp] theorem State.setCfg_dies (a : Nat) (v : Word) : (s.setCfg a v).dies = s.dies := rfl
@[simp] theorem State.setCfg_coh (a : Nat) (v : Word) : (s.setCfg a v).coh = s.coh := rfl
@[simp] theorem State.setCfg_fl (a : Nat) (v : Word) : (s.setCfg a v).fl = s.fl := rfl
@[simp] theorem State.setCfg_launches (a : Nat) (v : Word) : (s.setCfg a v).launches = s.launches := rfl
@[simp] theorem State.setCfg_nextLid (a : Nat) (v : Word) : (s.setCfg a v).nextLid = s.nextLid := rfl
@[simp] theorem State.setCfg_trees (a : Nat) (v : Word) : (s.setCfg a v).trees = s.trees := rfl
@[simp] theorem State.setCfg_descs (a : Nat) (v : Word) : (s.setCfg a v).descs = s.descs := rfl
@[simp] theorem State.setCfg_msix (a : Nat) (v : Word) : (s.setCfg a v).msix = s.msix := rfl
@[simp] theorem State.setCfg_linkUp (a : Nat) (v : Word) : (s.setCfg a v).linkUp = s.linkUp := rfl
@[simp] theorem State.setCfg_linkCxl (a : Nat) (v : Word) : (s.setCfg a v).linkCxl = s.linkCxl := rfl
@[simp] theorem State.setCfg_ats (a : Nat) (v : Word) : (s.setCfg a v).ats = s.ats := rfl
@[simp] theorem State.setCfg_fports (a : Nat) (v : Word) : (s.setCfg a v).fports = s.fports := rfl
@[simp] theorem State.setCfg_sec (a : Nat) (v : Word) : (s.setCfg a v).sec = s.sec := rfl
@[simp] theorem State.setCfg_nextId (a : Nat) (v : Word) : (s.setCfg a v).nextId = s.nextId := rfl
@[simp] theorem State.setCfg_fresh (a : Nat) (v : Word) : (s.setCfg a v).fresh = s.fresh := rfl
@[simp] theorem State.setCfg_opaques (a : Nat) (v : Word) : (s.setCfg a v).opaques = s.opaques := rfl

/-! ### asWho -/

@[simp] theorem State.asWho_part (g : GCore) (k : Slot) : (s.asWho g k).part = s.part := rfl
@[simp] theorem State.asWho_cycle (g : GCore) (k : Slot) : (s.asWho g k).cycle = s.cycle := rfl
@[simp] theorem State.asWho_eventsFrom (g : GCore) (k : Slot) : (s.asWho g k).eventsFrom = s.eventsFrom := rfl
@[simp] theorem State.asWho_turnsFrom (g : GCore) (k : Slot) : (s.asWho g k).turnsFrom = s.turnsFrom := rfl
@[simp] theorem State.asWho_pending (g : GCore) (k : Slot) : (s.asWho g k).pending = s.pending := rfl
@[simp] theorem State.asWho_mem (g : GCore) (k : Slot) : (s.asWho g k).mem = s.mem := rfl
@[simp] theorem State.asWho_ctxs (g : GCore) (k : Slot) : (s.asWho g k).ctxs = s.ctxs := rfl
@[simp] theorem State.asWho_cores (g : GCore) (k : Slot) : (s.asWho g k).cores = s.cores := rfl
@[simp] theorem State.asWho_binds (g : GCore) (k : Slot) : (s.asWho g k).binds = s.binds := rfl
@[simp] theorem State.asWho_clusters (g : GCore) (k : Slot) : (s.asWho g k).clusters = s.clusters := rfl
@[simp] theorem State.asWho_dies (g : GCore) (k : Slot) : (s.asWho g k).dies = s.dies := rfl
@[simp] theorem State.asWho_cfg (g : GCore) (k : Slot) : (s.asWho g k).cfg = s.cfg := rfl
@[simp] theorem State.asWho_coh (g : GCore) (k : Slot) : (s.asWho g k).coh = s.coh := rfl
@[simp] theorem State.asWho_fl (g : GCore) (k : Slot) : (s.asWho g k).fl = s.fl := rfl
@[simp] theorem State.asWho_launches (g : GCore) (k : Slot) : (s.asWho g k).launches = s.launches := rfl
@[simp] theorem State.asWho_nextLid (g : GCore) (k : Slot) : (s.asWho g k).nextLid = s.nextLid := rfl
@[simp] theorem State.asWho_trees (g : GCore) (k : Slot) : (s.asWho g k).trees = s.trees := rfl
@[simp] theorem State.asWho_descs (g : GCore) (k : Slot) : (s.asWho g k).descs = s.descs := rfl
@[simp] theorem State.asWho_msix (g : GCore) (k : Slot) : (s.asWho g k).msix = s.msix := rfl
@[simp] theorem State.asWho_linkUp (g : GCore) (k : Slot) : (s.asWho g k).linkUp = s.linkUp := rfl
@[simp] theorem State.asWho_linkCxl (g : GCore) (k : Slot) : (s.asWho g k).linkCxl = s.linkCxl := rfl
@[simp] theorem State.asWho_ats (g : GCore) (k : Slot) : (s.asWho g k).ats = s.ats := rfl
@[simp] theorem State.asWho_fports (g : GCore) (k : Slot) : (s.asWho g k).fports = s.fports := rfl
@[simp] theorem State.asWho_sec (g : GCore) (k : Slot) : (s.asWho g k).sec = s.sec := rfl
@[simp] theorem State.asWho_nextId (g : GCore) (k : Slot) : (s.asWho g k).nextId = s.nextId := rfl
@[simp] theorem State.asWho_fresh (g : GCore) (k : Slot) : (s.asWho g k).fresh = s.fresh := rfl
@[simp] theorem State.asWho_opaques (g : GCore) (k : Slot) : (s.asWho g k).opaques = s.opaques := rfl

/-! ### modC -/

@[simp] theorem State.modC_part (f : Ctx → Ctx) : (s.modC f).part = s.part := rfl
@[simp] theorem State.modC_cycle (f : Ctx → Ctx) : (s.modC f).cycle = s.cycle := rfl
@[simp] theorem State.modC_eventsFrom (f : Ctx → Ctx) : (s.modC f).eventsFrom = s.eventsFrom := rfl
@[simp] theorem State.modC_turnsFrom (f : Ctx → Ctx) : (s.modC f).turnsFrom = s.turnsFrom := rfl
@[simp] theorem State.modC_pending (f : Ctx → Ctx) : (s.modC f).pending = s.pending := rfl
@[simp] theorem State.modC_who (f : Ctx → Ctx) : (s.modC f).who = s.who := rfl
@[simp] theorem State.modC_mem (f : Ctx → Ctx) : (s.modC f).mem = s.mem := rfl
@[simp] theorem State.modC_cores (f : Ctx → Ctx) : (s.modC f).cores = s.cores := rfl
@[simp] theorem State.modC_binds (f : Ctx → Ctx) : (s.modC f).binds = s.binds := rfl
@[simp] theorem State.modC_clusters (f : Ctx → Ctx) : (s.modC f).clusters = s.clusters := rfl
@[simp] theorem State.modC_dies (f : Ctx → Ctx) : (s.modC f).dies = s.dies := rfl
@[simp] theorem State.modC_cfg (f : Ctx → Ctx) : (s.modC f).cfg = s.cfg := rfl
@[simp] theorem State.modC_coh (f : Ctx → Ctx) : (s.modC f).coh = s.coh := rfl
@[simp] theorem State.modC_fl (f : Ctx → Ctx) : (s.modC f).fl = s.fl := rfl
@[simp] theorem State.modC_launches (f : Ctx → Ctx) : (s.modC f).launches = s.launches := rfl
@[simp] theorem State.modC_nextLid (f : Ctx → Ctx) : (s.modC f).nextLid = s.nextLid := rfl
@[simp] theorem State.modC_trees (f : Ctx → Ctx) : (s.modC f).trees = s.trees := rfl
@[simp] theorem State.modC_descs (f : Ctx → Ctx) : (s.modC f).descs = s.descs := rfl
@[simp] theorem State.modC_msix (f : Ctx → Ctx) : (s.modC f).msix = s.msix := rfl
@[simp] theorem State.modC_linkUp (f : Ctx → Ctx) : (s.modC f).linkUp = s.linkUp := rfl
@[simp] theorem State.modC_linkCxl (f : Ctx → Ctx) : (s.modC f).linkCxl = s.linkCxl := rfl
@[simp] theorem State.modC_ats (f : Ctx → Ctx) : (s.modC f).ats = s.ats := rfl
@[simp] theorem State.modC_fports (f : Ctx → Ctx) : (s.modC f).fports = s.fports := rfl
@[simp] theorem State.modC_sec (f : Ctx → Ctx) : (s.modC f).sec = s.sec := rfl
@[simp] theorem State.modC_nextId (f : Ctx → Ctx) : (s.modC f).nextId = s.nextId := rfl
@[simp] theorem State.modC_fresh (f : Ctx → Ctx) : (s.modC f).fresh = s.fresh := rfl
@[simp] theorem State.modC_opaques (f : Ctx → Ctx) : (s.modC f).opaques = s.opaques := rfl

/-! ### takeId -/

@[simp] theorem State.takeId_part : (s.takeId).part = s.part := rfl
@[simp] theorem State.takeId_cycle : (s.takeId).cycle = s.cycle := rfl
@[simp] theorem State.takeId_eventsFrom : (s.takeId).eventsFrom = s.eventsFrom := rfl
@[simp] theorem State.takeId_turnsFrom : (s.takeId).turnsFrom = s.turnsFrom := rfl
@[simp] theorem State.takeId_pending : (s.takeId).pending = s.pending := rfl
@[simp] theorem State.takeId_who : (s.takeId).who = s.who := rfl
@[simp] theorem State.takeId_mem : (s.takeId).mem = s.mem := rfl
@[simp] theorem State.takeId_ctxs : (s.takeId).ctxs = s.ctxs := rfl
@[simp] theorem State.takeId_cores : (s.takeId).cores = s.cores := rfl
@[simp] theorem State.takeId_binds : (s.takeId).binds = s.binds := rfl
@[simp] theorem State.takeId_clusters : (s.takeId).clusters = s.clusters := rfl
@[simp] theorem State.takeId_dies : (s.takeId).dies = s.dies := rfl
@[simp] theorem State.takeId_cfg : (s.takeId).cfg = s.cfg := rfl
@[simp] theorem State.takeId_coh : (s.takeId).coh = s.coh := rfl
@[simp] theorem State.takeId_fl : (s.takeId).fl = s.fl := rfl
@[simp] theorem State.takeId_launches : (s.takeId).launches = s.launches := rfl
@[simp] theorem State.takeId_nextLid : (s.takeId).nextLid = s.nextLid := rfl
@[simp] theorem State.takeId_trees : (s.takeId).trees = s.trees := rfl
@[simp] theorem State.takeId_descs : (s.takeId).descs = s.descs := rfl
@[simp] theorem State.takeId_msix : (s.takeId).msix = s.msix := rfl
@[simp] theorem State.takeId_linkUp : (s.takeId).linkUp = s.linkUp := rfl
@[simp] theorem State.takeId_linkCxl : (s.takeId).linkCxl = s.linkCxl := rfl
@[simp] theorem State.takeId_ats : (s.takeId).ats = s.ats := rfl
@[simp] theorem State.takeId_fports : (s.takeId).fports = s.fports := rfl
@[simp] theorem State.takeId_sec : (s.takeId).sec = s.sec := rfl
@[simp] theorem State.takeId_fresh : (s.takeId).fresh = s.fresh := rfl
@[simp] theorem State.takeId_opaques : (s.takeId).opaques = s.opaques := rfl

/-! ### modLaunch -/

@[simp] theorem State.modLaunch_part (lid : Nat) (f : Launch → Launch) : (s.modLaunch lid f).part = s.part := rfl
@[simp] theorem State.modLaunch_cycle (lid : Nat) (f : Launch → Launch) : (s.modLaunch lid f).cycle = s.cycle := rfl
@[simp] theorem State.modLaunch_eventsFrom (lid : Nat) (f : Launch → Launch) : (s.modLaunch lid f).eventsFrom = s.eventsFrom := rfl
@[simp] theorem State.modLaunch_turnsFrom (lid : Nat) (f : Launch → Launch) : (s.modLaunch lid f).turnsFrom = s.turnsFrom := rfl
@[simp] theorem State.modLaunch_pending (lid : Nat) (f : Launch → Launch) : (s.modLaunch lid f).pending = s.pending := rfl
@[simp] theorem State.modLaunch_who (lid : Nat) (f : Launch → Launch) : (s.modLaunch lid f).who = s.who := rfl
@[simp] theorem State.modLaunch_mem (lid : Nat) (f : Launch → Launch) : (s.modLaunch lid f).mem = s.mem := rfl
@[simp] theorem State.modLaunch_ctxs (lid : Nat) (f : Launch → Launch) : (s.modLaunch lid f).ctxs = s.ctxs := rfl
@[simp] theorem State.modLaunch_cores (lid : Nat) (f : Launch → Launch) : (s.modLaunch lid f).cores = s.cores := rfl
@[simp] theorem State.modLaunch_binds (lid : Nat) (f : Launch → Launch) : (s.modLaunch lid f).binds = s.binds := rfl
@[simp] theorem State.modLaunch_clusters (lid : Nat) (f : Launch → Launch) : (s.modLaunch lid f).clusters = s.clusters := rfl
@[simp] theorem State.modLaunch_dies (lid : Nat) (f : Launch → Launch) : (s.modLaunch lid f).dies = s.dies := rfl
@[simp] theorem State.modLaunch_cfg (lid : Nat) (f : Launch → Launch) : (s.modLaunch lid f).cfg = s.cfg := rfl
@[simp] theorem State.modLaunch_coh (lid : Nat) (f : Launch → Launch) : (s.modLaunch lid f).coh = s.coh := rfl
@[simp] theorem State.modLaunch_fl (lid : Nat) (f : Launch → Launch) : (s.modLaunch lid f).fl = s.fl := rfl
@[simp] theorem State.modLaunch_nextLid (lid : Nat) (f : Launch → Launch) : (s.modLaunch lid f).nextLid = s.nextLid := rfl
@[simp] theorem State.modLaunch_trees (lid : Nat) (f : Launch → Launch) : (s.modLaunch lid f).trees = s.trees := rfl
@[simp] theorem State.modLaunch_descs (lid : Nat) (f : Launch → Launch) : (s.modLaunch lid f).descs = s.descs := rfl
@[simp] theorem State.modLaunch_msix (lid : Nat) (f : Launch → Launch) : (s.modLaunch lid f).msix = s.msix := rfl
@[simp] theorem State.modLaunch_linkUp (lid : Nat) (f : Launch → Launch) : (s.modLaunch lid f).linkUp = s.linkUp := rfl
@[simp] theorem State.modLaunch_linkCxl (lid : Nat) (f : Launch → Launch) : (s.modLaunch lid f).linkCxl = s.linkCxl := rfl
@[simp] theorem State.modLaunch_ats (lid : Nat) (f : Launch → Launch) : (s.modLaunch lid f).ats = s.ats := rfl
@[simp] theorem State.modLaunch_fports (lid : Nat) (f : Launch → Launch) : (s.modLaunch lid f).fports = s.fports := rfl
@[simp] theorem State.modLaunch_sec (lid : Nat) (f : Launch → Launch) : (s.modLaunch lid f).sec = s.sec := rfl
@[simp] theorem State.modLaunch_nextId (lid : Nat) (f : Launch → Launch) : (s.modLaunch lid f).nextId = s.nextId := rfl
@[simp] theorem State.modLaunch_fresh (lid : Nat) (f : Launch → Launch) : (s.modLaunch lid f).fresh = s.fresh := rfl
@[simp] theorem State.modLaunch_opaques (lid : Nat) (f : Launch → Launch) : (s.modLaunch lid f).opaques = s.opaques := rfl

/-! ### poke -/

@[simp] theorem State.poke_part (ws : List (Nat × Byte)) : (s.poke ws).part = s.part := rfl
@[simp] theorem State.poke_cycle (ws : List (Nat × Byte)) : (s.poke ws).cycle = s.cycle := rfl
@[simp] theorem State.poke_eventsFrom (ws : List (Nat × Byte)) : (s.poke ws).eventsFrom = s.eventsFrom := rfl
@[simp] theorem State.poke_turnsFrom (ws : List (Nat × Byte)) : (s.poke ws).turnsFrom = s.turnsFrom := rfl
@[simp] theorem State.poke_pending (ws : List (Nat × Byte)) : (s.poke ws).pending = s.pending := rfl
@[simp] theorem State.poke_who (ws : List (Nat × Byte)) : (s.poke ws).who = s.who := rfl
@[simp] theorem State.poke_ctxs (ws : List (Nat × Byte)) : (s.poke ws).ctxs = s.ctxs := rfl
@[simp] theorem State.poke_cores (ws : List (Nat × Byte)) : (s.poke ws).cores = s.cores := rfl
@[simp] theorem State.poke_binds (ws : List (Nat × Byte)) : (s.poke ws).binds = s.binds := rfl
@[simp] theorem State.poke_clusters (ws : List (Nat × Byte)) : (s.poke ws).clusters = s.clusters := rfl
@[simp] theorem State.poke_dies (ws : List (Nat × Byte)) : (s.poke ws).dies = s.dies := rfl
@[simp] theorem State.poke_cfg (ws : List (Nat × Byte)) : (s.poke ws).cfg = s.cfg := rfl
@[simp] theorem State.poke_coh (ws : List (Nat × Byte)) : (s.poke ws).coh = s.coh := rfl
@[simp] theorem State.poke_fl (ws : List (Nat × Byte)) : (s.poke ws).fl = s.fl := rfl
@[simp] theorem State.poke_launches (ws : List (Nat × Byte)) : (s.poke ws).launches = s.launches := rfl
@[simp] theorem State.poke_nextLid (ws : List (Nat × Byte)) : (s.poke ws).nextLid = s.nextLid := rfl
@[simp] theorem State.poke_trees (ws : List (Nat × Byte)) : (s.poke ws).trees = s.trees := rfl
@[simp] theorem State.poke_descs (ws : List (Nat × Byte)) : (s.poke ws).descs = s.descs := rfl
@[simp] theorem State.poke_msix (ws : List (Nat × Byte)) : (s.poke ws).msix = s.msix := rfl
@[simp] theorem State.poke_linkUp (ws : List (Nat × Byte)) : (s.poke ws).linkUp = s.linkUp := rfl
@[simp] theorem State.poke_linkCxl (ws : List (Nat × Byte)) : (s.poke ws).linkCxl = s.linkCxl := rfl
@[simp] theorem State.poke_ats (ws : List (Nat × Byte)) : (s.poke ws).ats = s.ats := rfl
@[simp] theorem State.poke_fports (ws : List (Nat × Byte)) : (s.poke ws).fports = s.fports := rfl
@[simp] theorem State.poke_sec (ws : List (Nat × Byte)) : (s.poke ws).sec = s.sec := rfl
@[simp] theorem State.poke_nextId (ws : List (Nat × Byte)) : (s.poke ws).nextId = s.nextId := rfl
@[simp] theorem State.poke_fresh (ws : List (Nat × Byte)) : (s.poke ws).fresh = s.fresh := rfl
@[simp] theorem State.poke_opaques (ws : List (Nat × Byte)) : (s.poke ws).opaques = s.opaques := rfl

/-! ### modCtx -/

@[simp] theorem State.modCtx_part (g : GCore) (k : Slot) (f : Ctx → Ctx) : (s.modCtx g k f).part = s.part := by
  unfold State.modCtx; split <;> rfl
@[simp] theorem State.modCtx_cycle (g : GCore) (k : Slot) (f : Ctx → Ctx) : (s.modCtx g k f).cycle = s.cycle := by
  unfold State.modCtx; split <;> rfl
@[simp] theorem State.modCtx_eventsFrom (g : GCore) (k : Slot) (f : Ctx → Ctx) : (s.modCtx g k f).eventsFrom = s.eventsFrom := by
  unfold State.modCtx; split <;> rfl
@[simp] theorem State.modCtx_turnsFrom (g : GCore) (k : Slot) (f : Ctx → Ctx) : (s.modCtx g k f).turnsFrom = s.turnsFrom := by
  unfold State.modCtx; split <;> rfl
@[simp] theorem State.modCtx_pending (g : GCore) (k : Slot) (f : Ctx → Ctx) : (s.modCtx g k f).pending = s.pending := by
  unfold State.modCtx; split <;> rfl
@[simp] theorem State.modCtx_who (g : GCore) (k : Slot) (f : Ctx → Ctx) : (s.modCtx g k f).who = s.who := by
  unfold State.modCtx; split <;> rfl
@[simp] theorem State.modCtx_mem (g : GCore) (k : Slot) (f : Ctx → Ctx) : (s.modCtx g k f).mem = s.mem := by
  unfold State.modCtx; split <;> rfl
@[simp] theorem State.modCtx_cores (g : GCore) (k : Slot) (f : Ctx → Ctx) : (s.modCtx g k f).cores = s.cores := by
  unfold State.modCtx; split <;> rfl
@[simp] theorem State.modCtx_binds (g : GCore) (k : Slot) (f : Ctx → Ctx) : (s.modCtx g k f).binds = s.binds := by
  unfold State.modCtx; split <;> rfl
@[simp] theorem State.modCtx_clusters (g : GCore) (k : Slot) (f : Ctx → Ctx) : (s.modCtx g k f).clusters = s.clusters := by
  unfold State.modCtx; split <;> rfl
@[simp] theorem State.modCtx_dies (g : GCore) (k : Slot) (f : Ctx → Ctx) : (s.modCtx g k f).dies = s.dies := by
  unfold State.modCtx; split <;> rfl
@[simp] theorem State.modCtx_cfg (g : GCore) (k : Slot) (f : Ctx → Ctx) : (s.modCtx g k f).cfg = s.cfg := by
  unfold State.modCtx; split <;> rfl
@[simp] theorem State.modCtx_coh (g : GCore) (k : Slot) (f : Ctx → Ctx) : (s.modCtx g k f).coh = s.coh := by
  unfold State.modCtx; split <;> rfl
@[simp] theorem State.modCtx_fl (g : GCore) (k : Slot) (f : Ctx → Ctx) : (s.modCtx g k f).fl = s.fl := by
  unfold State.modCtx; split <;> rfl
@[simp] theorem State.modCtx_launches (g : GCore) (k : Slot) (f : Ctx → Ctx) : (s.modCtx g k f).launches = s.launches := by
  unfold State.modCtx; split <;> rfl
@[simp] theorem State.modCtx_nextLid (g : GCore) (k : Slot) (f : Ctx → Ctx) : (s.modCtx g k f).nextLid = s.nextLid := by
  unfold State.modCtx; split <;> rfl
@[simp] theorem State.modCtx_trees (g : GCore) (k : Slot) (f : Ctx → Ctx) : (s.modCtx g k f).trees = s.trees := by
  unfold State.modCtx; split <;> rfl
@[simp] theorem State.modCtx_descs (g : GCore) (k : Slot) (f : Ctx → Ctx) : (s.modCtx g k f).descs = s.descs := by
  unfold State.modCtx; split <;> rfl
@[simp] theorem State.modCtx_msix (g : GCore) (k : Slot) (f : Ctx → Ctx) : (s.modCtx g k f).msix = s.msix := by
  unfold State.modCtx; split <;> rfl
@[simp] theorem State.modCtx_linkUp (g : GCore) (k : Slot) (f : Ctx → Ctx) : (s.modCtx g k f).linkUp = s.linkUp := by
  unfold State.modCtx; split <;> rfl
@[simp] theorem State.modCtx_linkCxl (g : GCore) (k : Slot) (f : Ctx → Ctx) : (s.modCtx g k f).linkCxl = s.linkCxl := by
  unfold State.modCtx; split <;> rfl
@[simp] theorem State.modCtx_ats (g : GCore) (k : Slot) (f : Ctx → Ctx) : (s.modCtx g k f).ats = s.ats := by
  unfold State.modCtx; split <;> rfl
@[simp] theorem State.modCtx_fports (g : GCore) (k : Slot) (f : Ctx → Ctx) : (s.modCtx g k f).fports = s.fports := by
  unfold State.modCtx; split <;> rfl
@[simp] theorem State.modCtx_sec (g : GCore) (k : Slot) (f : Ctx → Ctx) : (s.modCtx g k f).sec = s.sec := by
  unfold State.modCtx; split <;> rfl
@[simp] theorem State.modCtx_nextId (g : GCore) (k : Slot) (f : Ctx → Ctx) : (s.modCtx g k f).nextId = s.nextId := by
  unfold State.modCtx; split <;> rfl
@[simp] theorem State.modCtx_fresh (g : GCore) (k : Slot) (f : Ctx → Ctx) : (s.modCtx g k f).fresh = s.fresh := by
  unfold State.modCtx; split <;> rfl
@[simp] theorem State.modCtx_opaques (g : GCore) (k : Slot) (f : Ctx → Ctx) : (s.modCtx g k f).opaques = s.opaques := by
  unfold State.modCtx; split <;> rfl

/-! ### modBind -/

@[simp] theorem State.modBind_part (g : Nat) (t : TenantNo) (f : Bind → Bind) : (s.modBind g t f).part = s.part := by
  unfold State.modBind; split <;> rfl
@[simp] theorem State.modBind_cycle (g : Nat) (t : TenantNo) (f : Bind → Bind) : (s.modBind g t f).cycle = s.cycle := by
  unfold State.modBind; split <;> rfl
@[simp] theorem State.modBind_eventsFrom (g : Nat) (t : TenantNo) (f : Bind → Bind) : (s.modBind g t f).eventsFrom = s.eventsFrom := by
  unfold State.modBind; split <;> rfl
@[simp] theorem State.modBind_turnsFrom (g : Nat) (t : TenantNo) (f : Bind → Bind) : (s.modBind g t f).turnsFrom = s.turnsFrom := by
  unfold State.modBind; split <;> rfl
@[simp] theorem State.modBind_pending (g : Nat) (t : TenantNo) (f : Bind → Bind) : (s.modBind g t f).pending = s.pending := by
  unfold State.modBind; split <;> rfl
@[simp] theorem State.modBind_who (g : Nat) (t : TenantNo) (f : Bind → Bind) : (s.modBind g t f).who = s.who := by
  unfold State.modBind; split <;> rfl
@[simp] theorem State.modBind_mem (g : Nat) (t : TenantNo) (f : Bind → Bind) : (s.modBind g t f).mem = s.mem := by
  unfold State.modBind; split <;> rfl
@[simp] theorem State.modBind_ctxs (g : Nat) (t : TenantNo) (f : Bind → Bind) : (s.modBind g t f).ctxs = s.ctxs := by
  unfold State.modBind; split <;> rfl
@[simp] theorem State.modBind_cores (g : Nat) (t : TenantNo) (f : Bind → Bind) : (s.modBind g t f).cores = s.cores := by
  unfold State.modBind; split <;> rfl
@[simp] theorem State.modBind_clusters (g : Nat) (t : TenantNo) (f : Bind → Bind) : (s.modBind g t f).clusters = s.clusters := by
  unfold State.modBind; split <;> rfl
@[simp] theorem State.modBind_dies (g : Nat) (t : TenantNo) (f : Bind → Bind) : (s.modBind g t f).dies = s.dies := by
  unfold State.modBind; split <;> rfl
@[simp] theorem State.modBind_cfg (g : Nat) (t : TenantNo) (f : Bind → Bind) : (s.modBind g t f).cfg = s.cfg := by
  unfold State.modBind; split <;> rfl
@[simp] theorem State.modBind_coh (g : Nat) (t : TenantNo) (f : Bind → Bind) : (s.modBind g t f).coh = s.coh := by
  unfold State.modBind; split <;> rfl
@[simp] theorem State.modBind_fl (g : Nat) (t : TenantNo) (f : Bind → Bind) : (s.modBind g t f).fl = s.fl := by
  unfold State.modBind; split <;> rfl
@[simp] theorem State.modBind_launches (g : Nat) (t : TenantNo) (f : Bind → Bind) : (s.modBind g t f).launches = s.launches := by
  unfold State.modBind; split <;> rfl
@[simp] theorem State.modBind_nextLid (g : Nat) (t : TenantNo) (f : Bind → Bind) : (s.modBind g t f).nextLid = s.nextLid := by
  unfold State.modBind; split <;> rfl
@[simp] theorem State.modBind_trees (g : Nat) (t : TenantNo) (f : Bind → Bind) : (s.modBind g t f).trees = s.trees := by
  unfold State.modBind; split <;> rfl
@[simp] theorem State.modBind_descs (g : Nat) (t : TenantNo) (f : Bind → Bind) : (s.modBind g t f).descs = s.descs := by
  unfold State.modBind; split <;> rfl
@[simp] theorem State.modBind_msix (g : Nat) (t : TenantNo) (f : Bind → Bind) : (s.modBind g t f).msix = s.msix := by
  unfold State.modBind; split <;> rfl
@[simp] theorem State.modBind_linkUp (g : Nat) (t : TenantNo) (f : Bind → Bind) : (s.modBind g t f).linkUp = s.linkUp := by
  unfold State.modBind; split <;> rfl
@[simp] theorem State.modBind_linkCxl (g : Nat) (t : TenantNo) (f : Bind → Bind) : (s.modBind g t f).linkCxl = s.linkCxl := by
  unfold State.modBind; split <;> rfl
@[simp] theorem State.modBind_ats (g : Nat) (t : TenantNo) (f : Bind → Bind) : (s.modBind g t f).ats = s.ats := by
  unfold State.modBind; split <;> rfl
@[simp] theorem State.modBind_fports (g : Nat) (t : TenantNo) (f : Bind → Bind) : (s.modBind g t f).fports = s.fports := by
  unfold State.modBind; split <;> rfl
@[simp] theorem State.modBind_sec (g : Nat) (t : TenantNo) (f : Bind → Bind) : (s.modBind g t f).sec = s.sec := by
  unfold State.modBind; split <;> rfl
@[simp] theorem State.modBind_nextId (g : Nat) (t : TenantNo) (f : Bind → Bind) : (s.modBind g t f).nextId = s.nextId := by
  unfold State.modBind; split <;> rfl
@[simp] theorem State.modBind_fresh (g : Nat) (t : TenantNo) (f : Bind → Bind) : (s.modBind g t f).fresh = s.fresh := by
  unfold State.modBind; split <;> rfl
@[simp] theorem State.modBind_opaques (g : Nat) (t : TenantNo) (f : Bind → Bind) : (s.modBind g t f).opaques = s.opaques := by
  unfold State.modBind; split <;> rfl

/-! ### raise -/

@[simp] theorem State.raise_part (fn v : Nat) : (s.raise fn v).part = s.part := by
  unfold State.raise; split <;> rfl
@[simp] theorem State.raise_cycle (fn v : Nat) : (s.raise fn v).cycle = s.cycle := by
  unfold State.raise; split <;> rfl
@[simp] theorem State.raise_eventsFrom (fn v : Nat) : (s.raise fn v).eventsFrom = s.eventsFrom := by
  unfold State.raise; split <;> rfl
@[simp] theorem State.raise_turnsFrom (fn v : Nat) : (s.raise fn v).turnsFrom = s.turnsFrom := by
  unfold State.raise; split <;> rfl
@[simp] theorem State.raise_pending (fn v : Nat) : (s.raise fn v).pending = s.pending := by
  unfold State.raise; split <;> rfl
@[simp] theorem State.raise_who (fn v : Nat) : (s.raise fn v).who = s.who := by
  unfold State.raise; split <;> rfl
@[simp] theorem State.raise_mem (fn v : Nat) : (s.raise fn v).mem = s.mem := by
  unfold State.raise; split <;> rfl
@[simp] theorem State.raise_ctxs (fn v : Nat) : (s.raise fn v).ctxs = s.ctxs := by
  unfold State.raise; split <;> rfl
@[simp] theorem State.raise_cores (fn v : Nat) : (s.raise fn v).cores = s.cores := by
  unfold State.raise; split <;> rfl
@[simp] theorem State.raise_binds (fn v : Nat) : (s.raise fn v).binds = s.binds := by
  unfold State.raise; split <;> rfl
@[simp] theorem State.raise_clusters (fn v : Nat) : (s.raise fn v).clusters = s.clusters := by
  unfold State.raise; split <;> rfl
@[simp] theorem State.raise_dies (fn v : Nat) : (s.raise fn v).dies = s.dies := by
  unfold State.raise; split <;> rfl
@[simp] theorem State.raise_cfg (fn v : Nat) : (s.raise fn v).cfg = s.cfg := by
  unfold State.raise; split <;> rfl
@[simp] theorem State.raise_coh (fn v : Nat) : (s.raise fn v).coh = s.coh := by
  unfold State.raise; split <;> rfl
@[simp] theorem State.raise_fl (fn v : Nat) : (s.raise fn v).fl = s.fl := by
  unfold State.raise; split <;> rfl
@[simp] theorem State.raise_launches (fn v : Nat) : (s.raise fn v).launches = s.launches := by
  unfold State.raise; split <;> rfl
@[simp] theorem State.raise_nextLid (fn v : Nat) : (s.raise fn v).nextLid = s.nextLid := by
  unfold State.raise; split <;> rfl
@[simp] theorem State.raise_trees (fn v : Nat) : (s.raise fn v).trees = s.trees := by
  unfold State.raise; split <;> rfl
@[simp] theorem State.raise_descs (fn v : Nat) : (s.raise fn v).descs = s.descs := by
  unfold State.raise; split <;> rfl
@[simp] theorem State.raise_linkUp (fn v : Nat) : (s.raise fn v).linkUp = s.linkUp := by
  unfold State.raise; split <;> rfl
@[simp] theorem State.raise_linkCxl (fn v : Nat) : (s.raise fn v).linkCxl = s.linkCxl := by
  unfold State.raise; split <;> rfl
@[simp] theorem State.raise_ats (fn v : Nat) : (s.raise fn v).ats = s.ats := by
  unfold State.raise; split <;> rfl
@[simp] theorem State.raise_fports (fn v : Nat) : (s.raise fn v).fports = s.fports := by
  unfold State.raise; split <;> rfl
@[simp] theorem State.raise_sec (fn v : Nat) : (s.raise fn v).sec = s.sec := by
  unfold State.raise; split <;> rfl
@[simp] theorem State.raise_nextId (fn v : Nat) : (s.raise fn v).nextId = s.nextId := by
  unfold State.raise; split <;> rfl
@[simp] theorem State.raise_fresh (fn v : Nat) : (s.raise fn v).fresh = s.fresh := by
  unfold State.raise; split <;> rfl
@[simp] theorem State.raise_opaques (fn v : Nat) : (s.raise fn v).opaques = s.opaques := by
  unfold State.raise; split <;> rfl

/-! ### bumpBy -/

@[simp] theorem State.bumpBy_part (g ev n : Nat) : (s.bumpBy g ev n).part = s.part := by
  unfold State.bumpBy; split <;> rfl
@[simp] theorem State.bumpBy_cycle (g ev n : Nat) : (s.bumpBy g ev n).cycle = s.cycle := by
  unfold State.bumpBy; split <;> rfl
@[simp] theorem State.bumpBy_eventsFrom (g ev n : Nat) : (s.bumpBy g ev n).eventsFrom = s.eventsFrom := by
  unfold State.bumpBy; split <;> rfl
@[simp] theorem State.bumpBy_turnsFrom (g ev n : Nat) : (s.bumpBy g ev n).turnsFrom = s.turnsFrom := by
  unfold State.bumpBy; split <;> rfl
@[simp] theorem State.bumpBy_pending (g ev n : Nat) : (s.bumpBy g ev n).pending = s.pending := by
  unfold State.bumpBy; split <;> rfl
@[simp] theorem State.bumpBy_who (g ev n : Nat) : (s.bumpBy g ev n).who = s.who := by
  unfold State.bumpBy; split <;> rfl
@[simp] theorem State.bumpBy_mem (g ev n : Nat) : (s.bumpBy g ev n).mem = s.mem := by
  unfold State.bumpBy; split <;> rfl
@[simp] theorem State.bumpBy_ctxs (g ev n : Nat) : (s.bumpBy g ev n).ctxs = s.ctxs := by
  unfold State.bumpBy; split <;> rfl
@[simp] theorem State.bumpBy_binds (g ev n : Nat) : (s.bumpBy g ev n).binds = s.binds := by
  unfold State.bumpBy; split <;> rfl
@[simp] theorem State.bumpBy_clusters (g ev n : Nat) : (s.bumpBy g ev n).clusters = s.clusters := by
  unfold State.bumpBy; split <;> rfl
@[simp] theorem State.bumpBy_dies (g ev n : Nat) : (s.bumpBy g ev n).dies = s.dies := by
  unfold State.bumpBy; split <;> rfl
@[simp] theorem State.bumpBy_cfg (g ev n : Nat) : (s.bumpBy g ev n).cfg = s.cfg := by
  unfold State.bumpBy; split <;> rfl
@[simp] theorem State.bumpBy_coh (g ev n : Nat) : (s.bumpBy g ev n).coh = s.coh := by
  unfold State.bumpBy; split <;> rfl
@[simp] theorem State.bumpBy_fl (g ev n : Nat) : (s.bumpBy g ev n).fl = s.fl := by
  unfold State.bumpBy; split <;> rfl
@[simp] theorem State.bumpBy_launches (g ev n : Nat) : (s.bumpBy g ev n).launches = s.launches := by
  unfold State.bumpBy; split <;> rfl
@[simp] theorem State.bumpBy_nextLid (g ev n : Nat) : (s.bumpBy g ev n).nextLid = s.nextLid := by
  unfold State.bumpBy; split <;> rfl
@[simp] theorem State.bumpBy_trees (g ev n : Nat) : (s.bumpBy g ev n).trees = s.trees := by
  unfold State.bumpBy; split <;> rfl
@[simp] theorem State.bumpBy_descs (g ev n : Nat) : (s.bumpBy g ev n).descs = s.descs := by
  unfold State.bumpBy; split <;> rfl
@[simp] theorem State.bumpBy_msix (g ev n : Nat) : (s.bumpBy g ev n).msix = s.msix := by
  unfold State.bumpBy; split <;> rfl
@[simp] theorem State.bumpBy_linkUp (g ev n : Nat) : (s.bumpBy g ev n).linkUp = s.linkUp := by
  unfold State.bumpBy; split <;> rfl
@[simp] theorem State.bumpBy_linkCxl (g ev n : Nat) : (s.bumpBy g ev n).linkCxl = s.linkCxl := by
  unfold State.bumpBy; split <;> rfl
@[simp] theorem State.bumpBy_ats (g ev n : Nat) : (s.bumpBy g ev n).ats = s.ats := by
  unfold State.bumpBy; split <;> rfl
@[simp] theorem State.bumpBy_fports (g ev n : Nat) : (s.bumpBy g ev n).fports = s.fports := by
  unfold State.bumpBy; split <;> rfl
@[simp] theorem State.bumpBy_sec (g ev n : Nat) : (s.bumpBy g ev n).sec = s.sec := by
  unfold State.bumpBy; split <;> rfl
@[simp] theorem State.bumpBy_nextId (g ev n : Nat) : (s.bumpBy g ev n).nextId = s.nextId := by
  unfold State.bumpBy; split <;> rfl
@[simp] theorem State.bumpBy_fresh (g ev n : Nat) : (s.bumpBy g ev n).fresh = s.fresh := by
  unfold State.bumpBy; split <;> rfl
@[simp] theorem State.bumpBy_opaques (g ev n : Nat) : (s.bumpBy g ev n).opaques = s.opaques := by
  unfold State.bumpBy; split <;> rfl

/-! ### bump, bumpAll, tick -/

@[simp] theorem State.bump_part (g ev : Nat) : (s.bump g ev).part = s.part := s.bumpBy_part g ev 1
@[simp] theorem State.bump_cycle (g ev : Nat) : (s.bump g ev).cycle = s.cycle := s.bumpBy_cycle g ev 1
@[simp] theorem State.bump_eventsFrom (g ev : Nat) : (s.bump g ev).eventsFrom = s.eventsFrom := s.bumpBy_eventsFrom g ev 1
@[simp] theorem State.bump_turnsFrom (g ev : Nat) : (s.bump g ev).turnsFrom = s.turnsFrom := s.bumpBy_turnsFrom g ev 1
@[simp] theorem State.bump_pending (g ev : Nat) : (s.bump g ev).pending = s.pending := s.bumpBy_pending g ev 1
@[simp] theorem State.bump_who (g ev : Nat) : (s.bump g ev).who = s.who := s.bumpBy_who g ev 1
@[simp] theorem State.bump_mem (g ev : Nat) : (s.bump g ev).mem = s.mem := s.bumpBy_mem g ev 1
@[simp] theorem State.bump_ctxs (g ev : Nat) : (s.bump g ev).ctxs = s.ctxs := s.bumpBy_ctxs g ev 1
@[simp] theorem State.bump_binds (g ev : Nat) : (s.bump g ev).binds = s.binds := s.bumpBy_binds g ev 1
@[simp] theorem State.bump_clusters (g ev : Nat) : (s.bump g ev).clusters = s.clusters := s.bumpBy_clusters g ev 1
@[simp] theorem State.bump_dies (g ev : Nat) : (s.bump g ev).dies = s.dies := s.bumpBy_dies g ev 1
@[simp] theorem State.bump_cfg (g ev : Nat) : (s.bump g ev).cfg = s.cfg := s.bumpBy_cfg g ev 1
@[simp] theorem State.bump_coh (g ev : Nat) : (s.bump g ev).coh = s.coh := s.bumpBy_coh g ev 1
@[simp] theorem State.bump_fl (g ev : Nat) : (s.bump g ev).fl = s.fl := s.bumpBy_fl g ev 1
@[simp] theorem State.bump_launches (g ev : Nat) : (s.bump g ev).launches = s.launches := s.bumpBy_launches g ev 1
@[simp] theorem State.bump_nextLid (g ev : Nat) : (s.bump g ev).nextLid = s.nextLid := s.bumpBy_nextLid g ev 1
@[simp] theorem State.bump_trees (g ev : Nat) : (s.bump g ev).trees = s.trees := s.bumpBy_trees g ev 1
@[simp] theorem State.bump_descs (g ev : Nat) : (s.bump g ev).descs = s.descs := s.bumpBy_descs g ev 1
@[simp] theorem State.bump_msix (g ev : Nat) : (s.bump g ev).msix = s.msix := s.bumpBy_msix g ev 1
@[simp] theorem State.bump_linkUp (g ev : Nat) : (s.bump g ev).linkUp = s.linkUp := s.bumpBy_linkUp g ev 1
@[simp] theorem State.bump_linkCxl (g ev : Nat) : (s.bump g ev).linkCxl = s.linkCxl := s.bumpBy_linkCxl g ev 1
@[simp] theorem State.bump_ats (g ev : Nat) : (s.bump g ev).ats = s.ats := s.bumpBy_ats g ev 1
@[simp] theorem State.bump_fports (g ev : Nat) : (s.bump g ev).fports = s.fports := s.bumpBy_fports g ev 1
@[simp] theorem State.bump_sec (g ev : Nat) : (s.bump g ev).sec = s.sec := s.bumpBy_sec g ev 1
@[simp] theorem State.bump_nextId (g ev : Nat) : (s.bump g ev).nextId = s.nextId := s.bumpBy_nextId g ev 1
@[simp] theorem State.bump_fresh (g ev : Nat) : (s.bump g ev).fresh = s.fresh := s.bumpBy_fresh g ev 1
@[simp] theorem State.bump_opaques (g ev : Nat) : (s.bump g ev).opaques = s.opaques := s.bumpBy_opaques g ev 1
@[simp] theorem State.bumpAll_part (p : Nat → Bool) (ev n : Nat) : (s.bumpAll p ev n).part = s.part := by
  unfold State.bumpAll
  generalize tkeys s.cores = l
  induction l generalizing s with
  | nil => rfl
  | cons a l ih => rw [List.foldl_cons, ih]; split <;> simp
@[simp] theorem State.bumpAll_cycle (p : Nat → Bool) (ev n : Nat) : (s.bumpAll p ev n).cycle = s.cycle := by
  unfold State.bumpAll
  generalize tkeys s.cores = l
  induction l generalizing s with
  | nil => rfl
  | cons a l ih => rw [List.foldl_cons, ih]; split <;> simp
@[simp] theorem State.bumpAll_eventsFrom (p : Nat → Bool) (ev n : Nat) : (s.bumpAll p ev n).eventsFrom = s.eventsFrom := by
  unfold State.bumpAll
  generalize tkeys s.cores = l
  induction l generalizing s with
  | nil => rfl
  | cons a l ih => rw [List.foldl_cons, ih]; split <;> simp
@[simp] theorem State.bumpAll_turnsFrom (p : Nat → Bool) (ev n : Nat) : (s.bumpAll p ev n).turnsFrom = s.turnsFrom := by
  unfold State.bumpAll
  generalize tkeys s.cores = l
  induction l generalizing s with
  | nil => rfl
  | cons a l ih => rw [List.foldl_cons, ih]; split <;> simp
@[simp] theorem State.bumpAll_pending (p : Nat → Bool) (ev n : Nat) : (s.bumpAll p ev n).pending = s.pending := by
  unfold State.bumpAll
  generalize tkeys s.cores = l
  induction l generalizing s with
  | nil => rfl
  | cons a l ih => rw [List.foldl_cons, ih]; split <;> simp
@[simp] theorem State.bumpAll_who (p : Nat → Bool) (ev n : Nat) : (s.bumpAll p ev n).who = s.who := by
  unfold State.bumpAll
  generalize tkeys s.cores = l
  induction l generalizing s with
  | nil => rfl
  | cons a l ih => rw [List.foldl_cons, ih]; split <;> simp
@[simp] theorem State.bumpAll_mem (p : Nat → Bool) (ev n : Nat) : (s.bumpAll p ev n).mem = s.mem := by
  unfold State.bumpAll
  generalize tkeys s.cores = l
  induction l generalizing s with
  | nil => rfl
  | cons a l ih => rw [List.foldl_cons, ih]; split <;> simp
@[simp] theorem State.bumpAll_ctxs (p : Nat → Bool) (ev n : Nat) : (s.bumpAll p ev n).ctxs = s.ctxs := by
  unfold State.bumpAll
  generalize tkeys s.cores = l
  induction l generalizing s with
  | nil => rfl
  | cons a l ih => rw [List.foldl_cons, ih]; split <;> simp
@[simp] theorem State.bumpAll_binds (p : Nat → Bool) (ev n : Nat) : (s.bumpAll p ev n).binds = s.binds := by
  unfold State.bumpAll
  generalize tkeys s.cores = l
  induction l generalizing s with
  | nil => rfl
  | cons a l ih => rw [List.foldl_cons, ih]; split <;> simp
@[simp] theorem State.bumpAll_clusters (p : Nat → Bool) (ev n : Nat) : (s.bumpAll p ev n).clusters = s.clusters := by
  unfold State.bumpAll
  generalize tkeys s.cores = l
  induction l generalizing s with
  | nil => rfl
  | cons a l ih => rw [List.foldl_cons, ih]; split <;> simp
@[simp] theorem State.bumpAll_dies (p : Nat → Bool) (ev n : Nat) : (s.bumpAll p ev n).dies = s.dies := by
  unfold State.bumpAll
  generalize tkeys s.cores = l
  induction l generalizing s with
  | nil => rfl
  | cons a l ih => rw [List.foldl_cons, ih]; split <;> simp
@[simp] theorem State.bumpAll_cfg (p : Nat → Bool) (ev n : Nat) : (s.bumpAll p ev n).cfg = s.cfg := by
  unfold State.bumpAll
  generalize tkeys s.cores = l
  induction l generalizing s with
  | nil => rfl
  | cons a l ih => rw [List.foldl_cons, ih]; split <;> simp
@[simp] theorem State.bumpAll_coh (p : Nat → Bool) (ev n : Nat) : (s.bumpAll p ev n).coh = s.coh := by
  unfold State.bumpAll
  generalize tkeys s.cores = l
  induction l generalizing s with
  | nil => rfl
  | cons a l ih => rw [List.foldl_cons, ih]; split <;> simp
@[simp] theorem State.bumpAll_fl (p : Nat → Bool) (ev n : Nat) : (s.bumpAll p ev n).fl = s.fl := by
  unfold State.bumpAll
  generalize tkeys s.cores = l
  induction l generalizing s with
  | nil => rfl
  | cons a l ih => rw [List.foldl_cons, ih]; split <;> simp
@[simp] theorem State.bumpAll_launches (p : Nat → Bool) (ev n : Nat) : (s.bumpAll p ev n).launches = s.launches := by
  unfold State.bumpAll
  generalize tkeys s.cores = l
  induction l generalizing s with
  | nil => rfl
  | cons a l ih => rw [List.foldl_cons, ih]; split <;> simp
@[simp] theorem State.bumpAll_nextLid (p : Nat → Bool) (ev n : Nat) : (s.bumpAll p ev n).nextLid = s.nextLid := by
  unfold State.bumpAll
  generalize tkeys s.cores = l
  induction l generalizing s with
  | nil => rfl
  | cons a l ih => rw [List.foldl_cons, ih]; split <;> simp
@[simp] theorem State.bumpAll_trees (p : Nat → Bool) (ev n : Nat) : (s.bumpAll p ev n).trees = s.trees := by
  unfold State.bumpAll
  generalize tkeys s.cores = l
  induction l generalizing s with
  | nil => rfl
  | cons a l ih => rw [List.foldl_cons, ih]; split <;> simp
@[simp] theorem State.bumpAll_descs (p : Nat → Bool) (ev n : Nat) : (s.bumpAll p ev n).descs = s.descs := by
  unfold State.bumpAll
  generalize tkeys s.cores = l
  induction l generalizing s with
  | nil => rfl
  | cons a l ih => rw [List.foldl_cons, ih]; split <;> simp
@[simp] theorem State.bumpAll_msix (p : Nat → Bool) (ev n : Nat) : (s.bumpAll p ev n).msix = s.msix := by
  unfold State.bumpAll
  generalize tkeys s.cores = l
  induction l generalizing s with
  | nil => rfl
  | cons a l ih => rw [List.foldl_cons, ih]; split <;> simp
@[simp] theorem State.bumpAll_linkUp (p : Nat → Bool) (ev n : Nat) : (s.bumpAll p ev n).linkUp = s.linkUp := by
  unfold State.bumpAll
  generalize tkeys s.cores = l
  induction l generalizing s with
  | nil => rfl
  | cons a l ih => rw [List.foldl_cons, ih]; split <;> simp
@[simp] theorem State.bumpAll_linkCxl (p : Nat → Bool) (ev n : Nat) : (s.bumpAll p ev n).linkCxl = s.linkCxl := by
  unfold State.bumpAll
  generalize tkeys s.cores = l
  induction l generalizing s with
  | nil => rfl
  | cons a l ih => rw [List.foldl_cons, ih]; split <;> simp
@[simp] theorem State.bumpAll_ats (p : Nat → Bool) (ev n : Nat) : (s.bumpAll p ev n).ats = s.ats := by
  unfold State.bumpAll
  generalize tkeys s.cores = l
  induction l generalizing s with
  | nil => rfl
  | cons a l ih => rw [List.foldl_cons, ih]; split <;> simp
@[simp] theorem State.bumpAll_fports (p : Nat → Bool) (ev n : Nat) : (s.bumpAll p ev n).fports = s.fports := by
  unfold State.bumpAll
  generalize tkeys s.cores = l
  induction l generalizing s with
  | nil => rfl
  | cons a l ih => rw [List.foldl_cons, ih]; split <;> simp
@[simp] theorem State.bumpAll_sec (p : Nat → Bool) (ev n : Nat) : (s.bumpAll p ev n).sec = s.sec := by
  unfold State.bumpAll
  generalize tkeys s.cores = l
  induction l generalizing s with
  | nil => rfl
  | cons a l ih => rw [List.foldl_cons, ih]; split <;> simp
@[simp] theorem State.bumpAll_nextId (p : Nat → Bool) (ev n : Nat) : (s.bumpAll p ev n).nextId = s.nextId := by
  unfold State.bumpAll
  generalize tkeys s.cores = l
  induction l generalizing s with
  | nil => rfl
  | cons a l ih => rw [List.foldl_cons, ih]; split <;> simp
@[simp] theorem State.bumpAll_fresh (p : Nat → Bool) (ev n : Nat) : (s.bumpAll p ev n).fresh = s.fresh := by
  unfold State.bumpAll
  generalize tkeys s.cores = l
  induction l generalizing s with
  | nil => rfl
  | cons a l ih => rw [List.foldl_cons, ih]; split <;> simp
@[simp] theorem State.bumpAll_opaques (p : Nat → Bool) (ev n : Nat) : (s.bumpAll p ev n).opaques = s.opaques := by
  unfold State.bumpAll
  generalize tkeys s.cores = l
  induction l generalizing s with
  | nil => rfl
  | cons a l ih => rw [List.foldl_cons, ih]; split <;> simp
@[simp] theorem State.bumpDie_part (d ev n : Nat) : (s.bumpDie d ev n).part = s.part := s.bumpAll_part _ ev n
@[simp] theorem State.bumpDie_cycle (d ev n : Nat) : (s.bumpDie d ev n).cycle = s.cycle := s.bumpAll_cycle _ ev n
@[simp] theorem State.bumpDie_eventsFrom (d ev n : Nat) : (s.bumpDie d ev n).eventsFrom = s.eventsFrom := s.bumpAll_eventsFrom _ ev n
@[simp] theorem State.bumpDie_turnsFrom (d ev n : Nat) : (s.bumpDie d ev n).turnsFrom = s.turnsFrom := s.bumpAll_turnsFrom _ ev n
@[simp] theorem State.bumpDie_pending (d ev n : Nat) : (s.bumpDie d ev n).pending = s.pending := s.bumpAll_pending _ ev n
@[simp] theorem State.bumpDie_who (d ev n : Nat) : (s.bumpDie d ev n).who = s.who := s.bumpAll_who _ ev n
@[simp] theorem State.bumpDie_mem (d ev n : Nat) : (s.bumpDie d ev n).mem = s.mem := s.bumpAll_mem _ ev n
@[simp] theorem State.bumpDie_ctxs (d ev n : Nat) : (s.bumpDie d ev n).ctxs = s.ctxs := s.bumpAll_ctxs _ ev n
@[simp] theorem State.bumpDie_binds (d ev n : Nat) : (s.bumpDie d ev n).binds = s.binds := s.bumpAll_binds _ ev n
@[simp] theorem State.bumpDie_clusters (d ev n : Nat) : (s.bumpDie d ev n).clusters = s.clusters := s.bumpAll_clusters _ ev n
@[simp] theorem State.bumpDie_dies (d ev n : Nat) : (s.bumpDie d ev n).dies = s.dies := s.bumpAll_dies _ ev n
@[simp] theorem State.bumpDie_cfg (d ev n : Nat) : (s.bumpDie d ev n).cfg = s.cfg := s.bumpAll_cfg _ ev n
@[simp] theorem State.bumpDie_coh (d ev n : Nat) : (s.bumpDie d ev n).coh = s.coh := s.bumpAll_coh _ ev n
@[simp] theorem State.bumpDie_fl (d ev n : Nat) : (s.bumpDie d ev n).fl = s.fl := s.bumpAll_fl _ ev n
@[simp] theorem State.bumpDie_launches (d ev n : Nat) : (s.bumpDie d ev n).launches = s.launches := s.bumpAll_launches _ ev n
@[simp] theorem State.bumpDie_nextLid (d ev n : Nat) : (s.bumpDie d ev n).nextLid = s.nextLid := s.bumpAll_nextLid _ ev n
@[simp] theorem State.bumpDie_trees (d ev n : Nat) : (s.bumpDie d ev n).trees = s.trees := s.bumpAll_trees _ ev n
@[simp] theorem State.bumpDie_descs (d ev n : Nat) : (s.bumpDie d ev n).descs = s.descs := s.bumpAll_descs _ ev n
@[simp] theorem State.bumpDie_msix (d ev n : Nat) : (s.bumpDie d ev n).msix = s.msix := s.bumpAll_msix _ ev n
@[simp] theorem State.bumpDie_linkUp (d ev n : Nat) : (s.bumpDie d ev n).linkUp = s.linkUp := s.bumpAll_linkUp _ ev n
@[simp] theorem State.bumpDie_linkCxl (d ev n : Nat) : (s.bumpDie d ev n).linkCxl = s.linkCxl := s.bumpAll_linkCxl _ ev n
@[simp] theorem State.bumpDie_ats (d ev n : Nat) : (s.bumpDie d ev n).ats = s.ats := s.bumpAll_ats _ ev n
@[simp] theorem State.bumpDie_fports (d ev n : Nat) : (s.bumpDie d ev n).fports = s.fports := s.bumpAll_fports _ ev n
@[simp] theorem State.bumpDie_sec (d ev n : Nat) : (s.bumpDie d ev n).sec = s.sec := s.bumpAll_sec _ ev n
@[simp] theorem State.bumpDie_nextId (d ev n : Nat) : (s.bumpDie d ev n).nextId = s.nextId := s.bumpAll_nextId _ ev n
@[simp] theorem State.bumpDie_fresh (d ev n : Nat) : (s.bumpDie d ev n).fresh = s.fresh := s.bumpAll_fresh _ ev n
@[simp] theorem State.bumpDie_opaques (d ev n : Nat) : (s.bumpDie d ev n).opaques = s.opaques := s.bumpAll_opaques _ ev n
@[simp] theorem State.tick_part (n : Nat) : (s.tick n).part = s.part := State.bumpAll_part _ _ _ _
@[simp] theorem State.tick_eventsFrom (n : Nat) : (s.tick n).eventsFrom = s.eventsFrom := State.bumpAll_eventsFrom _ _ _ _
@[simp] theorem State.tick_turnsFrom (n : Nat) : (s.tick n).turnsFrom = s.turnsFrom := State.bumpAll_turnsFrom _ _ _ _
@[simp] theorem State.tick_pending (n : Nat) : (s.tick n).pending = s.pending := State.bumpAll_pending _ _ _ _
@[simp] theorem State.tick_who (n : Nat) : (s.tick n).who = s.who := State.bumpAll_who _ _ _ _
@[simp] theorem State.tick_mem (n : Nat) : (s.tick n).mem = s.mem := State.bumpAll_mem _ _ _ _
@[simp] theorem State.tick_ctxs (n : Nat) : (s.tick n).ctxs = s.ctxs := State.bumpAll_ctxs _ _ _ _
@[simp] theorem State.tick_binds (n : Nat) : (s.tick n).binds = s.binds := State.bumpAll_binds _ _ _ _
@[simp] theorem State.tick_clusters (n : Nat) : (s.tick n).clusters = s.clusters := State.bumpAll_clusters _ _ _ _
@[simp] theorem State.tick_dies (n : Nat) : (s.tick n).dies = s.dies := State.bumpAll_dies _ _ _ _
@[simp] theorem State.tick_cfg (n : Nat) : (s.tick n).cfg = s.cfg := State.bumpAll_cfg _ _ _ _
@[simp] theorem State.tick_coh (n : Nat) : (s.tick n).coh = s.coh := State.bumpAll_coh _ _ _ _
@[simp] theorem State.tick_fl (n : Nat) : (s.tick n).fl = s.fl := State.bumpAll_fl _ _ _ _
@[simp] theorem State.tick_launches (n : Nat) : (s.tick n).launches = s.launches := State.bumpAll_launches _ _ _ _
@[simp] theorem State.tick_nextLid (n : Nat) : (s.tick n).nextLid = s.nextLid := State.bumpAll_nextLid _ _ _ _
@[simp] theorem State.tick_trees (n : Nat) : (s.tick n).trees = s.trees := State.bumpAll_trees _ _ _ _
@[simp] theorem State.tick_descs (n : Nat) : (s.tick n).descs = s.descs := State.bumpAll_descs _ _ _ _
@[simp] theorem State.tick_msix (n : Nat) : (s.tick n).msix = s.msix := State.bumpAll_msix _ _ _ _
@[simp] theorem State.tick_linkUp (n : Nat) : (s.tick n).linkUp = s.linkUp := State.bumpAll_linkUp _ _ _ _
@[simp] theorem State.tick_linkCxl (n : Nat) : (s.tick n).linkCxl = s.linkCxl := State.bumpAll_linkCxl _ _ _ _
@[simp] theorem State.tick_ats (n : Nat) : (s.tick n).ats = s.ats := State.bumpAll_ats _ _ _ _
@[simp] theorem State.tick_fports (n : Nat) : (s.tick n).fports = s.fports := State.bumpAll_fports _ _ _ _
@[simp] theorem State.tick_sec (n : Nat) : (s.tick n).sec = s.sec := State.bumpAll_sec _ _ _ _
@[simp] theorem State.tick_nextId (n : Nat) : (s.tick n).nextId = s.nextId := State.bumpAll_nextId _ _ _ _
@[simp] theorem State.tick_fresh (n : Nat) : (s.tick n).fresh = s.fresh := State.bumpAll_fresh _ _ _ _
@[simp] theorem State.tick_opaques (n : Nat) : (s.tick n).opaques = s.opaques := State.bumpAll_opaques _ _ _ _
@[simp] theorem State.tick_cycle (n : Nat) : (s.tick n).cycle = s.cycle + n := State.bumpAll_cycle _ _ _ _

/-! ### What a table reads as after an update -/

@[simp] theorem State.core_setCore_same (g : Nat) (c : Core) : (s.setCore g c).core g = c := tget_tput_same ..
theorem State.core_setCore_other (g h : Nat) (c : Core) (hne : g ≠ h) : (s.setCore g c).core h = s.core h :=
  tget_tput_other _ _ _ _ _ hne
@[simp] theorem State.core_modCore_same (g : Nat) (f : Core → Core) : (s.modCore g f).core g = f (s.core g) :=
  tget_tput_same ..
theorem State.core_modCore_other (g h : Nat) (f : Core → Core) (hne : g ≠ h) : (s.modCore g f).core h = s.core h :=
  tget_tput_other _ _ _ _ _ hne
@[simp] theorem State.ctx_setCtx_same (g : GCore) (k : Slot) (c : Option Ctx) : (s.setCtx g k c).ctx g k = c :=
  tget_tset_same ..
theorem State.ctx_setCtx_other (g g' : GCore) (k k' : Slot) (c : Option Ctx) (hne : (g, k) ≠ (g', k')) :
    (s.setCtx g k c).ctx g' k' = s.ctx g' k' :=
  tget_tset_other _ _ _ _ _ (fun h => hne (ctxKey_inj h))
@[simp] theorem State.ctx_setCore (g : Nat) (c : Core) (g' : GCore) (k : Slot) : (s.setCore g c).ctx g' k = s.ctx g' k := rfl
@[simp] theorem State.ctx_modCore (g : Nat) (f : Core → Core) (g' : GCore) (k : Slot) : (s.modCore g f).ctx g' k = s.ctx g' k := rfl
@[simp] theorem State.core_setCtx (g : GCore) (k : Slot) (c : Option Ctx) (h : Nat) : (s.setCtx g k c).core h = s.core h := rfl
@[simp] theorem State.core_modC (f : Ctx → Ctx) (h : Nat) : (s.modC f).core h = s.core h := rfl
@[simp] theorem State.bind_setBind_same (g : Nat) (t : TenantNo) (b : Option Bind) : (s.setBind g t b).bind g t = b :=
  tget_tset_same ..
@[simp] theorem State.cluster_modCluster_same (c : Nat) (f : Cluster → Cluster) :
    (s.modCluster c f).cluster c = f (s.cluster c) := tget_tput_same ..
theorem State.cluster_modCluster_other (c d : Nat) (f : Cluster → Cluster) (hne : c ≠ d) :
    (s.modCluster c f).cluster d = s.cluster d := tget_tput_other _ _ _ _ _ hne
@[simp] theorem State.die_modDie_same (d : Nat) (f : Die → Die) : (s.modDie d f).die d = f (s.die d) := tget_tput_same ..
theorem State.die_modDie_other (d e : Nat) (f : Die → Die) (hne : d ≠ e) : (s.modDie d f).die e = s.die e :=
  tget_tput_other _ _ _ _ _ hne
@[simp] theorem State.cfgAt_setCfg_same (a : Nat) (v : Word) : (s.setCfg a v).cfgAt a = v := by
  simp [State.cfgAt, State.setCfg, tget_tset_same]
theorem State.cfgAt_setCfg_other (a b : Nat) (v : Word) (hne : a ≠ b) : (s.setCfg a v).cfgAt b = s.cfgAt b := by
  simp [State.cfgAt, State.setCfg, tget_tset_other _ _ _ _ _ hne]

/-! ### The running thread -/

@[simp] theorem State.asWho_g (g : GCore) (k : Slot) : (s.asWho g k).g = g := rfl
@[simp] theorem State.asWho_k (g : GCore) (k : Slot) : (s.asWho g k).k = k := rfl
@[simp] theorem State.modC_g (f : Ctx → Ctx) : (s.modC f).g = s.g := rfl
@[simp] theorem State.modC_k (f : Ctx → Ctx) : (s.modC f).k = s.k := rfl
@[simp] theorem State.modC_c (f : Ctx → Ctx) : (s.modC f).c = f s.c :=
  congrArg (fun o => Option.getD o ({} : Ctx)) (s.ctx_setCtx_same s.g s.k (some (f s.c)))
theorem State.modC_ctx_other (f : Ctx → Ctx) (g : GCore) (k : Slot) (hne : (s.g, s.k) ≠ (g, k)) :
    (s.modC f).ctx g k = s.ctx g k := s.ctx_setCtx_other _ _ _ _ _ hne
@[simp] theorem State.modCore_g (h : Nat) (f : Core → Core) : (s.modCore h f).g = s.g := rfl
@[simp] theorem State.modCore_k (h : Nat) (f : Core → Core) : (s.modCore h f).k = s.k := rfl
@[simp] theorem State.modCore_c (h : Nat) (f : Core → Core) : (s.modCore h f).c = s.c := rfl
@[simp] theorem State.bump_g (h ev : Nat) : (s.bump h ev).g = s.g := by simp [State.g]
@[simp] theorem State.bump_k (h ev : Nat) : (s.bump h ev).k = s.k := by simp [State.k]
@[simp] theorem State.bump_ctx (h ev : Nat) (g : GCore) (k : Slot) : (s.bump h ev).ctx g k = s.ctx g k := by
  simp [State.ctx]
@[simp] theorem State.bump_c (h ev : Nat) : (s.bump h ev).c = s.c := by simp [State.c]
@[simp] theorem State.bump_memAt (h ev a : Nat) : (s.bump h ev).memAt a = s.memAt a := by simp [State.memAt]
@[simp] theorem State.modC_memAt (f : Ctx → Ctx) (a : Nat) : (s.modC f).memAt a = s.memAt a := rfl
@[simp] theorem State.modCore_memAt (h : Nat) (f : Core → Core) (a : Nat) : (s.modCore h f).memAt a = s.memAt a := rfl

end Sys2Proof.Machine
end

