-- ==== Sys2Proof/Laws/Memory.lean ====
section
/-! SUPPORT. The laws of memory: every operation that writes it keeps its canonical form; a byte written reads back,
and every other byte reads as before; what an operation of the caches, the directory or the TLBs leaves of memory is
memory as it was. -/

namespace Sys2Proof.Machine

/-! ### Folds -/

/-- What every step of a fold keeps, the fold keeps. -/
theorem foldl_keeps {α β : Type} (P : β → Prop) (f : β → α → β) (l : List α) (b : β) (hb : P b)
    (h : ∀ x ∈ l, ∀ y, P y → P (f y x)) : P (l.foldl f b) := by
  induction l generalizing b with
  | nil => exact hb
  | cons a l ih => exact ih _ (h a (by simp) _ hb) fun x hx => h x (by simp [hx])

/-- A projection that no step of a fold changes. -/
theorem foldl_proj {α β γ : Type} (p : β → γ) (f : β → α → β) (l : List α) (b : β) (h : ∀ y x, p (f y x) = p y) :
    p (l.foldl f b) = p b :=
  foldl_keeps (fun y => p y = p b) f l b rfl fun x _ y hy => by rw [h, hy]

/-! ### The canonical form -/

/-- Memory after reset is in canonical form. -/
theorem reset_wf : State.reset.mem.wf := by decide

/-- A part of memory is in canonical form. -/
theorem Memory.wf_filter {m : Memory} (p : Nat × Byte → Bool) (h : m.wf) : Memory.wf (m.filter p) := twf_filter 0 m p h

/-- Bytes written keep the canonical form. -/
theorem State.poke_wf {s : State} (ws : List (Nat × Byte)) (h : s.mem.wf) : (s.poke ws).mem.wf :=
  foldl_keeps (fun m : Memory => m.wf) _ ws s.mem h fun w _ _ hm => twf_tset 0 _ (cellAddr w.1) w.2 hm

/-- Memories in canonical form that read alike are equal. -/
theorem Memory.ext_wf {m n : Memory} (hm : m.wf) (hn : n.wf) (h : ∀ k, tget 0 m k = tget 0 n k) : m = n := twf_ext 0 hm hn h

/-! ### Reading after writing -/

/-- A byte outside the bytes written reads as before. -/
theorem State.memAt_poke_other {s : State} (ws : List (Nat × Byte)) (a : Nat)
    (h : ∀ w ∈ ws, cellAddr w.1 ≠ cellAddr a) : (s.poke ws).memAt a = s.memAt a :=
  foldl_keeps (fun m : Memory => tget 0 m (cellAddr a) = tget 0 s.mem (cellAddr a)) _ ws s.mem rfl
    fun w hw m hm => by rw [tget_tset_other _ _ _ _ _ (h w hw), hm]

/-- A byte written reads back, where no other byte was written to its cell. -/
theorem State.memAt_poke_mem {s : State} (ws : List (Nat × Byte)) (a : Nat) (b : Byte) (hw : (a, b) ∈ ws)
    (h : (ws.map fun w => cellAddr w.1).Nodup) : (s.poke ws).memAt a = b := by
  induction ws generalizing s with
  | nil => simp at hw
  | cons w ws ih =>
    obtain ⟨h1, h2⟩ := List.nodup_cons.1 h
    have hs : s.poke (w :: ws) = (s.poke [w]).poke ws := rfl
    rw [hs]
    rcases List.mem_cons.1 hw with rfl | hw
    · rw [State.memAt_poke_other ws a]
      · exact tget_tset_same ..
      · intro e he hc
        exact h1 (List.mem_map.2 ⟨e, he, hc⟩)
    · exact ih hw h2

/-- Below the host windows, every address is its own cell. -/
theorem cellAddr_low {a : Nat} (h : a < hostBase) : cellAddr a = a := by simp [cellAddr, Nat.not_le.2 h]

/-- The cells of a list of bytes lie at the addresses from its first on. -/
theorem mem_cellsAt {a : Nat} {bs : List Byte} {e : Nat × Byte} (h : e ∈ cellsAt a bs) :
    a ≤ e.1 ∧ e.1 < a + bs.length ∧ bs[e.1 - a]? = some e.2 := by
  induction bs generalizing a with
  | nil => simp [cellsAt] at h
  | cons b bs ih =>
    rcases List.mem_cons.1 h with rfl | h
    · simp
    · obtain ⟨h1, h2, h3⟩ := ih h
      refine ⟨by omega, by simp; omega, ?_⟩
      have : e.1 - a = (e.1 - (a + 1)) + 1 := by omega
      rw [this, List.getElem?_cons_succ]; exact h3

/-- The cells of an n-byte number lie at its n addresses. -/
theorem mem_cellsOf {a n v : Nat} {e : Nat × Byte} (h : e ∈ cellsOf a n v) : a ≤ e.1 ∧ e.1 < a + n := by
  simp only [cellsOf, upTo, List.mem_map, List.mem_range] at h
  obtain ⟨i, hi, rfl⟩ := h
  simp; exact hi

/-- Bytes laid at an address below the host windows read back. -/
theorem State.memAt_poke_cellsAt {s : State} (a : Nat) (bs : List Byte) (i : Nat) (b : Byte) (ha : a + bs.length ≤ hostBase)
    (hb : bs[i]? = some b) : (s.poke (cellsAt a bs)).memAt (a + i) = b := by
  induction bs generalizing s a i with
  | nil => simp at hb
  | cons x bs ih =>
    have hs : s.poke (cellsAt a (x :: bs)) = (s.poke [(a, x)]).poke (cellsAt (a + 1) bs) := rfl
    simp only [List.length_cons] at ha
    cases i with
    | zero =>
      have hx : x = b := by simpa using hb
      subst hx
      rw [hs, State.memAt_poke_other]
      · exact tget_tset_same ..
      · intro w hw
        obtain ⟨h1, h2, -⟩ := mem_cellsAt hw
        rw [cellAddr_low (by omega), cellAddr_low (by omega)]; omega
    | succ i =>
      rw [hs, show a + (i + 1) = (a + 1) + i by omega]
      exact ih (s := s.poke [(a, x)]) (a + 1) i (by omega) (by simpa using hb)

/-! ### Operations that leave memory as it is -/

variable (s : State)

/-- Both branches of a choice leave a memory. -/
theorem ite_mem {c : Prop} [Decidable c] {a b : State} {m : Memory} (ha : a.mem = m) (hb : b.mem = m) :
    (if c then a else b).mem = m := by split <;> assumption

@[simp] theorem unpart_mem (line : Nat) : (unpart s line).mem = s.mem := by simp only [unpart]; split <;> rfl
@[simp] theorem widen_mem (g : GCore) (sc : Scope) : (widen s g sc).mem = s.mem := rfl
@[simp] theorem thirstFor_mem (ws : List (Nat × Byte)) : (thirstFor s ws).mem = s.mem := by
  simp only [thirstFor]; split <;> rfl
@[simp] theorem quench_mem (ws : List (Nat × Byte)) : (quench s ws).mem = s.mem := by
  simp only [quench]; (repeat' split) <;> simp
@[simp] theorem dropLines_mem (p : Nat → Bool) : (dropLines s p).mem = s.mem := rfl
@[simp] theorem dropViews_mem (line : Nat) : (dropViews s line).mem = s.mem := by simp only [dropViews]; split <;> simp
@[simp] theorem l2Drop_mem (line d : Nat) : (l2Drop s line d).mem = s.mem := rfl
@[simp] theorem unmirror_mem (line : Nat) : (unmirror s line).mem = s.mem := by simp only [unmirror]; split <;> rfl
@[simp] theorem l2Evict_mem (d line : Nat) : (l2Evict s d line).mem = s.mem := by simp only [l2Evict]; split <;> simp
@[simp] theorem l2Room_mem (d line : Nat) : (l2Room s d line).mem = s.mem := by
  simp only [l2Room]; (repeat' split) <;> simp
@[simp] theorem l2Put_mem (d line : Nat) (x : L2Line) : (l2Put s d line x).mem = s.mem := by
  simp only [l2Put]; split <;> simp
@[simp] theorem l2Use_mem (d : Nat) (t : TenantNo) (line : Nat) (pri : BitVec 2) (alloc : Bool) :
    (l2Use s d t line pri alloc).mem = s.mem := by
  simp only [l2Use]; (repeat' split) <;> simp
@[simp] theorem noteAccess_mem (d line : Nat) (w : Bool) : (noteAccess s d line w).mem = s.mem := by
  unfold noteAccess
  exact ite_mem (by simp) (by simp)
@[simp] theorem collapse_mem (count : Bool) (line : Nat) : (collapse count s line).mem = s.mem := by
  have h (ds : List Nat) : (ds.foldl (fun s d => l2Drop s line d) s).mem = s.mem := foldl_proj State.mem _ _ _ fun _ _ => rfl
  simp only [collapse]; split
  · rfl
  · split <;> simp [h]
@[simp] theorem noteDecode_mem (line : Nat) : (noteDecode s line).mem = s.mem := by
  simp only [noteDecode]; split
  · split
    · split <;> simp
    · rfl
  · rfl
@[simp] theorem noteRead_mem (g : Nat) (t : TenantNo) (hint : BitVec 3) (p : Piece) : (noteRead s g t hint p).mem = s.mem := by
  unfold noteRead
  split
  · rfl
  · dsimp only; (repeat' split) <;> simp
@[simp] theorem clearLost_mem (line : Nat) : (clearLost s line).mem = s.mem := by
  simp only [clearLost]; split <;> simp
@[simp] theorem toBuddy_mem (d line : Nat) : (toBuddy s d line).mem = s.mem := by simp only [toBuddy]; split <;> rfl
@[simp] theorem homeLine_mem (line : Nat) : (homeLine s line).mem = s.mem := by
  simp only [homeLine]; split
  · (repeat' split) <;> simp
  · rfl
@[simp] theorem trimL2_mem (g : Nat) : (trimL2 s g).mem = s.mem := by simp only [trimL2]; split <;> simp
@[simp] theorem refreshAhead_mem (g : Nat) (as : List Nat) : (refreshAhead s g as).mem = s.mem := by
  simp only [refreshAhead]; split <;> rfl
@[simp] theorem dropUnpub_mem (g : Nat) (as : List Nat) : (dropUnpub s g as).mem = s.mem := by
  simp only [dropUnpub, refreshAhead_mem]; (repeat' split) <;> simp
@[simp] theorem takeUnpub_mem (g : Nat) (ws : List (Nat × Byte)) : (takeUnpub s g ws).mem = s.mem := rfl
@[simp] theorem l1Evict_mem (h line : Nat) : (l1Evict s h line).mem = s.mem := by
  unfold l1Evict
  rw [foldl_proj State.mem]
  · simp
  · intro y g; split <;> simp
@[simp] theorem l1Put_mem (h line : Nat) (x : L1Line) : (l1Put s h line x).mem = s.mem := by
  simp only [l1Put]; (repeat' split) <;> simp
@[simp] theorem l1Touch_mem (g : Nat) (t : TenantNo) (f : Bool) (hint : BitVec 3) (p : Piece) (line : Nat) :
    (l1Touch s g t f hint p line).mem = s.mem := by
  unfold l1Touch
  split
  · dsimp only; (repeat' split) <;> simp
  · rfl
@[simp] theorem unpin_mem (lid g : Nat) : (unpin s lid g).mem = s.mem := by
  unfold unpin
  rw [foldl_proj State.mem]
  intro y h; dsimp only; split <;> simp
@[simp] theorem noteAts_mem (p : Piece) : (noteAts s p).mem = s.mem := by
  simp only [noteAts]; split
  · split <;> rfl
  · rfl
@[simp] theorem tlbFill_mem (g : Nat) (t : TenantNo) (p : Piece) : (tlbFill s g t p).mem = s.mem := by
  simp only [tlbFill]; split
  · simp
  · split <;> simp

/-- What a read leaves in caches, TLBs, counters and the directory changes no byte. -/
@[simp] theorem touchRead_mem (g : Nat) (t : TenantNo) (hint : BitVec 3) (ps : List Piece) :
    (touchRead s g t hint ps).mem = s.mem := by
  unfold touchRead
  refine foldl_proj State.mem _ _ _ fun y p => ?_
  dsimp only
  rw [foldl_proj State.mem]
  · simp
  · intro z l
    split
    · (repeat' split) <;> simp
    · rfl

/-- What a write leaves in TLBs and the L1 changes no byte. -/
@[simp] theorem touchWrite_mem (g : Nat) (t : TenantNo) (hint : BitVec 3) (ps : List Piece) :
    (touchWrite s g t hint ps).mem = s.mem := by
  unfold touchWrite
  refine foldl_proj State.mem _ _ _ fun y p => ?_
  dsimp only
  rw [foldl_proj State.mem]
  · simp
  · intro z l; simp

/-! ### Operations that write memory keep its canonical form -/

variable {s}

/-- What a write of bytes leaves of memory depends on memory only. -/
theorem State.poke_congr {s t : State} (ws : List (Nat × Byte)) (h : s.mem = t.mem) : (s.poke ws).mem = (t.poke ws).mem := by
  simp only [State.poke, h]
/-- A publication changes memory by its bytes. -/
theorem pubLog_mem (src : PubSrc) (sc : Scope) (ws : List (Nat × Byte)) : (pubLog s src sc ws).mem = (s.poke ws).mem := by
  unfold pubLog
  split
  · next h => rw [h]; rfl
  · refine State.poke_congr ws ((foldl_proj State.mem _ _ _ dropViews_mem).trans ?_)
    rw [quench_mem]; split <;> simp
theorem pubLog_wf (src : PubSrc) (sc : Scope) (ws : List (Nat × Byte)) (h : s.mem.wf) : (pubLog s src sc ws).mem.wf := by
  rw [pubLog_mem]; exact State.poke_wf _ h
theorem foldPartial_wf (g : GCore) (sc : Scope) (line : Nat) (hd : Word) (p : Partial) (h : s.mem.wf) :
    (foldPartial s g sc line hd p).mem.wf := pubLog_wf _ _ _ h
theorem combine_wf (line : Nat) (h : s.mem.wf) : (combine s line).mem.wf := by
  simp only [combine]
  split
  · simpa using h
  · split
    · simpa using h
    · refine foldl_keeps (fun y : State => y.mem.wf) _ _ _ (by simpa using h) fun x _ y hy => ?_
      exact foldPartial_wf _ _ _ _ _ hy
theorem combineAll_wf (lines : List Nat) (h : s.mem.wf) : (combineAll s lines).mem.wf :=
  foldl_keeps (fun y : State => y.mem.wf) _ _ _ h fun x _ _ hy => combine_wf x hy
theorem prepLine_wf (d line : Nat) (h : s.mem.wf) : (prepLine d s line).mem.wf := by
  simp only [prepLine, noteAccess_mem]
  exact combine_wf _ (by simpa using h)
theorem writeHome_wf (src : PubSrc) (sc : Scope) (ws : List (Nat × Byte)) (h : s.mem.wf) : (writeHome s src sc ws).mem.wf := by
  unfold writeHome
  split
  · exact h
  · dsimp only
    refine foldl_keeps (fun y : State => y.mem.wf) _ _ _ (pubLog_wf _ _ _ ?_) fun x _ y hy => ?_
    · exact foldl_keeps (fun y : State => y.mem.wf) _ _ _ h fun x _ y hy => prepLine_wf _ _ hy
    · rw [homeLine_mem]; split
      · simpa using hy
      · exact hy
theorem writeNow_wf (src : PubSrc) (sc : Scope) (ws : List (Nat × Byte)) (h : s.mem.wf) : (writeNow s src sc ws).mem.wf :=
  writeHome_wf _ _ _ (State.poke_wf _ h)
theorem claimLine_wf (t : TenantNo) (leaf : Word) (line : Nat) (h : s.mem.wf) : (claimLine s t leaf line).mem.wf := by
  simp only [claimLine]
  split
  · split
    · exact h
    · exact State.poke_wf _ h
  · exact h
theorem claim_wf (t : TenantNo) (ps : List Piece) (h : s.mem.wf) : (claim s t ps).mem.wf :=
  foldl_keeps (fun y : State => y.mem.wf) _ _ _ h fun p _ _ hy =>
    foldl_keeps (fun y : State => y.mem.wf) _ _ _ hy fun l _ _ hz => claimLine_wf t p.leaf l hz
theorem storeNow_wf (g : Nat) (t : TenantNo) (hint : BitVec 3) (ps : List Piece) (bs : List Byte) (h : s.mem.wf) :
    (storeNow s g t hint ps bs).mem.wf := by
  simp only [storeNow, touchWrite_mem, refreshAhead_mem]
  split
  · exact State.poke_wf _ (claim_wf _ _ h)
  · exact State.poke_wf _ (claim_wf _ _ h)
theorem resetModule_wf (h : s.mem.wf) : (resetModule s).mem.wf := Memory.wf_filter _ h
theorem forgetTenant_wf (t : TenantNo) (h : s.mem.wf) : (forgetTenant s t).mem.wf := Memory.wf_filter _ h
/-- What saving a block leaves of memory: the block's bytes are written, and what is local to the core goes. -/
theorem saveBlock_mem (g : GCore) (t : TenantNo) : (saveBlock s g t).mem =
    (writeNow (claim s t (savePieces s (saveBase s g.toNat t + 0x10000) 0x38000)) (.core g) .module
      (pieceCells (savePieces s (saveBase s g.toNat t + 0x10000) 0x38000) (blockImage s g.toNat s.fresh t))).mem.filter
        fun c => !coreLocal g.toNat c.1 := by
  rw [saveBlock]
  rw [State.modCore_mem]
theorem saveBlock_wf (g : GCore) (t : TenantNo) (h : s.mem.wf) : (saveBlock s g t).mem.wf := by
  rw [saveBlock_mem]
  exact Memory.wf_filter _ (writeNow_wf _ _ _ (claim_wf _ _ h))
theorem dropBlock_wf (g : GCore) (h : s.mem.wf) : (dropBlock s g).mem.wf := Memory.wf_filter _ h
theorem restoreBlock_wf (g : GCore) (t : TenantNo) (h : s.mem.wf) : (restoreBlock s g t).mem.wf :=
  State.poke_wf _ (Memory.wf_filter _ h)

/-! ### What an ordinary load reads -/

/-- Two states that agree on the part, memory, configuration, the coherence state and a core's phase state read alike
in that core. -/
theorem coreByte_congr {s t : State} (hp : t.part = s.part) (hm : t.mem = s.mem) (hc : t.cfg = s.cfg) (hh : t.coh = s.coh)
   (g : Nat) (hph : (t.core g).ph = (s.core g).ph) (tn leaf a) : coreByte t g tn leaf a = coreByte s g tn leaf a := by
  have hmem : ∀ a, t.memAt a = s.memAt a := fun a => by simp [State.memAt, hm]
  have hcfg : ∀ a, t.cfgAt a = s.cfgAt a := fun a => by simp [State.cfgAt, hc]
  have hkg : ∀ k, keyGenOf t tn k = keyGenOf s tn k := fun k => by simp [keyGenOf, hh]
  have hko : ∀ a, keyOk t tn leaf a = keyOk s tn leaf a := fun a => by simp [keyOk, hh, hkg]
  have hno : noiseAt t tn leaf a = noiseAt s tn leaf a := by simp [noiseAt, hkg]
  have hke : ∀ b, keyed t tn leaf a b = keyed s tn leaf a b := fun b => by simp [keyed, hp, hko, hno]
  have hpi : ∀ p, pubIn t g p = pubIn s g p := fun p => by simp [pubIn, hph]
  have hsf : ∀ ps x y, snapFold t g a ps x y = snapFold s g a ps x y := by
    intro ps
    induction ps with
    | nil => intros; rfl
    | cons p ps ih => intro x y; simp only [snapFold, ih, hpi]
  have hob : ownByte t g a = ownByte s g a := by simp [ownByte, hph, hh]
  have hsb : snapByte t g a = snapByte s g a := by simp [snapByte, hh, hsf, hmem]
  have hvs : ∀ d n, viewSource t d n a = viewSource s d n a := fun d n => by simp [viewSource, hcfg]
  have hdh : ∀ d n, decodeHalf t d n a = decodeHalf s d n a := fun d n => by simp [decodeHalf, hvs, hcfg, hmem]
  have hvw : ∀ d, viewWindow t d a = viewWindow s d a := fun d => by simp [viewWindow, hcfg]
  have hvb : ∀ d, viewByte t d a = viewByte s d a := fun d => by simp [viewByte, hvw, hdh]
  simp only [coreByte, hp, hvb, hob, hke, hsb, hmem, isAcc, hh]
  rfl

end Sys2Proof.Machine
end

