-- ==== Sys2Proof/Laws/Ops.lean ====
section
/-! SUPPORT. What the shared operations do: counters (bump) change nothing but counters; a register write
changes that register; retirement moves the PC and shortens the windows; an issue with a true guard and no
queue port runs the instruction's own part, and one with a false guard only retires. -/

namespace Sys2Proof.Machine

variable (s : State)

/-! ### Counters -/

theorem State.bumpBy_core (g ev n h : Nat) :
    (s.bumpBy g ev n).core h = { s.core h with regs := { (s.core h).regs with pmc := ((s.bumpBy g ev n).core h).regs.pmc } } := by
  unfold State.bumpBy
  split
  · by_cases hg : g = h
    · subst hg; simp
    · rw [State.core_modCore_other _ _ _ _ hg]
  · rfl

@[simp] theorem State.bump_core_cache (g ev h : Nat) : ((s.bump g ev).core h).cache = (s.core h).cache := by
  unfold State.bump; rw [State.bumpBy_core]
@[simp] theorem State.bump_core_eng (g ev h : Nat) : ((s.bump g ev).core h).eng = (s.core h).eng := by
  unfold State.bump; rw [State.bumpBy_core]
@[simp] theorem State.bump_core_ph (g ev h : Nat) : ((s.bump g ev).core h).ph = (s.core h).ph := by
  unfold State.bump; rw [State.bumpBy_core]
@[simp] theorem State.bump_core_tenant (g ev h : Nat) : ((s.bump g ev).core h).tenant = (s.core h).tenant := by
  unfold State.bump; rw [State.bumpBy_core]
@[simp] theorem State.bump_core_gens (g ev h : Nat) : ((s.bump g ev).core h).gens = (s.core h).gens := by
  unfold State.bump; rw [State.bumpBy_core]
@[simp] theorem State.bump_core_mail (g ev h : Nat) : ((s.bump g ev).core h).mail = (s.core h).mail := by
  unfold State.bump; rw [State.bumpBy_core]
@[simp] theorem State.bump_core_parked (g ev h : Nat) : ((s.bump g ev).core h).parked = (s.core h).parked := by
  unfold State.bump; rw [State.bumpBy_core]
@[simp] theorem State.bump_core_sliceStart (g ev h : Nat) : ((s.bump g ev).core h).sliceStart = (s.core h).sliceStart := by
  unfold State.bump; rw [State.bumpBy_core]
@[simp] theorem State.bump_core_lastRan (g ev h : Nat) : ((s.bump g ev).core h).lastRan = (s.core h).lastRan := by
  unfold State.bump; rw [State.bumpBy_core]
@[simp] theorem State.bump_core_saved (g ev h : Nat) : ((s.bump g ev).core h).saved = (s.core h).saved := by
  unfold State.bump; rw [State.bumpBy_core]
@[simp] theorem State.bump_core_blocks (g ev h : Nat) : ((s.bump g ev).core h).blocks = (s.core h).blocks := by
  unfold State.bump; rw [State.bumpBy_core]
@[simp] theorem State.bump_core_log (g ev h : Nat) : ((s.bump g ev).core h).log = (s.core h).log := by
  unfold State.bump; rw [State.bumpBy_core]
@[simp] theorem State.bump_core_leaving (g ev h : Nat) : ((s.bump g ev).core h).leaving = (s.core h).leaving := by
  unfold State.bump; rw [State.bumpBy_core]
@[simp] theorem State.bump_core_ended (g ev h : Nat) : ((s.bump g ev).core h).ended = (s.core h).ended := by
  unfold State.bump; rw [State.bumpBy_core]
@[simp] theorem State.bump_core_freed (g ev h : Nat) : ((s.bump g ev).core h).freed = (s.core h).freed := by
  unfold State.bump; rw [State.bumpBy_core]
@[simp] theorem State.bump_core_turnAt (g ev h : Nat) : ((s.bump g ev).core h).turnAt = (s.core h).turnAt := by
  unfold State.bump; rw [State.bumpBy_core]
@[simp] theorem State.bump_core_reserved (g ev h : Nat) : ((s.bump g ev).core h).reserved = (s.core h).reserved := by
  unfold State.bump; rw [State.bumpBy_core]
@[simp] theorem State.bump_core_tileFrom (g ev h : Nat) : ((s.bump g ev).core h).tileFrom = (s.core h).tileFrom := by
  unfold State.bump; rw [State.bumpBy_core]
@[simp] theorem State.bump_core_regs_s (g ev h : Nat) : ((s.bump g ev).core h).regs.s = (s.core h).regs.s := by
  unfold State.bump; rw [State.bumpBy_core]
@[simp] theorem State.bump_core_regs_vs (g ev h : Nat) : ((s.bump g ev).core h).regs.vs = (s.core h).regs.vs := by
  unfold State.bump; rw [State.bumpBy_core]
@[simp] theorem State.bump_core_regs_shw (g ev h : Nat) : ((s.bump g ev).core h).regs.shw = (s.core h).regs.shw := by
  unfold State.bump; rw [State.bumpBy_core]
@[simp] theorem State.bump_core_regs_twto (g ev h : Nat) : ((s.bump g ev).core h).regs.twto = (s.core h).regs.twto := by
  unfold State.bump; rw [State.bumpBy_core]
@[simp] theorem State.bump_core_regs_phlim (g ev h : Nat) : ((s.bump g ev).core h).regs.phlim = (s.core h).regs.phlim := by
  unfold State.bump; rw [State.bumpBy_core]
@[simp] theorem State.bump_core_regs_tiles (g ev h : Nat) : ((s.bump g ev).core h).regs.tiles = (s.core h).regs.tiles := by
  unfold State.bump; rw [State.bumpBy_core]
@[simp] theorem State.bump_core_regs_fe (g ev h : Nat) : ((s.bump g ev).core h).regs.fe = (s.core h).regs.fe := by
  unfold State.bump; rw [State.bumpBy_core]
@[simp] theorem State.bump_core_regs_loader (g ev h : Nat) : ((s.bump g ev).core h).regs.loader = (s.core h).regs.loader := by
  unfold State.bump; rw [State.bumpBy_core]
@[simp] theorem State.bump_core_regs_storer (g ev h : Nat) : ((s.bump g ev).core h).regs.storer = (s.core h).regs.storer := by
  unfold State.bump; rw [State.bumpBy_core]
@[simp] theorem State.bump_core_regs_mq (g ev h : Nat) : ((s.bump g ev).core h).regs.mq = (s.core h).regs.mq := by
  unfold State.bump; rw [State.bumpBy_core]
@[simp] theorem State.bump_sreg (g ev h i : Nat) : (s.bump g ev).sreg h i = s.sreg h i := by simp [State.sreg]
@[simp] theorem State.bump_vsreg (g ev h i : Nat) : (s.bump g ev).vsreg h i = s.vsreg h i := by simp [State.vsreg]
@[simp] theorem State.modC_sreg (f : Ctx → Ctx) (h i : Nat) : (s.modC f).sreg h i = s.sreg h i := rfl
@[simp] theorem State.modC_vsreg (f : Ctx → Ctx) (h i : Nat) : (s.modC f).vsreg h i = s.vsreg h i := rfl

/-! ### The running context -/

theorem State.c_of_ctx {s : State} {g : GCore} {k : Slot} {c : Ctx} (hw : s.who = .slot g k) (hc : s.ctx g k = some c) :
    s.c = c := by
  simp [State.c, State.g, State.k, hw, hc]

/-! ### Issue -/

/-- With a true guard and no queue port, an instruction runs its own part. -/
theorem issue_runs {ct : Ctl} {uses : List PortUse} {body : State → Res} {s : State} {g : GCore} {k : Slot}
    (hw : s.who = .slot g k) (hc : (s.ctx g k).isSome = true) (hg : guardOf ct s = true)
    (hp : ∀ u ∈ uses, isPort s u.reg = false) : issue ct uses none body s = .next (finish ct s (body s)) := by
  obtain ⟨c, hc⟩ := Option.isSome_iff_exists.1 hc
  have hf : uses.filter (fun u => isPort s u.reg) = [] := List.filter_eq_nil_iff.2 (by simpa using hp)
  simp [issue, hw, hc, hg, hf, portTwice]

/-- With a false guard, an instruction that issues for the first time only retires (R49). -/
theorem issue_guard_off {ct : Ctl} {uses : List PortUse} {unit : Option Trap} {body : State → Res} {s : State}
    {g : GCore} {k : Slot} (hw : s.who = .slot g k) (hc : (s.ctx g k).isSome = true) (hg : guardOf ct s = false)
    (hn : s.c.goesOn = false) (hp : portTwice (uses.filter fun u => isPort s u.reg) = none) :
    issue ct uses unit body s = .next (retire ct none s) := by
  obtain ⟨c, hc⟩ := Option.isSome_iff_exists.1 hc
  simp [issue, hw, hc, hg, hn, hp]

/-- An instruction of an absent unit traps (R54, check 10). -/
theorem issue_unit {ct : Ctl} {uses : List PortUse} {t : Trap} {body : State → Res} {s : State} {g : GCore} {k : Slot}
    (hw : s.who = .slot g k) (hc : (s.ctx g k).isSome = true) (hg : guardOf ct s = true)
    (hp : ∀ u ∈ uses, isPort s u.reg = false) : issue ct uses (some t) body s = .next (trapAt s t) := by
  obtain ⟨c, hc⟩ := Option.isSome_iff_exists.1 hc
  have hf : uses.filter (fun u => isPort s u.reg) = [] := List.filter_eq_nil_iff.2 (by simpa using hp)
  simp [issue, hw, hc, hg, hf, portTwice]

/-! ### Retirement -/

@[simp] theorem retire_who (ct : Ctl) (p : Option CodeAddr) : (retire ct p s).who = s.who := by simp [retire]
@[simp] theorem retire_mem (ct : Ctl) (p : Option CodeAddr) : (retire ct p s).mem = s.mem := by simp [retire]
@[simp] theorem retire_cfg (ct : Ctl) (p : Option CodeAddr) : (retire ct p s).cfg = s.cfg := by simp [retire]
@[simp] theorem retire_coh (ct : Ctl) (p : Option CodeAddr) : (retire ct p s).coh = s.coh := by simp [retire]
@[simp] theorem retire_binds (ct : Ctl) (p : Option CodeAddr) : (retire ct p s).binds = s.binds := by simp [retire]
@[simp] theorem retire_cycle (ct : Ctl) (p : Option CodeAddr) : (retire ct p s).cycle = s.cycle := by simp [retire]
@[simp] theorem retire_g (ct : Ctl) (p : Option CodeAddr) : (retire ct p s).g = s.g := by simp [retire]
@[simp] theorem retire_k (ct : Ctl) (p : Option CodeAddr) : (retire ct p s).k = s.k := by simp [retire]
@[simp] theorem retire_c (ct : Ctl) (p : Option CodeAddr) :
    (retire ct p s).c = s.c.retired ct (p.getD (nextPc s.c.pc)) p.isNone := by simp [retire]
@[simp] theorem retire_sreg (ct : Ctl) (p : Option CodeAddr) (h i : Nat) : (retire ct p s).sreg h i = s.sreg h i := by
  simp [retire]
@[simp] theorem retire_vsreg (ct : Ctl) (p : Option CodeAddr) (h i : Nat) : (retire ct p s).vsreg h i = s.vsreg h i := by
  simp [retire]
@[simp] theorem retire_memAt (ct : Ctl) (p : Option CodeAddr) (a : Nat) : (retire ct p s).memAt a = s.memAt a := by
  simp [retire]
theorem retire_ctx_other (ct : Ctl) (p : Option CodeAddr) (g : GCore) (k : Slot) (hne : (s.g, s.k) ≠ (g, k)) :
    (retire ct p s).ctx g k = s.ctx g k := by
  simp [retire, State.modC_ctx_other _ _ _ _ hne]

/-! ### Register writes -/

@[simp] theorem wrG_zero (v : Word) : wrG s 0 v = s := by simp [wrG]
@[simp] theorem wrP_zero (b : Bool) : wrP s 0 b = s := by simp [wrP]
@[simp] theorem wrK_zero (v : Word) : wrK s 0 v = s := by simp [wrK]
@[simp] theorem rdG_zero : rdG s 0 = 0 := by simp [rdG]
@[simp] theorem rdP_zero : rdP s 0 = true := by simp [rdP]
@[simp] theorem rdK_zero : rdK s 0 = BitVec.allOnes 64 := by simp [rdK]

/-- A register write of an instruction that shares its turn with no outstanding one (R41). -/
theorem regWrite_plain {key : Nat} {write : State → State} (hs : s.c.iss.shadow = []) (ho : s.c.iss.upon = none) :
    regWrite s key write = write s := by simp [regWrite, hs, ho]

/-- A private scalar register written. -/
theorem wrG_private (r : GReg) (v : Word) (h0 : r ≠ 0) (hr : r.toNat < 64) (hs : s.c.iss.shadow = []) (ho : s.c.iss.upon = none) :
    wrG s r v = s.modC fun c => { c with regs := { c.regs with g := tset 0 c.regs.g r.toNat v } } := by
  have hp : isPort s r = false := by simp [isPort]; omega
  rw [wrG, if_neg h0, if_neg (by simp [hp]), regWrite_plain s hs ho, if_pos hr]

/-- A shared scalar register written. -/
theorem wrG_shared (r : GReg) (v : Word) (hp : isPort s r = false) (hr : ¬ r.toNat < 64) (hs : s.c.iss.shadow = [])
    (ho : s.c.iss.upon = none) : wrG s r v = wrShared s s.g.toNat s.k.toNat (r.toNat - 64) v := by
  have h0 : r ≠ 0 := by intro h; subst h; simp at hr
  rw [wrG, if_neg h0, if_neg (by simp [hp]), regWrite_plain s hs ho, if_neg hr]

end Sys2Proof.Machine
end

