-- ==== Sys2Proof/Laws/Effects.lean ====
section
/-! SUPPORT. What the register writes leave unchanged, in the words of the statements: a write of a scalar register or of
a predicate changes that register only, and an instruction that makes one such write sets it and is otherwise quiet. -/

namespace Sys2Proof.Machine
open Sys2Proof.Claim

/-- t is s with registers of the thread and its core changed, and the note of registers that a pair's second instruction
has written (R41). -/
structure RegOnly (s t : State) : Prop where
  module : t = { s with ctxs := t.ctxs, cores := t.cores }
  cores : KeptCores s t
  others : KeptOthers s t
  context : t.c = { s.c with regs := t.c.regs, iss := { s.c.iss with outs := t.c.iss.outs } }
  outs : t.c.iss.outs.map (fun o => { o with shadow := [] }) = s.c.iss.outs.map fun o => { o with shadow := [] }

theorem keptCores_retire {s t : State} (ct : Ctl) (hg : t.g = s.g) (h : KeptCores s t) (p : Option CodeAddr) :
    KeptCores s (retire ct p t) := by
  obtain ⟨h1, h2⟩ := h
  have hb : retire ct p t = (t.modC fun c => c.retired ct (p.getD (nextPc c.pc)) p.isNone).bumpBy s.g.toNat 0x0002 1 := by
    rw [retire, State.bump, hg]
  generalize hu : (t.modC fun c => c.retired ct (p.getD (nextPc c.pc)) p.isNone) = u at hb
  have hcore : ∀ h, u.core h = t.core h := by intro h; rw [← hu]; rfl
  rw [hb]
  refine ⟨fun h hne => ?_, ?_⟩
  · have : (u.bumpBy s.g.toNat 0x0002 1).core h = u.core h := by
      unfold State.bumpBy; split
      · rw [State.core_modCore_other _ _ _ _ (Ne.symm hne)]
      · rfl
    rw [this, hcore, h1 h hne]
  · simp only
    rw [State.bumpBy_core]
    simp only [hcore]
    rw [h2]

theorem quiet_of {s t : State} (ct : Ctl) (h : RegOnly s t) (p : Option CodeAddr) {gs vs ps ks} (hk : Kept s t gs vs ps ks) :
   Quiet s (retire ct p t) (p.getD (nextPc s.c.pc)) gs vs ps ks := by
  have hm := h.module
  have hwho : t.who = s.who := by rw [hm]
  have hg : t.g = s.g := by simp [State.g, hwho]
  have hk' : t.k = s.k := by simp [State.k, hwho]
  have hpc : t.c.pc = s.c.pc := by rw [h.context]
  have hmod : retire ct p t = { s with ctxs := (retire ct p t).ctxs, cores := (retire ct p t).cores } := by
    have : retire ct p t = { t with ctxs := (retire ct p t).ctxs, cores := (retire ct p t).cores } := by
      rw [retire, State.bump, State.bumpBy]
      split <;> rfl
    rw [hm] at this ⊢
    exact this
  have hcores := keptCores_retire ct hg h.cores p
  constructor
  · exact hmod
  · exact hcores
  · intro g k hne
    rw [retire_ctx_other _ _ _ _ _ (by rw [hg, hk']; exact fun e => hne e.symm), h.others g k hne]
  · rw [retire_c, h.context]; simp [Ctx.retired]
  · have h0 : ∀ l : List Out, l.map (fun o => { o with left := o.left - 1, shadow := [] }) =
        (l.map fun o => { o with shadow := [] }).map fun o => { o with left := o.left - 1 } := by simp
    rw [Shorter, retire_c]
    simp only [Ctx.retired, List.map_map]
    rw [h0, ← h.outs, ← h0]
    rfl
  · constructor
    · intro r hr
      have := hk.scalars r hr
      simp only [regG, retire_c, Ctx.retired, retire_sreg, retire_g] at this ⊢
      exact this
    · intro r hr
      have := hk.vectors r hr
      simp only [regV, retire_c, Ctx.retired, retire_vsreg, retire_g] at this ⊢
      exact this
    · intro r hr; have := hk.predicates r hr; simpa [Ctx.retired] using this
    · intro r hr; have := hk.masks r hr; simpa [Ctx.retired] using this
  · have hph : ∀ g, ((retire ct p t).core g).ph = (s.core g).ph := by
      intro g
      by_cases hgg : g = s.g.toNat
      · subst hgg; rw [hcores.2]
      · rw [hcores.1 g hgg]
    constructor
    · intro a; simp only [State.memAt]; rw [hmod]
    · intro g tn leaf a
      apply coreByte_congr
      · rw [hmod]
      · rw [hmod]
      · rw [hmod]
      · rw [hmod]
      · exact hph g

theorem kept_refl (s : State) (gs vs ps ks) : Kept s s gs vs ps ks := ⟨fun _ _ => rfl, fun _ _ => rfl, fun _ _ => rfl, fun _ _ => rfl⟩
theorem regOnly_refl (s : State) : RegOnly s s := ⟨rfl, ⟨fun _ _ => rfl, rfl⟩, fun _ _ _ => rfl, rfl, rfl⟩

theorem kept_trans {s u t : State} {gs vs ps ks} (h : Kept s u gs vs ps ks) (h' : Kept u t gs vs ps ks) : Kept s t gs vs ps ks :=
  ⟨fun r hr => (h'.scalars r hr).trans (h.scalars r hr), fun r hr => (h'.vectors r hr).trans (h.vectors r hr),
   fun r hr => (h'.predicates r hr).trans (h.predicates r hr), fun r hr => (h'.masks r hr).trans (h.masks r hr)⟩

theorem RegOnly.who {s t : State} (h : RegOnly s t) : t.who = s.who := by rw [h.module]
theorem RegOnly.g {s t : State} (h : RegOnly s t) : t.g = s.g := by simp [State.g, h.who]
theorem RegOnly.k {s t : State} (h : RegOnly s t) : t.k = s.k := by simp [State.k, h.who]

theorem RegOnly.trans {s u t : State} (h : RegOnly s u) (h' : RegOnly u t) : RegOnly s t := by
  have hm := h.module
  have hm' := h'.module
  obtain ⟨h1, h2⟩ := h.cores
  obtain ⟨h1', h2'⟩ := h'.cores
  rw [h.g] at h1' h2'
  refine ⟨by rw [hm] at hm'; exact hm', ⟨fun g hg => (h1' g hg).trans (h1 g hg), ?_⟩, fun g k hne => ?_, ?_, h'.outs.trans h.outs⟩
  · simp only at h2 h2' ⊢
    rw [h2] at h2'
    exact h2'
  · rw [h'.others g k (by rw [h.g, h.k]; exact hne), h.others g k hne]
  · have hc := h'.context
    rw [h.context] at hc
    exact hc

theorem regOnly_modC (s : State) (f : Ctx → Ctx) (hf : f s.c = { s.c with regs := (f s.c).regs }) : RegOnly s (s.modC f) := by
  refine ⟨rfl, ⟨fun _ _ => rfl, rfl⟩, fun g k hne => State.modC_ctx_other _ _ _ _ (Ne.symm hne), ?_, ?_⟩
  · rw [State.modC_c]; rw [hf]
  · rw [State.modC_c]; rw [hf]

theorem regOnly_wrShared (s : State) (i : Nat) (v : Word) : RegOnly s (wrShared s s.g.toNat s.k.toNat i v) := by
  unfold wrShared
  split
  · exact regOnly_refl s
  · refine ⟨rfl, ⟨fun h hne => ?_, ?_⟩, fun _ _ _ => rfl, rfl, rfl⟩
    · rw [State.core_modCore_other _ _ _ _ (Ne.symm hne)]
    · simp only [State.core_modCore_same]

/-- A register write of an instruction that issues now: it is done on a state that differs from s only in the note of the
registers that a pair's second instruction has written. -/
theorem regWrite_on {s : State} {key : Nat} {write : State → State} (hs : s.c.iss.shadow = []) :
    ∃ u, regWrite s key write = write u ∧ RegOnly s u ∧ u.c.regs = s.c.regs ∧ u.cores = s.cores := by
  unfold regWrite
  simp only [hs, List.contains_nil, Bool.false_eq_true, if_false]
  split
  · exact ⟨s, rfl, regOnly_refl s, rfl, rfl⟩
  · rename_i id _
    refine ⟨_, rfl, ⟨rfl, ⟨fun _ _ => rfl, rfl⟩, fun g k hne => State.modC_ctx_other _ _ _ _ (Ne.symm hne), ?_, ?_⟩, ?_, rfl⟩
    · rw [State.modC_c]
    · rw [State.modC_c]
      simp only [List.map_map]
      apply List.map_congr_left
      intro o _
      simp only [Function.comp_apply]
      split <;> rfl
    · rw [State.modC_c]

/-- States with the same registers keep every register. -/
theorem kept_of_regs {s u : State} (hu : RegOnly s u) (hr : u.c.regs = s.c.regs) (hc : u.cores = s.cores) (gs vs ps ks) :
    Kept s u gs vs ps ks := by
  have core : ∀ g, u.core g = s.core g := fun g => by simp only [State.core, hc]
  refine ⟨fun r _ => ?_, fun r _ => ?_, fun p _ => ?_, fun k _ => ?_⟩
  · simp only [regG, hr, State.sreg, core, hu.g]
  · simp only [regV, hr, State.vsreg, core, hu.g]
  · rw [hr]
  · rw [hr]

theorem wroteG_of_regs {s u t : State} {a : GReg} {v : Word} (hu : RegOnly s u) (hr : u.c.regs = s.c.regs) (hc : u.cores = s.cores)
    (h : WroteG u t a v) : WroteG s t a v := by
  have hk : regG u a = regG s a := (kept_of_regs hu hr hc [] [] [] []).scalars a (by simp)
  have hl : ∀ g k i, sharedLost u g k i = sharedLost s g k i := fun g k i => by
    have hy : u.cycle = s.cycle := by rw [hu.module]
    simp only [sharedLost, State.core, hc, hy]
  rw [WroteG, hk, hl, hu.g, hu.k] at h
  exact h

theorem wrG_private_regOnly (s : State) (a : GReg) (v : Word) (h0 : a ≠ 0) (h64 : a.toNat < 64) :
    let t := s.modC fun c => { c with regs := { c.regs with g := tset 0 c.regs.g a.toNat v } }
    RegOnly s t ∧ Kept s t [a] [] [] [] ∧ WroteG s t a v := by
  refine ⟨regOnly_modC _ _ rfl, ⟨?_, ?_, ?_, ?_⟩, ?_⟩
  · intro r hr
    have hra : a.toNat ≠ r.toNat := by simp at hr; intro h; exact hr (BitVec.eq_of_toNat_eq h.symm)
    simp only [regG, State.modC_c, State.modC_sreg, State.modC_g]
    rw [tget_tset_other _ _ _ _ _ hra]
  · intro r _; simp [regV]
  · intro r _; simp
  · intro r _; simp
  · rw [WroteG, if_neg h0, if_pos h64, regG, if_neg h0, if_pos h64, State.modC_c]; exact tget_tset_same ..

theorem wrG_shared_regOnly (s : State) (a : GReg) (v : Word) (h0 : a ≠ 0) (h64 : ¬ a.toNat < 64) :
    let t := wrShared s s.g.toNat s.k.toNat (a.toNat - 64) v
    RegOnly s t ∧ Kept s t [a] [] [] [] ∧ WroteG s t a v := by
  refine ⟨regOnly_wrShared _ _ _, ⟨?_, ?_, ?_, ?_⟩, ?_⟩
  · intro r hr
    unfold wrShared; split
    · rfl
    · simp only [regG, State.modCore_c, State.sreg, State.core_modCore_same, State.modCore_g]
      by_cases hr64 : r.toNat < 64
      · simp only [hr64, if_true]
      · simp only [hr64, if_false]
        rw [tget_tset_other]
        simp at hr
        intro h; apply hr; apply BitVec.eq_of_toNat_eq; omega
  · intro r _; unfold wrShared; split
    · rfl
    · simp [regV, State.vsreg]
  · intro r _; unfold wrShared; split <;> simp
  · intro r _; unfold wrShared; split <;> simp
  · rw [WroteG, if_neg h0, if_neg h64]
    unfold wrShared
    split
    · rfl
    · rw [regG, if_neg h0, if_neg h64, State.modCore_g, State.sreg, State.core_modCore_same]; exact tget_tset_same ..

theorem wroteP_of_regs {s u t : State} {p : PReg} {b : Bool} (hr : u.c.regs = s.c.regs) (h : WroteP u t p b) : WroteP s t p b := by
  rw [WroteP, hr] at h; exact h

/-- A register write by an instruction that issues now does what the write does. -/
theorem regWrite_regOnly {s : State} {key : Nat} {write : State → State} {gs vs ps ks} (P : State → State → Prop)
    (hs : s.c.iss.shadow = []) (hw : ∀ u, RegOnly u (write u) ∧ Kept u (write u) gs vs ps ks ∧ P u (write u))
    (hP : ∀ u t, RegOnly s u → u.c.regs = s.c.regs → u.cores = s.cores → P u t → P s t) :
    RegOnly s (regWrite s key write) ∧ Kept s (regWrite s key write) gs vs ps ks ∧ P s (regWrite s key write) := by
  obtain ⟨u, e, hu, hr, hc⟩ := regWrite_on (key := key) (write := write) hs
  rw [e]
  exact ⟨hu.trans (hw u).1, kept_trans (kept_of_regs hu hr hc _ _ _ _) (hw u).2.1, hP u _ hu hr hc (hw u).2.2⟩

theorem wrG_regOnly (s : State) (a : GReg) (v : Word) (hp : isPort s a = false) (hs : s.c.iss.shadow = []) :
    RegOnly s (wrG s a v) ∧ Kept s (wrG s a v) [a] [] [] [] ∧ WroteG s (wrG s a v) a v := by
  by_cases h0 : a = 0
  · subst h0; rw [wrG_zero]; exact ⟨regOnly_refl s, kept_refl s _ _ _ _, by simp [WroteG, regG]⟩
  · rw [wrG, if_neg h0, if_neg (by simp [hp])]
    refine regWrite_regOnly (fun s t => WroteG s t a v) hs (fun u => ?_) fun u t hu hr hc h => wroteG_of_regs hu hr hc h
    split
    · rename_i h64; exact wrG_private_regOnly u a v h0 h64
    · rename_i h64; exact wrG_shared_regOnly u a v h0 h64

theorem wrP_regOnly (s : State) (p : PReg) (b : Bool) (hs : s.c.iss.shadow = []) :
    RegOnly s (wrP s p b) ∧ Kept s (wrP s p b) [] [] [p] [] ∧ WroteP s (wrP s p b) p b := by
  by_cases h0 : p = 0
  · subst h0; rw [wrP_zero]; exact ⟨regOnly_refl s, kept_refl s _ _ _ _, by simp [WroteP]⟩
  · rw [wrP, if_neg h0]
    refine regWrite_regOnly (fun s t => WroteP s t p b) hs (fun u => ⟨regOnly_modC _ _ rfl, ⟨?_, ?_, ?_, ?_⟩, ?_⟩)
      fun u t _ hr _ h => wroteP_of_regs hr h
    · intro r hr; simp [regG]
    · intro r _; simp [regV]
    · intro r hr; simp at hr
      have : r.toNat ≠ p.toNat := fun h => hr (BitVec.eq_of_toNat_eq h)
      have h8 := r.isLt
      simp only [State.modC_c]
      split
      · simp; intro hlt; omega
      · simp; intro _; omega
    · intro r _; simp
    · rw [WroteP, if_neg h0, State.modC_c]
      have h8 := p.isLt
      cases b <;> simp <;> omega

theorem wroteG_retire {s t : State} (ct) (p) (a v) (h : WroteG s t a v) : WroteG s (retire ct p t) a v := by
  simp only [WroteG, regG, retire_c, Ctx.retired, retire_sreg, retire_g] at h ⊢; exact h
theorem wroteP_retire {s t : State} (ct) (p) (a v) (h : WroteP s t a v) : WroteP s (retire ct p t) a v := by
  simp only [WroteP, retire_c, Ctx.retired] at h ⊢; exact h

theorem RegOnly.flags {s t : State} (ct : Ctl) (p : Option CodeAddr) (h : RegOnly s t) : NoFlags s (retire ct p t) := by
  rw [NoFlags, retire_c, h.context]; exact ⟨rfl, rfl⟩

theorem sets_of {i : Instr} {ct : Ctl} {s : State} {a : GReg} {v : Word} (hp : isPort s a = false) (hs : s.c.iss.shadow = [])
    (h : exec i s = .next (retire ct none (wrG s a v))) : Sets i s a v := by
  obtain ⟨h1, h2, h3⟩ := wrG_regOnly s a v hp hs
  exact ⟨_, h, wroteG_retire _ _ _ _ h3, h1.flags ct none, quiet_of ct h1 none h2⟩
theorem setsP_of {i : Instr} {ct : Ctl} {s : State} {a : PReg} {v : Bool} (hs : s.c.iss.shadow = [])
    (h : exec i s = .next (retire ct none (wrP s a v))) : SetsP i s a v := by
  obtain ⟨h1, h2, h3⟩ := wrP_regOnly s a v hs
  exact ⟨_, h, wroteP_retire _ _ _ _ h3, h1.flags ct none, quiet_of ct h1 none h2⟩

theorem issue_of_issues {ct : Ctl} {uses : List PortUse} {body : State → Res} {s : State} {rs : List GReg} (h : Issues s ct rs)
   (hu : ∀ u ∈ uses, u.reg ∈ rs) : issue ct uses none body s = .next (finish ct s (body s)) := by
  obtain ⟨g, k, hw, hc⟩ := h.thread
  exact issue_runs hw hc h.guard (fun u hu' => h.ports _ (hu u hu'))

theorem alu3_sets {i ct a b c s f v} (h : Issues s ct [a,b,c]) (he : exec i s = alu3 ct a b c f s) (hv : f (rdG s b) (rdG s c) = v) : Sets i s a v := by
  refine sets_of (ct := ct) (h.ports a (by simp)) h.now ?_
  rw [he, alu3, issue_of_issues h (by simp [PortUse.reg]), finish, hv]
theorem alu2_sets {i ct a b s f v rs} (h : Issues s ct rs) (ha : a ∈ rs) (hb : b ∈ rs) (he : exec i s = alu2 ct a b f s) (hv : f (rdG s b) = v) : Sets i s a v := by
  refine sets_of (ct := ct) (h.ports a ha) h.now ?_
  rw [he, alu2, issue_of_issues h (by simp [PortUse.reg, ha, hb]), finish, hv]

end Sys2Proof.Machine
end

