-- ==== Sys2Proof/Laws/Traps.lean ====
section
/-! SUPPORT. What the shared operations of Ops.lean can do, each said once: taking a trap, halting, the delivery of what is
pending, waits, outstanding instructions and releases. Memory, configuration space and the memory system's state are as
before wherever a lemma says so. -/

namespace Sys2Proof.Machine

variable (s : State)

/-! ### Issue -/

/-- A thread's issue always answers a next state. -/
theorem issue_next {ct : Ctl} {uses : List PortUse} {unit : Option Trap} {body : State → Res} {s : State} {g : GCore}
    {k : Slot} (hw : s.who = .slot g k) (hc : (s.ctx g k).isSome = true) : ∃ t, issue ct uses unit body s = .next t := by
  obtain ⟨c, hc⟩ := Option.isSome_iff_exists.1 hc
  simp only [issue, hw, hc]
  split
  · exact ⟨_, rfl⟩
  · split
    · exact ⟨_, rfl⟩
    · split
      · exact ⟨_, rfl⟩
      · split <;> exact ⟨_, rfl⟩

/-- The issue of a long-latency instruction always answers a next state. -/
theorem issueLong_next {ct : Ctl} {i : Instr} {uses : List PortUse} {unit : Option Trap} {perf : Src → State → Perf}
    {prep : State → Except Trap (Src × State)} {s : State} {g : GCore} {k : Slot} (hw : s.who = .slot g k)
    (hc : (s.ctx g k).isSome = true) : ∃ t, issueLong ct i uses unit perf prep s = .next t := by
  obtain ⟨t, ht⟩ := issue_next (ct := ct) (uses := uses) (unit := unit) (body := longBody ct i perf prep) hw hc
  rw [issueLong, ht, settled]
  split <;> exact ⟨_, rfl⟩

/-! ### Halting and trap entry -/

@[simp] theorem logHalt_mem (t : TenantNo) (g : GCore) (k : Slot) (code : BitVec 8) : (logHalt s t g k code).mem = s.mem := by
  simp [logHalt]
@[simp] theorem logHalt_ctxs (t : TenantNo) (g : GCore) (k : Slot) (code : BitVec 8) : (logHalt s t g k code).ctxs = s.ctxs := by
  simp [logHalt]
@[simp] theorem logHalt_coh (t : TenantNo) (g : GCore) (k : Slot) (code : BitVec 8) : (logHalt s t g k code).coh = s.coh := by
  simp [logHalt]

/-- Halt(code): the context halts, with no wait and nothing pending; memory and the memory system's state are as before. -/
theorem haltCtx_spec {g : GCore} {k : Slot} {c : Ctx} (code : BitVec 8) (hc : s.ctx g k = some c) :
    let t := haltCtx s g k code
    t.ctx g k = some { c with halted := true, iss := { c.iss with wait := none, entry := none } } ∧
    (∀ h j, (h, j) ≠ (g, k) → t.ctx h j = s.ctx h j) ∧ t.mem = s.mem ∧ t.coh = s.coh := by
  simp only [haltCtx, hc]
  have hb : ∀ u : State, ∀ h j, (u.bump g.toNat 0x0005).ctx h j = u.ctx h j := fun u h j => by simp [State.ctx]
  have hl : ∀ u : State, ∀ h j, (logHalt u c.tenant g k code).ctx h j = u.ctx h j := fun u h j => by simp [State.ctx]
  refine ⟨?_, ?_, by simp, by simp⟩
  · rw [hb, hl, State.modCtx, hc]; simp [State.ctx, State.setCtx, tget_tset_same]
  · intro h j hne
    rw [hb, hl, State.modCtx, hc]
    simp only [State.ctx, State.setCtx]
    exact tget_tset_other _ _ _ _ _ fun e => hne (ctxKey_inj e).symm

@[simp] theorem dropThirst_mem (g : GCore) (k : Slot) : (dropThirst s g k).mem = s.mem := by
  simp only [dropThirst]; split <;> rfl
@[simp] theorem dropThirst_ctxs (g : GCore) (k : Slot) : (dropThirst s g k).ctxs = s.ctxs := by
  simp only [dropThirst]; split <;> rfl
/-- A thread's writes that wait no longer leave the rest of the memory system's state. -/
theorem dropThirst_coh (g : GCore) (k : Slot) : (dropThirst s g k).coh =
    { s.coh with thirst := s.coh.thirst.filter fun x => x.who != .slot g k } := by
  simp only [dropThirst]; split
  · next h => rw [h, List.filter_nil, ← h]
  · rfl

/-- A trap's entry: the context halts, or is in its handler in handler mode; in both cases the trap registers describe the
trap. Every other context and memory are as before, and of the memory system's state only the thread's wait for lees space
ends. -/
theorem enterTrap_spec {g : GCore} {k : Slot} {c : Ctx} (e : Entry) (hc : s.ctx g k = some c) :
    let t := enterTrap s g k e
    (∃ c', t.ctx g k = some c' ∧ c'.regs = c.regs ∧
      c'.trap = { c.trap with code := e.trap.code, detail := e.trap.detail, tepc := e.epc, tres := e.res, tval := e.trap.val,
                              mode := c'.trap.mode } ∧
      if c.trap.mode || c.trap.tvec = 0 || !retOk c.trap.tvec then
        c'.halted = true ∧ c'.pc = c.pc ∧ c'.trap.mode = c.trap.mode
      else c'.halted = c.halted ∧ c'.pc = c.trap.tvec ∧ c'.trap.mode = true) ∧
    (∀ h j, (h, j) ≠ (g, k) → t.ctx h j = s.ctx h j) ∧ t.mem = s.mem ∧
    t.coh = { s.coh with thirst := s.coh.thirst.filter fun x => x.who != .slot g k } := by
  have other : ∀ (x : Option Ctx) h j, (h, j) ≠ (g, k) → ((dropThirst s g k).setCtx g k x).ctx h j = s.ctx h j :=
    fun x h j hne => by
      rw [State.ctx_setCtx_other _ _ _ _ _ _ hne.symm, State.ctx, dropThirst_ctxs, State.ctx]
  have same : ∀ (x : Ctx), ((dropThirst s g k).setCtx g k (some x)).ctx g k = some x := fun x => by simp
  simp only [enterTrap, hc]
  split
  · next hh =>
    obtain ⟨h1, h2, h3, h4⟩ := haltCtx_spec ((dropThirst s g k).setCtx g k _) e.trap.code (same _)
    exact ⟨⟨_, h1, rfl, rfl, rfl, rfl, rfl⟩, fun h j hne => (h2 h j hne).trans (other _ h j hne), h3.trans (by simp),
      h4.trans (by simp [dropThirst_coh])⟩
  · next hh =>
    refine ⟨⟨_, (State.bump_ctx ..).trans (same _), rfl, rfl, rfl, rfl, rfl⟩, fun h j hne => ?_, by simp,
      by simp [dropThirst_coh]⟩
    rw [State.bump_ctx]; exact other _ h j hne

/-- Delivery: nothing happens while an outstanding instruction has not trapped, or with nothing pending; with nothing
outstanding, the pending trap is taken; else the earliest trap of the outstanding instructions is, and all are withdrawn. -/
theorem settle_spec {g : GCore} {k : Slot} {c : Ctx} (hc : s.ctx g k = some c) :
    (c.iss.outs.any (fun o => o.trap.isNone) = true → settle s g k = s) ∧
    (c.iss.outs = [] → c.iss.entry = none → settle s g k = s) ∧
    (∀ e, c.iss.outs = [] → c.iss.entry = some e → settle s g k = enterTrap s g k e) ∧
    (∀ o os t, c.iss.outs = o :: os → o.trap = some t → c.iss.outs.any (fun o => o.trap.isNone) = false →
      settle s g k = enterTrap (s.setCtx g k (some { c with
        withdrawn := c.iss.outs ++ c.withdrawn, iss := { c.iss with outs := [] } })) g k ⟨t, o.pc, c.pc⟩) := by
  refine ⟨fun h => by simp only [settle, hc, h, if_true], fun h he => by simp [settle, hc, h, he],
    fun e h he => by simp [settle, hc, h, he], fun o os t h ht hn => ?_⟩
  simp only [settle, hc, hn]
  simp [h, ht]

/-! ### Waits -/

/-- A wait whose condition does not hold: with time left it holds the thread, and its registration keeps kind, start and
deadline; without, it ends as given. -/
theorem waitOr_spec (kind : WaitKind) (tmo : Nat) (atEnd : State → Res) :
    (s.c.iss.wait = none → tmo = 0 → waitOr kind tmo atEnd s = atEnd (countTimeout kind s)) ∧
    (s.c.iss.wait = none → tmo ≠ 0 → ∃ t, waitOr kind tmo atEnd s = .hold t ∧
      t = ({ s with nextId := s.nextId + 1 } : State).modC fun c =>
        { c with iss := { c.iss with wait := some ⟨kind, s.cycle, s.cycle + tmo, false, s.nextId⟩ } }) ∧
    (∀ w, s.c.iss.wait = some w → s.cycle < w.deadline → waitOr kind tmo atEnd s =
      .hold (s.modC fun c => { c with iss := { c.iss with wait := some { w with kind := kind, woken := false } } })) ∧
    (∀ w, s.c.iss.wait = some w → w.deadline ≤ s.cycle → waitOr kind tmo atEnd s = atEnd (countTimeout kind s)) := by
  refine ⟨fun h h0 => by simp [waitOr, h, h0], fun h h0 => ⟨_, by simp [waitOr, h, h0], rfl⟩, fun w h hd => ?_, fun w h hd => ?_⟩
  · simp [waitOr, h, Nat.not_le.2 hd]
  · simp [waitOr, h, hd]

/-! ### Outstanding instructions -/

/-- A long-latency instruction that starts is performed, or becomes the thread's youngest outstanding instruction. -/
theorem startLong_spec (ct : Ctl) (i : Instr) (perf : Src → State → Perf) (src : Src) :
    (∃ t, perf src s = .done t ∧ startLong ct i perf src s = .ok t) ∨
    (∃ x t r, startLong ct i perf src s = .ok (addOut i x ct.la.toNat none t) ∧ (t = s ∧ x = src ∨
      perf src s = .wait t ∧ x = src ∨ perf src s = .part t r ∧ x = r)) ∨
    (∃ t, perf src s = .trap t ∧ startLong ct i perf src s = .ok (cancelSfu (addOut i src ct.la.toNat (some t) s) s.g s.k)) := by
  unfold startLong
  split
  · cases h : perf src s with
    | done t => exact .inl ⟨t, rfl, rfl⟩
    | trap t => exact .inr (.inr ⟨t, rfl, rfl⟩)
    | wait t => exact .inr (.inl ⟨src, t, src, rfl, .inr (.inl ⟨rfl, rfl⟩)⟩)
    | part t x => exact .inr (.inl ⟨x, t, x, rfl, .inr (.inr ⟨rfl, rfl⟩)⟩)
  · exact .inr (.inl ⟨src, s, src, rfl, .inl ⟨rfl, rfl⟩⟩)

/-- An instruction that becomes outstanding is appended to the thread's list, with its number, its sources and its window. -/
theorem addOut_outs (i : Instr) (src : Src) (la : Nat) : (addOut i src la none s).c.iss.outs =
    s.c.iss.outs ++ [{ id := s.nextId, i := i, src := { src with parts := true }, pc := s.c.pc, left := la + 1, trap := none
                       port := { s.c.iss.port with pushes := [] }, upon := s.c.iss.upon }] := by
  rw [addOut, State.modC_c]; rfl

/-- It changes no byte of memory, and nothing of the memory system. -/
@[simp] theorem addOut_mem (i : Instr) (src : Src) (la : Nat) (t : Option Trap) : (addOut i src la t s).mem = s.mem := rfl
@[simp] theorem addOut_coh (i : Instr) (src : Src) (la : Nat) (t : Option Trap) : (addOut i src la t s).coh = s.coh := rfl

/-! ### Releases -/

/-- A release that has been made goes on with what follows it. -/
theorem release_staged (sc : Scope) (k : State → Res) (h : s.c.iss.stage ≠ 0) : release sc k s = k s := by
  simp [release, h]

/-- A release waits while an access of the thread is not performed. -/
theorem release_waits (sc : Scope) (k : State → Res) (h0 : s.c.iss.stage = 0) (h : accessesOut s = true) :
    release sc k s = .hold s := by
  simp [release, h0, h]

/-- With no access out and room in the lees store, a release publishes at once and goes on. -/
theorem release_now (sc : Scope) (k : State → Res) (h0 : s.c.iss.stage = 0) (ha : accessesOut s = false)
    (hh : s.c.iss.hold = none) (hr : let u := flushStreams s
      (leesRoom u (pubCells u u.g.toNat sc) && !u.coh.waiting.any (fun p => p.g == u.g)) = true) :
    release sc k s = k ((publish (flushStreams s) (flushStreams s).g sc (pubCells (flushStreams s) (flushStreams s).g.toNat sc)).modC
      fun c => { c with iss := { c.iss with stage := 1 } }) := by
  simp only [release, h0, ha, hh]
  simp only [ne_eq, not_true_eq_false, if_false, Bool.false_eq_true]
  rw [if_pos hr]

end Sys2Proof.Machine
end

