-- ==== Sys2Proof/Tests/Slice0.lean ====
section
/-! SUPPORT. Tests and witnesses: words written out from the spec's encoding tables decode to their instructions, ill-formed
instructions are refused, small steps have the results that the spec gives, and the hypotheses of every statement are met. -/

namespace Sys2Proof.Slice0
open Sys2Proof.Machine Sys2Proof.Claim

-- One theorem is elaborated at a time: many kernel checks at once would take too many threads.
set_option Elab.async false

/-! ### Words from the encoding tables (R43, R44, R98, R130, R184, R205, R228, R233, R277, R306, R342, R373, R392, R425) -/

/-- Guard, hint, lookahead and yield fields of zeros. -/
def n : Ctl := ⟨0, false, 0, false, false, 0, 0, false⟩

/-- The word of a major, a minor, the fields A to E and an immediate, whose bits above 27 go on into E, D, C and B (R43, R44). -/
def wd (major minor a b c d e imm : Nat) : BitVec 96 :=
  BitVec.ofNat 96 (major * 2 ^ 88 + minor * 2 ^ 80 + a * 2 ^ 73 + b * 2 ^ 66 + c * 2 ^ 59 + d * 2 ^ 52 + e * 2 ^ 45 +
    imm / 2 ^ 28 * 2 ^ 45 + imm % 2 ^ 28)

/-- The decoder reads an instruction from a word. -/
def reads (w : BitVec 96) (i : Instr) : Bool :=
  match decodeWord w with
  | .ok j => decide (j = i)
  | .error _ => false

/-- The decoder reads every instruction of a list from its word. -/
def allRead (l : List (BitVec 96 × Instr)) : Bool := l.all fun e => reads e.1 e.2

theorem test_decode_scalar_1 : allRead
    [(wd 0x00 1 0 0 0 0 0 0, .nop n), (wd 0x01 0 5 6 7 0 0 0, .add n 5 6 7), (wd 0x01 1 5 6 7 0 0 0, .sub n 5 6 7),
     (wd 0x02 0 5 6 0 0 0 (2 ^ 42 - 40), .addi n 5 6 (-40)), (wd 0x03 0 5 6 7 0 0 0, .mul n 5 6 7),
     (wd 0x03 1 5 6 7 0 0 0, .mulh n 5 6 7), (wd 0x03 2 5 6 7 0 0 0, .mulhn n 5 6 7), (wd 0x04 0 5 6 7 0 0 0, .div n 5 6 7),
     (wd 0x04 1 5 6 7 0 0 0, .divn n 5 6 7), (wd 0x04 2 5 6 7 0 0 0, .rem n 5 6 7), (wd 0x04 3 5 6 7 0 0 0, .remn n 5 6 7),
     (wd 0x05 0 5 6 7 0 0 0, .and n 5 6 7), (wd 0x05 1 5 6 7 0 0 0, .or n 5 6 7), (wd 0x05 2 5 6 7 0 0 0, .xor n 5 6 7),
     (wd 0x05 3 5 6 7 0 0 0, .andn n 5 6 7), (wd 0x06 0 5 6 0 0 0 0xF0, .andi n 5 6 0xF0), (wd 0x06 1 5 6 0 0 0 0xF0, .ori n 5 6 0xF0),
     (wd 0x06 2 5 6 0 0 0 0xF0, .xori n 5 6 0xF0), (wd 0x07 0 5 6 7 0 0 0, .shl n 5 6 (.reg 7)),
     (wd 0x07 1 5 6 7 0 0 0, .shr n 5 6 (.reg 7)), (wd 0x07 6 5 6 0 0 0 13, .sra n 5 6 (.imm 13)),
     (wd 0x07 7 5 6 0 0 0 63, .rol n 5 6 (.imm 63)), (wd 0x08 0 5 6 0 0 0 0, .clz n 5 6), (wd 0x08 1 5 6 0 0 0 0, .ctz n 5 6),
     (wd 0x08 2 5 6 0 0 0 0, .popc n 5 6), (wd 0x09 0 5 6 7 0 0 0, .min n 5 6 7), (wd 0x09 1 5 6 7 0 0 0, .max n 5 6 7),
     (wd 0x09 2 5 6 7 0 0 0, .minn n 5 6 7), (wd 0x09 3 5 6 7 0 0 0, .maxn n 5 6 7)] = true := by decide

theorem test_decode_scalar_2 : allRead
    [(wd 0x0A 0 5 6 0 0 0 0, .sextB n 5 6), (wd 0x0A 1 5 6 0 0 0 0, .sextH n 5 6), (wd 0x0A 2 5 6 0 0 0 0, .sextW n 5 6),
     (wd 0x0B 0 5 6 0 0 0 (8 * 64 + 12), .bfxZ n 5 6 12 8), (wd 0x0B 1 5 6 0 0 0 (8 * 64 + 12), .bfxS n 5 6 12 8),
     (wd 0x0C 0 5 6 7 0 0 (16 * 64 + 40), .bfi n 5 6 7 40 16), (wd 0x0D 0 5 6 7 3 0 0, .sel n 5 6 7 3),
     (wd 0x0E 0 5 0x4C 0 0 0 0, .mov n 5 0x4C), (wd 0x0F 0 5 0 0 0 0 (2 ^ 56 - 2), .movi n 5 (-2)),
     (wd 0x10 0 5 0 0 0 0 0xA5, .movhi n 5 0xA5), (wd 0x11 0 5 6 7 0 0 (3 * 2 ^ 24 + 16), .lea n 5 6 ⟨7, 3, 16⟩),
     (wd 0x12 0x52 2 5 6 0 0 0, .cmp n .ge .i32 2 5 6), (wd 0x13 0x04 3 5 0 0 0 0x41, .cmpi n .eq .n8 3 5 0x41),
     (wd 0x14 0 4 2 3 0 0 0, .pand n 4 2 3), (wd 0x14 1 4 2 3 0 0 0, .por n 4 2 3), (wd 0x14 2 4 2 3 0 0 0, .pxor n 4 2 3),
     (wd 0x14 3 5 4 0 0 0 0, .pnot n 5 4), (wd 0x15 0 0 0 0 0 0 0x123456782, .br n 0x123456782), (wd 0x16 0 0 9 0 0 0 0, .jmp n 9),
     (wd 0x17 0 0 0 0 0 0 0x10041, .call n 0x10041), (wd 0x18 0 0 9 0 0 0 0, .callr n 9), (wd 0x19 0 0 0 0 0 0 0, .ret n),
     (wd 0x1A 0 6 0 0 0 0 0x10041, .loop n 6 0x10041), (wd 0x1B 0 5 0 0 0 0 2, .coord n 5 .z)] = true := by decide

theorem test_decode_memory : allRead
    [(wd 0x30 6 8 9 3 0 0 (2 * 2 ^ 24 + 16), .ld n .w true 8 (.reg 9) ⟨3, 2, 16⟩), (wd 0x31 1 8 9 3 0 0 16, .st n .h 8 (.reg 9) ⟨3, 0, 16⟩),
     (wd 0x30 3 8 5 2 0 0 (2 ^ 27), .ld n .d false 8 (.tile 5) ⟨2, 0, 0⟩),
     (wd 0x32 0 8 9 3 4 0 16, .ldq n 8 4 (.reg 9) ⟨3, 0, 16⟩), (wd 0x33 0 8 9 3 4 0 16, .stq n 8 4 (.reg 9) ⟨3, 0, 16⟩),
     (wd 0x34 0 8 9 3 0x44 0 16, .ldv n ⟨false, 8⟩ ⟨true, 4⟩ (.reg 9) ⟨3, 0, 16⟩),
     (wd 0x35 0 8 9 3 8 0 16, .stv n ⟨false, 8⟩ ⟨false, 8⟩ (.reg 9) ⟨3, 0, 16⟩),
     (wd 0x36 1 8 9 3 2 0 16, .ldvx n .w ⟨false, 8⟩ (.reg 9) ⟨false, 3⟩ 2 0 16),
     (wd 0x37 2 8 9 3 2 0 16, .stvx n .d ⟨false, 8⟩ (.reg 9) ⟨false, 3⟩ 2 0 16),
     (wd 0x38 0 8 9 3 2 4 16, .ldf n 8 9 ⟨3, 0, 16⟩ 2 4), (wd 0x38 1 8 9 3 2 4 16, .ldfe n 8 9 ⟨3, 0, 16⟩ 2 4),
     (wd 0x39 0 8 9 3 0 0 16, .stf n 8 9 ⟨3, 0, 16⟩), (wd 0x39 1 8 9 3 2 4 16, .stef n 8 9 ⟨3, 0, 16⟩ 2 4),
     (wd 0x3A 0 2 9 3 0 0 16, .sete n 2 9 ⟨3, 0, 16⟩), (wd 0x3B 0 5 9 3 0 0 0, .tdef n 5 9 3), (wd 0x3B 1 5 0 0 0 0 1, .trel n 5 true),
     (wd 0x3B 2 8 5 0 0 0 0, .tstat n 8 5), (wd 0x3C 1 0 9 3 0 0 16, .pref n .l2 9 ⟨3, 0, 16⟩), (wd 0x3D 0 0 9 3 0 0 16, .wbl n 9 ⟨3, 0, 16⟩),
     (wd 0x3D 1 0 9 3 0 0 16, .zline n 9 ⟨3, 0, 16⟩), (wd 0x3E 0 8 9 3 0 0 16, .rgnq n 8 9 ⟨3, 0, 16⟩)] = true := by decide

theorem test_decode_ordering_atomic : allRead
    [(wd 0x50 3 0 0 0 0 0 0, .phase n .die), (wd 0x51 1 0 0 0 0 0 0, .fence n .core), (wd 0x52 5 0 0 0 0 0 0, .dfence n .system),
     (wd 0x53 0 3 1 26 0 0 1000000, .tlwait n 3 1 26 1000000), (wd 0x53 1 8 2 0 0 0 1, .tlread n 8 2 true),
     (wd 0x54 (64 + 24 + 4) 8 9 3 0 0 16, .ldnow n true .d .module 8 9 ⟨3, 0, 16⟩ 0),
     (wd 0x55 (32 + 5) 8 9 3 4 0 16, .stnow n false .q .system 8 9 ⟨3, 0, 16⟩ 4),
     (wd 0x58 (128 + 8 * 8 + 2) 8 9 3 4 0 16, .amo n true .swap .cluster 8 9 ⟨3, 0, 16⟩ 4),
     (wd 0x59 (5 * 8 + 4) 8 9 0 0 0 (2 ^ 20 + 64), .amoi n false .max .module 8 9 1 64),
     (wd 0x5A (128 + 8 + 5) 8 9 3 4 2 16, .cas n true true .system 8 9 ⟨3, 0, 16⟩ 4 2),
     (wd 0x5B 3 10 9 3 12 2 16, .casq n false .die 10 9 ⟨3, 0, 16⟩ 12 2),
     (wd 0x5C (128 + 4 * 8 + 3) 8 9 3 0 0 16, .red n true (.flt true .min) .die 8 9 ⟨3, 0, 16⟩),
     (wd 0x5C (0xD * 8 + 1) 8 9 3 0 0 16, .red n false (.int .and) .core 8 9 ⟨3, 0, 16⟩),
     (wd 0x5D (2 * 8 + 1) 8 9 3 8 2 16, .redv n false .max .core ⟨false, 8⟩ ⟨false, 8⟩ 9 ⟨3, 0, 16⟩ 2),
     (wd 0x5E (128 + 32 + 8 + 4) 0 9 3 0 0 (7 * 2 ^ 16 + 256), .acinit n (some 3) .min .acc64 .module 9 ⟨7, 256⟩),
     (wd 0x5F (4 + 1) 8 9 3 0 0 16, .acread n (.d true 8) 9 ⟨3, 0, 16⟩),
     (wd 0x5F 2 8 9 3 10 0 16, .acread n (.v false ⟨false, 8⟩ ⟨false, 10⟩) 9 ⟨3, 0, 16⟩),
     (wd 0x60 0 2 9 3 0 0 (7 * 2 ^ 16), .acchain n 2 9 3 ⟨7, 0⟩), (wd 0x61 1 0 9 0 0 0 (7 * 2 ^ 16), .acflush n true 9 ⟨7, 0⟩),
     (wd 0x62 0 0 9 3 0 0 (7 * 2 ^ 16), .acckpt n 9 3 ⟨7, 0⟩), (wd 0x63 0 0 9 3 0 0 (7 * 2 ^ 16), .acrstr n 9 3 ⟨7, 0⟩)] = true := by
  decide

theorem test_decode_messages_tasks : allRead
    [(wd 0x68 3 5 6 0 0 0 0, .send n true true 5 6), (wd 0x69 1 5 6 7 0 0 0, .sendv n false true 5 ⟨false, 6⟩ ⟨false, 7⟩),
     (wd 0x6A 0x40 8 9 2 0 0 1000, .recv n true (.dword 8) 9 2 (.imm 1000)),
     (wd 0x6A 0x81 8 9 2 10 4 0, .recv n false (.line ⟨false, 8⟩ ⟨false, 10⟩) 9 2 (.reg 4)),
     (wd 0x6B 0 8 9 2 0 0 0, .recvp n false (.dword 8) 9 2), (wd 0x6C 1 2 9 3 0 4 16, .waitfe n true 2 9 ⟨3, 0, 16⟩ 4),
     (wd 0x6D 0x80 2 20 0 0 4 0, .waitb n false 2 20 (.reg 4)), (wd 0x6E 0x60 2 20 3 0 0 100000, .waitc n true 2 20 (.reg 3) (.imm 100000)),
     (wd 0x6F 4 0 20 3 4 0 0, .binit n .module 20 3 4), (wd 0x70 0x40 8 20 3 0 0 0, .barr n true 8 20 3),
     (wd 0x71 (32 + 16 + 4) 8 9 3 20 4 16, .stc n .w .module 8 9 ⟨3, 0, 16⟩ 20 (some 4)), (wd 0x72 5 8 20 0 0 0 0, .bread n 8 20 5),
     (wd 0x73 0 8 20 0 0 0 0, .qwave n 8 20), (wd 0x74 0 0 20 0 0 0 0, .qreset n 20), (wd 0x75 0 0 9 0 0 0 2000, .sleep n 9 2000),
     (wd 0x78 0 5 6 0 0 0 0, .launch n 5 6), (wd 0x79 0 1 0 0 0 0 0x20000, .fork n 1 0x20000), (wd 0x7A 0x80 2 20 0 0 4 0, .join n 2 20 (.reg 4)),
     (wd 0x7B 0 0 20 3 0 0 0, .jinit n 20 3), (wd 0x7C 1 0 6 7 8 1 50000, .suspend n 6 7 (.tl 8 1) 50000),
     (wd 0x7C 3 0 6 7 8 0 50000, .suspend n 6 7 (.join 8) 50000), (wd 0x7D 0 2 6 0 0 0 0, .resume n 2 6),
     (wd 0x7E 0 0 4 9 0 0 (3 * 2 ^ 24), .migrate n 4 ⟨9, 3, 0⟩), (wd 0x7F 0 0 0 0 0 0 0, .endt n), (wd 0x80 0 0 0 0 0 0 0, .exit n),
     (wd 0x81 0 0 9 0 0 0 0, .setpri n 9), (wd 0x82 0 2 0 0 0 0 0, .yield n 2), (wd 0x83 0 0 0 0 0 0 7, .lend n 7),
     (wd 0x84 0 9 0 0 0 0 0, .dqlen n 9), (wd 0x85 1 5 0 0 0 0 0, .aqspill n true 5)] = true := by decide

/-- v1 to v9 and vs1. -/
def v (i : BitVec 5) : VReg := ⟨false, i⟩

theorem test_decode_vector_1 : allRead
    [(wd 0x88 0 1 2 3 0 4 0, .vadd n .f32 (v 1) (v 2) (v 3) 4 ⟨false, 0⟩), (wd 0x89 1 1 2 3 0 4 0, .vsub n .bf16 (v 1) (v 2) (v 3) 4 ⟨false, 0⟩),
     (wd 0x8A 2 2 4 0x46 0 4 (2 ^ 25), .vmul n .fp16 (v 2) (v 4) ⟨true, 6⟩ 4 ⟨false, 1⟩),
     (wd 0x8B 0 1 2 3 5 4 (2 ^ 27), .vfma n .f32 (v 1) (v 2) (v 3) (v 5) 4 ⟨true, 0⟩),
     (wd 0x8C 0 1 2 3 5 4 0, .vfms n .f32 (v 1) (v 2) (v 3) (v 5) 4 ⟨false, 0⟩), (wd 0x8D 0 1 2 3 0 4 0, .vmin n .f32 (v 1) (v 2) (v 3) 4 ⟨false, 0⟩),
     (wd 0x8E 0 1 2 3 0 4 0, .vmax n .f32 (v 1) (v 2) (v 3) 4 ⟨false, 0⟩), (wd 0x8F 0 1 2 0 0 4 0, .vabs n .f32 (v 1) (v 2) 4 ⟨false, 0⟩),
     (wd 0x90 0 1 2 0 0 4 0, .vneg n .f32 (v 1) (v 2) 4 ⟨false, 0⟩),
     (wd 0x91 0x60 1 2 3 0 4 0, .vcmp n .un .f32 1 (v 2) (v 3) 4 ⟨false, 0⟩),
     (wd 0x91 0x26 1 2 3 0 4 0, .vcmp n (.ord .lt) .i32 1 (v 2) (v 3) 4 ⟨false, 0⟩),
     (wd 0x92 2 1 2 3 4 0 0, .vsel n .w (v 1) (v 2) (v 3) 4 ⟨false, 0⟩), (wd 0x93 0x30 1 2 0 0 4 0, .vcvt n .f8 .f32 (v 1) (v 2) 4 ⟨false, 0⟩),
     (wd 0x94 0 1 2 3 5 4 0, .vshuf n .b (v 1) (v 2) (v 3) (v 5) 4 ⟨false, 0⟩), (wd 0x95 2 1 5 0 0 4 0, .vbcast n .w (v 1) 5 4 ⟨false, 0⟩),
     (wd 0x96 0x20 5 28 0 0 4 (2 ^ 27), .vred n .max .f32 5 (v 28) 4 ⟨true, 0⟩), (wd 0x97 0x10 1 2 0 0 4 0, .vscan n .min (v 1) (v 2) 4 ⟨false, 0⟩),
     (wd 0x98 0x16 1 2 3 0 4 0, .viadd n true .i32 (v 1) (v 2) (v 3) 4 ⟨false, 0⟩),
     (wd 0x99 8 1 2 3 0 4 0, .visub n false .n8 (v 1) (v 2) (v 3) 4 ⟨false, 0⟩), (wd 0x9A 11 1 2 3 0 4 0, .vimul n .n64 (v 1) (v 2) (v 3) 4 ⟨false, 0⟩),
     (wd 0x9B 0 1 2 3 0 4 0, .vand n .b (v 1) (v 2) (v 3) 4 ⟨false, 0⟩), (wd 0x9C 1 1 2 3 0 4 0, .vor n .h (v 1) (v 2) (v 3) 4 ⟨false, 0⟩),
     (wd 0x9D 3 1 2 3 0 4 0, .vxor n .d (v 1) (v 2) (v 3) 4 ⟨false, 0⟩), (wd 0x9E 0x16 1 2 0 0 4 5, .vshl n .i32 (v 1) (v 2) (.imm 5) 4 ⟨false, 0⟩),
     (wd 0x9F 6 1 2 3 0 4 0, .vshr n .i32 (v 1) (v 2) (.lanes (v 3)) 4 ⟨false, 0⟩), (wd 0xA0 3 5 2 3 0 4 0, .vdot n .f8 5 (v 2) (v 3) 4 ⟨false, 0⟩),
     (wd 0xA1 1 6 7 8 0 4 0, .vsp2 n true (v 6) (v 7) 8 4 ⟨false, 0⟩), (wd 0xA2 0 1 2 0 0 4 0, .vmov n .b (v 1) (v 2) 4 ⟨false, 0⟩)] = true := by decide

theorem test_decode_vector_2 : allRead
    [(wd 0xA3 0 1 2 3 0 0 0, .kand n 1 2 3), (wd 0xA4 0 1 2 3 0 0 0, .kor n 1 2 3), (wd 0xA5 0 1 2 0 0 0 0, .knot n 1 2),
     (wd 0xA6 0 1 2 0 0 0 0, .kmov n (.kk 1 2)), (wd 0xA6 1 1 9 0 0 0 0, .kmov n (.kg 1 9)), (wd 0xA6 2 9 1 0 0 0 0, .kmov n (.gk 9 1)),
     (wd 0xA7 6 30 12 0 0 0 256, .scfg n true 2 (v 30) (.one 12 256)), (wd 0xA7 13 30 11 0 0 0 0, .scfg n true 1 (v 30) (.desc 11)),
     (wd 0xA8 0 28 0 0 0 0 0, .sstart n (v 28)), (wd 0xA9 0 30 0 0 0 0 0, .sstop n (v 30)), (wd 0xAA 0 8 29 0 0 0 0, .sstat n 8 (v 29)),
     (wd 0xAB 0 1 2 0 0 4 0, .vexp n (v 1) (v 2) 4 ⟨false, 0⟩), (wd 0xAC 0 1 2 0 0 4 0, .vexp2 n (v 1) (v 2) 4 ⟨false, 0⟩),
     (wd 0xAD 0 1 2 0 0 4 0, .vlog2 n (v 1) (v 2) 4 ⟨false, 0⟩), (wd 0xAE 0 1 2 0 0 4 0, .vrcp n (v 1) (v 2) 4 ⟨false, 0⟩),
     (wd 0xAF 0 1 2 0 0 4 0, .vrsq n (v 1) (v 2) 4 ⟨false, 0⟩), (wd 0xB0 0 1 2 0 0 4 0, .vsqrt n (v 1) (v 2) 4 ⟨false, 0⟩),
     (wd 0xB1 0 1 2 0 0 4 0, .vsin n (v 1) (v 2) 4 ⟨false, 0⟩), (wd 0xB2 0 1 2 0 0 4 0, .vcos n (v 1) (v 2) 4 ⟨false, 0⟩),
     (wd 0xB3 0 1 2 0 0 4 0, .vtanh n (v 1) (v 2) 4 ⟨false, 0⟩), (wd 0xB4 0 8 0 0 0 0 0, .rng n 8), (wd 0xB5 0 1 0 0 0 4 0, .vrng n (v 1) 4),
     (wd 0xB6 0 8 0 0 9 0 0, .rngsave n 8 9), (wd 0xB7 0 0 8 9 0 0 0, .rngload n 8 9), (wd 0xB8 0 0 0 0 0 0 0, .rngjump n),
     (wd 0xB9 1 4 10 11 12 13 0, .cbrng n true (v 4) 10 11 12 13)] = true := by decide

theorem test_decode_engines : allRead
    [(wd 0xC0 0 8 9 3 0 0 2, .mldw n .sp2x 8 9 3), (wd 0xC1 0 8 0 0 0 0 0, .mswap n 8),
     (wd 0xC2 0 8 9 3 4 0 (4096 + 1024 + 63), .mstream n .f8 true 63 8 9 3 4), (wd 0xC3 0 8 9 0 0 0 0, .mattn n 8 9),
     (wd 0xC4 0 8 9 0 0 0 0, .mtags n 8 9), (wd 0xC5 0 8 9 0 0 0 0, .mcfg n 8 9), (wd 0xC6 0 8 9 0 0 0 0, .mcancel n 8 9),
     (wd 0xC7 0 8 0 0 0 0 0, .mqstat n 8), (wd 0xCC 0 0 9 0 0 0 1, .rdesc n (some 9) 1), (wd 0xCC 1 0 0 0 0 0 15, .rdesc n none 15),
     (wd 0xCD 0 8 9 3 0 0 1, .rnew n 8 9 3 1), (wd 0xCE 0 5 6 7 0 0 0, .rcat n 5 6 7), (wd 0xCF 0 5 6 7 8 0 0, .rsplit n 5 6 7 8),
     (wd 0xD0 0 10 8 9 11 0 (2 * 256 + 3), .rsplice n 10 8 9 11 2 3), (wd 0xD1 0 5 6 7 8 9 0, .rwalk n 5 6 7 8 9),
     (wd 0xD2 0 5 6 7 8 0 1, .rsum n 5 6 7 8 1), (wd 0xD3 1 5 6 7 0 0 0, .rget n true 5 6 7), (wd 0xD4 0 5 6 7 8 9 0, .riter n 5 6 7 8 9),
     (wd 0xD5 0 5 6 0 0 0 0, .rlen n 5 6), (wd 0xD6 0 0 6 0 0 0 0, .rref n 6), (wd 0xD7 0 0 6 0 0 0 0, .rdrop n 6),
     (wd 0xD8 3 2 6 7 8 9 0, .rpub n .die 2 6 7 8 9), (wd 0xD9 0x44 5 6 0 8 0 0, .rload n true .module 5 6 8),
     (wd 0xDC 0 8 11 10 0 0 8, .cpy n 8 11 10 (.imm 8)), (wd 0xDC 1 8 11 10 9 0 0, .cpy n 8 11 10 (.reg 9)), (wd 0xDD 0 8 9 0 0 0 0, .cpy2d n 8 9),
     (wd 0xDE 0x01 8 9 10 11 0 0, .cpyf n .f32 .bf16 8 9 10 11), (wd 0xDF 0 8 9 10 11 12 4096, .cpyg n 8 9 10 11 12 4096),
     (wd 0xE0 3 8 9 10 11 12 (3 * 256 + 5), .coll n .bcast 8 9 10 11 12 3 5), (wd 0xE1 0 8 9 0 0 0 0, .colla n 8 9),
     (wd 0xE2 0 8 9 0 0 0 0, .smpl n 8 9), (wd 0xE3 0 8 9 0 0 0 0, .smplv n 8 9), (wd 0xE4 0 8 9 10 0 0 0, .smcommit n 8 9 10),
     (wd 0xE5 0 8 9 0 0 0 0, .smcancel n 8 9), (wd 0xE6 0 0 9 0 0 0 31, .treedef n 9 31), (wd 0xE7 1 8 0 0 0 0 0, .engq n .coll 8)] = true := by decide

theorem test_decode_system : allRead
    [(wd 0xEC 0 0 0 0 0 0 (2 ^ 42 - 1), .trap n (2 ^ 42 - 1)), (wd 0xED 0 0 0 0 0 0 7, .sysc n 7), (wd 0xEE 0 0 0 0 0 0 0, .rett n),
     (wd 0xEF 0 5 0 0 0 0 8, .rdsr n 5 8), (wd 0xF0 0 0 6 0 0 0 16, .wrsr n 6 16), (wd 0xF1 4 0 6 7 0 0 0, .tlbinv n .module 6 7),
     (wd 0xF2 0 0 0 0 0 0 0, .tlbsync n), (wd 0xF3 0 2 6 0 0 0 0, .ctxsave n 2 6), (wd 0xF4 0 0 6 0 0 0 0, .ctxload n 6),
     (wd 0xF5 0 0 0 0 0 0 0, .halt n), (wd 0xF6 0 0 0 0 0 0 0xABCD, .bkpt n 0xABCD), (wd 0xF7 0 0 6 3 0 0 128, .llrcl n 6 ⟨3, 0, 128⟩),
     (wd 0xF8 0 0 5 0 0 0 2, .hirq n 5 2), (wd 0xF9 0 0 5 0 0 0 1, .perf n 5 1)] = true := by decide

/-- The word of an R-type instruction of RISC-V (R148). -/
def rt (opc f3 f7 rd rs1 rs2 : Nat) : BitVec 32 :=
  BitVec.ofNat 32 (f7 * 2 ^ 25 + rs2 * 2 ^ 20 + rs1 * 2 ^ 15 + f3 * 2 ^ 12 + rd * 2 ^ 7 + opc)

theorem test_decode_xfltile : ([(rt 0x0B 0 0 10 11 12, Instr.tfill 10 11 12), (rt 0x0B 1 0 10 11 0, .tfill2 10 11), (rt 0x0B 2 0 10 11 12, .tready 10 11 12),
     (rt 0x0B 3 0 10 11 12, .twaite 10 11 12), (rt 0x2B 0 0 10 11 12, .tdrain 10 11 12), (rt 0x2B 1 0 10 11 12, .twaitd 10 11 12),
     (rt 0x2B 2 0 10 11 12, .tempty 10 11 12), (rt 0x2B 3 0 10 11 0, .tcfgReadEntry 10 11), (rt 0x2B 3 1 10 11 0, .tcfgRole 10 11),
     (rt 0x2B 3 2 10 11 0, .tcfgFailedAddress 10 11), (rt 0x2B 3 3 10 11 0, .tcfgReturnEmpty 10 11)].all fun e => decide (decodeRv e.1 = e.2)) = true := by
  decide

/-- Majors without an instruction, a minor without one, a reserved field and a word of zeros are refused (R54, R55). -/
theorem test_decode_refuses :
    decodeWord 0 = .error (.illop 3) ∧ decodeWord (wd 0xFC 0 0 0 0 0 0 0) = .error (.illop 1) ∧
    decodeWord (wd 0x01 2 5 6 7 0 0 0) = .error (.illop 2) ∧ decodeWord (wd 0x01 0 5 6 7 1 0 0) = .error (.illop 4) ∧
    decodeWord (wd 0xC0 0 8 9 3 0 0 3) = .error (.illop 4) ∧ decodeWord (wd 0x14 0 8 2 3 0 0 0) = .error (.illopnd 0) ∧
    decodeWord (wd 0x36 1 8 9 3 8 0 16) = .error (.illopnd 3) := by
  refine ⟨rfl, rfl, rfl, rfl, rfl, rfl, rfl⟩

/-- RISC-V words of each format: ADDI x5, x6, -1; SUB; MULHU; SRAW; LD; SD; BEQ; JAL; LUI; C.ADDI x8, 1; CSRRW (R147). -/
theorem test_decode_rv :
    ([(0xFFF30293#32, RvOp.alui .add 5 6 (-1)), (0x407302B3#32, .alu .sub 5 6 7), (0x027332B3#32, .alu .mulhu 5 6 7),
      (0x00833283#32, .load .d 5 6 8), (0x00533423#32, .store .d 6 5 8), (0x00628463#32, .branch .beq 5 6 8),
      (0x008000EF#32, .jal 1 8), (0x123452B7#32, .lui 5 0x12345000)].all fun e =>
        decide (decodeRv e.1 = .rv64imcInstruction ⟨e.2, 4⟩)) = true ∧
    decodeRv 0x00000405#32 = .rv64imcInstruction ⟨.alui .add 8 8 1, 2⟩ := by decide

/-! ### Ill-formed terms: one for each check of WellFormed.lean -/

theorem test_wf_refuses :
    [Instr.add { n with hint := 1 } 5 6 7, .add { n with la := 1 } 5 6 7, .ld { n with hint := 7 } .w true 8 (.reg 9) ⟨3, 2, 16⟩,
     .br n 0x8, .ld n .q false 8 (.reg 9) ⟨0, 0, 0⟩, .ld n .d true 8 (.reg 9) ⟨0, 0, 0⟩, .st n .q 8 (.reg 9) ⟨0, 0, 0⟩, .phase n .thread,
     .ldnow n false .d .die 8 9 ⟨0, 0, 0⟩ 1, .ldnow n false .d .core 8 9 ⟨0, 0, 0⟩ 0, .ldnow { n with la := 1 } true .d .die 8 9 ⟨0, 0, 0⟩ 0,
     .amo { n with la := 1 } true .add .die 8 9 ⟨0, 0, 0⟩ 4, .red n false (.int .swap) .die 8 9 ⟨0, 0, 0⟩,
     .red n false (.int .add) .system 8 9 ⟨0, 0, 0⟩, .stc n .q .die 8 9 ⟨0, 0, 0⟩ 20 none, .vadd n .i32 (v 1) (v 2) (v 3) 4 ⟨false, 0⟩,
     .vadd n .f32 (v 1) (v 2) (v 3) 4 ⟨false, 3⟩, .viadd n true .f32 (v 1) (v 2) (v 3) 4 ⟨false, 0⟩, .vcmp n .un .i8 1 (v 2) (v 3) 4 ⟨false, 0⟩,
     .vcvt n .sp2 .i8 (v 1) (v 2) 4 ⟨false, 0⟩, .vdot n .i8 5 (v 2) (v 3) 4 ⟨false, 0⟩, .rpub n .system 2 6 7 8 9,
     .coll n .allred 8 9 10 11 12 3 5, .rdsr n 5 0xFFF, .cpyf n .sp2 .sp2 8 9 10 11, .rv64imcInstruction ⟨.illegal 0, 3⟩].all
      (fun i => !i.wf) = true ∧
    [Instr.ld { n with hint := 1, la := 2 } .w true 8 (.reg 9) ⟨0, 0, 16⟩, .br n 0x10041, .rpub n .module 2 6 7 8 9, .phase n .system,
     .vadd n .f32 (v 1) (v 2) (v 3) 4 ⟨true, 2⟩, .rdsr n 5 8].all (fun i => i.wf) = true := by decide

/-! ### States that meet the hypotheses of the statements -/

/-- A context of core 0, slot 0, about to execute: tenant 0, with its translation of page 0 and its first window on DRAM. -/
def demo : State := { withThreadWord State.reset 0 with who := .slot 0 0, pending := [] }
/-- The state with scalar registers, in ascending order, in the running context. -/
def wg (l : List (Nat × Word)) (s : State) : State := s.modC fun c => { c with regs := { c.regs with g := l } }
/-- The alias address of byte o of the own scratchpad (R112). -/
def sp (o : Nat) : Word := BitVec.ofNat 64 (0xFFFFFFFFFE0000 + o)
/-- What an operand that succeeds gives. -/
def okIs [DecidableEq α] (e : Except ε α) (x : α) : Bool :=
  match e with
  | .ok y => decide (y = x)
  | .error _ => false

theorem ok_of [DecidableEq α] {e : Except ε α} {x : α} (h : okIs e x = true) : e = .ok x := by
  cases e <;> simp_all [okIs]

/-- The hypothesis Issues, as a test. -/
def issuesB (s : State) (ct : Ctl) (rs : List GReg) : Bool :=
  (match s.who with | .slot g k => (s.ctx g k).isSome | _ => false) && guardOf ct s && (rs.all fun r => !isPort s r) && s.c.iss.shadow.isEmpty

theorem issues_of {s : State} {ct : Ctl} {rs : List GReg} (h : issuesB s ct rs = true) : Issues s ct rs := by
  simp only [issuesB, Bool.and_eq_true, List.all_eq_true, Bool.not_eq_true', List.isEmpty_iff] at h
  refine ⟨?_, h.1.1.2, h.1.2, h.2⟩
  cases hw : s.who with
  | slot g k => exact ⟨g, k, hw, by simpa [hw] using h.1.1.1⟩
  | _ => simp [hw] at h

/-- No outstanding instruction at all, so none with a trap. -/
theorem noTraps_of {s : State} (h : s.c.iss.outs = []) : NoTraps s := by simp [NoTraps, h]
/-- Nothing outstanding meets any piece, and an instruction issued now is in order. -/
theorem clear_of {s : State} (ps : List Piece) (h : s.c.iss.outs = []) : Clear s ps := by simp [Clear, h]
theorem inOrder_of {s : State} (i : Instr) (src : Src) (h : s.c.iss.outs = []) : inOrder s i src = true := by simp [inOrder, h]

/-- One test for the forms of the scalar statements: every register named is no port. -/
theorem wit_AluResults : Issues demo n [5, 6, 7] ∧ Issues demo { n with g1 := 0, yld := true } [0, 64, 127] :=
  ⟨issues_of (by decide +kernel), issues_of (by decide +kernel)⟩
theorem wit_ShiftsAndBitFields : Issues demo n [5, 6, 7] := issues_of (by decide +kernel)
theorem wit_MovesAndAddresses : Issues demo n [5, 6, 7] ∧ (⟨7, 3, 16⟩ : AddrOp).index = 7 := ⟨issues_of (by decide +kernel), rfl⟩
theorem wit_ComparesAndPredicates : Issues demo n [5, 6] := issues_of (by decide +kernel)

/-- The return-address store of the demo context. -/
def withRas (r : Ras) (s : State) : State := s.modC fun c => { c with ras := r }

theorem wit_ControlTransfers :
    (let s := wg [(1, 2), (2, 0x10044)] demo
     Issues s n [1, 2] ∧ checkTarget s ((0x10041 : CodeAddr).setWidth 64) = .ok 0x10041 ∧ rdG s 1 - 1 ≠ 0 ∧
       checkTarget s (rdG s 2) = .ok 0x10044 ∧ s.c.ras.depth ≠ 0xFFFF ∧ s.c.ras.stored < 8) ∧
    (let s := wg [(1, 1)] demo
     Issues s n [1, 2] ∧ rdG s 1 - 1 = 0) ∧
    (let s := withRas { depth := 0xFFFF } (wg [(2, 0x10044)] demo)
     Issues s n [1, 2] ∧ checkTarget s (rdG s 2) = .ok 0x10044 ∧ s.c.ras.depth = 0xFFFF) ∧
    (let s := withRas { depth := 8, stored := 8 } (wg [(2, 0x10044)] demo)
     Issues s n [1, 2] ∧ checkTarget s (rdG s 2) = .ok 0x10044 ∧ s.c.ras.stored = 8 ∧ s.c.ras.sz = 0) ∧
    (let s := withRas { depth := 8, stored := 8, sz := 1 } (wg [(2, 0x10044)] demo)
     Issues s n [1, 2] ∧ checkTarget s (rdG s 2) = .ok 0x10044 ∧ s.c.ras.stored = 8 ∧ s.c.ras.sz ≠ 0 ∧
       check s 0 0 .wr 0 8 = .ok [⟨0, 0, 8, 0x1F⟩] ∧ overQuota s 0 0 0 [⟨0, 0, 8, 0x1F⟩] = false) ∧
    (let s := withRas { depth := 1, stored := 1, entries := [(0, 0x84)] } demo
     Issues s n [1, 2] ∧ 0 < s.c.ras.stored ∧ (s.c.ras.entry 0).toNat % 64 < 5) ∧
    (let s := demo
     Issues s n [1, 2] ∧ s.c.ras.stored = 0 ∧ s.c.ras.spilled = 0) ∧
    (let s := withRas { depth := 1, spilled := 1, sz := 1 } demo
     Issues s n [1, 2] ∧ s.c.ras.stored = 0 ∧ s.c.ras.spilled ≠ 0 ∧ check s 0 0 .rd 8 8 = .ok [⟨8, 8, 8, 0x1F⟩] ∧
       lostIn s [⟨8, 8, 8, 0x1F⟩] = none ∧ checkReturn (wordOfBytes (coreBytes s 0 0 [⟨8, 8, 8, 0x1F⟩])) = .ok 0) ∧
    (let s := wg [(1, 2), (2, 0x100000000000000)] demo
     Issues s n [1, 2] ∧ 2 ^ 56 ≤ (rdG s 2).toNat ∧ rdG s 1 - 1 ≠ 0 ∧ 5 ≤ ((0x47 : CodeAddr).setWidth 64).toNat % 64) := by
  refine ⟨⟨issues_of ?_, ok_of ?_, ?_, ok_of ?_, ?_, ?_⟩, ⟨issues_of ?_, ?_⟩, ⟨issues_of ?_, ok_of ?_, ?_⟩, ⟨issues_of ?_, ok_of ?_, ?_, ?_⟩,
    ⟨issues_of ?_, ok_of ?_, ?_, ?_, ok_of ?_, ?_⟩, ⟨issues_of ?_, ?_, ?_⟩, ⟨issues_of ?_, ?_, ?_⟩,
    ⟨issues_of ?_, ?_, ?_, ok_of ?_, ?_, ok_of ?_⟩, ⟨issues_of ?_, ?_, ?_, ?_⟩⟩ <;> decide +kernel

theorem operand_reg {s : State} {r : GReg} {m : AddrOp} {k va : Nat}
    (h : va = (rdG s r + ((rdG s m.index <<< m.shift.toNat) + m.off.signExtend 64)).toNat % 2 ^ 56) : OperandAt s (.reg r) m k va := h
theorem operand_tile {s : State} {t : TReg} {m : AddrOp} {k va : Nat}
    (h : let e := s.tile s.g.toNat t
      let x := ((rdG s m.index <<< m.shift.toNat) + m.off.signExtend 64).toInt
      e.state = 2 ∧ 0 ≤ x ∧ x + k ≤ e.size.toNat * 128 ∧ va = (0xFFFFFFFFFE0000 + e.base.toNat * 128 + x.toNat) % 2 ^ 56) :
    OperandAt s (.tile t) m k va := h
theorem mayT {s : State} {sc : Scope} (h : CanRelease s sc) : MayRelease true s sc := h
theorem mayF {s : State} {sc : Scope} (h : s.c.iss.stage = 0 ∧ s.c.iss.src = none) : MayRelease false s sc := h

/-- A piece of the own scratchpad, and one of DRAM in page 0. -/
def spP (o k : Nat) : Piece := ⟨0xFFFFFFFFFE0000 + o, spadBase + o, k, 0⟩
def drP (a k : Nat) : Piece := ⟨a, a, k, 0x1F⟩
/-- Lookahead of 2. -/
def nL : Ctl := { n with la := 2 }

/-- Registers that point into the own scratchpad and into DRAM. -/
def d1 : State := wg [(1, sp 0), (2, sp 128), (3, 4), (5, 7), (6, 640)] demo
/-- A mask of two lanes, and tile 5 READY with 256 bytes from byte 1024 of the scratchpad. -/
def d2 : State :=
  (d1.modC fun c => { c with regs := { c.regs with k := [(1, 3)] } }).setTile 0 5 { state := 2, dfn := true, base := 8, size := 2 }

theorem wit_LoadResults_scalar :
    Issues d1 n (9 :: 10 :: baseRegs (.reg 1) ⟨0, 0, 8⟩) ∧ NoTraps d1 ∧ OperandAt d1 (.reg 1) ⟨0, 0, 8⟩ 8 0xFFFFFFFFFE0008 ∧
    check d1 0 0 .rd 0xFFFFFFFFFE0008 8 = .ok [spP 8 8] ∧ CanRead d1 [spP 8 8] ∧ ownSpad d1 [spP 8 8] = true ∧
    Issues d1 nL (9 :: 10 :: baseRegs (.reg 6) ⟨3, 3, 0⟩) ∧ OperandAt d1 (.reg 6) ⟨3, 3, 0⟩ 4 672 ∧
    check d1 0 0 .rd 672 4 = .ok [drP 672 4] ∧ ownSpad d1 [drP 672 4] = false ∧ CanRead d1 [drP 672 4] ∧ nL.la ≠ 0 := by
  and_intros <;> first
    | decide +kernel
    | exact issues_of (by decide +kernel)
    | exact ok_of (by decide +kernel)
    | exact noTraps_of (by decide +kernel)
    | exact operand_reg (by decide +kernel)
    | (constructor <;> decide +kernel)

theorem wit_LoadResults_tile :
    Issues d2 n (9 :: 10 :: baseRegs (.tile 5) ⟨0, 0, 240⟩) ∧ check d2 0 0 .rd 0xFFFFFFFFFE04F0 16 = .ok [spP 1264 16] ∧
    CanRead d2 [spP 1264 16] := by
  and_intros <;> first
    | decide +kernel
    | exact issues_of (by decide +kernel)
    | exact ok_of (by decide +kernel)
    | exact noTraps_of (by decide +kernel)
    | exact operand_reg (by decide +kernel)
    | (constructor <;> decide +kernel)
theorem wit_LoadResults_tile_operand : OperandAt d2 (.tile 5) ⟨0, 0, 240⟩ 16 0xFFFFFFFFFE04F0 := operand_tile (by decide +kernel)

theorem wit_LoadResults_vector :
    Issues d2 n (9 :: 10 :: baseRegs (.reg 1) ⟨0, 0, 0⟩) ∧ NoTraps d2 ∧ streamOf d2 (v 1) = none ∧ streamOf d2 (v 2) = none ∧ v 1 ≠ v 2 ∧
    OperandAt d2 (.reg 1) ⟨0, 0, 0⟩ 128 0xFFFFFFFFFE0000 ∧ check d2 0 0 .rd 0xFFFFFFFFFE0000 128 = .ok [spP 0 128] ∧
    check d2 0 0 .rd 0xFFFFFFFFFE0000 64 = .ok [spP 0 64] ∧ CanRead d2 [spP 0 128] ∧
    (let on := (List.range (64 / 4)).filter fun i => (rdK d2 1).getLsbD i
     checkElems d2 .rd (.reg 1) 4 (rdV d2 (v 3)) 0 0 on = .ok [spP 0 4, spP 0 4]) ∧ CanRead d2 [spP 0 4, spP 0 4] ∧
    tileReady d2 0 5 = true := by
  and_intros <;> first
    | decide +kernel
    | exact issues_of (by decide +kernel)
    | exact ok_of (by decide +kernel)
    | exact noTraps_of (by decide +kernel)
    | exact operand_reg (by decide +kernel)
    | (constructor <;> decide +kernel)

theorem wit_StoreResults :
    Issues d2 n (9 :: 10 :: 11 :: baseRegs (.reg 1) ⟨0, 0, 8⟩) ∧ NoTraps d2 ∧ OperandAt d2 (.reg 1) ⟨0, 0, 8⟩ 8 0xFFFFFFFFFE0008 ∧
    check d2 0 0 .wr 0xFFFFFFFFFE0008 8 = .ok [spP 8 8] ∧ overQuota d2 0 0 0 [spP 8 8] = false ∧ CanWrite d2 [spP 8 8] ∧
    check d2 0 0 .wr 0xFFFFFFFFFE0000 128 = .ok [spP 0 128] ∧ check d2 0 0 .wr 0xFFFFFFFFFE0000 64 = .ok [spP 0 64] ∧
    check d2 0 0 .wr 0xFFFFFFFFFE0000 16 = .ok [spP 0 16] ∧ 0xFFFFFFFFFE0000 % 128 = 0 ∧
    streamOf d2 (v 1) = none ∧ streamOf d2 (v 3) = none ∧
    (let on := (List.range (64 / 4)).filter fun i => (rdK d2 1).getLsbD i
     checkElems d2 .wr (.reg 1) 4 (rdV d2 (v 3)) 0 0 on = .ok [spP 0 4, spP 0 4]) ∧
    OperandAt d2 (.reg 6) ⟨0, 0, 0⟩ 128 640 ∧ check d2 0 0 .wr 640 128 = .ok [drP 640 128] ∧ overQuota d2 0 0 0 [drP 640 128] = false ∧
    ownSpad d2 [drP 640 128] = false ∧ nL.la ≠ 0 ∧ CanWrite d2 [drP 640 128] := by
  and_intros <;> first
    | decide +kernel
    | exact issues_of (by decide +kernel)
    | exact ok_of (by decide +kernel)
    | exact noTraps_of (by decide +kernel)
    | exact operand_reg (by decide +kernel)
    | (constructor <;> decide +kernel)

/-- A full word in the own scratchpad. -/
def dFull : State := d1.setFe spadBase true
/-- The word that the full/empty instructions name. -/
theorem feWord_demo (s : State) (a : Acc) (h : okIs (feCheck s a 0xFFFFFFFFFE0000) (spP 0 8) = true)
    (h2 : placeOf s.part spadBase = .spad s.g.toNat) : FeWord s a 0xFFFFFFFFFE0000 spadBase := ⟨⟨0, ok_of h⟩, h2⟩

theorem wit_FullEmptyResults :
    Issues dFull n [9, 1, 0, 3] ∧ NoTraps dFull ∧ dFull.c.iss.wait = none ∧ dFull.fe spadBase = true ∧ (rdG dFull 3).toNat % 2 ^ 40 ≠ 0 ∧
    Issues d1 n [9, 1, 0, 0] ∧ d1.fe spadBase = false ∧ (rdG d1 0).toNat % 2 ^ 40 = 0 ∧
    (rdG d1 1 + ((rdG d1 0 <<< 0) + (0 : BitVec 24).signExtend 64)).toNat % 2 ^ 56 = 0xFFFFFFFFFE0000 := by
  and_intros <;> first
    | decide +kernel
    | exact issues_of (by decide +kernel)
    | exact ok_of (by decide +kernel)
    | exact noTraps_of (by decide +kernel)
theorem wit_FullEmptyResults_word :
    FeWord dFull .rd 0xFFFFFFFFFE0000 spadBase ∧ FeWord d1 .wr 0xFFFFFFFFFE0000 spadBase ∧ FeWord d1 .rd 0xFFFFFFFFFE0000 spadBase :=
  ⟨feWord_demo _ _ (by decide +kernel) (by decide +kernel), feWord_demo _ _ (by decide +kernel) (by decide +kernel),
   feWord_demo _ _ (by decide +kernel) (by decide +kernel)⟩
/-- A thread with nothing outstanding accesses an unmixed word now. -/
theorem feNow_of {s : State} {pa : Nat} (h : s.c.iss.outs = []) (h2 : ∀ i, i < 8 → mixedAt s 8 (pa + i) = false) : FeNow s pa :=
  ⟨h2, by simp [h]⟩
theorem wit_FullEmptyResults_now : FeNow dFull spadBase ∧ FeNow d1 spadBase :=
  ⟨feNow_of (by decide +kernel) (by decide +kernel), feNow_of (by decide +kernel) (by decide +kernel)⟩

/-- Offsets and sizes for TDEF. -/
def dT : State := wg [(1, 130944), (2, 128), (3, 129), (4, 131073)] d2

theorem wit_TileTable :
    Issues dT n [9, 1, 2] ∧ (rdG dT 1).toNat % 128 = 0 ∧ (rdG dT 2).toNat % 128 = 0 ∧ 128 ≤ (rdG dT 2).toNat ∧
    (rdG dT 1).toNat + (rdG dT 2).toNat ≤ 131072 ∧ (dT.tile 0 0).state = 0 ∧ (rdG dT 3).toNat % 128 ≠ 0 ∧ 131072 < (rdG dT 4).toNat ∧
    131072 < (rdG dT 1).toNat + (rdG dT 1).toNat ∧ (rdG dT 0).toNat < 128 ∧ (dT.tile 0 5).state ≠ 0 ∧ (dT.tile 0 5).state = 2 ∧
    dT.c.iss.wait = none := by
  and_intros <;> first
    | decide +kernel
    | exact issues_of (by decide +kernel)

theorem wit_LineInstructions :
    Issues d1 n [9, 1, 0] ∧ NoTraps d1 ∧ check d1 0 0 .rd 0xFFFFFFFFFE0000 1 = .ok [spP 0 1] ∧
    Issues d1 nL [9, 6, 0] ∧ check d1 0 0 .rd 640 1 = .ok [drP 640 1] ∧ ownSpad d1 [drP 640 1] = false := by
  and_intros <;> first
    | decide +kernel
    | exact issues_of (by decide +kernel)
    | exact ok_of (by decide +kernel)
    | exact noTraps_of (by decide +kernel)

/-- A load outstanding; jobs 1 and 2 of timeline 1 done, job 2 failed. -/
def dOut : State := d1.modC fun c => { c with iss := { c.iss with
  outs := [{ id := 0, i := .ld nL .d false 9 (.reg 6) ⟨0, 0, 0⟩, src := { ps := [drP 640 8] }, pc := 0, left := 2 }] } }
def dTl : State := (d1.setTl 0 1 { issued := 4, done := 2 }).modC fun c => { c with failures := [(1, 2)] }

theorem wit_OrderingInstructions :
    Issues d1 n [9, 10] ∧ d1.c.iss.wait = none ∧ CanRelease d1 .die ∧ CanRelease d1 .system ∧ accessesOut d1 = false ∧
    Issues dOut n [9, 10] ∧ dOut.c.iss.wait = none ∧ accessesOut dOut = true ∧ dOut.c.iss.stage = 0 ∧
    Issues dTl n [9, 5] ∧ Issues dTl n [9, 0] ∧ (rdG dTl 0).toNat ≤ (dTl.tl 0 1).done ∧ failureUpTo dTl.c 1 (rdG dTl 0).toNat = none ∧
    (let s := wg [(5, 2)] dTl
     Issues s n [9, 5] ∧ (rdG s 5).toNat ≤ (s.tl 0 1).done ∧ failureUpTo s.c 1 (rdG s 5).toNat = some 2) ∧
    (dTl.tl 0 1).done < (rdG dTl 3).toNat := by
  and_intros <;> first
    | decide +kernel
    | exact issues_of (by decide +kernel)
    | exact ok_of (by decide +kernel)
    | exact noTraps_of (by decide +kernel)
    | exact operand_reg (by decide +kernel)
    | (constructor <;> decide +kernel)

theorem wit_StrongAccesses :
    Issues d1 n [9, 6, 10, 0] ∧ NoTraps d1 ∧ (Size.d, 8) ∈ [(Size.b, 1), (Size.h, 2), (Size.w, 4), (Size.d, 8), (Size.q, 16)] ∧
    640 % 16 = 0 ∧ check d1 0 0 .rd 640 8 = .ok [drP 640 8] ∧ check d1 0 0 .rd 640 16 = .ok [drP 640 16] ∧ CanRead d1 [drP 640 16] ∧
    mixTrap d1 0 16 [drP 640 16] = none ∧ Issues d1 nL [9, 6, 10, 0] ∧ ownSpad d1 [drP 640 16] = false ∧
    check d1 0 0 .wr 640 8 = .ok [drP 640 8] ∧ MayRelease true d1 .die ∧ MayRelease false d1 .die ∧
    (∀ o ∈ (released d1 .die).c.iss.outs, o.trap = none) ∧ CanWrite (released d1 .die) [drP 640 8] ∧ CanWrite d1 [drP 640 8] ∧
    mixTrap (released d1 .die) 0 8 [drP 640 8] = none ∧ leesRoom (released d1 .die) (pieceCells [drP 640 8] (bytesOf 8 7)) = true ∧
    ownSpad (released d1 .die) [drP 640 8] = false := by
  and_intros <;> first
    | decide +kernel
    | exact issues_of (by decide +kernel)
    | exact ok_of (by decide +kernel)
    | exact noTraps_of (by decide +kernel)
    | exact operand_reg (by decide +kernel)
    | (constructor <;> decide +kernel)

theorem wit_AtomicResults :
    Issues d1 n [8, 6, 10, 0] ∧ Issues d1 nL [8, 6, 10, 0] ∧ MayRelease true d1 .die ∧ MayRelease false d1 .die ∧
    (∀ o ∈ (afterRelease true d1 .die).c.iss.outs, o.trap = none) ∧ (∀ o ∈ (afterRelease false d1 .die).c.iss.outs, o.trap = none) ∧
    [drP 640 8].any (nonCoherent d1) = false ∧ CanModify (afterRelease true d1 .die) 8 [drP 640 8] ∧
    CanModify (afterRelease false d1 .die) 8 [drP 640 8] ∧ CanModify (afterRelease false d1 .die) 16 [drP 640 16] ∧
    CanModify (afterRelease false d1 .die) 4 [drP 640 4] ∧ CanModify d1 8 [spP 0 8] ∧ check d1 0 0 .wr 640 4 = .ok [drP 640 4] ∧
    check d1 0 0 .wr 640 8 = .ok [drP 640 8] ∧ check d1 0 0 .wr 640 16 = .ok [drP 640 16] ∧ 640 % 16 = 0 ∧
    noHost d1 .wr [drP 640 8] = none ∧ (8 : GReg).getLsbD 0 = false ∧ (10 : GReg).getLsbD 0 = false ∧ ownSpad d1 [drP 640 8] = false := by
  and_intros <;> first
    | decide +kernel
    | exact issues_of (by decide +kernel)
    | exact ok_of (by decide +kernel)
    | exact noTraps_of (by decide +kernel)
    | exact operand_reg (by decide +kernel)
    | (constructor <;> decide +kernel)

/-- Line 5 is an accumulator line with a header. -/
def dAcc (h : Word) : State := { d1 with coh := { d1.coh with hdr := [(5, h)] } }

theorem wit_FloatReductions :
    Issues (dAcc 4) n [5, 6, 0] ∧ MayRelease true (dAcc 4) .die ∧ MayRelease false (dAcc 4) .die ∧ noHost (dAcc 4) .wr [drP 640 4] = none ∧
    (∀ o ∈ (afterRelease true (dAcc 4) .die).c.iss.outs, o.trap = none) ∧ check (dAcc 4) 0 0 .wr 640 4 = .ok [drP 640 4] ∧
    CanUpdate (afterRelease true (dAcc 4) .die) .add .die 0 (drP 640 4) ∧ CanUpdate (afterRelease false (dAcc 4) .core) .add .core 0 (drP 640 4) ∧
    Issues (dAcc 28) nL [5, 6, 0] ∧ check (dAcc 28) 0 0 .wr 640 8 = .ok [drP 640 8] ∧
    CanUpdate (afterRelease false (dAcc 28) .module) .min .module 0 (drP 640 8) ∧ ownSpad (dAcc 28) [drP 640 8] = false ∧
    streamOf (dAcc 4) (v 1) = none ∧ check (dAcc 4) 0 0 .wr 640 64 = .ok [drP 640 64] ∧ check (dAcc 4) 0 0 .wr 640 128 = .ok [drP 640 128] ∧
    CanUpdate (afterRelease false (dAcc 4) .die) .add .die 16 (drP 640 64) ∧ CanUpdate (afterRelease false (dAcc 4) .die) .add .die 32 (drP 640 128) ∧
    noHost (dAcc 4) .wr [drP 640 64] = none ∧ 640 % (4 * 32) = 0 := by
  and_intros <;> first
    | decide +kernel
    | exact issues_of (by decide +kernel)
    | exact ok_of (by decide +kernel)
    | exact noTraps_of (by decide +kernel)
    | exact operand_reg (by decide +kernel)
    | (constructor <;> decide +kernel)

/-- A chain of two links on line 5; the core's link is 0 or 1. -/
def dChain (link : BitVec 12) : State := (dAcc (4 + 64 + 2 * 2 ^ 26)).setBind 0 0 (some { lid := 1, lcore := link })

/-- An update of the line is outstanding. -/
def dUpd : State := (dChain 0).modC fun c => { c with iss := { c.iss with
  outs := [{ id := 0, i := .red nL false (.flt false .add) .core 5 6 ⟨0, 0, 0⟩, src := { ps := [drP 640 4] }, pc := 0, left := 2 }] } }

theorem wit_Accumulators_lines :
    Issues d1 n [9, 6, 10, 0] ∧ NoTraps d1 ∧ checkRange d1 640 1 = .ok [drP 640 128] ∧ checkRange d1 640 2 = .ok [drP 640 128, drP 768 128] ∧
    notDram d1 .wr [drP 640 128, drP 768 128] = none ∧ linesRoom d1 [drP 640 128, drP 768 128] = true ∧ badChain 0x20000 = false ∧
    Issues d1 nL [9, 6, 10, 0] ∧ ownSpad d1 [drP 640 128] = false ∧
    Issues (dAcc 4) n [9, 6, 10, 0] ∧ NoTraps (dAcc 4) ∧ isAcc (dAcc 4) 640 = true ∧ CanRead (dAcc 4) [drP 640 1] ∧
    check (dAcc 4) 0 0 .rd 640 1 = .ok [drP 640 1] ∧ streamOf (dAcc 4) (v 1) = none ∧ streamOf (dAcc 4) (v 2) = none ∧
    check (dAcc 4) 0 0 .rd 640 8 = .ok [drP 640 8] ∧ check (dAcc 4) 0 0 .wr 640 8 = .ok [drP 640 8] ∧ CanRead (dAcc 4) [drP 640 8] ∧
    check (dAcc 4) 0 0 .rd 640 128 = .ok [drP 640 128] ∧ check (dAcc 4) 0 0 .wr 640 128 = .ok [drP 640 128] ∧ CanRead (dAcc 4) [drP 640 128] ∧
    hdrElem (tget 0 (tlbFill (recallLines (dAcc 4) [drP 640 8]) 0 0 (drP 640 8)).coh.hdr 5) ≤ 8 ∧
    hdrChain (tget 0 (tlbFill (recallLines (dChain 0) [drP 640 128]) 0 0 (drP 640 128)).coh.hdr 5) = true ∧ CanRead (dChain 0) [drP 640 128] ∧
    isAcc (dChain 0) 640 = true ∧ check (dChain 0) 0 0 .wr 640 128 = .ok [drP 640 128] := by
  and_intros <;> first
    | decide +kernel
    | exact issues_of (by decide +kernel)
    | exact ok_of (by decide +kernel)
    | exact noTraps_of (by decide +kernel)
    | exact operand_reg (by decide +kernel)
    | (constructor <;> decide +kernel)

theorem wit_Accumulators_ranges :
    Issues (dChain 0) n [6, 3] ∧ NoTraps (dChain 0) ∧ (dChain 0).c.iss.wait = none ∧ checkRange (dChain 0) 640 1 = .ok [drP 640 128] ∧
    (dChain 0).c.iss.outs = [] ∧ chainTrap (dChain 0) [drP 640 128] = none ∧ chainTrap (dChain 1) [drP 640 128] = none ∧
    (let applied (t : State) (q : Piece) : Bool := inOrder t (.acchain n 1 6 3 ⟨0, 0⟩) { ps := [q] }
     (chainLines 0 applied (dChain 0) [drP 640 128]).2 = .all ∧ (chainLines 1 applied (dChain 1) [drP 640 128]).2 = .turn 5 ∧
     (chainLines 0 applied dUpd [drP 640 128]).2 = .updates 5) ∧
    (∀ o ∈ dUpd.c.iss.outs, isRed o.i = false → goesFirst dUpd o (.acchain n 1 6 3 ⟨0, 0⟩) { ps := [drP 640 128] } = false) ∧
    checkRange (dChain 1) 640 1 = .ok [drP 640 128] ∧ (dChain 1).b.lcore = 1 ∧
    (∀ q ∈ [drP 640 128], isRemote (dAcc 4) q = false) ∧ spadDenied (dAcc 4) .wr [drP 640 128] = none ∧
    lostIn (dAcc 4) ([drP 640 128].filter fun q => isAcc (dAcc 4) q.pa) = none ∧
    Issues (dAcc 4) n [6, 7] ∧ (let s := wg [(6, 640), (7, 1024)] (dAcc 4)
     Issues s n [6, 7] ∧ NoTraps s ∧ areaOverlaps 640 1024 1 = false ∧ (rdG s 7).toNat = 1024 ∧ 1024 % 128 = 0 ∧
       checkRange s 640 1 = .ok [drP 640 128] ∧
       checkRuns s 0 0 .wr (areaRuns 1024 1) = .ok [drP 1024 128, drP 1152 8] ∧ notDram s .wr [drP 1024 128, drP 1152 8] = none ∧
       spadDenied s .wr [drP 640 128] = none ∧ accIn s [drP 1024 128, drP 1152 8] = false ∧ lostIn s [drP 640 128] = none ∧
       linesRoom s [drP 1024 128, drP 1152 8] = true ∧ notDram s .wr [drP 640 128] = none ∧
       checkRuns s 0 0 .rd (areaRuns 1024 1) = .ok [drP 1024 128, drP 1152 8] ∧ notDram s .rd [drP 1024 128, drP 1152 8] = none ∧
       lostIn s [drP 1024 128, drP 1152 8] = none ∧ linesRoom (recallLines s [drP 1024 128, drP 1152 8]) [drP 640 128] = true ∧
       (∀ e ∈ ckptLines { ps := [drP 640 128], qs := [drP 1024 128, drP 1152 8] },
         wordOfBytes (homeBytes (recallLines s [drP 1024 128, drP 1152 8]) 0 [e.2.2]) = 0)) := by
  and_intros <;> first
    | decide +kernel
    | exact issues_of (by decide +kernel)
    | exact ok_of (by decide +kernel)
    | exact noTraps_of (by decide +kernel)

/-- A state with n-byte numbers placed in memory. -/
def pokeD (l : List (Nat × Nat)) (s : State) : State := s.poke (l.flatMap fun e => cellsOf e.1 8 e.2)
/-- A message to the demo context. -/
def msg (hi line : Bool) : Msg := ⟨0, 0, 0, 0, hi, line, [], false, 0, false⟩
/-- The demo state with mail in the core's mailbox. -/
def withMail (l : List Msg) : State := d1.modCore 0 fun c => { c with mail := l }

theorem wit_Messages :
    Issues d1 n [9, 5, 0] ∧ d1.c.iss.wait = none ∧ NoTraps d1 ∧ streamOf d1 (v 1) = none ∧ streamOf d1 (v 2) = none ∧
    (∀ x ∈ (d1.core d1.g.toNat).mail, x.dst = d1.c.tid → x.line ≠ true) ∧ (rdG d1 0).toNat % 2 ^ 40 = 0 ∧ (rdG d1 3).toNat % 2 ^ 40 ≠ 0 ∧
    (rdG d1 5).toNat < 2 ^ 32 ∧ tidCore ((rdG d1 5).setWidth 32) < d1.part.dies * 512 ∧
    MayRelease true d1 (pairScope d1.g.toNat (tidCore ((rdG d1 5).setWidth 32))) ∧
    MayRelease false d1 (pairScope d1.g.toNat (tidCore ((rdG d1 5).setWidth 32))) ∧
    (let s := withMail [msg false true, msg false false, msg true true]
     Issues s n [9, 5, 0] ∧ s.c.iss.wait = none ∧ NoTraps s ∧ streamOf s (v 1) = none) := by
  and_intros <;> first
    | decide +kernel
    | exact issues_of (by decide +kernel)
    | exact ok_of (by decide +kernel)
    | exact noTraps_of (by decide +kernel)
    | exact operand_reg (by decide +kernel)
    | (constructor <;> decide +kernel)
theorem wit_Messages_next :
    NextMessage (withMail [msg false true, msg false false, msg true true]) true 2 (msg true true) ∧
    NextMessage (withMail [msg false true, msg false false, msg true true]) false 1 (msg false false) := by
  refine ⟨⟨by decide +kernel, by decide +kernel, ?_, by decide +kernel⟩, ⟨by decide +kernel, by decide +kernel, ?_, by decide +kernel⟩⟩
  · intro j x hj hx
    match j, hj with
    | 0, _ => cases hx; decide +kernel
    | 1, _ => cases hx; decide +kernel
  · intro j x hj hx
    match j, hj with
    | 0, _ => cases hx; decide +kernel

/-- A barrier object on line 5: scope die, chunk count 3, expecting 2 arrivals; chunk 1 done. -/
def dObj (w0 w1 w2 : Nat) : State := pokeD [(640, w0), (648, w1), (656, w2)] (wg [(1, sp 0), (2, 3 + 256), (3, 2), (5, 7), (6, 640)] demo)

theorem wit_ObjectsAndSleep_object :
    (let s := dObj (3 * 2 ^ 56 + 2 ^ 48 + 3 * 2 ^ 32 + 2) 2 2
     Issues s n [9, 6, 3, 2, 5] ∧ Issues s nL [9, 6, 3, 2, 0] ∧ s.c.iss.wait = none ∧ NoTraps s ∧ checkObj s .wr (rdG s 6) = .ok [drP 640 128] ∧
     CanUse s .wr [drP 640 128] ∧ objRoom s [drP 640 128] = true ∧ checkObj s .rd (rdG s 6) = .ok [drP 640 128] ∧ CanUse s .rd [drP 640 128] ∧
     ownSpad s [drP 640 128] = false ∧ rdG s 3 = BitVec.ofNat 64 2 ∧ rdG s 2 = BitVec.ofNat 64 (3 + 256 * 1) ∧
     scopeOk (objScope (objBytes s [drP 640 128])) = true ∧ scopeOfNat (objScope (objBytes s [drP 640 128])) = .die ∧ MayRelease true s .die ∧
     MayRelease false s .die ∧ CanUse (released s .die) .wr [drP 640 128] ∧ objRoom (released s .die) [drP 640 128] = true ∧
     (∀ o ∈ (released s .die).c.iss.outs, o.trap = none) ∧ objExpect (objBytes s [drP 640 128]) ≤ objArrived (objBytes s [drP 640 128]) ∧
     (rdG s 5).toNat % 2 ^ 40 ≠ 0 ∧ (rdG s 0).toNat % 2 ^ 40 = 0 ∧ (rdG s 3).toNat % 64 < objNchunk (objBytes s [drP 640 128]) ∧
     (dwordAt (objBytes s [drP 640 128]) 2).getLsbD 1 = true ∧ (dwordAt (objBytes s [drP 640 128]) 2).getLsbD 2 = false ∧
     1 < objNchunk (objBytes s [drP 640 128])) ∧
    (let s := dObj (3 * 2 ^ 56 + 2 ^ 48 + 3 * 2 ^ 32 + 2) 1 2
     checkObj s .rd (rdG s 6) = .ok [drP 640 128] ∧ CanUse s .rd [drP 640 128] ∧
     ¬ objExpect (objBytes s [drP 640 128]) ≤ objArrived (objBytes s [drP 640 128])) ∧
    (let s := dObj (2 ^ 34) 0 0
     checkObj s .wr (rdG s 6) = .ok [drP 640 128] ∧ CanUse s .wr [drP 640 128] ∧ objRoom s [drP 640 128] = true ∧
     bit (dwordAt (objBytes s [drP 640 128]) 0) 34 = true) ∧
    (let s := dObj 0 0 0
     checkObj s .wr (rdG s 6) = .ok [drP 640 128] ∧ CanUse s .wr [drP 640 128] ∧ objRoom s [drP 640 128] = true ∧
     bit (dwordAt (objBytes s [drP 640 128]) 0) 34 = false) := by
  and_intros <;> first
    | decide +kernel
    | exact issues_of (by decide +kernel)
    | exact ok_of (by decide +kernel)
    | exact noTraps_of (by decide +kernel)
    | exact operand_reg (by decide +kernel)
    | (constructor <;> decide +kernel)

theorem wit_ObjectsAndSleep_store :
    (let s := dObj (3 * 2 ^ 56 + 2 ^ 48 + 3 * 2 ^ 32 + 2) 2 2
     Issues s n [9, 1, 0, 6, 3] ∧ addrG s 1 ⟨0, 0, 8⟩ = 0xFFFFFFFFFE0008 ∧ 0xFFFFFFFFFE0008 % 8 = 0 ∧
     check s 0 0 .wr 0xFFFFFFFFFE0008 8 = .ok [spP 8 8] ∧ placeOf s.part (spP 8 8).pa = .spad 0 ∧
     checkObj s .wr (rdG s 6) = .ok [drP 640 128] ∧ CanUse s .wr [drP 640 128] ∧ CanWrite s [spP 8 8] ∧
     (rdG s 3).toNat % 64 < objNchunk (objBytes s [drP 640 128]) ∧ mixTrap s 0 8 [spP 8 8] = none ∧
     leesRoom s (pieceCells [spP 8 8] (bytesOf 8 7)) = true ∧ ownSpad s ([spP 8 8] ++ [drP 640 128]) = false) ∧
    min ((rdG d1 0).toNat % 2 ^ 40 + (0 : BitVec 40).toNat) (2 ^ 40 - 1) = 0 ∧
    min ((rdG d1 5).toNat % 2 ^ 40 + (3 : BitVec 40).toNat) (2 ^ 40 - 1) ≠ 0 := by
  and_intros <;> first
    | decide +kernel
    | exact issues_of (by decide +kernel)
    | exact ok_of (by decide +kernel)
    | exact noTraps_of (by decide +kernel)
    | exact operand_reg (by decide +kernel)
    | (constructor <;> decide +kernel)

/-- A launch record of core 0 with number 0 whose dword 3 is d3; the demo context's launch. -/
def withLaunch (d3 : Word) (s : State) : State := { s with launches := [{ lid := 0, tenant := 0, words := [0, 0, 0, d3] }] }
/-- The demo core's state for its launch. -/
def withBind (b : Bind) (s : State) : State := s.setBind 0 0 (some b)
/-- The demo context's task. -/
def withTask (t : Task) (s : State) : State := s.modC fun c => { c with task := t }
/-- A task entry. -/
def entry : TaskEntry := { kind := .forked, pc := 0, task := {} }

theorem wit_LaunchForkJoin_launch :
    Issues d1 n [9, 6, 5] ∧ d1.c.iss.wait = none ∧ (∀ o ∈ (released d1 .module).c.iss.outs, o.trap = none) ∧ CanRelease d1 .module ∧
    (rdG d1 6).toNat % 128 = 0 ∧ check d1 0 0 .rd 640 256 = .ok [drP 640 256] ∧ CanRead (released d1 .module) [drP 640 256] ∧
    bit ((released d1 .module).cfgAt (lqCtl 0)) 32 = false ∧ Issues d1 nL [9, 6, 5] ∧ ownSpad (released d1 .module) [drP 640 256] = false ∧
    (let s := d1.setCfg (lqCtl 0) (2 ^ 32 + 1)
     let u := released s .module
     Issues s n [9, 6, 5] ∧ (∀ o ∈ u.c.iss.outs, o.trap = none) ∧ CanRelease s .module ∧ check s 0 0 .rd 640 256 = .ok [drP 640 256] ∧
     CanRead u [drP 640 256] ∧ bit (u.cfgAt (lqCtl 0)) 32 = true ∧ lqPending u 0 < lqSize u 0 ∧
     leesRoom u (cellsAt (lqSlot u 0 0) (objBytes u [drP 640 256])) = true) := by
  and_intros <;> first
    | decide +kernel
    | exact issues_of (by decide +kernel)
    | exact ok_of (by decide +kernel)
    | exact noTraps_of (by decide +kernel)
    | exact operand_reg (by decide +kernel)
    | (constructor <;> decide +kernel)

theorem wit_LaunchForkJoin_fork :
    Issues d1 n [9, 6, 5] ∧ checkTarget d1 ((0x10041 : CodeAddr).setWidth 64) = .ok 0x10041 ∧ ownCounter d1 = .ok [] ∧
    d1.b.deque.length < spawnLimit d1 ∧ objTrap .wr 1 [] d1 = none ∧
    (let s := withTask { jctr := 640 } (withLaunch 0 d1)
     Issues s n [9, 6, 5] ∧ checkTarget s ((0x10041 : CodeAddr).setWidth 64) = .ok 0x10041 ∧ ownCounter s = .ok [drP 640 16] ∧
     spawnLimit s ≤ s.b.deque.length ∧ objTrap .wr 1 [drP 640 16] s = none ∧ objRoom s [drP 640 16] = true) := by
  and_intros <;> first
    | decide +kernel
    | exact issues_of (by decide +kernel)
    | exact ok_of (by decide +kernel)

theorem wit_LaunchForkJoin_join :
    Issues d1 n [9, 0, 5] ∧ rdG d1 0 = 0 ∧ rdG d1 6 ≠ 0 ∧ checkCounter d1 .wr (rdG d1 6) = .ok [drP 640 16] ∧ spadDenied d1 .wr [drP 640 16] = none ∧
    accIn d1 [drP 640 16] = false ∧ objRoom d1 [drP 640 16] = true ∧ checkCounter d1 .rd (rdG d1 6) = .ok [drP 640 16] ∧
    objTrap .rd 1 [drP 640 16] d1 = none ∧ (dwordAt (objBytes d1 [drP 640 16]) 0).toInt ≤ 0 ∧ (rdG d1 0).toNat % 2 ^ 40 = 0 ∧
    (let s := pokeD [(640, 3)] d1
     Issues s n [9, 6, 5] ∧ s.c.iss.wait = none ∧ checkCounter s .rd (rdG s 6) = .ok [drP 640 16] ∧ objTrap .rd 1 [drP 640 16] s = none ∧
     0 < (dwordAt (objBytes s [drP 640 16]) 0).toInt ∧ (rdG s 5).toNat % 2 ^ 40 ≠ 0) := by
  and_intros <;> first
    | decide +kernel
    | exact issues_of (by decide +kernel)
    | exact ok_of (by decide +kernel)

/-- Register 8 holds the address of a record, register 9 a mask of registers; core 0 runs launch 0. -/
def dRec : State := withBind { lid := 0 } (wg [(6, 640), (8, 1024), (9, 14)] demo)

/-- A join counter on an accumulator line, with a handler at 4096. -/
def dAccLine : State :=
  let s := dRec.modC fun c => { c with trap := { c.trap with tvec := 4096 } }
  { s with coh := { s.coh with hdr := tset 0 s.coh.hdr (lineOf 640) 1 } }

-- R94, R232, R280, R423: the home detects the line, the JINIT is withdrawn, and TRES is the instruction after it.
theorem test_jinit_traps_at_its_home :
    (match exec (.jinit n 6 9) dAccLine with
     | .next s => s.c.trap.code == 2 && s.c.trap.tval == 9 && s.c.trap.tepc == 0 && s.c.trap.tres == 1 && s.c.withdrawn.length == 1
     | _ => false) = true := by decide +kernel

theorem wit_TaskEndsAndQueues_ends :
    Issues dOut n [8, 9, 0] ∧ dOut.c.iss.outs ≠ [] ∧ Issues dRec n [8, 9, 0] ∧ dRec.c.iss.outs = [] ∧ ownCounter dRec = .ok [] ∧
    CanRelease dRec dRec.domain ∧ objTrap .wr 1 [] (released dRec dRec.domain) = none ∧
    (let s := withTask { jctr := 640 } (withLaunch 0 dRec)
     let u := released s s.domain
     Issues s n [8, 9, 0] ∧ ownCounter s = .ok [drP 640 16] ∧ CanRelease s s.domain ∧ objTrap .wr 1 [drP 640 16] u = none ∧
     objRoom u [drP 640 16] = true ∧ ((countJoin u s.domain [drP 640 16] (-1) 0).launch? 0).isSome = true) ∧
    (let u := released dRec dRec.domain
     (∀ z ∈ suspendUses (.tl 9 1), isPort dRec z.reg = false) ∧ (∀ z ∈ suspendUses (.bar 6), isPort dRec z.reg = false) ∧
     (maskRegs (rdG dRec 9 &&& ~~~(1 : Word))).length ≤ 16 ∧ checkRecord dRec (rdG dRec 8) = .ok [drP 1024 256] ∧
     checkCond dRec .plain = .ok [] ∧ okIs (checkCond dRec (.tl 9 1)) [] = true ∧ checkCond dRec (.bar 6) = .ok [drP 640 128] ∧
     objTrap .rd 3 [] u = none ∧ objTrap .rd 3 [drP 640 128] u = none ∧
     spadDenied u .wr [drP 1024 256] = none ∧ accIn u [drP 1024 256] = false ∧ objRoom u [drP 1024 256] = true) ∧
    addrG dRec 6 ⟨0, 0, 0⟩ = 640 ∧ pieceOf dRec 0 0 .none (640, 1) = .ok (drP 640 1) ∧ ownerOf dRec 640 = some 13 ∧
    (let s := dRec.setBind 13 0 (some { lid := 0 })
     Issues s n [8, 9, 0] ∧ s.c.iss.outs = [] ∧ pieceOf s 0 0 .none (640, 1) = .ok (drP 640 1) ∧ ownerOf s 640 = some 13 ∧ ownsLaunch s 13 = true ∧
     CanRelease s (pairScope 0 13)) := by
  and_intros <;> first
    | decide +kernel
    | exact issues_of (by decide +kernel)
    | exact ok_of (by decide +kernel)
    | exact noTraps_of (by decide +kernel)
    | exact operand_reg (by decide +kernel)
    | (constructor <;> decide +kernel)

theorem wit_TaskEndsAndQueues_resume :
    checkRecord dRec (rdG dRec 8) = .ok [drP 1024 256] ∧ objTrap .wr 1 [drP 1024 256] dRec = none ∧
    (dwordAt (objBytes (recallLines dRec [drP 1024 256]) [drP 1024 256]) 1).toNat % 4 ≠ 1 ∧
    (let s := pokeD [(1032, 1)] dRec
     let v := recallLines s [drP 1024 256]
     let d := dwordAt (objBytes v [drP 1024 256]) 1
     Issues s n [8, 9, 0] ∧ checkRecord s (rdG s 8) = .ok [drP 1024 256] ∧ objTrap .wr 1 [drP 1024 256] s = none ∧
     d.toNat % 4 = 1 ∧ d.toNat / 2 ^ 12 % 2 ^ 16 = s.c.task.lid % 2 ^ 16 ∧ objRoom v [drP 1024 256] = true) := by
  and_intros <;> first
    | decide +kernel
    | exact issues_of (by decide +kernel)
    | exact ok_of (by decide +kernel)

/-- The core's park slots of launch 0 are in use. -/
def fullPark (s : State) : State := s.modCore 0 fun c => { c with parked := (List.range 16).map fun i => ⟨i, {}, true, false, 0⟩ }

theorem wit_TaskEndsAndQueues_priorities :
    Issues d1 n [9, 3] ∧ (let s := wg [(3, 2)] d1
     Issues s n [9, 3] ∧ rdG s 3 = (2 : BitVec 2).setWidth 64) ∧ 4 ≤ (rdG d1 3).toNat ∧
    (let s := withBind { lid := 0, deque := [entry] } d1
     Issues s n [9, 3] ∧ freePark s 0 0 = some 0 ∧ ((readyPris s 0 0).any fun r => decide (s.c.task.pri.toNat ≤ r)) = true ∧
     freePark (fullPark d1) 0 0 = none) ∧
    ((readyPris d1 0 0).any fun r => decide (d1.c.task.pri.toNat ≤ r)) = false := by
  and_intros <;> first
    | decide +kernel
    | exact issues_of (by decide +kernel)

/-! Vectors -/

theorem groups_of {s : State} {m : Nat} {rs : List VReg}
    (h : (rs.all fun r => decide (r.idx.toNat % m = 0) && (List.range m).all fun i => (streamOf s (nextVReg r i)).isNone) = true) : Groups s m rs := by
  intro r hr
  have := List.all_eq_true.mp h r hr
  simp only [Bool.and_eq_true, decide_eq_true_eq, List.all_eq_true, List.mem_range, Option.isNone_iff_eq_none] at this
  exact this

theorem wit_VectorFloat : Issues d2 n [] ∧ isFp .bf16 = true ∧ Groups d2 1 [v 1, v 2, v 3, v 5] ∧ Groups d2 4 [v 0, v 4, v 8, v 12] :=
  ⟨issues_of (by decide +kernel), by decide, groups_of (by decide +kernel), groups_of (by decide +kernel)⟩
theorem wit_VectorIntegerAndMasks : Issues d2 n [5] ∧ Groups d2 2 [v 2, v 4, v 6, v 8] ∧ 512 * 2 / lanesBits .i16 ≤ 64 ∧ (0 : BitVec 2) ≠ 3 :=
  ⟨issues_of (by decide +kernel), groups_of (by decide +kernel), by decide, by decide⟩
theorem wit_VectorConvert :
    Issues d2 n [5] ∧ 1 * 512 / 16 * 32 / 512 ≤ 4 ∧ Groups d2 1 [v 1] ∧ Groups d2 2 [v 2] ∧
    partOverlap ⟨0, v 2, true, 32, 2⟩ ⟨1, v 1, false, 16, 1⟩ = false ∧ Groups d2 1 [v 1, v 2] :=
  ⟨issues_of (by decide +kernel), by decide, groups_of (by decide +kernel), groups_of (by decide +kernel), by decide +kernel,
   groups_of (by decide +kernel)⟩
theorem wit_VectorReductions : Issues d2 n [5] ∧ repDone d2 = 0 ∧ Groups d2 1 [v 1, v 2, v 3] :=
  ⟨issues_of (by decide +kernel), by decide +kernel, groups_of (by decide +kernel)⟩

/-! Streams, special functions, random numbers -/

/-- Stream register v28 of the demo context. -/
def withStream (x : Stream) (s : State) : State := setStream s (v 28) x
/-- A running stream of two words; the bytes of its elements are read ahead, or two stores may be pushed. -/
def strR : Stream := { st := .running, size := 2, base := 640, n := [2, 1, 1, 1], stride := [4, 0, 0, 0], left := 2
                       ahead := [.ok 640 [drP 640 4] [1, 0, 0, 0], .ok 644 [drP 644 4] [2, 0, 0, 0]] }
def strW : Stream := { strR with wr := true, ahead := [] }

theorem wit_Streams_registers :
    Issues d1 n [9, 6] ∧ isStreamReg (v 28) = true ∧ sfuStores d1 = [] ∧ (d1.stream (v 28)).st = .unconfigured ∧
    (rdG d1 6).toNat % 64 = 0 ∧ check d1 0 0 .rd 640 64 = .ok [drP 640 64] ∧ CanRead d1 [drP 640 64] ∧ d1.c.iss.outs = [] ∧
    (let s := pokeD [(640, 4096), (648, 2 + 2 ^ 32), (656, 1 + 2 ^ 32)] d1
     let d := dwordAt (readBytes s [drP 640 64])
     Issues s n [9, 6] ∧ sfuStores s = [] ∧ check s 0 0 .rd 640 64 = .ok [drP 640 64] ∧ CanRead s [drP 640 64] ∧ s.c.iss.outs = [] ∧
     (d 0).toNat < 2 ^ 56 ∧ d 7 = 0 ∧
     0 < [(d 1).toNat % 2 ^ 32, (d 1).toNat / 2 ^ 32, (d 2).toNat % 2 ^ 32, (d 2).toNat / 2 ^ 32].foldl (· * ·) 1 ∧
     [(d 1).toNat % 2 ^ 32, (d 1).toNat / 2 ^ 32, (d 2).toNat % 2 ^ 32, (d 2).toNat / 2 ^ 32].foldl (· * ·) 1 < 2 ^ 40) ∧
    (let s := withStream strR d1
     Issues s n [9, 6] ∧ sfuStores s = [] ∧ (s.stream (v 28)).st ≠ .unconfigured) ∧
    (let s := (withStream strW d1).modCore 0 fun c => { c with eng := { c.eng with
       sfuQ := [⟨0, 0, 9, true, .vexp n (v 28) (v 2) 0 ⟨false, 0⟩, v 28, 0, 0, some [(0, [drP 640 4])]⟩] } }
     Issues s n [9, 6] ∧ sfuStores s ≠ [] ∧ (s.stream (v 28)).st ≠ .unconfigured) := by
  and_intros <;> first
    | decide +kernel
    | exact issues_of (by decide +kernel)
    | exact ok_of (by decide +kernel)
    | (constructor <;> decide +kernel)

theorem wit_Streams_operands :
    (let s := withStream strR d1
     Issues s n [] ∧ Groups s 1 [v 1] ∧ streamOf s (v 28) = some (s.stream (v 28)) ∧ (s.stream (v 28)).st = .running ∧
     8 * 2 ^ (s.stream (v 28)).size.toNat = 32 ∧ 0 < (s.stream (v 28)).left ∧ (s.stream (v 28)).wr = false ∧ min 16 (s.stream (v 28)).left = 2 ∧
     (s.stream (v 28)).ahead[0]? = some (.ok 640 [drP 640 4] [1, 0, 0, 0]) ∧ (s.stream (v 28)).ahead[1]? = some (.ok 644 [drP 644 4] [2, 0, 0, 0])) ∧
    (let s := withStream { strR with n := [20, 1, 1, 1], left := 20, ahead := List.replicate 16 (.ok 640 [drP 640 4] [1, 0, 0, 0]) } d1
     Issues s n [] ∧ streamOf s (v 28) = some (s.stream (v 28)) ∧ 16 < (s.stream (v 28)).left) ∧
    (let s := withStream strW d2
     Issues s n [] ∧ streamOf s (v 28) = some (s.stream (v 28)) ∧ (s.stream (v 28)).wr = true ∧
     checkPush s (s.stream (v 28)) ((List.range 2).filter fun q => (rdK s 1).getLsbD q) = .ok [(0, [drP 640 4]), (1, [drP 644 4])] ∧
     sfuPushes s (v 28) = [] ∧ quotaTrap s 0 [drP 640 4, drP 644 4] = none ∧ pushedBytes s (v 28) + 2 * (32 / 8) ≤ 512) := by
  and_intros <;> first
    | exact issues_of (by decide +kernel)
    | exact groups_of (by decide +kernel)
    | decide +kernel
    | exact ok_of (by decide +kernel)

theorem wit_SpecialUnits :
    Issues d1 n [9, 6, 5, 3, 2] ∧ NoTraps d1 ∧ (d1.core 0).eng.sfuQ.length < 8 ∧ streamOf d1 (v 1) = none ∧ (9 : GReg) ≠ 3 ∧
    rdG d1 6 ≠ 0 ∧ rdG d1 0 = 0 ∧
    (let s := d1.modCore 0 fun c => { c with eng := { c.eng with sfuQ := List.replicate 8 ⟨0, 1, 9, true, .vexp n (v 1) (v 2) 0 ⟨false, 0⟩, v 1, 0, 0, none⟩ } }
     Issues s n [] ∧ NoTraps s ∧ 8 ≤ (s.core 0).eng.sfuQ.length) := by
  and_intros <;> first
    | decide +kernel
    | exact issues_of (by decide +kernel)
    | exact ok_of (by decide +kernel)
    | exact noTraps_of (by decide +kernel)
theorem wit_SpecialUnits_groups : Groups d1 1 [v 1, v 2] := groups_of (by decide +kernel)

/-! Traps, special registers, saved contexts -/

/-- The demo context with trap registers t. -/
def withTrap (t : TrapRegs) (s : State) : State := s.modC fun c => { c with trap := t }
/-- A handler at 0x10040; handler mode. -/
def hUser : TrapRegs := { tvec := 0x10040 }
def hMode : TrapRegs := { mode := true, tvec := 0x10040, tres := 0x10041 }
/-- The outstanding load of dOut has met a trap. -/
def dMet : State := dOut.modC fun c => { c with iss := { c.iss with outs := c.iss.outs.map fun o => { o with trap := some ⟨9, 0, 640⟩ } } }

theorem canTrap_of {s : State} (h : (decide (s.c.iss.port = {}) && decide (s.c.again = []) && decide ((s.core s.g.toNat).eng.sfuQ = []) &&
    decide ((s.core s.g.toNat).eng.sfuRun = [])) = true) : CanTrap s := by
  simp only [Bool.and_eq_true, decide_eq_true_eq] at h
  exact ⟨h.1.1.1, h.1.1.2, by simp [h.1.2], by simp [h.2]⟩

theorem wit_TrapEntry :
    Thread demo ∧ CanTrap (withTrap hUser demo) ∧ (withTrap hUser demo).c.iss.outs = [] ∧ HandlerReady (withTrap hUser demo) ∧ ¬ HandlerReady demo ∧
    demo.c.iss.outs = [] ∧ (∃ o ∈ dOut.c.iss.outs, o.trap = none) ∧ CanTrap dOut ∧ CanTrap (withTrap hUser dMet) ∧
    (∀ x ∈ (withTrap hUser dMet).c.iss.outs, x.trap ≠ none) ∧ (withTrap hUser dMet).c.iss.outs ≠ [] ∧ HandlerReady (withTrap hUser dMet) := by
  refine ⟨⟨0, 0, by decide +kernel, by decide +kernel⟩, canTrap_of ?_, ?_, ?_, ?_, ?_, ?_, canTrap_of ?_, canTrap_of ?_, ?_, ?_, ?_⟩ <;>
    first | decide +kernel | (unfold HandlerReady; decide +kernel)

theorem wit_TrapsAndPrivilege :
    Issues (withTrap hUser demo) n [9] ∧ (withTrap hUser demo).c.trap.mode = false ∧ (withTrap hUser demo).c.iss.outs = [] ∧ dOut.c.iss.outs ≠ [] ∧
    (let s := withTrap hMode demo
     Issues s n [9] ∧ s.c.trap.mode = true ∧ s.c.trap.tres.toNat % 64 < 5 ∧ s.c.withdrawn = [] ∧ s.c.cancelled = [] ∧ s.c.again = []) ∧
    (let s := withTrap { hMode with tres := 0x10045 } demo
     Issues s n [9] ∧ s.c.trap.mode = true ∧ 5 ≤ s.c.trap.tres.toNat % 64) ∧ 0x030 ≤ (0x031 : BitVec 12).toNat ∧ (0x031 : BitVec 12).toNat ≤ 0x037 := by
  and_intros <;> first
    | decide +kernel
    | exact issues_of (by decide +kernel)

theorem wit_SpecialRegisters : Issues d1 n [9] ∧ Issues (withTrap hMode d1) n [6] ∧ (withTrap hMode d1).c.trap.mode = true := by
  and_intros <;> first
    | decide +kernel
    | exact issues_of (by decide +kernel)

theorem wit_MaintenanceInstructions :
    Issues d1 n [6, 3] ∧ CanRelease d1 .module ∧ CanRelease d1 .system ∧ (rdG d1 6).toNat + (rdG d1 3).toNat ≤ 2 ^ 56 ∧ (rdG d1 0).toNat = 0 ∧
    (∀ i ∈ d1.fl.invs, i.delivered = true) ∧ (rdG d1 5).toNat ≤ 9 ∧ ¬ (rdG d1 6).toNat ≤ 9 ∧
    (let s := wg [(3, 2 ^ 56), (6, 1)] demo
     Issues s n [6, 3] ∧ CanRelease s .module ∧ 2 ^ 56 < (rdG s 6).toNat + (rdG s 3).toNat) ∧
    (let s := { d1 with fl := { d1.fl with invs := [{ g := 0, tid := 0, tenant := 0, lo := 0, len := 1, scope := .core }] } }
     Issues s n [6, 3] ∧ ∃ i ∈ s.fl.invs, i.tid = s.c.tid ∧ i.tenant = s.t ∧ i.delivered = false) := by
  and_intros <;> first
    | decide +kernel
    | exact issues_of (by decide +kernel)
    | exact ok_of (by decide +kernel)
    | exact noTraps_of (by decide +kernel)
    | exact operand_reg (by decide +kernel)
    | (constructor <;> decide +kernel)

/-- Register 8 holds the address of a 4 KiB record in page 0's DRAM; tenant 0's handler runs. -/
def dSave : State := withTrap hMode (wg [(8, 0x1000), (9, sp 0)] (demo.modCore 0 fun c => { c with cache := { c.cache with
  tlb := [⟨0, 0, 12, 0x1F⟩, ⟨0, 1, 12, 0x101F⟩] } }))

theorem wit_SavingContexts :
    Issues dSave n [8, 0] ∧ dSave.c.trap.mode = true ∧ (rdG dSave 8).toNat % 4096 = 0 ∧
    okIs (check dSave 0 0 .wr 0x1000 4096) [⟨0x1000, 0x1000, 4096, 0x101F⟩] = true ∧ spadDenied dSave .wr [⟨0x1000, 0x1000, 4096, 0x101F⟩] = none ∧
    dSave.c.iss.outs = [] ∧ leesRoom dSave ((pieceLines ⟨0x1000, 0x1000, 4096, 0x101F⟩).map fun l => (l * 128, 0)) = true ∧
    okIs (check dSave 0 0 .rd 0x1000 4096) [⟨0x1000, 0x1000, 4096, 0x101F⟩] = true ∧ spadDenied dSave .rd [⟨0x1000, 0x1000, 4096, 0x101F⟩] = none ∧
    lostIn dSave [⟨0x1000, 0x1000, 4096, 0x101F⟩] = none ∧
    recordOk 0 (homeBytes (recallLines dSave [⟨0x1000, 0x1000, 4096, 0x101F⟩]) 0 [⟨0x1000, 0x1000, 4096, 0x101F⟩]) = false ∧
    (let s := pokeD [(0x1000, 2 ^ 56)] dSave
     let bs := homeBytes (recallLines s [⟨0x1000, 0x1000, 4096, 0x101F⟩]) 0 [⟨0x1000, 0x1000, 4096, 0x101F⟩]
     Issues s n [8, 0] ∧ recordOk 0 bs = true ∧ (dwordAt bs 0).getLsbD 1 = false ∧ (dwordAt bs 1).toNat < 2 ^ 56 ∧ (dwordAt bs 1).toNat % 64 < 5 ∧
     s.c.halted = false ∧ (dwordAt bs 4).getLsbD 16 = false ∧ ((findOpaque (recordFree bs) (recallLines s [⟨0x1000, 0x1000, 4096, 0x101F⟩]).opaques).getD {}).cancelled = []) := by
  and_intros <;> first
    | decide +kernel
    | exact issues_of (by decide +kernel)
theorem wit_SavingContexts_reclaim :
    Issues d1 n [1, 0] ∧ NoTraps d1 ∧ check d1 0 0 .wr 0xFFFFFFFFFE0000 128 = .ok [spP 0 128] ∧ noHost d1 .wr [spP 0 128] = none ∧
    isRemote d1 (spP 0 128) = false ∧ spadDenied d1 .wr [spP 0 128] = none ∧ isSpadPlace d1 (spP 0 128).pa = true ∧
    Issues d1 n [6, 0] ∧ Issues d1 nL [6, 0] ∧ check d1 0 0 .wr 640 128 = .ok [drP 640 128] ∧ noHost d1 .wr [drP 640 128] = none ∧
    isRemote d1 (drP 640 128) = false ∧ spadDenied d1 .wr [drP 640 128] = none ∧ isSpadPlace d1 (drP 640 128).pa = false ∧
    linesRoom d1 [drP 640 128] = true ∧ ownSpad d1 [drP 640 128] = false := by
  and_intros <;> first
    | decide +kernel
    | exact issues_of (by decide +kernel)
    | exact ok_of (by decide +kernel)
    | exact noTraps_of (by decide +kernel)

/-! Scalar cores, engines, ropes -/

/-- A scalar core of core 0 about to execute, with tile 0 of core 0 as given and registers x. -/
def scal (r : Role) (e : Tile) (x : List (Nat × Word)) : State :=
  let s := (State.reset.modScalar 0 r fun y => { y with running := true, x := x }).setTile 0 0 e
  { s with who := .scalar 0 r }
/-- A defined tile of two lines in a state. -/
def tileIn (st : BitVec 2) (pend : BitVec 16) : Tile := { state := st, dfn := true, base := 8, size := 2, pend := pend }

theorem wit_ScalarCoreTiles :
    (let s := scal .loader (tileIn 0 0) [(11, 640), (12, 2 ^ 32), (13, 8), (14, 1)]
     s.who = .scalar 0 .loader ∧ ((s.scalar 0 .loader).rx 12).toNat < 2 ^ 43 ∧ ((s.scalar 0 .loader).rx 12).toNat / 2 ^ 26 % 2 ^ 6 = 0 ∧
     ((s.scalar 0 .loader).rx 12).toNat / 2 ^ 5 % 2 ^ 11 = 0 ∧ 1 ≤ ((s.scalar 0 .loader).rx 12).toNat / 2 ^ 32 % 2 ^ 11 ∧
     0 + ((s.scalar 0 .loader).rx 12).toNat / 2 ^ 32 % 2 ^ 11 ≤ (s.tile 0 0).size.toNat ∧ (s.tile 0 0).dfn = true ∧ (s.tile 0 0).state = 0 ∧
     ((s.scalar 0 .loader).rx 13).toNat % 8 = 0 ∧ ((s.scalar 0 .loader).rx 13).toNat + 32 ≤ 0x2000 ∧ ((s.scalar 0 .loader).rx 14).toNat % 8 ≠ 0 ∧
     ¬ ((s.scalar 0 .loader).rx 0).toNat / 2 ^ 32 % 2 ^ 11 ≥ 1) ∧
    (let s := pokeD [(dataBase 0 .loader + 8, 640), (dataBase 0 .loader + 24, 2 ^ 16 + 128), (dataBase 0 .loader + 32, 128)] (scal .loader (tileIn 1 3) [(13, 8)])
     let w := (dwordAt (s.memBytes (dataBase 0 .loader + 8) 32) 2).toNat
     w < 2 ^ 58 ∧ w / 2 ^ 37 % 2 ^ 11 = 0 ∧ w / 2 ^ 13 % 2 ^ 3 = 0 ∧ 1 ≤ w / 2 ^ 16 % 2 ^ 16 ∧ 1 ≤ w % 2 ^ 13 ∧ w % 2 ^ 13 ≤ 4096 ∧
     (dwordAt (s.memBytes (dataBase 0 .loader + 8) 32) 3).toNat = 128 ∧ (s.tile 0 0).state = 1 ∧ (s.tile 0 0).pend ≠ 0) ∧
    (let s := scal .storer (tileIn 3 0) [(11, 0), (12, 5), (13, 32)]
     s.who = .scalar 0 .storer ∧ (s.tile 0 0).state = 3 ∧ (s.tile 0 0).pend = 0 ∧ ((s.scalar 0 .storer).rx 11).toNat < 2 ^ 5 ∧
     2 ^ 5 ≤ ((s.scalar 0 .storer).rx 13).toNat ∧ (s.scalar 0 .storer).deadline = none ∧ ((s.scalar 0 .storer).rx 12).toNat ≠ 0 ∧
     ((s.scalar 0 .storer).rx 0).toNat = 0) ∧
    (let s := (scal .storer (tileIn 3 1) []).modScalar 0 .storer fun y => { y with deadline := some 9, imem := [(0, 0x2B), (1, 0x20)] }
     ∃ w, (s.scalar 0 .storer).running = true ∧ scalarFetch (s.scalar 0 .storer) = some w ∧ decodeRv w = .tempty 0 0 0 ∧ s.cycle ≤ 9 ∧
       (s.tile 0 0).state = 3 ∧ (s.tile 0 0).pend ≠ 0) := by
  refine ⟨?_, ?_, ?_, ⟨0x202B, ?_⟩⟩ <;> decide +kernel

theorem wit_FillsAndDrains :
    (let j : FillJob := ⟨false, 0, 640, 128, 0, 128, 1, 128, false⟩
     let s := { (demo.setTile 0 0 (tileIn 1 1)) with pending := [] }.modCore 0 fun c => { c with eng := { c.eng with fills := [j] } }
     (s.core 0).eng.fills[0]? = some j ∧ (s.tile 0 0).state = 1 ∧ check s 0 0 .rd (va56 640) 128 = .ok [drP 640 128] ∧
     lostIn s [drP 640 128] = none ∧ (match engRead s 0 0 640 128 with | .ok _ => true | .error _ => false) = true) ∧
    (let j : FillJob := ⟨true, 0, 640, 128, 0, 128, 1, 128, false⟩
     let s := (demo.setTile 0 0 (tileIn 3 1)).modCore 0 fun c => { c with eng := { c.eng with fills := [j] } }
     (s.core 0).eng.fills[0]? = some j ∧ roomFor s (drainPieces s 0 0 j) = true) ∧
    (let j : FillJob := ⟨false, 0, 640, 128, 0, 128, 1, 128, false⟩
     let s := (demo.setTile 0 0 (tileIn 2 1)).modCore 0 fun c => { c with eng := { c.eng with fills := [j] } }
     (s.core 0).eng.fills[0]? = some j ∧ (s.tile 0 0).state ≠ 1) := by
  and_intros <;> first
    | decide +kernel
    | exact ok_of (by decide +kernel)

theorem wit_ScalarInstructions :
    let s := scal .loader {} [(1, 8), (2, 0x1FFE)]
    s.who = .scalar 0 .loader ∧ ((s.scalar 0 .loader).rx 1 + 0).toNat + 8 ≤ 0x2000 ∧ 0x2000 < ((s.scalar 0 .loader).rx 2 + 0).toNat + 8 := by
  and_intros <;> first
    | decide +kernel

/-- Registers for the engines' commands: 6 and 8 aligned addresses, 10 misaligned, 11 and 12 counts. -/
def dEng : State := wg [(6, 640), (7, 1024), (8, 4096), (10, 641), (11, 3), (12, 64), (13, 2 ^ 41)] demo

theorem wit_EngineCommands :
    Issues dEng n [9, 6, 7, 8, 11] ∧ NoTraps dEng ∧ (rdG dEng 6).toNat % 128 = 0 ∧ (rdG dEng 7).toNat % 128 = 0 ∧ (rdG dEng 8).toNat % 128 = 0 ∧
    (rdG dEng 10).toNat % 64 ≠ 0 ∧ (rdG dEng 10).toNat % 2 ≠ 0 ∧ (rdG dEng 11).toNat < 16 ∧ 1 ≤ (rdG dEng 11).toNat % 8 ∧ (rdG dEng 11).toNat % 8 ≤ 4 ∧
    16 ≤ (rdG dEng 12).toNat ∧ 2 ^ 40 ≤ (rdG dEng 13).toNat ∧ rdG dEng 11 ≠ 0 ∧ (rdG dEng 11).toNat < 2 ^ 32 ∧ (rdG dEng 8).toNat % 4 = 0 ∧
    (rdG dEng 10).toNat % 4 ≠ 0 ∧ (rdG dEng 10).toNat % 8 ≠ 0 ∧ rdG dEng 0 = 0 ∧
    queueRoom (dEng.setTl 0 1 { issued := 1 }) 0 1 = true ∧ pendingBelow (dEng.setTl 0 1 { issued := 1 }) 0 1 1 = false ∧
    queueRoom (dEng.setTl 0 0 { issued := 1 }) 0 0 = true ∧ pendingBelow (dEng.setTl 0 0 { issued := 1 }) 0 0 1 = false := by
  and_intros <;> first
    | decide +kernel
    | exact issues_of (by decide +kernel)
    | exact ok_of (by decide +kernel)
    | exact noTraps_of (by decide +kernel)

theorem wit_MatrixQueue :
    Issues dEng n [9, 6] ∧ NoTraps dEng ∧ (rdG dEng 6).toNat % 128 = 0 ∧ check dEng 0 0 .rd 640 1024 = .ok [drP 640 1024] ∧
    mattnBefore dEng 0 (dEng.tl 0 1).issued = false ∧ lostIn dEng [drP 640 1024] = none ∧
    ((coreBytes dEng 0 0 [drP 640 1024]).all fun b => b == 0) = true ∧ (∀ c ∈ coreCtxs dEng 0, ∀ o ∈ c.iss.outs, pushTl o.i ≠ some 1) ∧
    (let s := dEng.modCore 0 fun c => { c with regs := { c.regs with mq := { cmds := [{ job := 1, cmd := .mswap, tenant := 0 }] } } }
     Issues s n [9, 6] ∧ NoTraps s ∧ (∀ c ∈ coreCtxs s 0, ∀ o ∈ c.iss.outs, pushTl o.i ≠ some 1)) := by
  and_intros <;> first
    | decide +kernel
    | exact issues_of (by decide +kernel)
    | exact ok_of (by decide +kernel)
    | exact noTraps_of (by decide +kernel)

theorem wit_CollectiveCommands :
    let s := dEng.setCfg (cgrpReg 0 1) (BitVec.ofNat 64 (2 * 2 ^ 48 + 2 ^ 32))
    Issues s n [9, 6, 12, 8, 11] ∧ NoTraps s ∧ (rdG s 6).toNat % 128 = 0 ∧ (rdG s 12).toNat < 2 ^ 40 ∧ (s.cfgAt (cgrpReg 0 1)).toNat / 2 ^ 48 ≠ 0 ∧
    (rdG s 12).toNat % ((s.cfgAt (cgrpReg 0 1)).toNat / 2 ^ 48) = 0 ∧ (rdG s 12).toNat / ((s.cfgAt (cgrpReg 0 1)).toNat / 2 ^ 48) < 2 ^ 40 ∧
    (rdG s 11).toNat < 2 ^ 16 ∧ (rdG s 10).toNat % 128 ≠ 0 ∧ (rdG s 10).toNat % 64 ≠ 0 := by
  and_intros <;> first
    | decide +kernel
    | exact issues_of (by decide +kernel)
    | exact ok_of (by decide +kernel)
    | exact noTraps_of (by decide +kernel)

theorem wit_PressCommands :
    Issues dEng n [9, 6, 11] ∧ NoTraps dEng ∧ dEng.part.press = true ∧ (rdG dEng 6).toNat % 128 = 0 ∧ (rdG dEng 10).toNat % 64 ≠ 0 ∧
    check dEng 0 0 .rd 640 72 = .ok [drP 640 72] ∧ lostIn (touchRead dEng 0 0 0 [drP 640 72]) [drP 640 72] = none ∧
    (dEng.die 0).press = [] ∧ (dEng.die 0).walk = none ∧ ownSpad (touchRead dEng 0 0 0 [drP 640 72]) [drP 640 72] = false ∧
    (let s := pokeD [(648, 0xFF)] dEng
     Issues s n [9, 6, 11] ∧ (treeOf (coreBytes s 0 0 [drP 640 72])).isSome = true) ∧
    (let s := { dEng with part := .n4 }
     Issues s n [9, 6, 11] ∧ s.part.press = false) := by
  and_intros <;> first
    | decide +kernel
    | exact issues_of (by decide +kernel)
    | exact ok_of (by decide +kernel)
    | exact noTraps_of (by decide +kernel)

theorem wit_RopeIssue :
    Issues dEng n [9, 6, 7, 8, 11] ∧ NoTraps dEng ∧ (rdG dEng 6).toNat % 128 = 0 ∧ (rdG dEng 10).toNat % 128 ≠ 0 ∧ (9 : GReg) ≠ 8 ∧
    check dEng 0 0 .wr 640 16 = .ok [drP 640 16] ∧ check dEng 0 0 .rd 640 16 = .ok [drP 640 16] ∧ noHost dEng .wr [drP 640 16] = none ∧
    handleRootOk dEng (rdG dEng 0) = true ∧ MayRelease true dEng .die ∧ handleRootOk dEng (rdG dEng 10) = false ∧ MayRelease false dEng .die ∧
    ((dEng.die 0).ropes.filter fun r => r.unit == 0).length < 8 ∧ (∀ o ∈ dEng.c.iss.outs, isRope o.i = false) := by
  and_intros <;> first
    | decide +kernel
    | exact issues_of (by decide +kernel)
    | exact ok_of (by decide +kernel)
    | exact noTraps_of (by decide +kernel)
    | exact operand_reg (by decide +kernel)
    | (constructor <;> decide +kernel)

/-- A descriptor of 8-byte elements with one slot, a sum of 64-bit integers. -/
def desc8 : RopeDesc := ⟨[8 + 16 * 256 + 2 ^ 16, 3 * 256, 0, 0, 0, 0, 0, 0, 0, 0, 0, 0, 0, 0, 0, 0]⟩
/-- A leaf of two elements at line 640, its piece at 768. -/
def leaf8 : RNode := ⟨1, 0, 1, 1, 2, [(768, 2)], [7, 0, 0, 0, 0, 0, 0, 0], true⟩
/-- Tenant 0 with a pool of 1 GiB at 0, whose counts stand at 0; the leaf's count is c; entry 1 holds the descriptor. -/
def dRope (c : Nat) : State :=
  let s := ((d1.setCfg (tenReg 0 0x300) 1).poke (cellsAt 640 (lineOfNode leaf8))).poke (cellsOf 20 4 c)
  { pokeD [(768, 3), (776, 4), (1024, 8 + 16 * 256 + 2 ^ 16), (1032, 3 * 256)] s with descs := [(1, some desc8)] }

theorem root_of {x : Except Trap (Option RT × RNote)} {P : RT → RNote → Bool}
    (h : (match x with | .ok (some r, n) => P r n | _ => false) = true) : ∃ r n, x = .ok (some r, n) ∧ P r n = true := by
  match x, h with
  | .ok (some r, n), h => exact ⟨r, n, rfl, h⟩
theorem any_of {α β : Type} {x : Except Trap (α × β)} {P : α → β → Bool}
    (h : (match x with | .ok (r, n) => P r n | _ => false) = true) : ∃ r n, x = .ok (r, n) ∧ P r n = true := by
  match x, h with
  | .ok (r, n), h => exact ⟨r, n, rfl, h⟩

theorem wit_RopeResults_root :
    ∃ r n, rRoot (ropeEnv (dRope 1) 0 0) 640 {} = .ok (some r, n) ∧
      (decide (0 < r.tlen) && decide (r.tlen < 2 ^ 64) && n.did.bind (descOf (dRope 1) 0) == some desc8 && (desc8.slot 0).isSome &&
        decide ((5 : Word).toNat > r.tlen)) = true := root_of (by decide +kernel)
theorem wit_RopeResults_leaf :
    ∃ x n, leafAt (ropeEnv (dRope 1) 0 0) 640 1 {} = .ok (x, n) ∧
      (n.did.bind (descOf (dRope 1) 0) == some desc8 &&
        (match rElems (ropeEnv (dRope 1) 0 0) desc8 x.1 n with | .ok _ => true | .error _ => false)) = true := any_of (by decide +kernel)
theorem wit_RopeResults_counts : ∀ c ∈ [0, 1, 2, 2 ^ 32 - 1],
    ∃ k n, rCount (ropeEnv (dRope c) 0 0) 640 {} = .ok (k, n) ∧ (k == c && (ropeEnv (dRope c) 0 0).poolLine 640 &&
      okIs (check (dRope c) 0 0 .wr 20 4) [drP 20 4] && leesRoom (dRope c) (pieceCells [drP 20 4] (bytesOf 4 0))) = true := by
  intro c h
  simp only [List.mem_cons, List.not_mem_nil, or_false] at h
  obtain rfl | rfl | rfl | rfl := h <;> exact any_of (by decide +kernel)
theorem wit_RopeResults :
    Thread (dRope 1) ∧ (descOf (dRope 1) 0 1).isSome = true ∧ check (dRope 1) 0 0 .rd 1024 128 = .ok [drP 1024 128] ∧
    lostIn (dRope 1) [drP 1024 128] = none ∧
    (⟨(List.range 16).map (dwordAt (homeBytes (recallLines (dRope 1) [drP 1024 128]) 0 [drP 1024 128]))⟩ : RopeDesc) = desc8 ∧ descBad desc8 = none ∧
    descOf (dRope 1) 0 2 = none ∧ descBad ⟨[0]⟩ = some (2, 0) ∧ (∃ old, descOf { dRope 1 with descs := [(1, some ⟨[1]⟩)] } 0 1 = some old ∧ old ≠ desc8) ∧
    handleRootOk (dRope 1) 640 = true ∧ CanModify (dRope 1) 16 [drP 1280 16] := by
  refine ⟨⟨0, 0, ?_, ?_⟩, ?_, ok_of ?_, ?_, ?_, ?_, ?_, ?_, ⟨⟨[1]⟩, ?_, ?_⟩, ?_, ⟨?_, ?_, ?_, ?_, ?_, ?_, ?_⟩⟩ <;> decide +kernel
theorem wit_RopeNodesAndSlots :
    leaf8.kind < 4 ∧ leaf8.height < 16 ∧ leaf8.fan ≤ 4 ∧ leaf8.kids.length = leaf8.fan ∧ leaf8.desc < 16 ∧ leaf8.tlen < 2 ^ 40 ∧
    leaf8.sums.length = 8 ∧ (∀ k ∈ leaf8.kids, k.1 < 2 ^ 48 ∧ k.2 < 2 ^ 32) ∧ leaf8.clean = true ∧ [[(3 : Byte)]] ≠ [] ∧ (3 : Nat) < 8 := by decide

/-! Events of the engines -/

/-- Cluster 0 with its matrix queue of core 0 holding the commands, budget 4, visiting queue 0; the weights are loaded. -/
def dMq (l : List MJob) (rows : List MRow) : State :=
  (d1.modCore 0 fun c => { c with cache := { c.cache with tlb := [⟨0, 0, 21, 0x1F⟩] }
                                  regs := { c.regs with mq := { cmds := l, active := some (.bf16, []) } } }).modCluster 0 fun x =>
    { x with pos := 0, budget := 4, rows := rows }
def mjob (c : MCmd) : MJob := { job := 1, cmd := c, tenant := 0 }
def mrow : MRow := ⟨0, 0, {}, 1, 3, 640, false, 0, [], [], [], false⟩
/-- An outstanding MSWAP with job number 1 of timeline 1. -/
def dPush : State := (d1.setTl 0 1 { issued := 1 }).modC fun c => { c with iss := { c.iss with
  outs := [{ id := 4, i := .mswap nL 9, src := { job := 1 }, pc := 0, left := 2 }] } }

theorem wit_MatrixEvents :
    (∃ o, dPush.outOf 0 0 4 = some o ∧ (pushOf o.i).isSome = true ∧ o.port = {} ∧ o.src.k = 0) ∧ queueRoom dPush 0 1 = true ∧ pendingBelow dPush 0 1 1 = false ∧
    (let s := dMq [mjob (.mcfg 2)] []
     (s.mq 0).run = false ∧ (s.cluster 0).used < (s.cluster 0).budget ∧ (s.mq 0).cmds = [mjob (.mcfg 2)]) ∧
    (let s := dMq [] []
     (s.mq 0).run = false ∧ (s.mq 0).cmds = []) ∧
    (let s := dMq [mjob (.mldw (sp 0) 64 .f8)] []
     (match engRows s 0 0 (sp 0) 64 (64 * wfmtBytes .f8) 128 with | .ok _ => true | .error _ => false) = true) ∧
    (let s := dMq [mjob (.mstream 640 1024 none 1 .bf16 false)] []
     (s.mq 0).active = some (.bf16, []) ∧ mPaired .bf16 .bf16 = true ∧
     (match engRows s 0 0 640 (BitVec.ofNat 64 (128 * actBytes .bf16)) (128 * actBytes .bf16) 1 with | .ok _ => true | .error _ => false) = true) ∧
    (let s := dMq [mjob .bad] [mrow]
     (s.mq 0).cmds = [mjob .bad] ∧ (s.cluster 0).rows[0]? = some mrow ∧ mrow.score = false ∧ (dwordAt mrow.blk 1).toNat % 64 = 0) ∧
    (let s := dMq [] [mrow, mrow]
     (s.cluster 0).rows[1]? = some mrow ∧ ∃ x ∈ (s.cluster 0).rows.take 1, x.g = mrow.g) ∧
    (let s := d1.modCore 0 fun c => { c with regs := { c.regs with mq := { gone := [1] } } }
     1 ∈ (s.mq 0).gone ∧ ((s.cluster 0).rows.any fun r => r.g == 0 && r.job == 1) = false) := by
  refine ⟨⟨{ id := 4, i := .mswap nL 9, src := { job := 1 }, pc := 0, left := 2 }, ?_, ?_, ?_, ?_⟩, ?_, ?_, ⟨?_, ?_, ?_⟩, ⟨?_, ?_⟩, ?_, ⟨?_, ?_, ?_⟩, ⟨?_, ?_, ?_, ?_⟩, ⟨?_, ?_⟩, ⟨?_, ?_⟩⟩
  all_goals decide +kernel

/-- Core 0's copy queue. -/
def withCopies (l : List CpyJob) (s : State) : State := s.modCore 0 fun c => { c with eng := { c.eng with cq := l } }
def cjob (n : Word) : CpyJob := { job := 1, tenant := 0, cmd := .cpy 1024 640 n }
/-- A broadcast job of core 0 in group 1, whose object stands at 2048. -/
def coll (started : Bool) (want : List CollPiece) : CollJob :=
  { g := 0, job := 1, tenant := 0, desc := [1024, 1024, 128, 2048, 3 * 2 ^ 48 + 1], seq := 0, group := 1, started := started, want := want }
def withColls (l : List CollJob) (grp : Word) : State :=
  pokeD [(2048, 2 ^ 32)] { (d1.setCfg (cgrpReg 0 1) grp) with fl := { d1.fl with colls := l } }

theorem ok_any {α β : Type} {x : Except α β} (h : (match x with | .ok _ => true | .error _ => false) = true) : ∃ y, x = .ok y := by
  match x, h with
  | .ok y, _ => exact ⟨y, rfl⟩

theorem ok_and {α β : Type} {x : Except α β} {P : β → Prop} [∀ y, Decidable (P y)]
    (h : (match x with | .ok y => decide (P y) | .error _ => false) = true) : ∃ y, x = .ok y ∧ P y := by
  match x, h with
  | .ok y, h => exact ⟨y, rfl, of_decide_eq_true h⟩

theorem wit_CopyAndCollectiveEvents_copy :
    (let s := withCopies [cjob 64] d1
     cpyNext s 0 = some (0, cjob 64) ∧ cpyOverlap s 0 (cjob 64) 1024 640 64 = false ∧ (∃ y, engRead s 0 0 640 64 = .ok y) ∧
     (∃ ps, engPieces s 0 0 1024 64 = .ok ps) ∧ leesRoom s (pieceCells [drP 1024 64] (bytesOf 64 0)) = true) ∧
    (let s := withCopies [cjob 0] d1
     cpyNext s 0 = none ∧ (s.core 0).eng.cq = [cjob 0] ∧ cpyEmpty (cjob 0) = true) ∧
    (let s := withCopies [{ cjob 64 with finished := true, fail := 2 }] d1
     (s.core 0).eng.cq = [{ cjob 64 with finished := true, fail := 2 }]) := by
  refine ⟨⟨?_, ?_, ok_any ?_, ok_any ?_, ?_⟩, ⟨?_, ?_, ?_⟩, ?_⟩ <;> decide +kernel

/-- Group 1 of two members, this device being member 0. -/
def grp2 : Word := BitVec.ofNat 64 (2 * 2 ^ 48 + 1)
def pieceC : CollPiece := ⟨0, 1, 0, 64, 1024⟩
def hdrC (n : Nat) : FabHdr := { tag := 1, seq := 0, nmem := 2, rank := 1, swid := 0, chunk := 0, seg := 1, offset := 0, length := BitVec.ofNat _ n }

theorem wit_CopyAndCollectiveEvents_collective :
    (let s := withColls [coll false []] grp2
     collNext s 0 = some (coll false []) ∧ Machine.collCode s (coll false []) (s.cfgAt (cgrpReg 0 1)) = 0 ∧
     (∃ y, collMessages s (coll false []) (s.cfgAt (cgrpReg 0 1)) = .ok y ∧ (match collCopy y.2 (coll false []) grp2 with | .ok _ => true | _ => false) = true)) ∧
    (let s := withColls [coll false []] 0
     collNext s 0 = some (coll false []) ∧ Machine.collCode s (coll false []) (s.cfgAt (cgrpReg 0 1)) ≠ 0) ∧
    (let s := withColls [] 0
     collNext s 0 = none ∧ (s.fl.colls.findSome? fun j => (j.want.find? (pieceMatches (hdrC 64) true j)).map fun p => (j, p)) = none ∧
     s.fl.colls.find? (fun j => j.g == 0 && chunkReady j 0) = none) ∧
    (let s := withColls [coll true [pieceC]] grp2
     (s.fl.colls.findSome? fun j => (j.want.find? (pieceMatches (hdrC 64) false j)).map fun p => (j, p)) = some (coll true [pieceC], pieceC) ∧
     (s.fl.colls.findSome? fun j => (j.want.find? (pieceMatches (hdrC 8) false j)).map fun p => (j, p)) = some (coll true [pieceC], pieceC) ∧
     (hdrC 64).length.toNat = pieceC.len ∧ (hdrC 8).length.toNat ≠ pieceC.len ∧ (∃ ps, engPieces s 0 0 pieceC.dst 64 = .ok ps) ∧
     leesRoom s (pieceCells [drP 1024 64] (bytesOf 64 0)) = true) ∧
    (let s := withColls [coll true []] grp2
     s.fl.colls.find? (fun j => j.g == 0 && chunkReady j 0) = some (coll true []) ∧ collObj s (coll true []) = some [drP 2048 128] ∧
     leesRoom s [(2048, 0)] = true) ∧
    (let s := { withColls [coll true [pieceC]] grp2 with cycle := 2 ^ 40 }
     s.fl.colls.find? (fun j => j.g == 0 && j.started && j.want != [] && (s.cfgAt (modReg 0)).toNat % 2 ^ 32 != 0 &&
       decide (j.clock + (s.cfgAt (modReg 0)).toNat % 2 ^ 32 * 1024 ≤ s.cycle)) = some (coll true [pieceC])) := by
  refine ⟨⟨?_, ?_, ok_and ?_⟩, ⟨?_, ?_⟩, ⟨?_, ?_, ?_⟩, ⟨?_, ?_, ?_, ?_, ok_any ?_, ?_⟩, ⟨?_, ?_, ?_⟩, ?_⟩ <;> decide +kernel

/-! Events of threads -/

theorem eraseDups_nodup (l : List Nat) (h : l.Nodup) : l.eraseDups = l := by
  induction l with
  | nil => rfl
  | cons a l ih =>
    rw [List.nodup_cons] at h
    rw [List.eraseDups_cons, List.filter_eq_self.mpr, ih h.2]
    intro b hb
    have : b ≠ a := fun e => h.1 (e ▸ hb)
    simp [this]

/-- A byte in each of as many lines as a lees store holds. -/
def manyCells : List (Nat × Byte) := (List.range 65536).map fun i => ((i + 1) * 128, 0)
/-- Those bytes wait for room; the lees store holds a version of another line, which the core's snapshot reads; the phase is older
than PHLIMIT. -/
def dFullLees : State := { withTrap hUser d1 with cycle := 2 ^ 21, coh := { d1.coh with
  waiting := [⟨2, 1, .die, manyCells, 0⟩], pubs := [⟨1, .host, .system, [(0, 0, 0)]⟩] } }

theorem many_lines : cellLines manyCells = (List.range 65536).map (· + 1) := by
  simp only [cellLines, manyCells, List.map_map]
  rw [List.map_congr_left (g := (· + 1)) (fun i _ => by simp [lineOf]), eraseDups_nodup]
  exact List.Pairwise.map (· + 1) (fun a b h e => h (Nat.succ.inj e)) List.nodup_range

theorem many_need {s : State} (hp : s.part = .p8) (hh : s.coh.hdr = []) (ho : openCores s = [0]) (hs : s.who = .slot 1 0)
    (hw : s.coh.pubs = [⟨1, .host, .system, [(0, 0, 0)]⟩]) : leesNeed s 0 manyCells = 65536 := by
  simp only [leesNeed, many_lines]
  rw [List.filter_eq_self.mpr]
  · rw [List.length_map, List.length_range]
  · intro a ha
    obtain ⟨i, hi, rfl⟩ := List.mem_map.mp ha
    have hr := List.mem_range.mp hi
    have h1 : (i + 1) * 128 < 0x1000000000000 := by omega
    have h2 : (i + 1) * 128 / 2 ^ 36 = 0 := by omega
    have h3 : (i + 1) * 128 % 2 ^ 36 < 48 * 2 ^ 30 := by omega
    have h4 : placeOf .p8 ((i + 1) * 128) = .dram 0 := by
      unfold placeOf
      rw [if_pos h1, h2, if_pos]
      exact Bool.and_eq_true_iff.2 ⟨by decide, decide_eq_true h3⟩
    refine Bool.and_eq_true_iff.2 ⟨by simp [hp, h4, isAcc, hh, tget], List.any_eq_true.2 ⟨((i + 1) * 128, 0), ?_, ?_⟩⟩
    · exact List.mem_map.2 ⟨i, hi, rfl⟩
    · simp [ho, hs, readsNow, hw, Pub.writes, lineOf]

theorem heldFor_many {s : State} (h : leesNeed s 0 manyCells = 65536) (h1 : leesLines s 0 = 1)
    (h2 : oldVersions s 0 [0] [] s.coh.pubs = 1) : heldFor s 0 manyCells = true :=
  List.any_eq_true.2 ⟨0, by decide, by rw [h, h1, h2]; decide⟩

theorem plan_phlimit {s : State} {g : GCore} {k : Slot} {c : Ctx} (hc : s.ctx g k = some c) (h1 : c.halted = false) (h2 : c.iss.skip = false)
    (h3 : c.iss.lend = 0) (h4 : stoppedLaunch s c = false) (h5 : c.iss.entry = none) (h6 : c.iss.outs = []) (h7 : c.replay = false)
    (h8 : c.again = []) (h9 : c.waits = []) (ht : c.iss.wait = none) (hd : phlimitDue s g.toNat c = true) : plan s g k false = .event (.phlimit g k) := by
  simp [plan, hc, h1, h2, h3, h4, h5, h6, h7, h8, h9, ht, blocked, tileExpired, hd]

theorem wit_ThreadEvents_phlimit :
    ∃ c, dFullLees.ctx 0 0 = some c ∧ c.iss.outs = [] ∧ c.iss.port = {} ∧ c.again = [] ∧ (dFullLees.core 0).eng.sfuQ = [] ∧
      (dFullLees.core 0).eng.sfuRun = [] ∧ c.trap = hUser ∧ plan dFullLees 0 0 false = .event (.phlimit 0 0) := by
  have hb : leesBlocked dFullLees 0 = true := by
    have : dFullLees.coh.waiting = [⟨2, 1, .die, manyCells, 0⟩] := rfl
    simp only [leesBlocked, this, List.any_cons, Bool.or_eq_true]
    exact Or.inl (Or.inl (heldFor_many (many_need (by decide +kernel) (by decide +kernel) (by decide +kernel) rfl rfl)
      (by decide +kernel) (by decide +kernel)))
  obtain ⟨c, hc⟩ : ∃ c, dFullLees.ctx 0 0 = some c := Option.isSome_iff_exists.mp (by decide +kernel)
  have hcs : (dFullLees.ctx 0 0).map (fun c => decide (c.halted = false ∧ c.iss.skip = false ∧ c.iss.lend = 0 ∧ stoppedLaunch dFullLees c = false ∧
    c.iss.entry = none ∧ c.iss.outs = [] ∧ c.replay = false ∧ c.again = [] ∧ c.iss.wait = none ∧ c.waits = [] ∧ c.trap = hUser ∧ c.iss.port = {})) =
    some true := by decide +kernel
  have hd : (dFullLees.core 0).regs.phlim = 0x00100000 := by decide +kernel
  have ha : 0x00100000 ≤ phaseAge dFullLees 0 := by decide +kernel
  rw [hc] at hcs
  simp only [Option.map_some, Option.some.injEq, decide_eq_true_eq] at hcs
  obtain ⟨h1, h2, h3, h4, h5, h6, h7, h8, ht, h9, h10, h11⟩ := hcs
  refine ⟨c, hc, h6, h11, h8, by decide +kernel, by decide +kernel, h10, plan_phlimit hc h1 h2 h3 h4 h5 h6 h7 h8 h9 ht ?_⟩
  have : phlimitDue dFullLees 0 c = true := by simp [phlimitDue, hd, hb, h10, hUser, ha]
  exact this

/-- A thread whose instruction cache holds a repeated VADD, of which one repetition is done. -/
def dRep : State :=
  let i : Instr := .vadd n .f32 (v 28) (v 2) (v 3) 0 ⟨true, 0⟩
  { (withThreadWord State.reset ((encode i).getD 0)) with who := .slot 0 0 }.modC fun c => { c with iss := { c.iss with rep := { done := 1 } } }
/-- The outstanding load of dOut with its bytes bound, and with its line lost. -/
def dBound : State := dOut.modC fun c => { c with iss := { c.iss with outs := c.iss.outs.map fun o => { o with src := { o.src with bs := some (bytesOf 8 5) } } } }
def dLost : State := dOut.modDie 0 fun d => { d with lost := [⟨5, 1⟩] }
/-- The demo context waits. -/
def dWait (kind : WaitKind) (dl : Nat) (s : State) : State :=
  s.modC fun c => { c with iss := { c.iss with wait := some ⟨kind, 0, dl, false, 0⟩ } }

theorem wit_ThreadEvents :
    (let c := (dRep.ctx 0 0).getD {}
     dRep.ctx 0 0 = some c ∧ dRep.who = .slot 0 0 ∧ c.iss.rep.done ≠ 0 ∧ c.iss.rep.pc = c.pc ∧
     (match fetch dRep 0 c.tenant c.pc with
      | .line bs => okIs (decodeSlot bs 0 false) (.vadd n .f32 (v 28) (v 2) (v 3) 0 ⟨true, 0⟩) && repeated (.vadd n .f32 (v 28) (v 2) (v 3) 0 ⟨true, 0⟩)
      | _ => false) = true) ∧
    (let s := d1.modC fun c => { c with iss := { c.iss with skip := true } }
     let u := toTurn s 0 0 0
     plan u 0 0 false = .idle ∧ stoppedLaunch u u.c = false ∧ parkDue u 0 0 = false ∧ s.c.replay = false ∧ s.c.again = []) ∧
    okIs (fetchPiece d1 0 0 0) (drP 0 64) = true ∧ (d1.core 0).cache.icache.length < 1024 ∧
    (let o := (dBound.outOf 0 0 0).getD { id := 9, i := .nop n, src := {}, pc := 0, left := 0 }
     dBound.outOf 0 0 0 = some o ∧ o.i = .ld nL .d false 9 (.reg 6) ⟨0, 0, 0⟩ ∧ o.port = {} ∧ o.shadow = [] ∧ (dBound.core 0).parked = [] ∧ mayPerform dBound 0 0 o = true ∧
     (∀ p ∈ o.src.ps, isRemote (dBound.asWho 0 0) p = false) ∧ spadDenied (dBound.asWho 0 0) .rd o.src.ps = none ∧
     lostIn (dBound.asWho 0 0) o.src.ps = none ∧ o.src.bs = some (bytesOf 8 5)) ∧
    (let o := (dLost.outOf 0 0 0).getD { id := 9, i := .nop n, src := {}, pc := 0, left := 0 }
     dLost.outOf 0 0 0 = some o ∧ o.port = {} ∧ o.shadow = [] ∧ (dLost.core 0).parked = [] ∧ mayPerform dLost 0 0 o = true ∧ (lostIn (dLost.asWho 0 0) o.src.ps).isSome = true ∧
     dLost.c.again = [] ∧ (dLost.core 0).eng.sfuQ = [] ∧ (dLost.core 0).eng.sfuRun = []) ∧
    (let s := (withTrap hUser d1).modC fun c => { c with iss := { c.iss with entry := some ⟨⟨1, 0, 0⟩, 0, 0⟩ } }
     s.c.iss.outs = [] ∧ s.c.iss.entry.isSome = true ∧ s.c.trap.mode = false ∧ s.c.trap.tvec ≠ 0 ∧ s.c.trap.tvec.toNat % 64 < 5) ∧
    (let s := d1.modC fun c => { c with iss := { c.iss with entry := some ⟨⟨1, 0, 0⟩, 0, 0⟩ } }
     s.c.iss.outs = [] ∧ s.c.iss.entry.isSome = true ∧ s.c.trap.tvec = 0) ∧
    (let s := withTrap hUser dMet
     (∀ y ∈ s.c.iss.outs, y.trap ≠ none) ∧ s.c.iss.outs.length = 1 ∧ s.c.trap.tvec ≠ 0) ∧
    (let s := (withTrap hUser dMet).modC fun c => { c with iss := { c.iss with outs := c.iss.outs ++ dOut.c.iss.outs } }
     s.c.iss.outs.length = 2 ∧ ((s.c.iss.outs.headD { id := 9, i := .nop n, src := {}, pc := 0, left := 0 }).trap).isSome = true ∧
     ∃ y ∈ s.c.iss.outs.tail, y.trap = none) ∧
    (let s := { dWait (.tile 5) 4 (withTrap hUser d1) with cycle := 9 }
     plan s 0 0 false = .event (.tilewait 0 0) ∧ tileExpired s 0 s.c = true ∧ s.c.iss.outs = [] ∧ s.c.iss.port = {} ∧ s.c.again = []) ∧
    (let s := dWait (.mail false) 9 (withMail [msg false false])
     waitReady s 0 s.c ⟨.mail false, 0, 9, false, 0⟩ = true) ∧
    (let s := dWait (.mail false) 9 d1
     waitReady s 0 s.c ⟨.mail false, 0, 9, false, 0⟩ = false ∧ ∀ p ∈ (s.core 0).parked, p.slot ≠ 0) := by
  and_intros <;> decide +kernel

/-! Events of contexts and launches -/

/-- Core 0 with a 2 MiB translation, tenant 0 with a window of 1 MiB. -/
def big (s : State) : State := (s.setCfg (tenReg 0 0x108) 0x100000).modCore 0 fun c => { c with cache := { c.cache with tlb := [⟨0, 0, 21, 0x1F⟩] } }
/-- A launch of core 0 alone: entry 0x40, four tiles, SDOM cluster, AQDEPTH 4, FORKs 1, its work areas from 0x20000. -/
def launchWords : List Nat := [0x40, 4 + 2 ^ 16 + 2 ^ 32, 1 + 2 ^ 16 + 2 ^ 24 + 2 ^ 32, 8 + 4 * 2 ^ 10 + 2 ^ 17, 5, 0x20000]
def launch0 : Launch := { lid := 0, tenant := 0, words := (launchWords ++ List.replicate 26 0).map (BitVec.ofNat 64) }
/-- A binding of it, with tiles from lo to hi. -/
def bind0 (lo hi : Nat) : Bind := { lid := 0, tileLo := lo, tileHi := hi, loaded := true, parkt := 5 }
/-- The demo core runs tenant 0 for the launch. -/
def dLaunch (b : Bind) : State := { withBind b (big d1) with launches := [launch0] }

theorem wit_ContextEvents_park :
    (let s := { dWait .sleep (2 ^ 30) (dLaunch (bind0 0 2)) with cycle := 100 }
     let u := toTurn s 0 0 0
     parkDue u 0 0 = true ∧ freePark s 0 0 = some 0 ∧
       okIs (check (toSaved ((u.bump 0 0x0003).asWho 0 0)) 0 0 .wr ((workArea s 0 0 + 0) % 2 ^ 56) 4096) [drP 0x20000 4096] = true) := by
  and_intros <;> first
    | decide +kernel

/-- A context in park slot 2 that has been re-queued. -/
def parked2 : Parked := ⟨2, { tid := 9 }, true, true, 0⟩
def withParked (l : List Parked) (s : State) : State := s.modCore 0 fun c => { c with parked := l }

theorem wit_ContextEvents_admit :
    (let s := dLaunch (bind0 0 2)
     (s.core 0).tenant = some 0 ∧ s.bind 0 0 = some (bind0 0 2) ∧ (s.core 0).leaving = false ∧ s.alive 0 = true ∧ s.ctx 0 1 = none ∧
       (bestOf (candidates s 0 0 (bind0 0 2))).map (·.cand) = some .tile ∧ s.launch? 0 = some launch0) ∧
    (let s := dLaunch (bind0 2 2)
     candidates s 0 0 (bind0 2 2) = []) ∧
    (let s := withParked [parked2] (dLaunch (bind0 2 2))
     (bestOf (candidates s 0 0 (bind0 2 2))).map (·.cand) = some (.parked 0) ∧ (s.core 0).parked[0]? = some parked2 ∧
       okIs (check s 0 0 .rd ((workArea s 0 0 + 0x1000 * 2) % 2 ^ 56) 4096) [drP 0x22000 4096] = true) ∧
    (let s := (dLaunch (bind0 2 2)).setBind 1 0 (some (bind0 0 3))
     candidates s 0 0 (bind0 2 2) = [] ∧ isStopped s 0 = false ∧ (victimsOf s 0 0 (bind0 2 2))[0]? = some 1 ∧ s.bind 1 0 = some (bind0 0 3)) ∧
    (let s := (dLaunch (bind0 2 2)).setBind 1 0 (some (bind0 3 3))
     (victimsOf s 0 0 (bind0 2 2))[0]? = some 1 ∧ hasWork (bind0 3 3) = false) := by
  and_intros <;> first
    | decide +kernel

/-- An arrival for core 0. -/
def withArrival (s : State) : State := { s with fl := { s.fl with arrivals := [⟨0, 0, entry⟩] } }

theorem wit_ContextEvents_arrivals :
    (let s := withArrival { d1 with binds := [] }
     s.fl.arrivals[0]? = some ⟨0, 0, entry⟩ ∧ s.bind 0 0 = none) ∧
    (let s := withArrival (dLaunch (bind0 2 2))
     s.bind 0 0 = some (bind0 2 2) ∧ s.launch? 0 = some launch0 ∧ isStopped s 0 = false ∧ (launch0.dw 3).toNat / 2 ^ 10 % 2 ^ 7 = 4 ∧
       (s.core 0).tenant = some 0 ∧ (s.core 0).leaving = false) ∧
    (let b : Bind := { bind0 2 2 with arrivals := List.replicate 4 entry }
     let s := withArrival (dLaunch b)
     s.bind 0 0 = some b ∧ b.ring.length < 256 ∧ b.spill ≠ BitVec.allOnes 64) ∧
    (let b : Bind := { bind0 2 2 with ring := List.replicate 256 entry }
     let s := (withArrival (dLaunch b)).modCore 0 fun c => { c with leaving := true }
     s.bind 0 0 = some b ∧ 256 ≤ b.ring.length ∧ (s.core 0).leaving = true) := by
  and_intros <;> first
    | decide +kernel

theorem wit_ContextEvents_slices :
    (let s := dLaunch (bind0 0 2)
     (s.core 0).tenant = some 0 ∧ (s.core 0).leaving = false ∧ sliceOver s 0 0 = false) ∧
    (let s := { dLaunch (bind0 0 2) with cycle := 0x002AB980 }
     sliceOver s 0 0 = true ∧ competitors s 0 (some 0) = []) ∧
    (let s := { ((dLaunch (bind0 0 2)).setBind 0 1 (some { lid := 7 })).setCfg (tenReg 0 0x18) 0x8000000000000 with cycle := 0x002AB980 }
     sliceOver s 0 0 = true ∧ competitors s 0 (some 0) = [1] ∧ lastRetired s 0 0 = false ∧ saveRoom s 0 0 = true ∧
       (coreCtxs s 0).all savable = true) ∧
    (let s := (({ d1 with ctxs := [] } : State).setBind 0 1 (some { lid := 7 })).modCore 0 fun c => { c with tenant := none, saved := [(1, [(3, {})])] }
     nextTenant s 0 = some 1 ∧ drained s 0 = true ∧ passRoom s 0 = true ∧ (s.core 0).tenant = none ∧
       ((tget [] (s.core 0).saved 1).map (·.1)).Nodup ∧ ∀ e ∈ tget [] (s.core 0).saved 1, e.1 < 16) ∧
    (let s := (({ d1 with ctxs := [], binds := [] } : State).setBind 0 1 (some { lid := 7 })).setCfg (tenReg 0 0x18) 0x8000000000000
     nextTenant s 0 = some 1 ∧ drained s 0 = true ∧ (s.core 0).tenant = some 0 ∧ s.bind 0 0 = none ∧
       (s.core 0).leaving = false ∧ s.ctxs = []) ∧ nextTenant d1 0 ≠ some 1 := by
  and_intros <;> first
    | decide +kernel

/-- Tenant 0's launch queue at 0x1000 with records pending; the record has the words l, and the entry's line has its TGT bits. -/
def dQueue (l : List Nat) : State :=
  let s := (((big d1).setCfg (lqBase 0) 0x1000).setCfg (lqCtl 0) (2 ^ 32 + 2)).setCfg (lqProd 0) 1
  pokeD ((l.zipIdx.map fun e => (0x1000 + 8 * e.2, e.1)) ++ [(0x78, 0x1F * 2 ^ 32)]) (s.setCfg (tenReg 0 0) 1)

theorem wit_LaunchEvents_queue :
    (let s := dQueue (launchWords.set 3 (4 + 4 * 2 ^ 10 + 2 ^ 17))
     (5 : Word).toNat ≠ 0 ∧ ((1 : Word) - s.cfgAt (lqCons 0)).toNat % 2 ^ 32 ≤ lqSize s 0 ∧ lqSize s 0 < ((9 : Word) - s.cfgAt (lqCons 0)).toNat % 2 ^ 32 ∧
       (s.cfgAt (lqCtl 0)).getLsbD 32 = true ∧ s.tenEn 0 = true ∧ lqPending s 0 ≠ 0 ∧ waitingLaunch s 0 = none ∧
       (match readRecord s 0 with
        | some bs => decide (rejectReason s { lid := s.nextLid, tenant := 0, words := (List.range 32).map (dwordAt bs) } = 0)
        | none => false) = true) ∧
    (let s := dQueue []
     (match readRecord s 0 with
      | some bs => let l : Launch := { lid := s.nextLid, tenant := 0, words := (List.range 32).map (dwordAt bs) }
        decide (rejectReason s l ≠ 0) && reportRoom s l
      | none => false) = true) ∧
    (let s := (dQueue []).setCfg (lqBase 0) 0x1000000
     readRecord s 0 = none ∧ waitingLaunch s 0 = none ∧ lqPending s 0 ≠ 0) ∧
    (d1.cfgAt (lqCtl 0)).getLsbD 32 = false := by
  and_intros <;> first
    | decide +kernel

theorem wit_LaunchEvents_start :
    (let s := { dQueue [] with binds := [], launches := [launch0] }
     waitingLaunch s 0 = some launch0 ∧ mustWait s launch0 = false) ∧
    (let s := { (dQueue []).setBind 0 0 (some { lid := 7 }) with launches := [launch0] }
     waitingLaunch s 0 = some launch0 ∧ mustWait s launch0 = true) := by
  and_intros <;> first
    | decide +kernel

/-- The launch with a completion record at 0x800. -/
def launch1 : Launch := { launch0 with words := launch0.words.set 7 0x800 }
/-- It is bound to core 0, and no context of it is left. -/
def dDone (l : Launch) (b : Bind) : State := { (dLaunch b) with launches := [l], ctxs := [] }

theorem wit_LaunchEvents_complete : ∀ l ∈ [launch1, { launch1 with stopped := some 0x20000 }, { launch1 with failures := [(1, 2)] }, { launch1 with exiting := true }],
    let s := dDone l (bind0 2 2)
    s.launch? 0 = some l ∧ l.dead = false ∧ (launchCores s 0 0).map (·.1) = [0] ∧ hasContext s 0 = false ∧ hasQueued s l = false ∧
      leesRoom s (lastCells s 0 0) = true ∧ reportRoom s l = true ∧ s.bind 0 0 = some (bind0 2 2) ∧
      (caddrPieces (lastRelease 0 s 0) l).map (fun p => (p.pa, placeOf s.part p.pa)) = [(0x800, .dram 0)] ∧ l.dw 8 = 0 := by
  intro l h
  simp only [List.mem_cons, List.not_mem_nil, or_false] at h
  obtain rfl | rfl | rfl | rfl := h <;> refine ⟨?_, ?_, ?_, ?_, ?_, ?_, ?_, ?_, ?_, ?_⟩ <;> decide +kernel
theorem wit_LaunchEvents_left :
    hasContext (dLaunch (bind0 2 2)) 0 = true ∧ (launch0.area 0 ≤ (0x20000 : Word).toNat) ∧ (0x20000 : Word).toNat < launch0.area 0 + 0x20000 ∧
    launch0.stopped = none ∧
    (match check (dLaunch (bind0 2 2) |>.setCfg (tenReg 0 0x108) 0x10000) 0 0 .wr 0x20000 1 with | .error _ => true | .ok _ => false) = true := by
  and_intros <;> first
    | decide +kernel

/-- Messages in flight. -/
def withMesh (l : List Msg) (s : State) : State := { s with fl := { s.fl with mesh := l } }

theorem wit_LaunchEvents_messages :
    (let s := withMesh [msg false false, msg false false] d1
     s.fl.mesh[1]? = some (msg false false) ∧ s.fl.mesh[0]? = some (msg false false) ∧ (mailHolder s 0 0).map (·.tenant) = some 0 ∧
       ((s.core 0).mail.filter fun x => x.line == false && !x.spilled).length < 64) ∧
    (let s := withMesh [{ msg false false with dst := 5 }] (withBind { lid := 0 } d1)
     s.fl.mesh[0]? = some { msg false false with dst := 5 } ∧ mailHolder s (tidCore 5) 5 = none ∧ savedHolder s (tidCore 5) 5 = none ∧
       (s.bind (tidCore 0) 0).map (·.lid) = some 0) ∧
    (let m := { msg false true with spilled := true }
     let s := withMesh [msg false true] (d1.modCore 0 fun c => { c with mail := List.replicate 16 (msg false true) ++ List.replicate 32 m })
     s.fl.mesh[0]? = some (msg false true) ∧ ((s.core 0).mail.filter fun x => x.line == true && !x.spilled).length = 16 ∧
       ((s.core 0).mail.filter fun x => x.spilled && x.tenant == spillOwner (s.core 0).mail (msg false true)).length = 32) ∧
    (let r : Registered := ⟨1024, 1024, 0, 0, 0, .timeline 0 1 1, 9, .core, false⟩
     let s := { (withBind { lid := 0 } dTl) with fl := { dTl.fl with conds := [r] } }
     s.fl.conds[0]? = some r ∧ contHolds s r.kind = true ∧ leesRoom s [(r.pa, 0)] = true ∧ contHolds d1 r.kind = false ∧ d1.cycle < r.deadline) := by
  and_intros <;> first
    | decide +kernel

/-! Events of the memory system -/

/-- Core 0's publication of a byte waits, behind none or behind another of its own. -/
def withWaiting (l : List PubWait) (s : State) : State := { s with coh := { s.coh with waiting := l } }
def wait0 : PubWait := ⟨5, 0, .die, [(640, 7)], 0⟩
/-- Two sibling halves of a region in die 0's directory. -/
def halves : List Region := [⟨0, 15, 1, [], 0, [], [], [], []⟩, ⟨256, 15, 2, [], 0, [], [], [3], []⟩]
def withRegions (l : List Region) (s : State) : State := s.modDie 0 fun d => { d with regions := l }
/-- A thread of core 1 with an outstanding load from core 0's scratchpad. -/
def remP : Piece := ⟨0x800000, spadBase + 8, 8, 0x1F⟩
def remO : Out := { id := 3, i := .ld nL .d false 9 (.reg 6) ⟨0, 0, 0⟩, src := { ps := [remP] }, pc := 0, left := 2 }
def dRemote : State := d1.setCtx 1 0 (some { iss := { outs := [remO] } })
/-- The demo context with one outstanding instruction. -/
def withOut (i : Instr) (src : Src) (s : State) : State := s.modC fun c => { c with iss := { c.iss with
  outs := [{ id := 4, i := i, src := src, pc := 0, left := 2 }] } }
def redI : Instr := .red nL false (.flt false .add) .core 5 6 ⟨0, 0, 0⟩
def stcI : Instr := .stc nL .d .core 5 6 ⟨0, 0, 0⟩ 6 none
def anyOut : Out := { id := 9, i := .nop n, src := {}, pc := 0, left := 0 }

theorem wit_MemoryEvents :
    (let s := withWaiting [wait0] d1
     s.coh.waiting[0]? = some wait0 ∧ leesRoom (s.asWho wait0.g 0) wait0.cells = true ∧ wait0.cells ≠ [] ∧ (wait0.cells.map fun c => cellAddr c.1).Nodup) ∧
    (let s := withWaiting [wait0, wait0] d1
     s.coh.waiting[1]? = some wait0 ∧ ∃ x ∈ s.coh.waiting.take 1, x.g = wait0.g) ∧
    (let s := { withRegions halves d1 with cycle := 2 ^ 20 }
     (s.die 0).regions[0]? = halves[0]? ∧ (s.die 0).regions.find? (mayMerge s (halves.getD 0 ⟨0, 0, 0, [], 0, [], [], [], []⟩)) = halves[1]? ∧
       0 < s.part.dies ∧ ((s.die 0).regions.map fun x => (x.line, x.gran)).Nodup) ∧
    (let s := withRegions (halves.take 1) d1
     (s.die 0).regions[0]? = halves[0]? ∧ ∀ b ∈ (s.die 0).regions, mayMerge s (halves.getD 0 ⟨0, 0, 0, [], 0, [], [], [], []⟩) b = false) ∧
    (let s := dRemote
     (let cc := (max s.cycle (s.core 0).reserved + 63) / 64 * 64
      remoteOuts { s with cycle := cc } 0 = [(1, 0, remO)]) ∧ (s.ctx 1 0).map (·.iss.outs) = some [remO] ∧ remO.port = {} ∧ remO.shadow = [] ∧
       (s.core 1).parked = [] ∧ remO.wait = none ∧ remO.src.bs = none ∧ remO.src.got = [] ∧ remO.src.sent = 0 ∧ remP.pa % remP.n = 0 ∧ pushedCells (s.asWho 1 0) = [] ∧ isRemote (s.asWho 1 0) remP = true ∧
       spadDenied (s.asWho 1 0) .rd [remP] = none ∧ lostIn (s.asWho 1 0) [remP] = none ∧ (∀ l ∈ pieceLines remP, tget 0 s.coh.hdr l = 0) ∧
       ∀ i, i < 8 → mixedAt s 8 (remP.pa + i) = false) ∧
    tget [] d1.coh.copies (5 * 4096) = [] ∧
    (let s : State := { dAcc 4 with coh := { (dAcc 4).coh with copies := [(5 * 4096, [(0, some 1)])] } }
     tget [] s.coh.copies (5 * 4096) = [(0, some 1)] ∧ placeOf s.part 640 = .dram 0 ∧ tget 0 s.coh.hdr 5 ≠ 0 ∧ 0 * hdrElem (tget 0 s.coh.hdr 5) < 128) ∧
    (let s : State := { dAcc 4 with coh := { (dAcc 4).coh with slices := [(5 * 4096, [(0, some 1)])] } }
     tget [] s.coh.slices (5 * 4096) ≠ []) ∧
    (let s := withOut redI { ps := [drP 640 4], w := [7] } (dAcc 4)
     let o := (s.outOf 0 0 4).getD anyOut
     (outsOf s isRed)[0]? = some (0, 0, o) ∧ s.outOf 0 0 o.id = some o ∧ mayPerform s 0 0 o = true ∧ o.port = {} ∧ o.shadow = [] ∧ (s.core 0).parked = [] ∧ o.src.ps = [drP 640 4] ∧
       o.i = redI ∧ CanUpdate (s.asWho 0 0) .add .core 0 (drP 640 4)) ∧
    (let s := withOut stcI { ps := [spP 8 8], qs := [drP 640 128], w := [7], job := 1 } d1
     let o := (s.outOf 0 0 4).getD anyOut
     (outsOf s (fun i => match i with | .stc .. => true | _ => false))[0]? = some (0, 0, o) ∧ mayPerform s 0 0 o = true ∧ o.port = {} ∧ o.shadow = [] ∧ (s.core 0).parked = [] ∧ o.src.job = 1 ∧
       o.src.w.length = 1 ∧ o.src.qs = [drP 640 128] ∧ placeOf s.part 640 = .dram 0 ∧ objTrap .wr 3 [drP 640 128] (s.asWho 0 0) = none ∧
       objRoom (s.asWho 0 0) [drP 640 128] = true) ∧
    (let s := withOut (.qwave nL 9 6) { ps := [drP 640 128], w := [0, 0], job := 1 } (withBind { lid := 0 } d1)
     let o := (s.outOf 0 0 4).getD anyOut
     (outsOf s (fun i => match i with | .qwave .. => true | _ => false))[0]? = some (0, 0, o) ∧ s.outOf 0 0 o.id = some o ∧ mayPerform s 0 0 o = true ∧
       o.port = {} ∧ o.shadow = [] ∧ (s.core 0).parked = [] ∧ (∀ p ∈ o.src.ps, isRemote (s.asWho 0 0) p = false) ∧ o.i = .qwave nL 9 6 ∧ 0 < o.src.job ∧ objTrap .wr 1 o.src.ps (s.asWho 0 0) = none ∧
       (waveCore (s.asWho 0 0) 0).map (·.1) = some 0 ∧ waveCore (s.asWho 0 0) 1 = none ∧ objRoom (s.asWho 0 0) o.src.ps = true) := by
  and_intros <;> first
    | decide +kernel
    | (constructor <;> decide +kernel)

/-! Events of the units and of the device -/

/-- A sequence of two tokens at 0x100 with its counts at 0x180, a greedy chain at 0x140, two rows of logits at 0x1C0, an SMPL request at
0x240 and an SMPLV request at 0x280 with one draft token, 1, for node 1 of template 0. -/
def dPress (l : List PrJob) (vs : List Verdict) : State :=
  let s := pokeD [(0x118, 0x180), (0x120, 2), (0x148, 7), (0x1C0, 0x3F80000000000000), (0x240, 0x100), (0x248, 0x1C0), (0x258, 0x140), (0x260, 0x200),
    (0x280, 0x100), (0x288, 0x1C0), (0x290, 8 * 2 ^ 32), (0x298, 0x300), (0x2A0, 8), (0x2A8, 0x340), (0x2B0, 0x140), (0x2C8, 0x380),
    (0x340, 2 ^ 32)] d1
  ({ s with trees := [(0, some [0xFF, 0])] } : State).modDie 0 fun d => { d with press := l, verdicts := vs }
def prj (c : PrCmd) : PrJob := { g := 0, job := 1, tenant := 0, cmd := c }
def verd : Verdict := ⟨0, 0, 0x100, 3, [1], 0⟩
def okB {ε α : Type} (e : Except ε α) : Bool := match e with | .ok _ => true | .error _ => false
/-- A job ends with a code. -/
def failsWith {α : Type} (e : Except EngEnd α) : Bool := match e with | .error (.fail c) => c != 0 | _ => false

theorem wit_UnitEvents_press :
    (let s := dPress [prj (.smpl 0x240)] []
     (s.die 0).walk = none ∧ (s.die 0).press = [prj (.smpl 0x240)] ∧ (prj (.smpl 0x240)).cancel = false ∧
       okB (runSmpl (dPress [] []) 0 (prj (.smpl 0x240)) 0x240) = true ∧
       failsWith (runSmpl (dPress [] []) 0 (prj (.smpl 0x280)) 0x280) = true) ∧
    (let s := dPress [prj (.smcommit 0x100 3)] [verd]
     (s.die 0).press = [prj (.smcommit 0x100 3)] ∧ verdictOf s 0 0 0x100 = some verd ∧ verd.job = 3 ∧ (0x100 : Word).toNat % 64 = 0 ∧
       okB (engRead (dPress [] [verd]) 0 0 0x100 64) = true ∧
       (match engRead (dPress [] [verd]) 0 0 0x100 64 with
        | .ok (b, x) => seqOk b && (match countWrites x 0 0 b (verd.toks ++ [verd.next]) with
          | .ok (ws, z) => okB (prWrites z 0 0 (ws ++ [(0x100 + 8, bytesOf 8 (seqStep b + BitVec.ofNat 64 (verd.toks.length + 1)).toNat)]))
          | .error _ => false)
        | .error _ => false) = true) ∧
    (let s := dPress [prj (.smcommit 0x100 3)] []
     ∀ y ∈ (s.die 0).verdicts, ¬ (y.tenant = 0 ∧ va56 y.seq = va56 0x100)) ∧
    ({ prj (.smcommit 0x100 3) with cancel := true }).cancel = true ∧
    okB (startTree (dPress [] []) 0 (prj (.smplv 0x280)) 0x280) = true ∧
    (match startTree (dPress [] []) 0 (prj (.smplv 0x240)) 0x240 with | .error c => c != 0 | _ => false) = true := by
  and_intros <;> decide +kernel

theorem wit_UnitEvents_walk :
    (match startTree (dPress [] []) 0 (prj (.smplv 0x280)) 0x280 with
     | .ok (w, (s : State)) =>
       let w : PrWalk := { w with p := [0, 0x3F800000], q := [0, 0] }
       let s := s.modDie 0 fun d => { d with walk := some w }
       let put (bs : List Byte) := prWrites s 0 0 [(dwordAt w.req 9, bs)]
       !w.job.cancel && !w.leaf && okB (put (verdictRecord true 0 (seqStep w.blk) [] [])) && liveKids w w.node == [1] && liveKids w 1 == [] &&
         (match tryKids w (liveKids w w.node) (w.p.map fun (x : W32) => x.toNat) (w.q.map fun (x : W32) => x.toNat) with
          | (some c, _, _) => c == 1 && okB (prAt s { w with depth := w.depth + 1 } c (w.path ++ [c]))
          | _ => false) &&
         okB (put (verdictRecord false (prArgMax (w.p.map fun (x : W32) => x.toNat)) (seqStep w.blk) w.path []))
     | .error _ => false) = true := by decide +kernel

/-- A request of the special-function unit. -/
def sfuR : SfuReq := ⟨0, 0, 4, true, .vexp n (v 1) (v 2) 0 ⟨false, 0⟩, v 1, 0, 0xFFFF, none⟩
def withSfu (q : List SfuReq) (run : List (SfuReq × Nat)) (nx : Nat) (s : State) : State := s.modCore 0 fun c => { c with eng := { c.eng with
  sfuQ := q, sfuRun := run, sfuNext := nx } }

theorem wit_UnitEvents_others :
    (let s := withOut (.rlen nL 9 6) { w := [640] } (dRope 1)
     s.c.iss.outs.find? (fun x => isRope x.i && x.trap.isNone) = s.outOf 0 0 4 ∧ (s.outOf 0 0 4).isSome = true ∧ (s.die 0).ropes = []) ∧
    (let s := (withOut (.rlen nL 9 6) { w := [640] } (dRope 1)).modDie 0 fun d => { d with ropes := List.replicate 8 ⟨0, 1, 9, 0⟩ }
     8 ≤ ((s.die 0).ropes.filter fun r => r.unit == 0).length ∧ s.c.iss.outs.find? (fun x => isRope x.i && x.trap.isNone) = s.outOf 0 0 4) ∧
    (let s := (withOut (.rlen nL 9 6) { w := [640] } (dRope 1)).modDie 0 fun d => { d with ropes := [⟨0, 0, 4, 0⟩] }
     let u := (s.asWho 0 0).modCtx 0 0 fun c => { c with iss := { c.iss with port := {}, pair := none } }
     ((s.die 0).ropes.filter fun r => r.unit == 0)[0]? = some ⟨0, 0, 4, 0⟩ ∧ (s.outOf 0 0 4).map (·.port) = some {} ∧
       (match perfRope (.rlen nL 9 6) { w := [640] } u with | .done x => decide (x.c.iss.port = {}) | _ => false) = true ∧
       (match perfRope (.rlen nL 9 6) { w := [1] } u with | .trap _ => true | _ => false) = true) ∧
    (let s := (dRope 1).modDie 0 fun d => { d with reclaim := [⟨0, 0, 768, false⟩, ⟨0, 0, 1, false⟩] }
     (s.die 0).reclaim[0]? = some ⟨0, 0, 768, false⟩ ∧ (ropeEnv s 0 0).poolLine 768 = true ∧ okIs (check s 0 0 .wr 768 8) [drP 768 8] = true ∧
       placeOf s.part 768 = .dram 0 ∧ leesRoom s (pieceCells [drP 768 8] (bytesOf 8 0)) = true ∧ (s.die 0).reclaim[1]? = some ⟨0, 0, 1, false⟩ ∧
       (ropeEnv s 0 0).poolLine 1 = false ∧ (s.cfgAt (ropeStat 0 0)).getLsbD 63 = false) ∧
    (let s := withSfu [sfuR] [] 0 d1
     (s.core 0).eng.sfuQ = [sfuR] ∧ (s.core 0).eng.sfuNext ≤ s.cycle) ∧
    (let s := withSfu [sfuR] [] 4 d1
     (s.core 0).eng.sfuQ = [sfuR] ∧ s.cycle < (s.core 0).eng.sfuNext) ∧
    (let s := { withSfu [] [(sfuR, 0)] 4 d1 with cycle := 20 }
     (s.core 0).eng.sfuRun = [(sfuR, 0)] ∧ (s.ctx 0 0).isSome = true ∧ 0 + 20 ≤ s.cycle ∧ sfuR.elems = none ∧ sfuR.dst.shared = false ∧ sfuR.last = true) ∧
    (let s := withSfu [] [(sfuR, 0)] 4 d1
     (s.core 0).eng.sfuRun = [(sfuR, 0)] ∧ s.cycle < 0 + 20) ∧
    (let s := withStream { strR with n := [20, 1, 1, 1], left := 20 } d1
     let x := (s.asWho 0 0).stream ⟨false, 28 + (0 : BitVec 2).setWidth 5⟩
     x.st = .running ∧ x.wr = false ∧ x.ahead.length < x.left ∧ (x.ahead.length + 1) * 2 ^ x.size.toNat ≤ 512 ∧
       okIs (check s 0 0 .rd (x.addr x.ahead.length) (2 ^ x.size.toNat)) [drP 648 4] = true ∧ isRemote s (drP 648 4) = false ∧
       (∀ l ∈ pieceLines (drP 648 4), tget 0 s.coh.hdr l = 0) ∧ spadDenied s .rd [drP 648 4] = none ∧ lostIn s [drP 648 4] = none) ∧
    (let s := withStream { strW with pushed := [([drP 640 4], bytesOf 4 1)] } d1
     ((s.asWho 0 0).stream ⟨false, 28⟩).pushed = [([drP 640 4], bytesOf 4 1)]) ∧
    (d1.stream ⟨false, 28⟩).st ≠ .running ∧ (d1.stream ⟨false, 28⟩).pushed = [] ∧
    (let s := { d1 with fl := { d1.fl with invs := [{ g := 0, tid := 0, tenant := 0, lo := 0, len := 1, scope := .core }] } }
     (s.fl.invs[0]?).isSome = true ∧ inScope .core 0 0 = true) := by
  and_intros <;> decide +kernel

theorem wit_FaultEvents :
    d1.alive 0 = true ∧ (d1.setCfg (modReg 8) 1).alive 0 = false ∧ placeOf d1.part (5 * 128) = .dram 0 ∧ d1.coh.mirror.contains 5 = false ∧
    lineLost d1 640 = false ∧ (d1.die 0).lost.length < 4096 ∧
    (let s : State := { d1 with coh := { d1.coh with mirror := [5] } }
     s.coh.mirror.contains 5 = true ∧ s.alive 0 = true) ∧
    (let s : State := { d1 with sec := { d1.sec with standby := true } }
     s.sec.standby = true) ∧ d1.sec.standby = false ∧ jobsRun (stopTenant d1 0) 0 = false ∧ (0 : DieNo).toNat < d1.part.dies ∧ bootStopped d1 = false ∧
    (d1.cfgAt (modReg 0x10)).toNat < 2 ^ 10 ∧ bootStopped (d1.setCfg (modReg 0x28) 3) = true ∧ 4 % 8 ≠ 0 ∧ (∃ x ∈ [true, true], x = true) := by
  and_intros <;> decide +kernel

/-- An atomic operation on a host window, outstanding. -/
def hostP : Piece := ⟨0x800000, hostBase + 0x10000, 8, 0x1F⟩
def amoI : Instr := .amo nL false .add .core 9 6 ⟨0, 0, 0⟩ 5
def dHost : State := (withOut amoI { ps := [hostP], w := [7] } d1).setCfg (modReg 0x100) 1 |>.setCfg (modReg 0x108) 0x40000000
def flit (seq : Nat) (ok : Bool) : Flit := ⟨BitVec.ofNat 12 seq, 0, ok, []⟩
def dPort (s : State) : State := s.setCfg (portReg 3) (2 ^ 63)

theorem wit_LinkEvents :
    (let o := (dHost.outOf 0 0 4).getD anyOut
     findOut dHost 4 = some (0, 0, o) ∧ (rmwOf o.i o.src).isSome = true ∧ o.src.ps.any (nonCoherent dHost) = true ∧ o.i = amoI ∧ o.port = {}) ∧
    findOut d1 4 = none ∧ inDram d1 640 128 = true ∧ lineLost d1 640 = false ∧ homeGone d1 640 0 = false ∧ tget 0 d1.coh.hdr 5 = 0 ∧
    lineLost dLost 640 = true ∧ inDram d1 640 8 = true ∧ leesRoom d1 (cellsAt 640 (bytesOf 8 1)) = true ∧ 640 % 8 = 0 ∧
    leesRoom (recallLines d1 [⟨640, 640, 8, 0⟩]) (cellsAt 640 (d1.memBytes 640 8)) = true ∧ inDram d1 hostBase 8 = false ∧
    (let s := dPort d1
     portUp s 3 = true ∧ (s.fport 3).nak = false ∧ (flit 0 false).crcOk = false ∧ (flit 0 true).seq = (s.fport 3).rxNext ∧ s.fl.fabOut = [] ∧
       cutMessages 1 [] = ([], []) ∧ 1 ≤ ((s.fport 3).rxNext - (flit 4095 true).seq).toNat ∧ ((s.fport 3).rxNext - (flit 4095 true).seq).toNat ≤ 2048) ∧
    portUp d1 3 = false ∧ 3 < d1.part.ports := by
  and_intros <;> decide +kernel

theorem wit_SecurityMessages :
    bootStopped (d1.setCfg (modReg 0x28) 3) = true ∧ bootStopped d1 = false ∧ d1.sec.handshake < 3 ∧
    (∀ h ∈ [1, 2, 3, 4], ({ d1 with sec := { d1.sec with handshake := h } } : State).sec.handshake = h) := by
  and_intros <;> decide +kernel

/-! The step, frames, guards, ports and waits -/

/-- A thread about to issue NOP by a turn. -/
def dTurn : State := { withThreadWord State.reset 0x0001_0000_0000_0000_0000_0000 with pending := [.turn 0 0] }

theorem wit_StepRunsDecodedInstruction :
    (let t := toTurn { dTurn with pending := [] } 0 0 0
     let c := (t.ctx 0 0).getD {}
     dTurn.pending = [.turn 0 0] ∧ MayIssue t 0 0 c ∧ (match fetch t 0 c.tenant c.pc with
       | .line bs => (lineBad bs).isNone && !joinsTransfer bs 0 && !pairBit bs 0 && reads (BitVec.ofNat 96 (ofBytes (bs.take 12))) (.nop n)
       | _ => false) = true) ∧
    (let s := { (scal .loader {} []).modScalar 0 .loader (fun y => { y with imem := [(0, 0x13)] }) with pending := [.scalar 0 .loader] }
     s.pending = [.scalar 0 .loader] ∧ (s.scalar 0 .loader).running = true ∧ scalarFetch (s.scalar 0 .loader) = some 0x13) ∧
    ({ d1 with pending := [.event .leesRelease] } : State).pending = [.event .leesRelease] ∧ d1.pending = [] := by
  refine ⟨⟨by decide +kernel, ⟨by decide +kernel, ?_, by decide +kernel, by decide +kernel, by decide +kernel, ?_, by decide +kernel, by decide +kernel⟩,
      by decide +kernel⟩,
    ⟨by decide +kernel, by decide +kernel, by decide +kernel⟩, rfl, by decide +kernel⟩
  · refine ⟨by decide +kernel, by decide +kernel, by decide +kernel, fun l hl => ?_⟩
    have : (toTurn { dTurn with pending := [] } 0 0 0).launch? (((toTurn { dTurn with pending := [] } 0 0 0).ctx 0 0).getD {}).task.lid = none := by
      decide +kernel
    rw [this] at hl
    cases hl
  · intro w n hw
    have : ((((toTurn { dTurn with pending := [] } 0 0 0).ctx 0 0).getD {}).iss.wait) = none := by decide +kernel
    rw [this] at hw
    cases hw

theorem wit_EncodeDecodeRoundTrip :
    (Instr.add n 5 6 7).wf = true ∧ encode (.add n 5 6 7) = some (wd 0x01 0 5 6 7 0 0 0) ∧ (encodeTile (.tfill 10 11 12)).isSome = true := by decide
theorem wit_DecodeGivesWellFormed : decodeWord (wd 0x01 0 5 6 7 0 0 0) = .ok (.add n 5 6 7) := rfl
theorem wit_MemoryStaysCanonical : dTurn.mem.wf ∧ ∃ t, step dTurn = .next t := by
  refine ⟨by decide +kernel, ?_⟩
  have h : (match step dTurn with | .next _ => true | _ => false) = true := by decide +kernel
  match hs : step dTurn with
  | .next t => exact ⟨t, rfl⟩
  | .fault _ => simp [hs] at h
  | .refused _ => simp [hs] at h

/-- A next state. -/
def okN (x : Host.Outcome State Fault Refusal) : Bool := match x with | .next _ => true | _ => false

theorem wit_LoadsAndStoresFrame :
    NoTraps d1 ∧ d1.coh.copies = [] ∧ Issues d1 n (memRegs (.ld n .d false 9 (.reg 6) ⟨0, 0, 0⟩)) ∧ okN (exec (.ld n .d false 9 (.reg 6) ⟨0, 0, 0⟩) d1) = true ∧
    StoreForm d1 n (.st n .d 5 (.reg 6) ⟨0, 0, 0⟩) [drP 640 8] (bytesOf 8 7) ∧ Issues d1 n (memRegs (.st n .d 5 (.reg 6) ⟨0, 0, 0⟩)) ∧
    overQuota d1 0 0 n.hint [drP 640 8] = false ∧ CanWrite d1 [drP 640 8] ∧
    (∀ l ∈ pieceLines (drP 640 8), leafKey (drP 640 8).leaf = 0 ∧ keyOk d1 0 (drP 640 8).leaf (l * 128) = true) ∧
    Issues d1 nL (memRegs (.st nL .d 5 (.reg 6) ⟨0, 0, 0⟩)) ∧ ownSpad d1 [drP 640 8] = false := by
  refine ⟨noTraps_of (by decide +kernel), by decide +kernel, issues_of (by decide +kernel), by decide +kernel, ?_, issues_of (by decide +kernel),
    by decide +kernel, by constructor <;> decide +kernel, by decide +kernel, issues_of (by decide +kernel), by decide +kernel⟩
  exact StoreForm.st .d 8 5 (.reg 6) ⟨0, 0, 0⟩ 640 [drP 640 8] (by decide) (operand_reg (by decide +kernel)) (ok_of (by decide +kernel))

/-- The queue ports of the demo context: Q0 is bound to inter-group queue 3, which holds l. -/
def withPorts (l : List Word) (b : Bind) : State := (withBind { b with qp := true, qpbind := 67 } d1).modDie 0 fun d => { d with igq := [(3, l)] }

theorem wit_GuardsAndPorts :
    (let ct : Ctl := { n with g1 := 3 }
     (encodeFields (.add ct 5 6 7)).isSome = true ∧ Thread d1 ∧ NoTraps d1 ∧ d1.b.qp = false ∧ guardOf ct d1 = false ∧ d1.c.goesOn = false) ∧
    (let s := withPorts [7] { lid := 0 }
     Issues s n [9, 5] ∧ NoTraps s ∧ s.c.iss.port = {} ∧ (∀ o ∈ s.c.iss.outs, o.id < s.nextId) ∧ s.b.qp = true ∧ fld s.b.qpbind 7 0 = 64 + 3 ∧
       s.c.iss.wait = none ∧ (∀ e ∈ heldCtxs s, e.2.waits = []) ∧ s.igq 0 3 = [7] ∧ fld s.b.qpbind 15 8 = 0) ∧
    (let s := withPorts [] { lid := 0, qpto := 5 }
     Issues s n [9, 5] ∧ s.igq 0 3 = [] ∧ s.b.qpto ≠ 0 ∧ s.c.iss.wait = none) ∧
    (let s := dWait (.pop 19) 0 (withPorts [] { lid := 0 })
     Issues s n [9, 5] ∧ s.igq 0 3 = [] ∧ s.b.qpto = 0 ∧ s.c.iss.wait = some ⟨.pop 19, 0, 0, false, 0⟩ ∧ 0 ≤ s.cycle) ∧
    (let s := withPorts (List.replicate 32 1) { lid := 0 }
     Issues s n [9, 5] ∧ 32 ≤ (s.igq 0 3).length ∧ s.b.qpto = 0) := by
  and_intros <;> first
    | decide +kernel
    | exact issues_of (by decide +kernel)
    | exact noTraps_of (by decide +kernel)
    | exact ⟨0, 0, by decide +kernel, by decide +kernel⟩

theorem wit_WaitsEnd :
    (let s := dWait (.mail false) 9 d1
     Issues s n [9, 6, 5] ∧ NoTraps s ∧ s.c.iss.wait = some ⟨.mail false, 0, 9, false, 0⟩ ∧ s.cycle < 9 ∧ streamOf s (v 1) = none ∧
       ∀ x ∈ (s.core s.g.toNat).mail, x.dst = s.c.tid → x.line ≠ false) ∧
    (let s := dWait (.barrier 640) 0 (dObj (3 * 2 ^ 56 + 2 ^ 48 + 3 * 2 ^ 32 + 2) 1 2)
     Issues s n [9, 6, 3] ∧ NoTraps s ∧ s.c.iss.wait = some ⟨.barrier 640, 0, 0, false, 0⟩ ∧ 0 ≤ s.cycle ∧ checkObj s .rd (rdG s 6) = .ok [drP 640 128] ∧
       CanUse s .rd [drP 640 128] ∧ scopeOk (objScope (objBytes s [drP 640 128])) = true ∧
       objArrived (objBytes s [drP 640 128]) < objExpect (objBytes s [drP 640 128]) ∧ 2 < objNchunk (objBytes s [drP 640 128]) ∧
       (dwordAt (objBytes s [drP 640 128]) 2).getLsbD 2 = false) ∧
    (let s := dWait (.join 640) 0 (pokeD [(640, 3)] d1)
     Issues s n [9, 6, 5] ∧ NoTraps s ∧ checkCounter s .rd (rdG s 6) = .ok [drP 640 16] ∧ objTrap .rd 1 [drP 640 16] s = none ∧
       0 < (dwordAt (objBytes s [drP 640 16]) 0).toInt ∧ s.c.iss.wait = some ⟨.join 640, 0, 0, false, 0⟩) ∧
    (let s := dWait .sleep 0 d1
     Issues s n [9, 6, 5] ∧ s.c.iss.wait = some ⟨.sleep, 0, 0, false, 0⟩) := by
  and_intros <;> first
    | decide +kernel
    | exact issues_of (by decide +kernel)
    | exact ok_of (by decide +kernel)
    | exact noTraps_of (by decide +kernel)
    | exact operand_reg (by decide +kernel)
    | (constructor <;> decide +kernel)

/-! Clauses on the order of accesses, on other memories, and on units that are full -/

/-- A page of a non-coherent host window at 0x800000, with its link up. -/
def dHostPage : State := { (((d1.setCfg (modReg 0x100) 1).setCfg (modReg 0x108) 0x40000001).modCore 0 fun c => { c with cache := { c.cache with
  tlb := [⟨0, 0, 12, 0x1F⟩, ⟨0, 0x800, 12, BitVec.ofNat 64 (hostBase + 0x10000) + 0x1F⟩] } }) with linkUp := [true, true] }
def hostQ : Piece := ⟨0x800000, hostBase + 0x10000, 16, BitVec.ofNat 64 (hostBase + 0x10000) + 0x1F⟩

theorem wit_StrongAccesses_host :
    (let s := wg [(6, 0x800000)] dHostPage
     Issues s n [9, 6, 10, 0] ∧ NoTraps s ∧ check s 0 0 .rd 0x800000 16 = .ok [hostQ] ∧ inOrder s (.ldnow n false .q .die 9 6 ⟨0, 0, 0⟩ 10) { ps := [hostQ] } = true ∧
       CanRead s [hostQ] ∧ mixTrap s 0 16 [hostQ] = none ∧ [hostQ].any (nonCoherent s) = true) := by
  and_intros <;> first
    | decide +kernel
    | exact issues_of (by decide +kernel)
    | exact ok_of (by decide +kernel)
    | exact noTraps_of (by decide +kernel)
    | (constructor <;> decide +kernel)

/-- A return-address ring in core 1's scratchpad. -/
def dRing (r : Ras) : State := withRas { r with base := 1 } (((wg [(2, 0x10044)] demo).modCore 0 fun c => { c with cache := { c.cache with
  tlb := [⟨0, 0, 12, 0x1F⟩, ⟨0, 1, 12, BitVec.ofNat 64 (spadBase + 0x20000) + 0x1F⟩] } }).modCore 1 fun c => { c with tenant := some 0 })
def ringP : Piece := ⟨0x1008, spadBase + 0x20008, 8, BitVec.ofNat 64 (spadBase + 0x20000) + 0x1F⟩

theorem wit_ControlTransfers_ring :
    (let s := withRas { depth := 8, stored := 8, sz := 1 } (wg [(2, 0x10044)] demo)
     inOrder s (.callr n 2) { ps := [drP 0 8], w := [(s.c.ras.entry 0).setWidth 64] } = true ∧ isRemote s (drP 0 8) = false ∧
       spadDenied s .wr [drP 0 8] = none) ∧
    (let s := dRing { depth := 8, stored := 8, sz := 7, head := 1 }
     Issues s n [1, 2] ∧ NoTraps s ∧ s.c.ras.stored = 8 ∧ checkTarget s (rdG s 2) = .ok 0x10044 ∧ check s 0 0 .wr 0x1008 8 = .ok [ringP] ∧
       overQuota s 0 0 0 [ringP] = false ∧ isRemote s ringP = true) ∧
    (let s := withRas { depth := 1, spilled := 1, sz := 1 } demo
     inOrder s (.ret n) { ps := [drP 8 8], bs := boundBytes s [drP 8 8], job := s.c.pc.toNat } = true ∧ CanRead s [drP 8 8] ∧
       checkReturn (wordOfBytes (readBytes s [drP 8 8])) = .ok 0) ∧
    (let s := dRing { depth := 1, spilled := 1, sz := 7, head := 2 }
     Issues s n [1, 2] ∧ NoTraps s ∧ s.c.ras.stored = 0 ∧ check s 0 0 .rd 0x1008 8 = .ok [ringP] ∧ isRemote s ringP = true) := by
  and_intros <;> first
    | decide +kernel
    | exact issues_of (by decide +kernel)
    | exact ok_of (by decide +kernel)
    | exact noTraps_of (by decide +kernel)
    | (constructor <;> decide +kernel)

theorem wit_LaunchForkJoin_clear : Clear d1 [drP 640 16] ∧ Clear dRec [drP 1024 256] ∧
    Clear (withTask { jctr := 640 } (withLaunch 0 d1)) [drP 640 16] ∧ Clear (pokeD [(1032, 1)] dRec) [drP 1024 256] :=
  ⟨clear_of _ (by decide +kernel), clear_of _ (by decide +kernel), clear_of _ (by decide +kernel), clear_of _ (by decide +kernel)⟩

theorem wit_LaunchEvents_sent :
    let i : Instr := .send nL false false 5 9
    let s := withMesh [{ msg false false with out := 4 }] (withOut i { w := [0, 0] } d1)
    let o := (s.outOf 0 0 4).getD anyOut
    s.fl.mesh[0]? = some { msg false false with out := 4 } ∧ (allOuts s).filter (fun e => e.2.2.id == 4) = [(0, 0, o)] ∧ isSend o.i = true ∧ o.port = {} := by
  and_intros <;> decide +kernel

theorem wit_UnitEvents_held :
    (let s := (withOut (.rlen nL 9 6) { w := [640], job := 3 } (dRope 1)).modDie 0 fun d => { d with ropes := List.replicate 8 ⟨0, 1, 9, 0⟩ }
     8 ≤ ((s.die 0).ropes.filter fun r => r.unit == 0).length ∧ (s.core 0).parked = [] ∧ (s.outOf 0 0 4).map (·.src.job) = some 3 ∧
       ∀ r ∈ (s.die 0).ropes, r.out ≠ 4) ∧
    (let s := { withSfu [] [(sfuR, 0)] 4 d1 with cycle := 20 }
     s.c.iss.shadow = [] ∧ s.c.iss.outs = []) ∧
    (let s := withStream { strR with n := [20, 1, 1, 1], left := 20 } d1
     pushedCells s = [] ∧ s.c.iss.outs = []) ∧
    (let s := (dEng.modDie 0 fun d => { d with ropes := List.replicate 8 ⟨0, 1, 9, 0⟩ })
     Issues s n [9, 6, 7, 8, 11] ∧ NoTraps s ∧ ¬ ((s.die 0).ropes.filter fun r => r.unit == 0).length < 8) := by
  and_intros <;> first
    | decide +kernel
    | exact issues_of (by decide +kernel)
    | exact noTraps_of (by decide +kernel)

/-- Line 5's home copy, and the mirror attribute of its page. -/
def withL2 (x : L2Line) (s : State) : State := s.modDie 0 fun d => { d with l2 := [(5, some x)] }
def l2c (dirty : Bool) : L2Line := { tenant := 0, pri := 0, used := 0, dirty := dirty }

theorem wit_FaultEvents_copies :
    (let s : State := { d1.setCfg (modReg 8) 1 with coh := { d1.coh with attr := [(5, 4)] } }
     s.alive 0 = false ∧ attrMir (tget 0 s.coh.attr 5) = true ∧ s.alive (Nat.xor 0 1) = true) ∧
    ((d1.setCfg (modReg 8) 1).alive 0 = false ∧ attrMir (tget 0 d1.coh.attr 5) = false) ∧
    l2At (withL2 (l2c false) d1) 0 5 = some (l2c false) ∧ l2At (withL2 (l2c true) d1) 0 5 = some (l2c true) ∧ l2At d1 0 5 = none ∧
    d1.alive (Nat.xor 0 1) = true ∧ (d1.setCfg (modReg 8) 2).alive (Nat.xor 0 1) = false ∧ (d1.setCfg (modReg 8) 2).alive 0 = true := by
  and_intros <;> decide +kernel

theorem wit_LinkEvents_order :
    (let o := (dHost.outOf 0 0 4).getD anyOut
     mayPerform dHost 0 0 o = true ∧ (dHost.core 0).parked = [] ∧ o.shadow = [] ∧ o.src.ps.length = 1) ∧
    ((allOuts dHost).map (·.2.2.id)).Nodup := by
  and_intros <;> decide +kernel

theorem wit_CopyAndCollectiveEvents_late :
    let s := { withColls [coll true [pieceC]] grp2 with cycle := 2 ^ 40 }
    ∃ cc, collLimit s (coll true [pieceC]) = some cc ∧ cc < s.cycle := ⟨_, rfl, by decide +kernel⟩

theorem wit_MatrixEvents_out : (dPush.core 0).parked = [] ∧ (dPush.outOf 0 0 4).map (·.shadow) = some [] := by
  and_intros <;> decide +kernel

theorem wit_StepRunsDecodedInstruction_host :
    ({ d1 with pending := [.hostStore 8 [1, 2]] } : State).pending = [.hostStore 8 [1, 2]] ∧ [(1 : Byte), 2].length ≤ 2 ^ 50 := by
  and_intros <;> decide +kernel

/-- Slot 1 of core 0 stands at the second NOP of a pair that it has begun, and slot 0 is empty. -/
def dLent : State :=
  let w : BitVec 96 := 0x0001_0000_0000_0000_0000_0000
  let line := bytesOf 12 w.toNat ++ bytesOf 12 w.toNat ++ bytesOf 36 0 ++ bytesOf 4 ((lineParity [w, w, 0, 0, 0] 33).toNat * 65536 + 33)
  let s := (withThreadWord State.reset w).modCore 0 fun c => { c with cache := { c.cache with icache := [(0, some ⟨0, line⟩)] } }
  { (s.setCtx 0 0 none).setCtx 0 1 (some { tid := 1, pc := 1, iss := { prev := some 0, seq := true } }) with pending := [.lent 0 1] }

theorem wit_StepRunsDecodedInstruction_lent :
    let t := (toTurn { dLent with pending := [] } 0 0 0).asWho 0 1
    let c := (t.ctx 0 1).getD {}
    dLent.ctx 0 0 = none ∧ dLent.pending = [.lent 0 1] ∧ t.ctx 0 1 = some c ∧ c.halted = false ∧ c.iss.skip = false ∧ c.iss.lend = 0 ∧
    t.launch? c.task.lid = none ∧ c.iss.entry = none ∧ c.replay = false ∧ c.again = [] ∧ c.iss.outs = [] ∧ c.waits = [] ∧ c.iss.wait = none ∧
    phlimitDue t 0 c = false ∧ c.iss.rep.done = 0 ∧ c.iss.prev = some (c.pc - 1) ∧ c.iss.seq = true ∧
    (match fetch t 0 c.tenant c.pc with
     | .line bs => (lineBad bs).isNone && !joinsTransfer bs 1 && pairBit bs 0 && reads (BitVec.ofNat 96 (ofBytes ((bs.drop 12).take 12))) (.nop n)
     | _ => false) = true := by
  and_intros <;> decide +kernel

/-! ### Small steps with the values that the spec works out -/

/-- What a register holds after an instruction, where it answers a next state. -/
def gIs (i : Instr) (s : State) (r : GReg) (x : Word) : Bool :=
  match exec i s with
  | .next t => decide (rdG t r = x)
  | _ => false
/-- What an instruction leaves, where it answers a next state. -/
def leaves (i : Instr) (s : State) (p : State → Bool) : Bool :=
  match exec i s with
  | .next t => p t
  | _ => false

-- R43, R44: ADDI g7, g7, -1, and ?p1 BR to slot 2 of the line at 0x123456780
theorem test_word_addi : reads 0x0200_0E1C_07FF_E000_0FFF_FFFF (.addi n 7 7 (-1)) = true := by decide +kernel
theorem test_word_br : reads 0x1500_0000_0002_4400_0345_6782 (.br { n with g1 := 1 } 0x123456782) = true := by decide +kernel

-- R99 and the chapter's example: −7 / 2 = −3, remainder −1; R102: a 64-bit constant by MOVI and MOVHI
theorem test_div_truncates : gIs (.div n 5 6 7) (wg [(6, -7), (7, 2)] demo) 5 (-3) = true := by decide +kernel
theorem test_rem_sign : gIs (.rem n 5 6 7) (wg [(6, -7), (7, 2)] demo) 5 (-1) = true := by decide +kernel
theorem test_movi : gIs (.movi n 5 0x123456789ABCDE) demo 5 0x123456789ABCDE = true := by decide +kernel
theorem test_movhi : gIs (.movhi n 5 0xF0) (wg [(5, 0x123456789ABCDE)] demo) 5 0xF0123456789ABCDE = true := by decide +kernel

-- tutorial, fragment 1: 12 · 12 + 7 = 151, 12 < 1000, and a false guard changes nothing
theorem test_mul : gIs (.mul n 7 5 5) (wg [(5, 12)] demo) 7 144 = true := by decide +kernel
theorem test_addi : gIs (.addi n 7 7 7) (wg [(7, 144)] demo) 7 151 = true := by decide +kernel
theorem test_addi_minus : gIs (.addi n 7 7 (-1)) demo 7 (BitVec.allOnes 64) = true := by decide +kernel
theorem test_cmp : leaves (.cmp n .lt .n64 1 5 6) (wg [(5, 12), (6, 1000)] demo) (fun t => t.c.regs.p.getLsbD 1) = true := by decide +kernel
theorem test_guard_false : gIs (.addi { n with g1 := 1 } 7 7 7) (wg [(7, 144)] demo) 7 144 = true := by decide +kernel

-- R101: the signed field g6[19:12], and a field clipped at bit 63
theorem test_bfx_s : gIs (.bfxS n 5 6 12 8) (wg [(6, 0x80000)] demo) 5 (-128) = true := by decide +kernel
theorem test_bfx_clip : gIs (.bfxZ n 5 6 60 10) (wg [(6, 0xA000000000000001)] demo) 5 0xA = true := by decide +kernel

-- R46: writing g0 is discarded; R132: a store is read back by its own core, and memory itself is not yet written (R155)
theorem test_g0 : gIs (.addi n 0 0 7) demo 0 0 = true := by decide +kernel
theorem test_store_unpublished : leaves (.st n .d 5 (.reg 6) ⟨0, 0, 0⟩) d1 (fun t =>
    t.memAt 640 == 0 && decide (coreBytes t 0 0 [drP 640 8] = [7, 0, 0, 0, 0, 0, 0, 0])) = true := by decide +kernel
theorem test_load_signed : gIs (.ld n .b true 9 (.reg 1) ⟨0, 0, 0⟩) (d1.poke [(spadBase, 0xFE)]) 9 (-2) = true := by decide +kernel

-- R193: AMO ADD returns the old value and leaves the sum
theorem test_amo_add : leaves (.amo n false .add .die 9 6 ⟨0, 0, 0⟩ 5) (pokeD [(640, 35)] d1) (fun t =>
    decide (rdG t 9 = 35) && decide (t.memBytes 640 8 = bytesOf 8 42)) = true := by decide +kernel

-- R77, "Worked values under RNE"
theorem test_convert_1 : convert .rne .f32 .f8 0x437A0000 = (0x7F, fSAT ||| fNX) := by decide +kernel
theorem test_convert_2 : convert .rne .f32 .f8 0x3E99999A = (0x32, fNX) := by decide +kernel
theorem test_convert_3 : convert .rne .f32 .f8 0xB727C5AC = (0x00, fUF ||| fNX) := by decide +kernel
theorem test_convert_4 : convert .rne .f32 .fp16 0x7F800000 = (0x7C00, 0) := by decide +kernel
theorem test_convert_5 : convert .rne .f32 .i8 0xC06CCCCD = (0xFC, fNX) := by decide +kernel
theorem test_convert_6 : convert .rne .f32 .i8 0x43960000 = (127, fNV ||| fSAT) := by decide +kernel
theorem test_convert_7 : convert .rne .i32 .f32 16777217 = (0x4B800000, fNX) := by decide +kernel
theorem test_sp2 : sp2Fold 0x92 1 = (0x807F, false, false) ∧ convert .rne .sp2 .bf16 0x92 = (0xBE80, 0) := by decide +kernel

-- R427: SYSC enters the handler with its immediate in TVAL and TRES at the next code address
theorem test_sysc : leaves (.sysc n 7) (withTrap hUser demo) (fun t =>
    decide (t.c.pc = 0x10040) && t.c.trap.mode && decide (t.c.trap.code = 0x14) && decide (t.c.trap.tval = 7) && decide (t.c.trap.tres = 1)) = true := by
  decide +kernel
-- R90, R147: a turn issues the instruction at the PC, and a scalar core executes ADDI x1, x0, 5
theorem test_turn : (match step dTurn with | .next t => (t.ctx 0 0).map (·.pc) == some 1 | _ => false) = true := by decide +kernel
theorem test_scalar : (match step { (scal .loader {} []).modScalar 0 .loader (fun y => { y with imem := [(0, 0x93), (2, 0x50)] }) with
      pending := [.scalar 0 .loader] } with
    | .next t => (t.scalar 0 .loader).rx 1 == 5 && (t.scalar 0 .loader).pc == 4
    | _ => false) = true := by decide +kernel

end Sys2Proof.Slice0
end

section
/-! What decides which thread runs and what the thread holds of its own; the operations of the memory system, of the caches and of
the counters that leave it as it is. -/

namespace Sys2Proof.Machine
open Sys2Proof.Claim

/-- The part, the running agent, the contexts and the bindings. -/
def State.threads (s : State) : Part × Agent × Table (Option Ctx) × Table (Option Bind) := (s.part, s.who, s.ctxs, s.binds)

variable (s : State)

/-! ### States with the same threads -/

section same
variable {s} {t : State}

theorem State.g_of_who (h : t.who = s.who) : t.g = s.g := by unfold State.g; rw [h]
theorem State.k_of_who (h : t.who = s.who) : t.k = s.k := by unfold State.k; rw [h]
/-- The context in the running thread's slot is the running one. -/
theorem State.c_of_who {c : Ctx} (h : t.who = s.who) (hc : t.ctx s.g s.k = some c) : t.c = c := by
  rw [State.c, State.g_of_who h, State.k_of_who h, hc]; rfl

variable (h : t.threads = s.threads)
include h

theorem State.part_of_threads : t.part = s.part := congrArg (·.1) h
theorem State.who_of_threads : t.who = s.who := congrArg (·.2.1) h
theorem State.ctxs_of_threads : t.ctxs = s.ctxs := congrArg (·.2.2.1) h
theorem State.binds_of_threads : t.binds = s.binds := congrArg (·.2.2.2) h
theorem State.g_of_threads : t.g = s.g := State.g_of_who (State.who_of_threads h)
theorem State.k_of_threads : t.k = s.k := State.k_of_who (State.who_of_threads h)
theorem State.c_of_threads : t.c = s.c := by
  simp only [State.c, State.ctx, State.ctxs_of_threads h, State.g_of_threads h, State.k_of_threads h]
theorem State.t_of_threads : t.t = s.t := by simp only [State.t, State.c_of_threads h]
theorem State.owner_of_threads : t.owner = s.owner := by simp only [State.owner, State.c_of_threads h]
theorem isPort_of_threads (r : GReg) : isPort t r = isPort s r := by
  simp only [isPort, qpOn, State.b, State.bind, State.binds_of_threads h, State.g_of_threads h, State.t_of_threads h]
theorem isRemote_of_threads (p : Piece) : isRemote t p = isRemote s p := by
  simp only [isRemote, State.part_of_threads h, State.g_of_threads h]
theorem noTraps_of_threads (hn : NoTraps s) : NoTraps t := by rwa [NoTraps, State.c_of_threads h]

end same

/-- Both branches of a choice leave the threads. -/
theorem ite_threads {c : Prop} [Decidable c] {a b u : State} (ha : a.threads = u.threads) (hb : b.threads = u.threads) :
    (if c then a else b).threads = u.threads := by split <;> assumption

/-! ### The updates of the state -/

@[simp] theorem State.modCore_threads (g : Nat) (f : Core → Core) : (s.modCore g f).threads = s.threads := rfl
@[simp] theorem State.modCluster_threads (c : Nat) (f : Cluster → Cluster) : (s.modCluster c f).threads = s.threads := rfl
@[simp] theorem State.modDie_threads (d : Nat) (f : Die → Die) : (s.modDie d f).threads = s.threads := rfl
@[simp] theorem State.setCfg_threads (a : Nat) (v : Word) : (s.setCfg a v).threads = s.threads := rfl
@[simp] theorem State.poke_threads (ws : List (Nat × Byte)) : (s.poke ws).threads = s.threads := rfl
@[simp] theorem State.setTl_threads (g t : Nat) (x : Timeline) : (s.setTl g t x).threads = s.threads := rfl
@[simp] theorem State.bumpBy_threads (g ev n : Nat) : (s.bumpBy g ev n).threads = s.threads := by simp [State.threads]
@[simp] theorem State.bump_threads (g ev : Nat) : (s.bump g ev).threads = s.threads := by simp [State.threads]
@[simp] theorem State.bumpAll_threads (p : Nat → Bool) (ev n : Nat) : (s.bumpAll p ev n).threads = s.threads :=
  foldl_proj State.threads _ _ _ fun y g => by split <;> simp
@[simp] theorem State.bumpDie_threads (d ev n : Nat) : (s.bumpDie d ev n).threads = s.threads := s.bumpAll_threads _ ev n

/-! ### Caches, TLBs and the directory -/

@[simp] theorem unmirror_threads (line : Nat) : (unmirror s line).threads = s.threads := by simp only [unmirror]; split <;> rfl
@[simp] theorem l2Drop_threads (line d : Nat) : (l2Drop s line d).threads = s.threads := rfl
@[simp] theorem l2Evict_threads (d line : Nat) : (l2Evict s d line).threads = s.threads := by simp only [l2Evict]; split <;> simp
@[simp] theorem l2Room_threads (d line : Nat) : (l2Room s d line).threads = s.threads := by
  simp only [l2Room]; (repeat' split) <;> simp
@[simp] theorem l2Put_threads (d line : Nat) (x : L2Line) : (l2Put s d line x).threads = s.threads := by
  simp only [l2Put]; split <;> simp
@[simp] theorem l2Use_threads (d : Nat) (t : TenantNo) (line : Nat) (pri : BitVec 2) (alloc : Bool) :
    (l2Use s d t line pri alloc).threads = s.threads := by
  simp only [l2Use]; (repeat' split) <;> simp
@[simp] theorem noteAccess_threads (d line : Nat) (w : Bool) : (noteAccess s d line w).threads = s.threads := by
  unfold noteAccess
  exact ite_threads rfl (by simp)
@[simp] theorem noteDecode_threads (line : Nat) : (noteDecode s line).threads = s.threads := by
  simp only [noteDecode]; (repeat' split) <;> simp
@[simp] theorem noteRead_threads (g : Nat) (t : TenantNo) (hint : BitVec 3) (p : Piece) :
    (noteRead s g t hint p).threads = s.threads := by
  unfold noteRead
  dsimp only
  (repeat' split) <;> simp
@[simp] theorem l1Evict_threads (h line : Nat) : (l1Evict s h line).threads = s.threads :=
  foldl_proj State.threads _ _ _ fun y g => by dsimp only; split <;> simp
@[simp] theorem l1Put_threads (h line : Nat) (x : L1Line) : (l1Put s h line x).threads = s.threads := by
  simp only [l1Put]; (repeat' split) <;> simp
@[simp] theorem l1Touch_threads (g : Nat) (t : TenantNo) (f : Bool) (hint : BitVec 3) (p : Piece) (line : Nat) :
    (l1Touch s g t f hint p line).threads = s.threads := by
  unfold l1Touch
  dsimp only
  (repeat' split) <;> simp
@[simp] theorem noteAts_threads (p : Piece) : (noteAts s p).threads = s.threads := by
  simp only [noteAts]; (repeat' split) <;> rfl
@[simp] theorem tlbFill_threads (g : Nat) (t : TenantNo) (p : Piece) : (tlbFill s g t p).threads = s.threads := by
  simp only [tlbFill]; (repeat' split) <;> simp

/-- What a read leaves in caches, TLBs, counters and the directory changes no thread. -/
@[simp] theorem touchRead_threads (g : Nat) (t : TenantNo) (hint : BitVec 3) (ps : List Piece) :
    (touchRead s g t hint ps).threads = s.threads := by
  refine foldl_proj State.threads _ _ _ fun y p => ?_
  refine (foldl_proj State.threads _ _ _ fun z l => ?_).trans (tlbFill_threads y g t p)
  dsimp only
  (repeat' split) <;> simp

/-! ### Publications and accumulator lines -/

@[simp] theorem widen_threads (g : GCore) (sc : Scope) : (widen s g sc).threads = s.threads := rfl
@[simp] theorem quench_threads (ws : List (Nat × Byte)) : (quench s ws).threads = s.threads := by
  simp only [quench]; (repeat' split) <;> simp [State.threads]
@[simp] theorem dropViews_threads (line : Nat) : (dropViews s line).threads = s.threads := by
  simp only [dropViews]; split <;> rfl
@[simp] theorem pubLog_threads (src : PubSrc) (sc : Scope) (ws : List (Nat × Byte)) :
    (pubLog s src sc ws).threads = s.threads := by
  unfold pubLog
  split
  · rfl
  · refine (foldl_proj State.threads _ _ _ dropViews_threads).trans ?_
    rw [quench_threads]; split <;> rfl
@[simp] theorem unpart_threads (line : Nat) : (unpart s line).threads = s.threads := by simp only [unpart]; split <;> rfl
@[simp] theorem combine_threads (line : Nat) : (combine s line).threads = s.threads := by
  simp only [combine]
  (repeat' split)
  · simp
  · simp
  · refine (foldl_proj State.threads _ _ _ fun y c => ?_).trans (unpart_threads s line)
    exact pubLog_threads ..
/-- Combining lines changes no thread. -/
@[simp] theorem combineAll_threads (lines : List Nat) : (combineAll s lines).threads = s.threads :=
  foldl_proj State.threads _ _ _ combine_threads

end Sys2Proof.Machine
end

section
/-! Instructions that end with no trap outstanding, and the issue of a long-latency instruction: its trap, its performance in the
issue turn, its start as an outstanding instruction. -/

namespace Sys2Proof.Machine
open Sys2Proof.Claim

variable {s : State}

/-! ### No outstanding instruction has met a trap -/

/-- With nothing trapped, there is nothing to deliver after the issue (R94). -/
theorem settled_of_noTraps (h : NoTraps s) : settled (.next s) = .next s := by
  have : s.c.iss.outs.any (fun o => o.trap.isSome) = false := by
    simp only [List.any_eq_false]
    intro o ho; simp [h o ho]
  simp [settled, this]

theorem noTraps_of_outs {t : State} (ho : t.c.iss.outs.map (fun o => { o with shadow := [] }) =
    s.c.iss.outs.map fun o => { o with shadow := [] }) (h : NoTraps s) : NoTraps t := by
  intro o hm
  have hm' : ({ o with shadow := [] } : Out) ∈ s.c.iss.outs.map fun o => { o with shadow := [] } :=
    ho ▸ List.mem_map_of_mem hm
  obtain ⟨p, hp, he⟩ := List.mem_map.1 hm'
  exact (congrArg Out.trap he).symm.trans (h p hp)

theorem RegOnly.noTraps {t : State} (h : RegOnly s t) (hn : NoTraps s) : NoTraps t := noTraps_of_outs h.outs hn

theorem noTraps_retire (ct : Ctl) (p : Option CodeAddr) (h : NoTraps s) : NoTraps (retire ct p s) := by
  intro o ho
  rw [retire_c] at ho
  obtain ⟨q, hq, rfl⟩ := List.mem_map.1 ho
  exact h q hq

theorem noTraps_addOut (i : Instr) (src : Src) (la : Nat) (h : NoTraps s) : NoTraps (addOut i src la none s) := by
  intro o ho
  rw [addOut_outs] at ho
  rcases List.mem_append.1 ho with ho | ho
  · exact h o ho
  · rw [List.mem_singleton.1 ho]

/-! ### A trap at issue -/

theorem unpop_threads (q : Nat) (v : Word) : (unpop s q v).threads = s.threads := by
  unfold unpop
  split <;> rfl

theorem unpopAll_threads : (unpopAll s).threads = s.threads := by
  unfold unpopAll
  generalize s.c.iss.port.popped = l
  induction l with
  | nil => rfl
  | cons e l ih =>
    rw [List.foldr_cons]
    split
    · exact (unpop_threads ..).trans ih
    · exact ih

theorem cancelSfu_who (g : GCore) (k : Slot) : (cancelSfu s g k).who = s.who := by
  unfold cancelSfu
  dsimp only
  split <;> simp

/-- A change of the running context that only takes outstanding instructions away. -/
theorem State.modCtx_outs_subset (s : State) (f : Ctx → Ctx) (hf : ∀ c, (f c).iss.outs ⊆ c.iss.outs) :
    (s.modCtx s.g s.k f).c.iss.outs ⊆ s.c.iss.outs := by
  unfold State.modCtx
  split
  · next c hc =>
    have hm : (s.setCtx s.g s.k (some (f c))).c = f c := State.c_of_who (s := s) rfl (State.ctx_setCtx_same ..)
    rw [hm, State.c_of_who rfl hc]
    exact hf c
  · exact fun _ h => h

/-- A thread's requests that are taken back take their instructions from the outstanding ones. -/
theorem cancelSfu_outs_subset : (cancelSfu s s.g s.k).c.iss.outs ⊆ s.c.iss.outs := by
  unfold cancelSfu
  dsimp only
  split
  · exact fun _ h => h
  · exact State.modCtx_outs_subset (s.modCore s.g.toNat _) _ fun _ _ h => (List.mem_filter.1 h).1

theorem haltCtx_who (g : GCore) (k : Slot) (code : BitVec 8) : (haltCtx s g k code).who = s.who := by
  unfold haltCtx
  split
  · rfl
  · simp [logHalt]

theorem enterTrap_who (g : GCore) (k : Slot) (e : Entry) : (enterTrap s g k e).who = s.who := by
  have hd : (dropThirst s g k).who = s.who := by simp only [dropThirst]; split <;> rfl
  unfold enterTrap
  split
  · rfl
  · dsimp only
    split
    · rw [haltCtx_who]; exact hd
    · rw [State.bump_who]; exact hd

/-- A trap's entry leaves what is outstanding. -/
theorem enterTrap_outs {g : GCore} {k : Slot} {c : Ctx} (e : Entry) (hc : s.ctx g k = some c) :
    ∃ d, (enterTrap s g k e).ctx g k = some d ∧ d.iss.outs = c.iss.outs := by
  simp only [enterTrap, hc]
  split
  · exact ⟨_, (haltCtx_spec _ _ (State.ctx_setCtx_same ..)).1, rfl⟩
  · exact ⟨_, (State.bump_ctx ..).trans (State.ctx_setCtx_same ..), rfl⟩

/-- With nothing trapped among what is outstanding, delivery withdraws nothing. -/
theorem noTraps_settle {c : Ctx} (hc : s.ctx s.g s.k = some c) (h : NoTraps s) : NoTraps (settle s s.g s.k) := by
  have hsc : s.c = c := State.c_of_who rfl hc
  unfold settle
  simp only [hc]
  split
  · exact h
  · next hn =>
    split
    · next ho =>
      split
      · next e _ =>
        obtain ⟨d, hd, hdo⟩ := enterTrap_outs e hc
        intro o hm
        rw [State.c_of_who (enterTrap_who s.g s.k e) hd, hdo, ho] at hm
        exact absurd hm List.not_mem_nil
      · exact h
    · next o os ho =>
      have : o.trap = none := h o (by rw [hsc, ho]; exact List.mem_cons_self)
      simp [ho, this] at hn

/-- A trap at issue leaves no outstanding instruction with a trap. -/
theorem noTraps_trapAt (t : Trap) (h : NoTraps s) : NoTraps (trapAt s t) := by
  have hu := unpopAll_threads (s := s)
  have hw : (cancelSfu (unpopAll s) s.g s.k).who = s.who :=
    (cancelSfu_who ..).trans (State.who_of_threads hu)
  have ho : (cancelSfu (unpopAll s) s.g s.k).c.iss.outs ⊆ s.c.iss.outs := by
    have := cancelSfu_outs_subset (s := unpopAll s)
    rwa [State.g_of_threads hu, State.k_of_threads hu, State.c_of_threads hu] at this
  unfold trapAt trapTo
  dsimp only
  generalize cancelSfu (unpopAll s) s.g s.k = u at hw ho
  refine noTraps_settle (State.ctx_setCtx_same ..) fun o hm => ?_
  rw [State.modC_c] at hm
  exact h o (ho hm)

/-- A trap at issue stands (R54, R94). -/
theorem settled_trapAt (t : Trap) (h : NoTraps s) : settled (.next (trapAt s t)) = .next (trapAt s t) :=
  settled_of_noTraps (noTraps_trapAt t h)

/-! ### Long-latency instructions -/

/-- An instruction without pieces is in order after whatever is outstanding. -/
theorem inOrder_of_no_pieces (i : Instr) {src : Src} (hp : src.ps = []) (hq : src.qs = []) : inOrder s i src = true := by
  simp [inOrder, goesFirst, piecesMeet, hp, hq]

/-- An instruction without pieces is performed in its issue turn exactly with LA = 0. -/
theorem inTurn_iff_of_no_pieces {ct : Ctl} {i : Instr} {src : Src} (hp : src.ps = []) (hq : src.qs = []) :
    InTurn i ct s src ↔ ct.la = 0 := by
  simp [InTurn, inOrder_of_no_pieces i hp hq, ownSpad, hp, hq]

theorem startLong_inTurn {ct : Ctl} {i : Instr} {src : Src} {perf : Src → State → Perf} {t : State} (h : InTurn i ct s src) :
    (perf src s = .done t → startLong ct i perf src s = .ok t) ∧
    (perf src s = .wait t → startLong ct i perf src s = .ok (addOut i src ct.la.toNat none t)) := by
  obtain ⟨hl, ho⟩ := h
  have hc : ((ct.la = 0 || ownSpad s (src.ps ++ src.qs)) && inOrder s i src) = true := by simpa [ho] using hl
  exact ⟨fun hp => by rw [startLong, if_pos hc, hp], fun hp => by rw [startLong, if_pos hc, hp]⟩

theorem startLong_later {ct : Ctl} {i : Instr} {src : Src} (perf : Src → State → Perf) (h : ¬ InTurn i ct s src) :
    startLong ct i perf src s = .ok (addOut i src ct.la.toNat none s) := by
  rw [startLong, if_neg (by simpa [InTurn] using h)]

section issue
variable {ct : Ctl} {i : Instr} {rs : List GReg} {uses : List PortUse} {perf : Src → State → Perf}
  {prep : State → Except Trap (Src × State)} (hi : Issues s ct rs) (hu : ∀ u ∈ uses, u.reg ∈ rs) (hn : NoTraps s)
include hi hu

theorem issueLong_ok {src : Src} {v t : State} (hp : prep s = .ok (src, v)) (hs : startLong ct i perf src v = .ok t)
    (ht : NoTraps t) : issueLong ct i uses none perf prep s = .next (retire ct none t) := by
  rw [issueLong, issue_of_issues hi hu, longBody, hp]
  simp only [hs, finish]
  exact settled_of_noTraps (noTraps_retire ct none ht)

/-- In its turn, an instruction that is performed completes. -/
theorem issueLong_now {src : Src} {v t : State} (hp : prep s = .ok (src, v)) (ht : InTurn i ct v src)
    (hd : perf src v = .done t) (hnt : NoTraps t) : issueLong ct i uses none perf prep s = .next (retire ct none t) :=
  issueLong_ok hi hu hp ((startLong_inTurn ht).1 hd) hnt

/-- Out of its turn, an instruction becomes outstanding. -/
theorem issueLong_later {src : Src} {v : State} (hp : prep s = .ok (src, v)) (ht : ¬ InTurn i ct v src) (hnv : NoTraps v) :
    issueLong ct i uses none perf prep s = .next (retire ct none (addOut i src ct.la.toNat none v)) :=
  issueLong_ok hi hu hp (startLong_later _ ht) (noTraps_addOut _ _ _ hnv)

/-- In its turn, an instruction that has to wait becomes outstanding. -/
theorem issueLong_wait {src : Src} {v t : State} (hp : prep s = .ok (src, v)) (ht : InTurn i ct v src)
    (hd : perf src v = .wait t) (hnt : NoTraps t) :
    issueLong ct i uses none perf prep s = .next (retire ct none (addOut i src ct.la.toNat none t)) :=
  issueLong_ok hi hu hp ((startLong_inTurn ht).2 hd) (noTraps_addOut _ _ _ hnt)

include hn

/-- An instruction of an absent unit traps. -/
theorem issueLong_unit (t : Trap) : issueLong ct i uses (some t) perf prep s = .next (trapAt s t) := by
  obtain ⟨g, k, hw, hc⟩ := hi.thread
  rw [issueLong, issue_unit hw hc hi.guard fun u h => hi.ports _ (hu u h), settled_trapAt t hn]

/-- A check at issue that fails traps. -/
theorem issueLong_trap {t : Trap} (hp : prep s = .error t) : issueLong ct i uses none perf prep s = .next (trapAt s t) := by
  rw [issueLong, issue_of_issues hi hu, longBody, hp]
  exact settled_trapAt t hn

end issue

end Sys2Proof.Machine
end

section
/-! Commands that take a job number, and reads as ordinary loads make them. -/

namespace Sys2Proof.Machine
open Sys2Proof.Claim

variable {s : State}

/-! ### A register written after an operation that leaves the threads -/

/-- A write by an instruction that issues now leaves no trap outstanding, whatever the instruction has done outside its thread. -/
theorem noTraps_wrG {ct : Ctl} {rs : List GReg} {u : State} (hi : Issues s ct rs) (hn : NoTraps s) (hu : u.threads = s.threads)
    {a : GReg} (ha : a ∈ rs) (v : Word) : NoTraps (wrG u a v) :=
  (wrG_regOnly u a v ((isPort_of_threads hu a).trans (hi.ports a ha)) (State.c_of_threads hu ▸ hi.now)).1.noTraps
    (noTraps_of_threads hu hn)

/-! ### Pushed commands -/

/-- The own part of a command instruction is that of a long-latency instruction without pieces. -/
theorem settled_pushBody (ct : Ctl) (i : Instr) (uses : List PortUse) (unit : Option Trap) (tl : Nat) (a : GReg)
    (enter : Src → State → State) (prep : State → Except Trap (List Word)) (s : State) :
    ∃ p, settled (issue ct uses unit (pushBody ct i tl a enter prep) s) = issueLong ct i uses unit (perfPush tl a enter) p s ∧
      (∀ t, prep s = .error t → p s = .error t) ∧
      ∀ w, prep s = .ok w → p s = .ok ({ w := w, job := (s.tl s.g.toNat tl).issued + 1 },
        s.setTl s.g.toNat tl { s.tl s.g.toNat tl with issued := (s.tl s.g.toNat tl).issued + 1 }) :=
  ⟨_, rfl, fun t h => by simp only [h], fun w h => by simp only [h, takeJob]⟩

/-- What a command does as it meets its queue (R331, R389). -/
theorem perfPush_of_room {tl : Nat} {a : GReg} {enter : Src → State → State} {src : Src} (hk : src.k = 0) :
    (queueRoom s s.g.toNat tl = true ∧ pendingBelow s s.g.toNat tl src.job = false →
      perfPush tl a enter src s = .done (wrG (enter src s) a (BitVec.ofNat 64 src.job))) ∧
    (¬ (queueRoom s s.g.toNat tl = true ∧ pendingBelow s s.g.toNat tl src.job = false) →
      perfPush tl a enter src s = .wait s) := by
  refine ⟨fun h => ?_, fun h => ?_⟩
  · simp [perfPush, hk, h]
  · rw [perfPush, if_neg (by simp [hk]), if_neg (by simpa using h)]

section push
variable {ct : Ctl} {i : Instr} {rs : List GReg} {uses : List PortUse} {tl : Nat} {a : GReg} {enter : Src → State → State}
  {prep : State → Except Trap (List Word)} (hi : Issues s ct rs) (hu : ∀ u ∈ uses, u.reg ∈ rs) (hn : NoTraps s)
  (he : exec i s = settled (issue ct uses none (pushBody ct i tl a enter prep) s))
include hi hu hn he

/-- A command whose operands a check refuses traps. -/
theorem traps_of_push {t : Trap} (hp : prep s = .error t) : Traps i s t := by
  obtain ⟨p, hs, hpe, -⟩ := settled_pushBody ct i uses none tl a enter prep s
  rw [Traps, he, hs]
  exact issueLong_trap hi hu hn (hpe t hp)

/-- A command whose operands pass takes its job number and enters its queue, or becomes outstanding. -/
theorem pushes_of {w : List Word} (ha : a ∈ rs) (hp : prep s = .ok w) {put : Nat → State → State}
    (hput : ∀ n u, u.threads = s.threads → enter { w := w, job := n } u = put n u ∧ (put n u).threads = s.threads) :
    Pushes i ct s tl a w put := by
  obtain ⟨p, hs, -, hpo⟩ := settled_pushBody ct i uses none tl a enter prep s
  unfold Pushes
  intro n u ready
  have hps : p s = .ok ({ w := w, job := n }, u) := hpo w hp
  have hu' : u.threads = s.threads := State.setTl_threads ..
  have hin : InTurn i ct u { w := w, job := n } ↔ ct.la = 0 := inTurn_iff_of_no_pieces rfl rfl
  obtain ⟨hent, hpt⟩ := hput n u hu'
  rw [he, hs]
  refine ⟨fun hla hr => ?_, fun h => ?_⟩
  · rw [← hent]
    exact issueLong_now hi hu hps (hin.2 hla) ((perfPush_of_room rfl).1 hr) (noTraps_wrG hi hn (hent ▸ hpt) ha _)
  · by_cases hla : ct.la = 0
    · have hr : ¬ ready := h.resolve_left (not_not_intro hla)
      exact issueLong_wait hi hu hps (hin.2 hla) ((perfPush_of_room rfl).2 hr) (noTraps_of_threads hu' hn)
    · exact issueLong_later hi hu hps (fun hc => hla (hin.1 hc)) (noTraps_of_threads hu' hn)

end push

/-! ### Reads -/

theorem filter_remote_of_near {ps : List Piece} (h : ∀ p ∈ ps, isRemote s p = false) : ps.filter (isRemote s) = [] :=
  List.filter_eq_nil_iff.2 fun p hp => by simp [h p hp]

/-- Near pieces are read as the core reads them: no strong access is among them. -/
theorem loadBytes_of_near {n : Nat} {ps : List Piece} (h : ∀ p ∈ ps, isRemote s p = false) :
    loadBytes s n ps = pushedOver s (2 * s.fresh) ps (coreBytes s s.g.toNat s.t ps) := by
  have hps : (ps.flatMap fun p =>
      if isRemote s p then mixRead s n (cellsAt p.pa (coreBytes s s.g.toNat s.t [p])) else coreBytes s s.g.toNat s.t [p]) =
      coreBytes s s.g.toNat s.t ps := by
    rw [coreBytes, List.flatMap_def, List.flatMap_def]
    refine congrArg List.flatten (List.map_congr_left fun p hp => ?_)
    rw [h p hp, if_neg Bool.false_ne_true, coreBytes, List.flatMap_singleton]
  rw [loadBytes, hps]

theorem loadFresh_of_near {n : Nat} {ps : List Piece} (h : ∀ p ∈ ps, isRemote s p = false) :
    loadFresh s n ps = if pushedCells s = [] then s else { s with fresh := s.fresh + 1 } := by
  rw [loadFresh, filter_remote_of_near h]
  rfl

/-- A read that can be made now goes on, with the bytes of the pieces, in the state that the read leaves (R132, R174, R199). -/
theorem loadThen_of_canRead (rem : Bool) (hint : BitVec 3) (n : Nat) (k : State → List Byte → Perf) {src : Src}
    (hc : CanRead s src.ps) (hparts : src.parts = false) (hgot : src.got = []) (hbs : src.bs = boundBytes s src.ps) :
    loadThen rem hint n k src s =
      k (touchRead (readState s src.ps) s.g.toNat s.t hint src.ps) (readBytes s src.ps) := by
  have hsplit : (if src.bs.isSome then (src.ps, []) else splitNow n src) = (src.ps, []) := by
    split
    · rfl
    · simp [splitNow, hparts]
  have hfar := filter_remote_of_near hc.near
  have hmix : mixTrap s s.t n [] = none := by simp [mixTrap]
  unfold loadThen
  simp only [hsplit, hfar, hc.allowed, hc.found, hmix]
  by_cases hb : bindsAtIssue s src.ps = true
  · simp [hbs, boundBytes, hb, readState, readBytes]
  · have hu := combineAll_threads s (src.ps.flatMap pieceLines)
    have hnear : ∀ p ∈ src.ps, isRemote (combineAll s (src.ps.flatMap pieceLines)) p = false := fun p hp =>
      (isRemote_of_threads hu p).trans (hc.near p hp)
    have hg := State.g_of_threads hu
    have ht := State.t_of_threads hu
    simp [hbs, boundBytes, hb, readState, readBytes, hgot, loadBytes_of_near hnear, loadFresh_of_near hnear, markRemote, hg, ht]

/-- What a read leaves changes no thread. -/
theorem readState_threads (s : State) (ps : List Piece) : (readState s ps).threads = s.threads := by
  have hu := combineAll_threads s (ps.flatMap pieceLines)
  unfold readState
  split
  · rfl
  · dsimp only
    split
    · exact hu
    · exact hu

end Sys2Proof.Machine
end

section
/-! The commands of the press (R5, R408–R414). -/

namespace Sys2Proof.Machine
open Sys2Proof.Claim

variable {s : State}

/-! ### The meanings -/

theorem exec_smpl (ct : Ctl) (a b : GReg) (s : State) : exec (.smpl ct a b) s = execSmpl ct a b s := rfl
theorem exec_smplv (ct : Ctl) (a b : GReg) (s : State) : exec (.smplv ct a b) s = execSmplv ct a b s := rfl
theorem exec_smcommit (ct : Ctl) (a b c : GReg) (s : State) : exec (.smcommit ct a b c) s = execSmcommit ct a b c s := rfl
theorem exec_smcancel (ct : Ctl) (a b : GReg) (s : State) : exec (.smcancel ct a b) s = execSmcancel ct a b s := rfl
theorem exec_treedef (ct : Ctl) (b : GReg) (id : BitVec 5) (s : State) : exec (.treedef ct b id) s = execTreedef ct b id s := rfl
theorem exec_engq (ct : Ctl) (e : EngSel) (a : GReg) (s : State) : exec (.engq ct e a) s = execEngq ct e a s := rfl

theorem needPress_of_press (h : s.part.press = true) (m : BitVec 8) : needPress s m = none := by simp [needPress, h]
theorem needPress_of_no_press (h : s.part.press = false) (m : BitVec 8) : needPress s m = some ⟨0x0F, 0, m.setWidth 64⟩ := by
  simp [needPress, h]

/-! ### A part without a press -/

/-- Every instruction of the press raises UNIMPL on a part without one (R5). -/
theorem press_unimpl {ct : Ctl} {a b c : GReg} (hi : Issues s ct [a, b, c]) (hn : NoTraps s) (hp : s.part.press = false) :
    ∀ i m, (i, m) ∈ ([(.smpl ct a b, 0xE2), (.smplv ct a b, 0xE3), (.smcommit ct a b c, 0xE4), (.smcancel ct a b, 0xE5),
      (.treedef ct b 0, 0xE6), (.engq ct .press a, 0xE7)] : List (Instr × Word)) → Traps i s ⟨0x0F, 0, m⟩ := by
  have unit {i : Instr} {uses : List PortUse} {perf : Src → State → Perf}
      {prep : State → Except Trap (Src × State)} (m : BitVec 8)
      (hu : ∀ u ∈ uses, u.reg ∈ [a, b, c]) (he : exec i s = issueLong ct i uses (needPress s m) perf prep s) :
      Traps i s ⟨0x0F, 0, m.setWidth 64⟩ := by
    rw [Traps, he, needPress_of_no_press hp]
    exact issueLong_unit hi hu hn _
  intro i m hm
  simp only [List.mem_cons, Prod.mk.injEq, List.not_mem_nil, or_false] at hm
  obtain ⟨rfl, rfl⟩ | ⟨rfl, rfl⟩ | ⟨rfl, rfl⟩ | ⟨rfl, rfl⟩ | ⟨rfl, rfl⟩ | ⟨rfl, rfl⟩ := hm
  · exact unit 0xE2 (by simp [PortUse.reg]) rfl
  · exact unit 0xE3 (by simp [PortUse.reg]) rfl
  · exact unit 0xE4 (by simp [PortUse.reg]) rfl
  · exact unit 0xE5 (by simp [PortUse.reg]) rfl
  · exact unit 0xE6 (by simp [PortUse.reg]) rfl
  · exact unit 0xE7 (by simp [PortUse.reg]) rfl

/-! ### Requests -/

/-- A command enters the press of its core's die. -/
theorem enterPr_eq {u : State} (hu : u.threads = s.threads) (f : Src → PrCmd) (src : Src) :
    enterPr f src u = u.modDie (s.g.toNat / 512) fun k => { k with
      press := k.press ++ [{ g := s.g, job := src.job, tenant := s.t, own := ⟨s.c.tid, s.c.task.lid⟩, cmd := f src }] } := by
  rw [enterPr, prEnter, State.g_of_threads hu, State.t_of_threads hu, State.owner_of_threads hu]
  rfl

section request
variable {ct : Ctl} {a b c : GReg} (hi : Issues s ct [a, b, c]) (hn : NoTraps s) (hp : s.part.press = true)
include hi hn hp

/-- A command of the press whose operands pass its checks. -/
theorem pushes_press {i : Instr} {uses : List PortUse} {m : BitVec 8} {f : Src → PrCmd} {prep : State → Except Trap (List Word)}
    {w : List Word} {cmd : PrCmd} (hu : ∀ u ∈ uses, u.reg ∈ [a, b, c])
    (he : exec i s = settled (issue ct uses (needPress s m) (pushBody ct i 3 a (enterPr f) prep) s)) (hw : prep s = .ok w)
    (hf : ∀ n, f { w := w, job := n } = cmd) :
    Pushes i ct s 3 a w fun n u => u.modDie (s.g.toNat / 512) fun k => { k with
      press := k.press ++ [{ g := s.g, job := n, tenant := s.t, own := ⟨s.c.tid, s.c.task.lid⟩, cmd := cmd }] } := by
  rw [needPress_of_press hp] at he
  refine pushes_of hi hu hn he (by simp) hw fun n u hth => ⟨?_, hth⟩
  rw [enterPr_eq hth, hf]

/-- A request block that is not aligned. -/
theorem traps_press {i : Instr} {uses : List PortUse} {m : BitVec 8} {f : Src → PrCmd} {k : Nat}
    (hu : ∀ u ∈ uses, u.reg ∈ [a, b, c])
    (he : exec i s = settled (issue ct uses (needPress s m) (pushBody ct i 3 a (enterPr f) (reqAddr k b)) s))
    (hx : (rdG s b).toNat % k ≠ 0) : Traps i s (alignTrap false (rdG s b).toNat) := by
  rw [needPress_of_press hp] at he
  exact traps_of_push hi hu hn he (if_pos hx)

end request

theorem reqAddr_of_aligned {k : Nat} {b : GReg} (hx : (rdG s b).toNat % k = 0) : reqAddr k b s = .ok [rdG s b] :=
  if_neg (not_not_intro hx)

/-! ### TREEDEF -/

/-- A descriptor that is accepted defines the tenant's template, read as a load reads it (R409). -/
theorem perfTreedef_of_tree {ps : List Piece} {l : List Byte} (id : BitVec 5) (hc : CanRead s ps)
    (hl : treeOf (readBytes s ps) = some l) :
    perfTreedef false id { ps := ps, bs := boundBytes s ps } s =
      let u := touchRead (readState s ps) s.g.toNat s.t 0 ps
      .done { u with trees := tset none u.trees (s.t.toNat * 32 + id.toNat) (some l) } := by
  have ht : (touchRead (readState s ps) s.g.toNat s.t 0 ps).t = s.t :=
    State.t_of_threads ((touchRead_threads ..).trans (readState_threads ..))
  rw [perfTreedef, loadThen_of_canRead _ _ _ _ hc rfl rfl rfl]
  simp only [hl, ht]

section treedef
variable {ct : Ctl} {a b c : GReg} (hi : Issues s ct [a, b, c]) (hn : NoTraps s) (hp : s.part.press = true)
include hi hn hp

/-- TREEDEF with an aligned and readable descriptor: performed in its issue turn, or outstanding with its bound bytes (R409). -/
theorem treedef_press (id : BitVec 5) {ps : List Piece} (hx : (rdG s b).toNat % 8 = 0)
    (hk : check s s.g.toNat s.t .rd ((rdG s b).toNat % 2 ^ 56) 72 = .ok ps) :
    let src : Src := { ps := ps, bs := boundBytes s ps }
    let u := touchRead (readState s ps) s.g.toNat s.t 0 ps
    (∀ l, treeOf (readBytes s ps) = some l → CanRead s ps → InTurn (.treedef ct b id) ct s src → exec (.treedef ct b id) s =
      .next (retire ct none { u with trees := tset none u.trees (s.t.toNat * 32 + id.toNat) (some l) })) ∧
    (¬ InTurn (.treedef ct b id) ct s src → exec (.treedef ct b id) s =
      .next (retire ct none (addOut (.treedef ct b id) src ct.la.toNat none s))) := by
  intro src u
  have hth : u.threads = s.threads := (touchRead_threads ..).trans (readState_threads ..)
  have hu : ∀ w ∈ [PortUse.src 1 b], w.reg ∈ [a, b, c] := by simp [PortUse.reg]
  rw [exec_treedef, execTreedef, needPress_of_press hp]
  refine ⟨fun l hl hc ht => ?_, fun ht => ?_⟩
  · refine issueLong_now (src := src) (v := s) hi hu ?_ ht (perfTreedef_of_tree id hc hl) (noTraps_of_threads (s := s) hth hn)
    simp only [hx, va56, hk]
    rfl
  · refine issueLong_later (src := src) (v := s) hi hu ?_ ht hn
    simp only [hx, va56, hk]
    rfl

end treedef

/-! ### SMCANCEL -/

/-- Counting an event changes nothing of a core but its counters. -/
theorem State.bumpAll_core_regs (s : State) (p : Nat → Bool) (ev n h : Nat) :
    ((s.bumpAll p ev n).core h).regs = { (s.core h).regs with pmc := ((s.bumpAll p ev n).core h).regs.pmc } := by
  refine foldl_keeps (fun y : State => (y.core h).regs = { (s.core h).regs with pmc := (y.core h).regs.pmc }) _ _ s rfl
    fun g _ y hy => ?_
  split
  · rw [State.bumpBy_core]
    dsimp only
    rw [hy]
  · exact hy

/-- A register written after an operation that leaves the thread, its core's registers but the counters, and the time. -/
theorem wroteG_after {u t : State} {a : GReg} {v : Word} (hth : u.threads = s.threads) (hy : u.cycle = s.cycle)
    (hr : ∀ h, (u.core h).regs = { (s.core h).regs with pmc := (u.core h).regs.pmc }) (h : WroteG u t a v) : WroteG s t a v := by
  have hg := State.g_of_threads hth
  have hreg : regG u a = regG s a := by
    simp only [regG, State.sreg, State.c_of_threads hth, hg]
    rw [hr]
  have hl : sharedLost u u.g.toNat u.k.toNat (a.toNat - 64) = sharedLost s s.g.toNat s.k.toNat (a.toNat - 64) := by
    rw [sharedLost, sharedLost, hr, hg, State.k_of_threads hth, hy]
  rwa [WroteG, hreg, hl] at h

/-- What a cancel of a tenant's sequence does (R413): of the die's press, it drops the sequence's verdicts and marks requests where
they stand in the queue; of the rest of the module, it counts the event. -/
theorem prCancel_spec (s : State) (d : Nat) (t : TenantNo) (seq : Word) :
    let mine (v : Verdict) : Bool := v.tenant == t && va56 v.seq == va56 seq
    ∃ f n, prCancel s d t seq = (if n = 0 then s.modDie d f else (s.modDie d f).bumpDie d 0x0075 n, n) ∧
      (∀ x : Die, (f x).verdicts = x.verdicts.filter (fun v => !mine v) ∧ (f x).press.length = x.press.length) ∧
      ((s.die d).press = [] → (s.die d).walk = none → n = ((s.die d).verdicts.filter mine).length) := by
  refine ⟨_, _, rfl, fun x => ⟨rfl, ?_⟩, fun hp hw => ?_⟩
  · exact List.length_map ..
  · simp [hp, hw]

/-- The cancel at the running thread's core: its thread and its core's registers but the counters are as before. -/
theorem prCancel_keeps (s : State) (d : Nat) (t : TenantNo) (seq : Word) : let u := (prCancel s d t seq).1
    u.threads = s.threads ∧ u.cycle = s.cycle ∧ ∀ h, (u.core h).regs = { (s.core h).regs with pmc := (u.core h).regs.pmc } := by
  obtain ⟨f, n, he, -, -⟩ := prCancel_spec s d t seq
  rw [he]
  dsimp only
  split
  · exact ⟨rfl, rfl, fun _ => rfl⟩
  · exact ⟨by simp, by simp, State.bumpAll_core_regs (s.modDie d f) _ _ _⟩

/-- A list splits into what a test takes and what it leaves. -/
theorem length_filter_add_not {α : Type} (p : α → Bool) (l : List α) :
    (l.filter p).length + (l.filter fun x => !p x).length = l.length := by
  induction l with
  | nil => rfl
  | cons x l ih =>
    cases hx : p x with
    | true =>
      simp only [List.filter_cons, hx, Bool.not_true, if_true, Bool.false_eq_true, if_false, List.length_cons]
      omega
    | false =>
      simp only [List.filter_cons, hx, Bool.not_false, if_true, Bool.false_eq_true, if_false, List.length_cons]
      omega

/-- The press after a cancel, and the count where no request was there to be cancelled (R413). -/
theorem prCancel_press (s : State) (d : Nat) (t : TenantNo) (seq : Word) : let e := (prCancel s d t seq).1.die d
    e.verdicts = (s.die d).verdicts.filter (fun v => !(v.tenant == t && va56 v.seq == va56 seq)) ∧
    e.press.length = (s.die d).press.length ∧
    ((s.die d).press = [] → (s.die d).walk = none → (prCancel s d t seq).2 = (s.die d).verdicts.length - e.verdicts.length) := by
  obtain ⟨f, n, he, hf, hn⟩ := prCancel_spec s d t seq
  have hd : (prCancel s d t seq).1.die d = f (s.die d) := by
    rw [he, ← State.die_modDie_same s d f]
    simp only [State.die]
    split <;> simp
  obtain ⟨hv, hl⟩ := hf (s.die d)
  rw [hd]
  refine ⟨hv, hl, fun hp hw => ?_⟩
  have hsum := length_filter_add_not (fun v : Verdict => v.tenant == t && va56 v.seq == va56 seq) (s.die d).verdicts
  have h2 : (prCancel s d t seq).2 = n := congrArg Prod.snd he
  rw [h2, hn hp hw, hv, ← hsum]
  exact (Nat.add_sub_cancel ..).symm

theorem State.die_retire (s : State) (ct : Ctl) (p : Option CodeAddr) (d : Nat) : (retire ct p s).die d = s.die d := by
  simp [State.die, retire]

theorem RegOnly.die {t : State} (h : RegOnly s t) (d : Nat) : t.die d = s.die d := by
  rw [State.die, h.module]
  rfl

section smcancel
variable {ct : Ctl} {a b c : GReg} (hi : Issues s ct [a, b, c]) (hn : NoTraps s) (hp : s.part.press = true)
include hi hn hp

/-- SMCANCEL with LA = 0 cancels in its issue turn and returns the count. -/
theorem smcancel_now (hla : ct.la = 0) :
    let x := rdG s b
    let d := s.g.toNat / 512
    ∃ t n, exec (.smcancel ct a b) s = .next t ∧ t.c.pc = nextPc s.c.pc ∧ WroteG s t a (BitVec.ofNat 64 n) ∧
      (t.die d).verdicts = (s.die d).verdicts.filter (fun v => !(v.tenant == s.t && va56 v.seq == va56 x)) ∧
      (t.die d).press.length = (s.die d).press.length ∧
      ((s.die d).press = [] → (s.die d).walk = none → n = (s.die d).verdicts.length - (t.die d).verdicts.length) := by
  intro x d
  obtain ⟨hth, hcy, hregs⟩ := prCancel_keeps s d s.t x
  obtain ⟨hv, hl, hc⟩ := prCancel_press s d s.t x
  generalize hpc : prCancel s d s.t x = r at hth hcy hregs hv hl hc
  obtain ⟨u, n⟩ := r
  obtain ⟨hro, -, hw⟩ := wrG_regOnly u a (BitVec.ofNat 64 n) ((isPort_of_threads hth a).trans (hi.ports a (by simp)))
    (State.c_of_threads hth ▸ hi.now)
  have hperf : perfSmcancel a { w := [x] } s = .done (wrG u a (BitVec.ofNat 64 n)) := by
    rw [perfSmcancel]
    exact congrArg (fun r : State × Nat => Perf.done (wrG r.1 a (BitVec.ofNat 64 r.2))) hpc
  have hdie : (retire ct none (wrG u a (BitVec.ofNat 64 n))).die d = u.die d :=
    (State.die_retire ..).trans (hro.die d)
  refine ⟨retire ct none (wrG u a (BitVec.ofNat 64 n)), n, ?_, ?_, wroteG_retire ct none _ _ (wroteG_after hth hcy hregs hw), ?_⟩
  · rw [exec_smcancel, execSmcancel, needPress_of_press hp]
    exact issueLong_now hi (by simp [PortUse.reg]) rfl ((inTurn_iff_of_no_pieces rfl rfl).2 hla) hperf
      (noTraps_wrG hi hn hth (by simp) _)
  · rw [retire_c, hro.context, State.c_of_threads hth]
    rfl
  · rw [hdie]
    exact ⟨hv, hl, hc⟩

/-- SMCANCEL with LA ≠ 0 becomes outstanding with the sequence's address. -/
theorem smcancel_later (hla : ct.la ≠ 0) : exec (.smcancel ct a b) s =
    .next (retire ct none (addOut (.smcancel ct a b) { w := [rdG s b] } ct.la.toNat none s)) := by
  rw [exec_smcancel, execSmcancel, needPress_of_press hp]
  exact issueLong_later hi (by simp [PortUse.reg]) rfl (fun h => hla ((inTurn_iff_of_no_pieces rfl rfl).1 h)) hn

end smcancel

/-! ### ENGQ -/

section engq
variable {ct : Ctl} {a b c : GReg} (hi : Issues s ct [a, b, c]) (hn : NoTraps s) {e : EngSel}
  (he : e ≠ .press ∨ s.part.press = true)
include he

/-- ENGQ of an engine that the part has. -/
theorem exec_engq_of_engine : exec (.engq ct e a) s =
    issueLong ct (.engq ct e a) [.dst 0 a] none (fun _ => perfEngq e a) (fun s => .ok ({}, s)) s := by
  rw [exec_engq, execEngq]
  split
  · next h => rw [needPress_of_press (he.resolve_left (not_not_intro h))]
  · rfl

include hi hn

/-- ENGQ with LA ≠ 0 becomes outstanding. -/
theorem engq_later (hla : ct.la ≠ 0) :
    exec (.engq ct e a) s = .next (retire ct none (addOut (.engq ct e a) {} ct.la.toNat none s)) := by
  rw [exec_engq_of_engine he]
  exact issueLong_later hi (by simp [PortUse.reg]) rfl (fun h => hla ((inTurn_iff_of_no_pieces rfl rfl).1 h)) hn

/-- ENGQ with LA = 0 writes the engine's state in its issue turn (R414). -/
theorem engq_now (hla : ct.la = 0) {v : Word} (hv : perfEngq e a s = .done (wrG s a v)) : Sets (.engq ct e a) s a v := by
  refine sets_of (ct := ct) (hi.ports a (by simp)) hi.now ?_
  rw [exec_engq_of_engine he]
  exact issueLong_now hi (by simp [PortUse.reg]) rfl ((inTurn_iff_of_no_pieces rfl rfl).2 hla) hv
    (noTraps_wrG hi hn rfl (by simp) v)

end engq

/-- Settles O28: each instruction by the lemma that says what its issue does. -/
theorem pressCommands : Obligations.PressCommands := by
  unfold Obligations.PressCommands
  intro ct a b c s hi hn x g die enter
  refine ⟨press_unimpl hi hn, fun hp => ?_, fun hla e he => engq_later hi hn he hla, ?_⟩
  · refine ⟨fun hx => ?_, fun hx => ?_, fun hx => ?_, fun hx => ?_, ?_, fun id ps hx hk => ?_, ?_, ?_⟩
    · exact pushes_press hi hn hp (by simp [PortUse.reg]) (exec_smpl ..) (reqAddr_of_aligned hx) fun _ => rfl
    · exact traps_press hi hn hp (by simp [PortUse.reg]) (exec_smpl ..) hx
    · exact pushes_press hi hn hp (by simp [PortUse.reg]) (exec_smplv ..) (reqAddr_of_aligned hx) fun _ => rfl
    · exact traps_press hi hn hp (by simp [PortUse.reg]) (exec_smplv ..) hx
    · exact pushes_press hi hn hp (by simp [PortUse.reg]) (exec_smcommit ..) rfl fun _ => rfl
    · exact treedef_press hi hn hp id hx hk
    · exact smcancel_now hi hn hp
    · exact smcancel_later hi hn hp
  · intro hla e f n q hm he
    simp only [List.mem_cons, Prod.mk.injEq, List.not_mem_nil, or_false] at hm
    obtain ⟨rfl, rfl, rfl, rfl⟩ | ⟨rfl, rfl, rfl, rfl⟩ | ⟨rfl, rfl, rfl, rfl⟩ := hm
    · exact engq_now hi hn he hla rfl
    · exact engq_now hi hn he hla rfl
    · exact engq_now hi hn he hla rfl

end Sys2Proof.Machine
end
